-- ==== Sys2Proof/Word.lean ====
section
/-! DEFINITION. The word types of the block: bytes, 24-bit, 32-bit and 64-bit registers. Rule R11 of spec/00_scope.md: every
value is an integer or a bit string. Registers that software reads or writes whole, or that a rule shifts, masks or adds
modulo a power of two, are bit vectors; counts, indexes and table entries are numbers with a stated range (log 16). -/

namespace Sys2Proof

/-- A byte of the source stream, of `LL8` or of `OUT` (R62, R64, R65). -/
abbrev Byte := BitVec 8

/-- A 32-bit register: the command port (R90), a CRC (R30, R31, R51). -/
abbrev Word := BitVec 32

/-- A 64-bit register: `RESULT` (R96), `BUF` (R25), `REPORTED` (R28). -/
abbrev DWord := BitVec 64

end Sys2Proof
end

