-- ==== Sys2Proof/Syntax.lean ====
section
/-! DEFINITION. The instructions of the block: one constructor for each row of spec/opcode_table.json. Rule R2 of
spec/00_scope.md: the instruction set is two things, the host commands and the compressed bit-stream. Beside `Instr` stand the
error names (R271) and the decode table of one Huffman group (R37, R38), which the decoder reads. -/

namespace Sys2Proof

/-- The error names of R271 (spec/60_exceptions.md). -/
inductive ErrKind where
  | unexpectedEndOfStream
  | badStreamHeader
  | badBlockHeader
  | tableMalformed
  | blockOverrun
  | streamCorrupted
  | crcMismatch
  | invalidArgument
deriving DecidableEq, Repr

/-- One row of spec/opcode_table.json each. The first eight are host commands: their operands are the port registers `ARG0`
and `ARG1` (R92), so they carry none. The others are tokens of the bit-stream with the fields the stream gives them. -/
inductive Instr where
  /-- INIT.CONTINUOUS, R232 and R233. -/
  | initContinuous
  /-- INIT.BYBLOCK, R232 and R234. -/
  | initByblock
  /-- READ_BYTE, R242. -/
  | readByte
  /-- READ_INTO, R243. -/
  | readInto
  /-- GET_REPORTED, R247. -/
  | getReported
  /-- ADJUST_REPORTED, R248. -/
  | adjustReported
  /-- CLOSE, R249. -/
  | close
  /-- A reserved command word `w`, R93 and R94. -/
  | reserved (w : Word)
  /-- The stream header `h`, then the digit byte `d`, R98. -/
  | streamHeader (d : Byte)
  /-- The block-start marker, R100. -/
  | blockMark
  /-- The end-of-stream marker and the combined CRC `c`, R100 and R237. -/
  | eosMark (c : Word)
  /-- `storedBlockCRC`, `randomized`, `origPtr`, R101. -/
  | blockHeader (c : Word) (r : Bool) (p : BitVec 24)
  /-- `inUse16` and one 16-bit word for each of its set bits, R102. -/
  | symbolMap (u : BitVec 16) (ws : List (BitVec 16))
  /-- `nGroups` and `nSelectors`, R103. -/
  | tableCounts (g : BitVec 3) (n : BitVec 15)
  /-- Selector MTF values 0 to 5, R104. -/
  | selectorMtf0
  | selectorMtf1
  | selectorMtf2
  | selectorMtf3
  | selectorMtf4
  | selectorMtf5
  /-- `nGroups` one-bits, R104 and R179. -/
  | selectorMtfBad
  /-- The initial 5-bit code length of a group, R105. -/
  | codeLenStart (l : BitVec 5)
  /-- `0`, `10` and `11` of the delta code, R105. -/
  | codeLenEnd
  | codeLenInc
  | codeLenDec
  /-- The two run digits, R106 and R108. -/
  | runA
  | runB
  /-- The symbol `m`, `2 <= m <= nInUse`, R106. -/
  | mtf (m : Nat)
  /-- The end-of-block symbol, R106. -/
  | eob
  /-- Four equal walk bytes `c` and the length byte `z`, R109. -/
  | rle1Unit (c z : Byte)
deriving DecidableEq, Repr

/-- The decode table of one group (R37, R38): `MIN_LEN`, `MAX_LEN`, `LIMIT`, `BASE`, `PERM`. `limit` and `base` hold the
meaningful entries only, those of the lengths `minLen .. maxLen`, the entry of `minLen` first; `perm` holds entries
`0 .. ALPHA_SIZE-1`. -/
structure HuffTable where
  minLen : Nat
  maxLen : Nat
  limit : List Int
  base : List Int
  perm : List Nat
deriving DecidableEq, Repr

/-- What the decoder expects next in the bit-stream (the grammar of R99 to R106). A symbol is read with the code lengths of
its group and the block's `nInUse`. -/
inductive Expect where
  | header
  | marker
  | blockHeader
  | symbolMap
  | tableCounts
  | selector (nGroups : Nat)
  | codeLenStart
  | codeLen
  | symbol (lens : List Nat) (nInUse : Nat)
  | rle1Unit
deriving DecidableEq, Repr

end Sys2Proof
end

