-- ==== Sys2Proof/WellFormed.lean ====
section
/-! DEFINITION. Which terms of `Instr` stand for an encoding: the checks the field widths alone do not make. An operand whose
value the spec calls malformed (a digit outside `1..9`, seven groups) is well formed: it has an encoding, and its meaning
raises the error R111 of spec/30_encoding.md names. After a malformed `nGroups` no `nSelectors` is read (R177, R178), so the
second operand is then 0 (log 19). -/

namespace Sys2Proof

/-- How many bits of a 16-bit field are set: the number of words that follow `inUse16` (R102). -/
def bitCount16 (u : BitVec 16) : Nat :=
  ((List.range 16).filter fun i => u.getLsbD i).length

/-- A command word that R95 does not list (R93). -/
def isReservedWord (w : Word) : Bool :=
  !(w = 0x01 || w = 0x11 || w = 0x02 || w = 0x03 || w = 0x04 || w = 0x05 || w = 0x06)

/-- Well-formedness of an instruction. -/
def Instr.wellFormed : Instr → Bool
  | .reserved w => isReservedWord w
  | .symbolMap u ws => ws.length = bitCount16 u
  | .mtf m => 2 ≤ m && m ≤ 256
  | .initContinuous | .initByblock | .readByte | .readInto | .getReported | .adjustReported | .close => true
  | .tableCounts g n => (2 ≤ g.toNat && g.toNat ≤ 6) || n = 0
  | .streamHeader _ | .blockMark | .eosMark _ | .blockHeader _ _ _ => true
  | .selectorMtf0 | .selectorMtf1 | .selectorMtf2 | .selectorMtf3 | .selectorMtf4 | .selectorMtf5 => true
  | .selectorMtfBad | .codeLenStart _ | .codeLenEnd | .codeLenInc | .codeLenDec => true
  | .runA | .runB | .eob | .rle1Unit _ _ => true

end Sys2Proof
end

