-- ==== Sys2Proof/Decode.lean ====
section
/-! DEFINITION. The decoder and the encoder. A host command is one 32-bit word (R90 to R95 of spec/30_encoding.md). A token of
the bit-stream is read by a `Parse`: a finite program of bit reads, each an `n`-bit field most significant bit first (R10,
R68), that ends in an instruction, in the error the spec names for what was read, or in nothing. `Parse` is run in two ways:
over a list of bits (`parseBits`, here) and over the machine's bit reader (Machine/Sequencer.lean), so the machine and the
decoder cannot differ. -/

namespace Sys2Proof

/-! ## Fields -/

/-- The `n` low bits of `v`, most significant first (R10). -/
def bitsMsb : Nat → Nat → List Bool
  | 0, _ => []
  | n + 1, v => v.testBit n :: bitsMsb n v

/-- The unsigned integer whose most significant bit is the first of the list (R10). -/
def natOfBits (bs : List Bool) : Nat :=
  bs.foldl (fun v b => 2 * v + b.toNat) 0

/-- The bits of source bytes in the order they are read (R68). -/
def bitsOfBytes (bytes : List Byte) : List Bool :=
  bytes.flatMap fun b => bitsMsb 8 b.toNat

/-- The numbers `i` of the set bits of a 16-bit field, in stream order: bit `i` is the `i`-th bit read, `u[15-i]` (R102). -/
def setBits16 (u : BitVec 16) : List Nat :=
  (List.range 16).filter fun i => u.getLsbD (15 - i)

/-! ## Host commands -/

/-- R93: the operation of a command word. Total: every word that R95 does not list is reserved. -/
def decodeCmd (w : Word) : Instr :=
  if w.extractLsb' 5 27 ≠ 0 then .reserved w
  else
    match (w.extractLsb' 0 4).toNat, w.getLsbD 4 with
    | 1, false => .initContinuous
    | 1, true => .initByblock
    | 2, false => .readByte
    | 3, false => .readInto
    | 4, false => .getReported
    | 5, false => .adjustReported
    | 6, false => .close
    | _, _ => .reserved w

/-- R95: the command word of a host command; nothing for a token of the bit-stream. -/
def encodeCmd : Instr → Option Word
  | .initContinuous => some 0x00000001
  | .initByblock => some 0x00000011
  | .readByte => some 0x00000002
  | .readInto => some 0x00000003
  | .getReported => some 0x00000004
  | .adjustReported => some 0x00000005
  | .close => some 0x00000006
  | .reserved w => some w
  | .streamHeader _ | .blockMark | .eosMark _ | .blockHeader _ _ _ | .symbolMap _ _ | .tableCounts _ _ => none
  | .selectorMtf0 | .selectorMtf1 | .selectorMtf2 | .selectorMtf3 | .selectorMtf4 | .selectorMtf5 => none
  | .selectorMtfBad | .codeLenStart _ | .codeLenEnd | .codeLenInc | .codeLenDec => none
  | .runA | .runB | .mtf _ | .eob | .rle1Unit _ _ => none

/-! ## Canonical Huffman tables (spec/41_huffman.md) -/

/-- The first codeword value of length `L` (R150): 0 at first, then the previous length's first value plus its count, shifted
left by one. Lengths below the least one have no symbols, so the recursion may start at length 0. -/
def firstCode (lens : List Nat) : Nat → Nat
  | 0 => 0
  | L + 1 => 2 * (firstCode lens L + lens.count L)

/-- R150: the length and the value of the codeword of symbol `s`. -/
def codeword (lens : List Nat) (s : Nat) : Option (Nat × Nat) :=
  match lens[s]? with
  | some L => some (L, firstCode lens L + (lens.take s).count L)
  | none => none

/-- The symbols of length `L` in ascending order (R152). -/
def symbolsOfLen (lens : List Nat) (L : Nat) : List Nat :=
  (List.range lens.length).filter fun s => lens[s]? = some L

/-- R153 and R154, for `n` lengths from `L` on: the entries of `LIMIT` and `BASE`, and whether no length is over-subscribed. The
loop stops at the first length that is. -/
def limitRows (lens : List Nat) : Nat → Nat → Nat → Nat → List (Int × Int) × Bool
  | 0, _, _, _ => ([], true)
  | n + 1, L, first, pidx =>
    let cnt := lens.count L
    if first + cnt > 2 ^ L then ([], false)
    else
      let rest := limitRows lens n (L + 1) (2 * (first + cnt)) (pidx + cnt)
      (((first : Int) + cnt - 1, (first : Int) - pidx) :: rest.1, rest.2)

/-- R151: the least and the greatest code length. -/
def minLenOf (lens : List Nat) : Nat := lens.foldl min (lens.headD 0)

@[inherit_doc minLenOf]
def maxLenOf (lens : List Nat) : Nat := lens.foldl max 0

/-- R151 to R154: the table of one group's code lengths, and false if the lengths are over-subscribed (the table then holds what
was built before the check failed). -/
def buildTable (lens : List Nat) : HuffTable × Bool :=
  let lo := minLenOf lens
  let hi := maxLenOf lens
  let rows := limitRows lens (hi + 1 - lo) lo 0 0
  ({ minLen := lo, maxLen := hi, limit := rows.1.map Prod.fst, base := rows.1.map Prod.snd,
     perm := (List.range (hi + 1 - lo)).flatMap fun j => symbolsOfLen lens (lo + j) }, rows.2)

/-! ## Parsing -/

/-- A block register that a rule writes as soon as its field is read, before the token's last bit (R171, R172, R174, R177):
R275 keeps it if a later field of the token raises an error (log 24). -/
inductive EarlyWrite where
  | storedBlockCrc (c : Word)
  | randomized (r : Bool)
  | nGroups (g : Nat)
  | inUse (l : List Bool)
deriving DecidableEq, Repr

/-- A program of bit reads. -/
inductive Parse where
  /-- The token is complete. -/
  | done (i : Instr)
  /-- The error `e` with detail `d` (R272): what was read begins no token. -/
  | reject (e : ErrKind) (d : Nat)
  /-- No token: an entry of a decode table that nothing wrote is read, or the bytes are no RLE1 unit. -/
  | nothing
  /-- Reads an `n`-bit field (R131); `EOF` in it raises `e` with detail `d`. -/
  | read (n : Nat) (e : ErrKind) (d : Nat) (k : Nat → Parse)
  /-- Writes a field that has just been read. -/
  | write (w : EarlyWrite) (k : Parse)

/-- A read whose `EOF` is UnexpectedEndOfStream(0) (R130). -/
def Parse.field (n : Nat) (k : Nat → Parse) : Parse := .read n .unexpectedEndOfStream 0 k

/-- `m` bytes, read as `m` `readUByte()`, assembled big-endian onto `v` (R134, R236). -/
def Parse.bytes : Nat → Nat → (Nat → Parse) → Parse
  | 0, v, k => k v
  | m + 1, v, k => .field 8 fun b => Parse.bytes m (v * 256 + b) k

/-- R233: `h`, then the digit. The digit is judged by the meaning of STREAM_HEADER. -/
def parseHeader : Parse :=
  .read 8 .badStreamHeader 1 fun h =>
    if h ≠ 0x68 then .reject .badStreamHeader 1
    else .read 8 .badStreamHeader 2 fun d => .done (.streamHeader (BitVec.ofNat 8 d))

/-- R236, R237: six bytes; the end-of-stream marker is followed by four more. -/
def parseMarker : Parse :=
  .bytes 6 0 fun m =>
    if m = Config.eosMark then .bytes 4 0 fun c => .done (.eosMark (BitVec.ofNat 32 c))
    else if m = Config.blockMark then .done .blockMark
    else .reject .badBlockHeader 0

/-- R171 to R173. -/
def parseBlockHeader : Parse :=
  .bytes 4 0 fun c => .write (.storedBlockCrc (BitVec.ofNat 32 c)) <|
    .field 1 fun r => .write (.randomized (r = 1)) <|
      .field 24 fun p => .done (.blockHeader (BitVec.ofNat 32 c) (r = 1) (BitVec.ofNat 24 p))

/-- R174: `IN_USE` after the word `w` of group `i` has been read. -/
def markInUse (inUse : List Bool) (i : Nat) (w : BitVec 16) : List Bool :=
  (List.range 16).foldl (fun l j => if w.getLsbD (15 - j) then l.set (16 * i + j) true else l) inUse

/-- The words of a symbol map, for the groups still to come. -/
def parseMapWords (u : BitVec 16) : List Nat → List (BitVec 16) → List Bool → Parse
  | [], ws, _ => .done (.symbolMap u ws.reverse)
  | i :: is, ws, inUse =>
    .field 16 fun v =>
      let w := BitVec.ofNat 16 v
      let inUse' := markInUse inUse i w
      .write (.inUse inUse') (parseMapWords u is (w :: ws) inUse')

/-- R174: `IN_USE` is cleared, then `inUse16` and its words are read. -/
def parseSymbolMap : Parse :=
  let clear := List.replicate 256 false
  .write (.inUse clear) <|
    .field 16 fun v =>
      let u := BitVec.ofNat 16 v
      parseMapWords u (setBits16 u) [] clear

/-- R177: the legal values of `nGroups`. -/
def legalGroups (g : Nat) : Bool := 2 ≤ g && g ≤ 6

/-- R177, R178: `nSelectors` is not read when `nGroups` is malformed; the token is then cut short and its second operand is 0
(log 19). Its meaning raises the error. -/
def parseTableCounts : Parse :=
  .field 3 fun g => .write (.nGroups g) <|
    if legalGroups g then .field 15 fun n => .done (.tableCounts (BitVec.ofNat 3 g) (BitVec.ofNat 15 n))
    else .done (.tableCounts (BitVec.ofNat 3 g) 0)

/-- The row of a selector MTF value (R104). -/
def selectorInstr : Nat → Instr
  | 0 => .selectorMtf0
  | 1 => .selectorMtf1
  | 2 => .selectorMtf2
  | 3 => .selectorMtf3
  | 4 => .selectorMtf4
  | 5 => .selectorMtf5
  | _ + 6 => .selectorMtfBad

/-- R179: one-bits counted from `v` up to the zero-bit; `left` more may be read before the count reaches `nGroups`. -/
def parseSelector : Nat → Nat → Parse
  | 0, _ => .done .selectorMtfBad
  | left + 1, v => .field 1 fun b => if b = 1 then parseSelector left (v + 1) else .done (selectorInstr v)

/-- R105: the 5-bit start of a group's lengths. -/
def parseCodeLenStart : Parse := .field 5 fun l => .done (.codeLenStart (BitVec.ofNat 5 l))

/-- R105, R181: one delta code. -/
def parseCodeLen : Parse :=
  .field 1 fun b =>
    if b = 0 then .done .codeLenEnd
    else .field 1 fun c => if c = 0 then .done .codeLenInc else .done .codeLenDec

/-- The row of a symbol of the alphabet `0 .. nInUse + 1` (R106). -/
def symbolInstr (nInUse sym : Nat) : Instr :=
  if sym = 0 then .runA
  else if sym = 1 then .runB
  else if sym = nInUse + 1 then .eob
  else .mtf sym

/-- R155: the symbol at `zvec` of length `zn`, when `zvec <= LIMIT[zn]`. -/
def symbolAt (t : HuffTable) (nInUse zn zvec : Nat) : Parse :=
  match t.base[zn - t.minLen]? with
  | none => .nothing
  | some b =>
    match t.perm[((zvec : Int) - b).toNat]? with
    | none => .nothing
    | some sym => .done (symbolInstr nInUse sym)

/-- R155, R156: the loop of `decodeSym`, with `left = MAX_LEN - zn` lengths to go. -/
def parseSymbolFrom (t : HuffTable) (nInUse : Nat) : Nat → Nat → Nat → Parse
  | 0, zn, zvec =>
    match t.limit[zn - t.minLen]? with
    | none => .nothing
    | some lim => if (zvec : Int) > lim then .reject .tableMalformed 7 else symbolAt t nInUse zn zvec
  | left + 1, zn, zvec =>
    match t.limit[zn - t.minLen]? with
    | none => .nothing
    | some lim =>
      if (zvec : Int) > lim then .field 1 fun b => parseSymbolFrom t nInUse left (zn + 1) (2 * zvec + b)
      else symbolAt t nInUse zn zvec

/-- R155: `decodeSym`. -/
def parseSymbol (t : HuffTable) (nInUse : Nat) : Parse :=
  .field t.minLen fun z => parseSymbolFrom t nInUse (t.maxLen - t.minLen) t.minLen z

/-- R109: four equal bytes and a length byte. The walk's bytes come from `take()` (R205), not from the bit-stream: the machine
does not use this parse, which only says what the row's bits are. -/
def parseRle1Unit : Parse :=
  .field 8 fun a => .field 8 fun b => .field 8 fun c => .field 8 fun d => .field 8 fun z =>
    if a = b && b = c && c = d then .done (.rle1Unit (BitVec.ofNat 8 a) (BitVec.ofNat 8 z)) else .nothing

/-- The parse of what the decoder expects. -/
def parseOf : Expect → Parse
  | .header => parseHeader
  | .marker => parseMarker
  | .blockHeader => parseBlockHeader
  | .symbolMap => parseSymbolMap
  | .tableCounts => parseTableCounts
  | .selector g => parseSelector g 0
  | .codeLenStart => parseCodeLenStart
  | .codeLen => parseCodeLen
  | .symbol lens n => parseSymbol (buildTable lens).1 n
  | .rle1Unit => parseRle1Unit

/-- What a parse of a list of bits gives. -/
inductive Decoded where
  /-- The instruction and the bits after it. -/
  | ok (i : Instr) (rest : List Bool)
  /-- The error the spec names for bits that begin no token. -/
  | rejected (e : ErrKind) (d : Nat)
  /-- The bits end inside the token, and the error that raises. -/
  | short (e : ErrKind) (d : Nat)
  /-- No token. -/
  | nothing
deriving DecidableEq, Repr

/-- A parse run over a list of bits. -/
def parseBits : Parse → List Bool → Decoded
  | .done i, bs => .ok i bs
  | .reject e d, _ => .rejected e d
  | .nothing, _ => .nothing
  | .read n e d k, bs => if n ≤ bs.length then parseBits (k (natOfBits (bs.take n))) (bs.drop n) else .short e d
  | .write _ k, bs => parseBits k bs

/-- The decoder of the bit-stream, total on any bits. -/
def decodeBits (x : Expect) (bs : List Bool) : Decoded := parseBits (parseOf x) bs

/-- The decoder on source bytes. -/
def decodeBytes (x : Expect) (bytes : List Byte) : Decoded := decodeBits x (bitsOfBytes bytes)

/-! ## The encoder -/

/-- R106, R150: the bits of the codeword of symbol `s`. -/
def encodeSym (lens : List Nat) (s : Nat) : Option (List Bool) :=
  match codeword lens s with
  | some (L, c) => some (bitsMsb L c)
  | none => none

/-- R104: `v` one-bits and a zero-bit. -/
def unary (v : Nat) : List Bool := List.replicate v true ++ [false]

/-- The bits of a token where the decoder expects `x` (R98 to R109); nothing for an instruction that cannot stand there. -/
def encodeBits (x : Expect) (i : Instr) : Option (List Bool) :=
  match x, i with
  | .header, .streamHeader d => some (bitsMsb 8 0x68 ++ bitsMsb 8 d.toNat)
  | .marker, .blockMark => some (bitsMsb 48 Config.blockMark)
  | .marker, .eosMark c => some (bitsMsb 48 Config.eosMark ++ bitsMsb 32 c.toNat)
  | .blockHeader, .blockHeader c r p => some (bitsMsb 32 c.toNat ++ [r] ++ bitsMsb 24 p.toNat)
  | .symbolMap, .symbolMap u ws => some (bitsMsb 16 u.toNat ++ ws.flatMap fun w => bitsMsb 16 w.toNat)
  | .tableCounts, .tableCounts g n =>
    if legalGroups g.toNat then some (bitsMsb 3 g.toNat ++ bitsMsb 15 n.toNat)
    else if n = 0 then some (bitsMsb 3 g.toNat) else none
  | .selector g, .selectorMtf0 => if 0 < g then some (unary 0) else none
  | .selector g, .selectorMtf1 => if 1 < g then some (unary 1) else none
  | .selector g, .selectorMtf2 => if 2 < g then some (unary 2) else none
  | .selector g, .selectorMtf3 => if 3 < g then some (unary 3) else none
  | .selector g, .selectorMtf4 => if 4 < g then some (unary 4) else none
  | .selector g, .selectorMtf5 => if 5 < g then some (unary 5) else none
  | .selector g, .selectorMtfBad => some (List.replicate g true)
  | .codeLenStart, .codeLenStart l => some (bitsMsb 5 l.toNat)
  | .codeLen, .codeLenEnd => some [false]
  | .codeLen, .codeLenInc => some [true, false]
  | .codeLen, .codeLenDec => some [true, true]
  | .symbol lens _, .runA => encodeSym lens 0
  | .symbol lens _, .runB => encodeSym lens 1
  | .symbol lens n, .mtf m => if 2 ≤ m && m ≤ n then encodeSym lens m else none
  | .symbol lens n, .eob => encodeSym lens (n + 1)
  | .rle1Unit, .rle1Unit c z =>
    some (bitsMsb 8 c.toNat ++ bitsMsb 8 c.toNat ++ bitsMsb 8 c.toNat ++ bitsMsb 8 c.toNat ++ bitsMsb 8 z.toNat)
  | _, _ => none

/-! ## The numbering of spec/opcode_table.json -/

/-- The token that takes all of `bs`, if it is one. -/
def decodeAll (x : Expect) (bs : List Bool) : Option Instr :=
  match decodeBits x bs with
  | .ok i [] => some i
  | _ => none

/-- The bits of a token shorter than a byte, written as the number `w`: its significant digits, or `0`. -/
def shortBits (w : Nat) : List Bool :=
  match (bitsMsb 8 w).dropWhile (· = false) with
  | [] => [false]
  | bs => bs

/-- What a table row of `nbits` bits (in whole bytes) is read as, and how many bits it has: 16 STREAM_HEADER, 48 BLOCK_MARK, 80
EOS_MARK, 64 BLOCK_HEADER (57 bits), 24 TABLE_COUNTS (18 bits), 40 RLE1_UNIT. The row's bits, read as one number, have the
first bit of the stream as their most significant bit. DESIGN CHOICE (log 18). -/
def tableExpect : Nat → Option (Expect × Nat)
  | 16 => some (.header, 16)
  | 48 => some (.marker, 48)
  | 80 => some (.marker, 80)
  | 64 => some (.blockHeader, 57)
  | 24 => some (.tableCounts, 18)
  | 40 => some (.rle1Unit, 40)
  | _ => none

/-- The instruction the decoder reads from a row of the opcode table. A command word is a 32-bit number. The rows of one byte or
less are read as a selector value of a block with six groups, or else as a delta code. -/
def decodeTableWord (nbits w : Nat) : Option Instr :=
  if nbits = 32 then some (decodeCmd (BitVec.ofNat 32 w))
  else if nbits = 8 then
    match decodeAll (.selector 6) (shortBits w) with
    | some i => some i
    | none => decodeAll .codeLen (shortBits w)
  else
    match tableExpect nbits with
    | some (x, n) => decodeAll x (bitsMsb n w)
    | none => none

end Sys2Proof
end

