-- ==== Sys2Proof/Machine/State.lean ====
section
/-! DEFINITION. The state of the machine: everything spec/10_state.md, spec/20_memory.md and spec/30_encoding.md give the block,
the parameters of R7 and R9, and the two other agents of R6 (the host and the byte source) as plain data. INVENTORY.md lists
every field with its rule and its reset value. -/

namespace Sys2Proof.Machine

/-- `MODE` (R22). -/
inductive Mode where
  | continuous
  | byblock
deriving DecidableEq, Repr

/-- `STATE`, the nine names of R23. -/
inductive StreamState where
  | startBlock
  | noProcess
  | randA
  | randB
  | randC
  | norandA
  | norandB
  | norandC
  | eof
deriving DecidableEq, Repr

/-- The command in progress, with the operands latched when `CMD` was written (R305). INIT and the two reads are the commands
that use the byte source, so only they can be seen in progress. `k` counts the bytes READ_INTO has written (R243). -/
inductive Job where
  | init
  | readByte
  | readInto (off len k : Nat)
deriving DecidableEq, Repr

/-- The place in the rules' pseudocode a command in progress has reached: the next token it reads, or its next internal step.
Model's own state (log 2). -/
inductive Phase where
  /-- R233: the stream header. -/
  | header
  /-- R137: a scan for the block marker. -/
  | scan
  /-- R235: the next pass of the step loop. -/
  | walk
  /-- R236: the 48-bit token at a block start. -/
  | marker
  /-- R171 to R173. -/
  | blockHeader
  /-- R174 to R176. -/
  | symbolMap
  /-- R177, R178. -/
  | tableCounts
  /-- R179: selector MTF value number `i`. -/
  | selector (i : Nat)
  /-- R181: the start length of group `t`. -/
  | codeLenStart (t : Nat)
  /-- R181: a delta code of symbol `s` of group `t`, with the length `curr`. -/
  | codeLen (t s curr : Nat)
  /-- R185: the next symbol; `inRun` says that a run is being accumulated (R186). -/
  | symbols (inRun : Bool)
deriving DecidableEq, Repr

/-- Whether a command is in progress, and where (log 2). -/
inductive Ctl where
  | idle
  | busy (job : Job) (phase : Phase)
deriving DecidableEq, Repr

/-- The bit reader (R25 to R27) and what the byte source of the instance has still to say (R62). -/
structure BitReader where
  /-- `BUF` (R25). -/
  buf : DWord
  /-- `LIVE` (R26). -/
  live : Nat
  /-- `RAW` (R27): 64 bits. -/
  raw : DWord
  /-- The bytes the source will still deliver, the next one first (R62). -/
  src : List Byte
  /-- After them: `EOF` for ever (true, R63), or no answer yet (false, U8). -/
  srcEnds : Bool
  /-- The bits of the token in progress that a command waiting for its source has already consumed; of a scan, its 48-bit window `w`
  (R137). Empty otherwise. Model's own state (log 9). -/
  part : List Bool
deriving DecidableEq, Repr

/-- The registers of the block state (R31 to R35, R40, R41, R43). -/
structure BlockRegs where
  storedBlockCrc : Word
  randomized : Bool
  origPtr : BitVec 24
  nInUse : Nat
  alphaSize : Nat
  nGroups : Nat
  nSelectors : Nat
  symCount : Nat
  last : Int
  runAcc : Nat
  runW : Nat
deriving DecidableEq, Repr

/-- The internal tables and memories (R65, R66), each as the list of the entries that hold a value, entry 0 first. An entry
that is not listed holds no value (R53, U2; log 4). -/
structure Tables where
  inUse : List Bool
  seqToUnseq : List Byte
  selectorMtf : List Nat
  selector : List Nat
  pos : List Nat
  lens : List (List Nat)
  tables : List HuffTable
  yy : List Nat
  unzftab : List Nat
  cftab : List Nat
  ll8 : List Byte
  tt : List Nat
deriving DecidableEq, Repr

/-- The output cursor (R45 to R51). -/
structure Cursor where
  tPos : Nat
  i2 : Nat
  count : Nat
  ch2 : BitVec 9
  chPrev : BitVec 9
  rnToGo : Nat
  rtPos : Nat
  z : Byte
  j2 : Nat
  blockCrc : Word
deriving DecidableEq, Repr

/-- A byte source the host attaches before INIT (R302). -/
structure Source where
  bytes : List Byte
  ends : Bool
deriving DecidableEq, Repr

/-- One coming action of the host or of the byte source (R6, R305, R306, R302; log 13). -/
inductive HostAct where
  /-- The host writes `ARG0`, `ARG1` or `CMD`; writing `CMD` starts a command (R90). -/
  | writeArg0 (v : Word)
  | writeArg1 (v : Word)
  | writeCmd (v : Word)
  /-- The host reads `STATUS` or `RESULT` (R90). -/
  | readStatus
  | readResult
  /-- The host reads or writes the byte at offset `a` of its output buffer (R306). -/
  | readOut (a : Nat)
  | writeOut (a : Nat) (v : Byte)
  /-- The host attaches a byte source for its next INIT (R302). -/
  | attach (src : Source)
  /-- The source of the instance answers with more bytes, or says that there are no more (R62). -/
  | deliver (bytes : List Byte)
  | endSource
deriving DecidableEq, Repr

/-- `OUT`, the host's output buffer (R64), as (offset, byte) pairs, offsets rising, no byte 0 listed: an unlisted byte reads 0.
DESIGN CHOICE (log 12). -/
abbrev Memory := List Host.Cell

/-- The state of the machine. -/
structure State where
  /-- The command port (R90). -/
  cmd : Word
  arg0 : Word
  arg1 : Word
  status : Word
  result : DWord
  /-- Instance control (R21 to R24). -/
  closed : Bool
  mode : Mode
  state : StreamState
  err : BitVec 4
  errDetail : BitVec 8
  /-- Bit reader and position (R25 to R28). -/
  rd : BitReader
  reported : DWord
  /-- Stream state (R29, R30). -/
  blockSize100k : Nat
  combinedCrc : Word
  /-- Block state (R31 to R44) and output cursor (R45 to R51). -/
  blk : BlockRegs
  tab : Tables
  cur : Cursor
  /-- The parameters `OUT_CAP` and `RNUMS` (R9); no rule writes them. -/
  outCap : Nat
  rnums : List Nat
  /-- The host's output buffer (R64). -/
  out : Memory
  /-- The control point (log 2). -/
  ctl : Ctl
  /-- The source attached for the next INIT, and the coming actions of the host and the source. -/
  attached : Option Source
  script : List HostAct
  /-- What the host's last read of the port or of `OUT` gave. Model's own (log 14). -/
  hostData : DWord
  /-- How many free values have been drawn. Model's own (log 5). -/
  draws : Nat
deriving DecidableEq, Repr

/-- Why the machine stops. -/
inductive Fault where
  /-- `CMD` is written while a command runs (R305, U4). Raised by the host's write and by a command's meaning. Safe: the spec
  asks for a fault. -/
  | commandWhileBusy
  /-- The host writes a byte of `OUT[off .. off+len-1]` during a READ_INTO (R306, U6). Raised by the host's write. Safe. -/
  | outDuringReadInto
  /-- An access to an offset at or above `OUT_CAP` (R64, R74; the host's own accesses: log 29). Raised by the host's accesses and by
  an `OUT` write. Safe. -/
  | outAddress
  /-- An entry of an internal table that holds no value is read (R53, U1, U2). Raised by the parse, the IBWT set-up and the
  derandomiser. Safe. -/
  | unspecifiedRead
  /-- The walk reads `LL8` or `TT` where no value is held (R215, U11: never in a run). Raised by `take`. Safe. -/
  | walkIndex
  /-- A bit-stream row is run where the decoder does not expect it; `step` never does so. Raised by the tokens' meanings. Safe
  (log 20). -/
  | tokenOutOfPlace
deriving DecidableEq, Repr

/-- Why the model gives no meaning. -/
inductive Refusal where
  /-- The instruction of this mnemonic has no meaning yet. No arm of `exec` answers with it. Safe. -/
  | notModelled (mnemonic : String)
  /-- The byte source breaks its duties: it delivers a byte after `EOF` (R303, U7). Raised by `deliver`. Safe. -/
  | sourceBreaksDuty
deriving DecidableEq, Repr

/-- Block registers at hardware reset. R54 gives no value; DESIGN CHOICE 0 (log 3). -/
def BlockRegs.reset : BlockRegs :=
  { storedBlockCrc := 0, randomized := false, origPtr := 0, nInUse := 0, alphaSize := 0, nGroups := 0, nSelectors := 0,
    symCount := 0, last := 0, runAcc := 0, runW := 0 }

/-- Internal tables and memories of which no entry holds a value (R53). -/
def Tables.empty : Tables :=
  { inUse := [], seqToUnseq := [], selectorMtf := [], selector := [], pos := [], lens := [], tables := [], yy := [],
    unzftab := [], cftab := [], ll8 := [], tt := [] }

/-- The output cursor at hardware reset. R54 gives no value; DESIGN CHOICE 0 (log 3). -/
def Cursor.reset : Cursor :=
  { tPos := 0, i2 := 0, count := 0, ch2 := 0, chPrev := 0, rnToGo := 0, rtPos := 0, z := 0, j2 := 0, blockCrc := 0 }

/-- The bit reader at hardware reset (R54): `LIVE = 0`, `RAW = 0`; `BUF` is DESIGN CHOICE 0 (log 3). No source is attached, which
the model takes as the empty source (log 7). -/
def BitReader.reset : BitReader := { buf := 0, live := 0, raw := 0, src := [], srcEnds := true, part := [] }

/-- The machine after hardware reset (R54, R300). What R54 leaves unspecified is 0 (log 3). -/
def State.reset : State :=
  { cmd := 0, arg0 := 0, arg1 := 0, status := 0, result := 0
    closed := true, mode := .continuous, state := .eof, err := 0, errDetail := 0
    rd := BitReader.reset, reported := 0
    blockSize100k := 0, combinedCrc := 0
    blk := BlockRegs.reset, tab := Tables.empty, cur := Cursor.reset
    outCap := Config.resetOutCap, rnums := Config.rnumsCandidate
    out := [], ctl := .idle, attached := none, script := [], hostData := 0, draws := 0 }

end Sys2Proof.Machine
end

