-- ==== Sys2Proof/Machine/Flags.lean ====
section
/-! DEFINITION. The status word and the check values of the block. The block has no condition codes (R32, R285): what other
machines keep in flags is here the status word of a response (R96), the error codes (R271) and the two CRC registers
(R211 to R214 of spec/43_ibwt.md). -/

namespace Sys2Proof.Machine

/-- The status code of an error (R271). -/
def errCode : ErrKind → Nat
  | .unexpectedEndOfStream => 1
  | .badStreamHeader => 2
  | .badBlockHeader => 3
  | .tableMalformed => 4
  | .blockOverrun => 5
  | .streamCorrupted => 6
  | .crcMismatch => 7
  | .invalidArgument => 8

/-- `STATUS` of a response with an error: code in bits 3..0, detail in bits 11..4, the rest 0 (R96). -/
def statusWord (e : ErrKind) (d : Nat) : Word := BitVec.ofNat 32 (errCode e) ||| (BitVec.ofNat 32 d <<< 4)

/-- `STATUS` of a response without an error (R96). -/
def statusOk : Word := 0

/-- END_OF_STREAM, -1 as a 64-bit two's-complement number (R13, R96). -/
def endOfStreamResult : DWord := -1

/-- END_OF_BLOCK, -2 as a 64-bit two's-complement number (R13, R96). -/
def endOfBlockResult : DWord := -2

/-- One round of the CRC update (R211): shift left; if the bit shifted out was 1, xor the polynomial. -/
def crcRound (c : Word) : Word := if c.getLsbD 31 then (c <<< 1) ^^^ 0x04C11DB7 else c <<< 1

/-- `crcUpdate` (R211): the byte into the top bits, then eight rounds. PRESUMED (log 15): the spec marks the bitwise form as
general knowledge. -/
def crcUpdate (c : Word) (v : Byte) : Word := Nat.repeat crcRound 8 (c ^^^ (v.zeroExtend 32 <<< 24))

/-- `crcFinal` (R212). -/
def crcFinal (c : Word) : Word := c ^^^ 0xFFFFFFFF

/-- The CRC register at block set-up (R204). -/
def crcInit : Word := 0xFFFFFFFF

/-- `rotl1_32` (R11). -/
def rotl1 (x : Word) : Word := (x <<< 1) ||| (x >>> 31)

/-- The fold of the combined CRC (R214). -/
def foldCrc (combined computed : Word) : Word := rotl1 combined ^^^ computed

end Sys2Proof.Machine
end

