-- ==== Sys2Proof/Machine/Operands.lean ====
section
/-! DEFINITION. The operands of the host commands (R92 of spec/30_encoding.md) and the checks READ_INTO makes on them before it
does anything (R231 of spec/44_stream_controller.md). The operands of the bit-stream's tokens are fields of `Instr`. -/

namespace Sys2Proof.Machine

/-- `sext_32` (R11). -/
def sext32 (w : Word) : Int := w.toInt

/-- `zext_32` (R11). -/
def zext32 (w : Word) : Nat := w.toNat

/-- READ_INTO: `off = sext_32(ARG0)` (R92). -/
def offOperand (s : State) : Int := sext32 s.arg0

/-- READ_INTO: `len = sext_32(ARG1)` (R92). -/
def lenOperand (s : State) : Int := sext32 s.arg1

/-- ADJUST_REPORTED: `n = zext_32(ARG0)` (R92). -/
def adjustOperand (s : State) : Nat := zext32 s.arg0

/-- R231, checks 3 and 4: the detail of the InvalidArgument that READ_INTO raises, if it raises one. The sum is exact. -/
def readIntoCheck (s : State) : Option Nat :=
  if offOperand s < 0 || lenOperand s < 0 then some 2
  else if offOperand s + lenOperand s > s.outCap then some 3
  else none

end Sys2Proof.Machine
end

