-- ==== Sys2Proof/Machine/Ops.lean ====
section
/-! DEFINITION. The named operations every meaning is built from: the host's output buffer, the bit reader and the marker
scanner (spec/40_bitreader.md), free values, the response of a command, raising an error (spec/60_exceptions.md), and the
start and end of an instance. -/

namespace Sys2Proof.Machine

/-- The outcome of a step of this machine. -/
abbrev Outcome := Host.Outcome State Fault Refusal

/-! ## The output buffer (R64) -/

/-- The byte at offset `a`. An unlisted byte reads 0 (log 12). -/
def memRead : Memory → Nat → Byte
  | [], _ => 0
  | (b, v) :: m, a => if a = b then v else memRead m a

/-- Writes `v` at offset `a` and keeps the canonical form: a byte 0 is not listed. -/
def memWrite : Memory → Nat → Byte → Memory
  | [], a, v => if v = 0 then [] else [(a, v)]
  | (b, w) :: m, a, v =>
    if a < b then (if v = 0 then (b, w) :: m else (a, v) :: (b, w) :: m)
    else if a = b then (if v = 0 then m else (a, v) :: m)
    else (b, w) :: memWrite m a v

/-- The canonical form from offset `lo` on: offsets rising, no byte 0 listed. -/
def memWfFrom : Nat → Memory → Bool
  | _, [] => true
  | lo, (b, v) :: m => lo ≤ b && v ≠ 0 && memWfFrom (b + 1) m

/-- The canonical form of a memory. -/
def Memory.wf (m : Memory) : Bool := memWfFrom 0 m

/-- `MemWrite(OUT, a, 1, v)` (R64). An offset at or above `OUT_CAP` does not exist (R74). -/
def outWrite (a : Nat) (v : Byte) (s : State) : Option State :=
  if a < s.outCap then some { s with out := memWrite s.out a v } else none

/-! ## The bit reader (R130 to R134) -/

/-- How a request to the byte source ends (R62). -/
inductive Pull where
  | got (r : BitReader)
  | eof
  /-- The source has not answered yet (U8). -/
  | wait
deriving DecidableEq, Repr

/-- `pull()` (R130). `RAW` counts every answered request (R73), modulo `2^64` (log 16). -/
def pull (r : BitReader) : Pull :=
  match r.src with
  | b :: rest => .got { r with buf := (r.buf <<< 8) ||| b.zeroExtend 64, live := r.live + 8, raw := r.raw + 1, src := rest }
  | [] => if r.srcEnds then .eof else .wait

/-- How the refill of a read ends; the bytes pulled before an `EOF` or a wait stay pulled (R131, R73). -/
inductive Fill where
  | full (r : BitReader)
  | eof (r : BitReader)
  | wait (r : BitReader)
deriving DecidableEq, Repr

/-- `while LIVE < n: pull()` (R131), at most `fuel` pulls. Each pull adds 8 bits, so `n` of them always suffice. -/
def fill : Nat → Nat → BitReader → Fill
  | 0, _, r => .full r
  | fuel + 1, n, r =>
    if r.live < n then
      match pull r with
      | .got r' => fill fuel n r'
      | .eof => .eof r
      | .wait => .wait r
    else .full r

/-- How a read ends. -/
inductive Read where
  | got (v : Nat) (r : BitReader)
  | eof (r : BitReader)
  | wait (r : BitReader)
deriving DecidableEq, Repr

/-- `BUF[LIVE-1 : LIVE-n]`, zero-extended (R131). -/
def topBits (n : Nat) (r : BitReader) : Nat := (r.buf.toNat >>> (r.live - n)) % 2 ^ n

/-- `readBits(n)` (R131). -/
def readBits (n : Nat) (r : BitReader) : Read :=
  match fill n n r with
  | .full r' => .got (topBits n r') { r' with live := r'.live - n }
  | .eof r' => .eof r'
  | .wait r' => .wait r'

/-- `readBit()` (R132). -/
def readBit (r : BitReader) : Read := readBits 1 r

/-- `readUByte()` (R133). -/
def readUByte (r : BitReader) : Read := readBits 8 r

/-- `m` bytes assembled big-endian onto `v`. -/
def readBytes : Nat → Nat → BitReader → Read
  | 0, v, r => .got v r
  | m + 1, v, r =>
    match readUByte r with
    | .got b r' => readBytes m ((v <<< 8) ||| b) r'
    | .eof r' => .eof r'
    | .wait r' => .wait r'

/-- `readInt32()` (R134). -/
def readInt32 (r : BitReader) : Read := readBytes 4 0 r

/-- The bits not yet consumed: those in `BUF` and those the source will still deliver. -/
def bitsLeft (r : BitReader) : Nat := r.live + 8 * r.src.length

/-- The `n`-bit field `v` of the token in progress has been consumed (log 9). -/
def BitReader.hold (n v : Nat) (r : BitReader) : BitReader := { r with part := r.part ++ bitsMsb n v }

/-- No token is in progress. -/
def BitReader.release (r : BitReader) : BitReader := { r with part := [] }

/-! ## The marker scanner (R137 to R140) -/

/-- How a scan ends; one that waits keeps its window (log 9). -/
inductive Scan where
  | found (r : BitReader)
  | eof (r : BitReader)
  | wait (r : BitReader)
deriving DecidableEq, Repr

/-- The loop of `scanFor()` (R137). Each pass reads one bit, so `bitsLeft` passes always suffice. -/
def scanLoop : Nat → Nat → BitReader → Scan
  | 0, _, r => .eof r.release
  | fuel + 1, w, r =>
    if w = Config.blockMark then .found r.release
    else
      match readBit r with
      | .got b r' => scanLoop fuel (((w <<< 1) % 2 ^ 48) ||| b) r'
      | .eof r' => .eof r'.release
      | .wait r' => .wait { r' with part := bitsMsb 48 w }

/-- `scanFor()` (R137); a scan that waited goes on with the window it holds. -/
def scanFor (r : BitReader) : Scan :=
  if r.part = [] then
    match readBits 48 r with
    | .got w r' => scanLoop (bitsLeft r' + 1) w r'
    | .eof r' => .eof r'
    | .wait r' => .wait r'
  else scanLoop (bitsLeft r + 1) (natOfBits r.part) r

/-- `ceil(a / b)` (R11). -/
def ceilDiv (a b : Nat) : Nat := (a + b - 1) / b

/-- R139: the byte index at which the matched marker begins. -/
def markerByte (r : BitReader) : DWord := r.raw - BitVec.ofNat 64 (ceilDiv (48 + r.live) 8)

/-! ## Free values (R53, R54) -/

/-- Unspecified block registers: free values of draw `d` (log 5). -/
def freeBlockRegs (d : Nat) : BlockRegs :=
  { storedBlockCrc := BitVec.ofNat 32 (Config.freeNat d 0), randomized := (Config.freeNat d 1).testBit 0
    origPtr := BitVec.ofNat 24 (Config.freeNat d 2), nInUse := Config.freeNat d 3 % 512, alphaSize := Config.freeNat d 4 % 512
    nGroups := Config.freeNat d 5 % 8, nSelectors := Config.freeNat d 6 % 2 ^ 15, symCount := Config.freeNat d 7 % 2 ^ 20
    last := (Config.freeNat d 8 % 900001 : Nat) - 1, runAcc := Config.freeNat d 9 % (2 ^ 20 + 1)
    runW := Config.freeNat d 10 % (2 ^ 20 + 1) }

/-- An unspecified output cursor: free values of draw `d` (log 5). -/
def freeCursor (d : Nat) : Cursor :=
  { tPos := Config.freeNat d 11 % 2 ^ 20, i2 := Config.freeNat d 12 % 2 ^ 20, count := Config.freeNat d 13 % 8
    ch2 := BitVec.ofNat 9 (Config.freeNat d 14), chPrev := BitVec.ofNat 9 (Config.freeNat d 15)
    rnToGo := Config.freeNat d 16 % 2 ^ 16, rtPos := Config.freeNat d 17 % 512, z := BitVec.ofNat 8 (Config.freeNat d 18)
    j2 := Config.freeNat d 19 % 256, blockCrc := BitVec.ofNat 32 (Config.freeNat d 20) }

/-- An unspecified mode: a free value of draw `d`. -/
def freeMode (d : Nat) : Mode := if (Config.freeNat d 21).testBit 0 then .byblock else .continuous

/-- An unspecified stream state: a free value of draw `d`, any of the nine names. -/
def freeStreamState (d : Nat) : StreamState :=
  match Config.freeNat d 22 % 9 with
  | 0 => .startBlock
  | 1 => .noProcess
  | 2 => .randA
  | 3 => .randB
  | 4 => .randC
  | 5 => .norandA
  | 6 => .norandB
  | 7 => .norandC
  | _ => .eof

/-! ## Responses and errors -/

/-- A command completes with status OK and `RESULT = v` (R96, R230). -/
def respond (v : DWord) (s : State) : State := { s with status := statusOk, result := v, ctl := .idle }

/-- `RESULT` of a command that fails: the bytes READ_INTO has written, 0 for every other command (R274). -/
def failedResult (s : State) : DWord :=
  match s.ctl with
  | .busy (.readInto _ _ k) _ => BitVec.ofNat 64 k
  | .busy .init _ | .busy .readByte _ | .idle => 0

/-- R275: the state change of an error. InvalidArgument(1) or (4) on a closed block changes nothing. -/
def recordError (e : ErrKind) (d : Nat) (s : State) : State :=
  if s.closed && e = .invalidArgument && (d = 1 || d = 4) then s
  else
    { s with
      state := .eof
      err := if s.err = 0 then BitVec.ofNat 4 (errCode e) else s.err
      errDetail := if s.err = 0 then BitVec.ofNat 8 d else s.errDetail }

/-- `raise E(d)` (R273 to R275): the one way an error is taken. The command ends with the error in `STATUS`. -/
def raiseError (e : ErrKind) (d : Nat) (s : State) : State :=
  { recordError e d s with status := statusWord e d, result := failedResult s, ctl := .idle }

/-- How a piece of a command goes on: with a state, with an error raised in a state, or with a fault of the model. -/
inductive Flow where
  | go (s : State)
  | raise (e : ErrKind) (d : Nat) (s : State)
  | fault (f : Fault)
deriving DecidableEq, Repr

/-- The next piece of the command runs only if this one raised nothing (R273). -/
def Flow.andThen (x : Flow) (k : State → Flow) : Flow :=
  match x with
  | .go s => k s
  | .raise e d s => .raise e d s
  | .fault f => .fault f

/-- The outcome of a piece of a command. -/
def Flow.settle : Flow → Outcome
  | .go s => .next s
  | .raise e d s => .next (raiseError e d s)
  | .fault f => .fault f

/-- An entry of an internal table, or a fault where it holds no value (R53, U1). -/
def lookup {α : Type} (l : List α) (i : Nat) (k : α → Flow) : Flow :=
  match l[i]? with
  | some v => k v
  | none => .fault .unspecifiedRead

/-! ## Instances -/

/-- The source an INIT starts on: the one the host attached, or what is left of the one before (R62, log 8), with `LIVE` and
`RAW` cleared (R232). `BUF` is written only by a refill (R25, log 6). -/
def initReader (s : State) : BitReader :=
  match s.attached with
  | some src => { s.rd with live := 0, raw := 0, src := src.bytes, srcEnds := src.ends, part := [] }
  | none => { s.rd with live := 0, raw := 0, part := [] }

/-- INIT, the common part (R232); the command goes on at `ph`. Block and cursor state become unspecified (R54). -/
def beginInit (m : Mode) (ph : Phase) (s : State) : State :=
  { s with
    closed := false, mode := m, err := 0, errDetail := 0
    rd := initReader s, reported := 0
    blockSize100k := Config.initBlockSize, combinedCrc := 0
    blk := freeBlockRegs s.draws, tab := Tables.empty, cur := freeCursor s.draws
    attached := none, draws := s.draws + 1
    ctl := .busy .init ph }

/-- CLOSE of an open block (R249): everything of the instance but `CLOSED` becomes unspecified (R53, U1): free values, and
internal memories without a value. `BUF` and the source keep what they hold (log 6). -/
def closeInstance (s : State) : State :=
  { s with
    closed := true
    mode := freeMode s.draws, state := freeStreamState s.draws
    err := BitVec.ofNat 4 (Config.freeNat s.draws 23), errDetail := BitVec.ofNat 8 (Config.freeNat s.draws 24)
    rd := { s.rd with live := Config.freeNat s.draws 25 % 65, raw := BitVec.ofNat 64 (Config.freeNat s.draws 26), part := [] }
    reported := BitVec.ofNat 64 (Config.freeNat s.draws 27)
    blockSize100k := Config.freeNat s.draws 28 % 16, combinedCrc := BitVec.ofNat 32 (Config.freeNat s.draws 29)
    blk := freeBlockRegs s.draws, tab := Tables.empty, cur := freeCursor s.draws
    draws := s.draws + 1 }

end Sys2Proof.Machine
end

