-- ==== Sys2Proof/Machine/Header.lean ====
section
/-! DEFINITION. The meanings of the framing tokens: STREAM_HEADER, BLOCK_MARK, EOS_MARK (spec/44_stream_controller.md R233, R236,
R237; spec/40_bitreader.md R139) and BLOCK_HEADER (spec/42_block_decoder.md R171 to R173). A token's meaning starts where its
bits have been consumed. A token where the decoder is not at it is a fault (log 20). -/

namespace Sys2Proof.Machine

/-- A field written as soon as it is read (log 24). -/
def applyEarly (w : EarlyWrite) (s : State) : State :=
  match w with
  | .storedBlockCrc c => { s with blk := { s.blk with storedBlockCrc := c } }
  | .randomized r => { s with blk := { s.blk with randomized := r } }
  | .nGroups g => { s with blk := { s.blk with nGroups := g } }
  | .inUse l => { s with tab := { s.tab with inUse := l } }

/-- The end of a scan (R234, R245): the new `STATE`, and the response of the command that scanned: 0 for INIT, END_OF_BLOCK for a
read. -/
def finishScan (job : Job) (found : Bool) (s : State) : State :=
  let v : DWord := match job with
    | .init => 0
    | .readByte | .readInto _ _ _ => endOfBlockResult
  respond v { s with state := if found then .startBlock else .eof }

/-- STREAM_HEADER (R233): the digit is judged here, `h` was judged by the decoder. -/
def execStreamHeader (d : Byte) (s : State) : Outcome :=
  match s.ctl with
  | .busy .init .header =>
    Flow.settle <|
      if d.toNat < 0x31 || d.toNat > 0x39 then .raise .badStreamHeader 2 s
      else .go (respond 0 { s with blockSize100k := d.toNat - 0x30, state := .startBlock })
  | _ => .fault .tokenOutOfPlace

/-- BLOCK_MARK: at a block start it opens the block's body (R236); in a scan it is the match (R139). -/
def execBlockMark (s : State) : Outcome :=
  match s.ctl with
  | .busy job .marker => .next { s with ctl := .busy job .blockHeader }
  | .busy job .scan => .next (finishScan job true { s with reported := markerByte s.rd })
  | _ => .fault .tokenOutOfPlace

/-- EOS_MARK (R237): the stored combined CRC `c` is compared with the accumulated one. -/
def execEosMark (c : Word) (s : State) : Outcome :=
  match s.ctl with
  | .busy job .marker =>
    let s1 := { s with state := .eof }
    Flow.settle <|
      if c ≠ s.combinedCrc then .raise .crcMismatch 2 s1 else .go { s1 with ctl := .busy job .walk }
  | _ => .fault .tokenOutOfPlace

/-- BLOCK_HEADER (R171 to R173). -/
def execBlockHeader (c : Word) (r : Bool) (p : BitVec 24) (s : State) : Outcome :=
  match s.ctl with
  | .busy job .blockHeader =>
    .next { s with blk := { s.blk with storedBlockCrc := c, randomized := r, origPtr := p }, ctl := .busy job .symbolMap }
  | _ => .fault .tokenOutOfPlace

end Sys2Proof.Machine
end

