-- ==== Sys2Proof/Machine/CodeTables.lean ====
section
/-! DEFINITION. The meanings of the tokens that describe a block's tables: SYMBOL_MAP, TABLE_COUNTS, SELECTOR_MTF_0 to
SELECTOR_MTF_5, SELECTOR_MTF_BAD, CODE_LEN_START, CODE_LEN_END, CODE_LEN_INC, CODE_LEN_DEC (spec/42_block_decoder.md R174 to
R183, spec/41_huffman.md R151 to R158). -/

namespace Sys2Proof.Machine

/-! ## Shared operations -/

/-- `A[i] <- v` for a table whose entries `0 .. i-1` have been written. -/
def putEntry {α : Type} (l : List α) (i : Nat) (v : α) : List α := l.take i ++ v :: l.drop (i + 1)

/-- `tmp <- A[v]; A[k] <- A[k-1] for k in v down to 1; A[0] <- tmp` (R180, R188): the entry moved and the new list. -/
def moveToFront {α : Type} (l : List α) (v : Nat) : Option (α × List α) :=
  match l[v]? with
  | some tmp => some (tmp, tmp :: l.eraseIdx v)
  | none => none

/-- R174: `IN_USE` of a whole symbol map. -/
def inUseOf (u : BitVec 16) (ws : List (BitVec 16)) : List Bool :=
  ((setBits16 u).zip ws).foldl (fun l iw => markInUse l iw.1 iw.2) (List.replicate 256 false)

/-- R175: the byte values in use, in increasing order. -/
def compact (inUse : List Bool) : List Byte :=
  ((List.range 256).filter fun c => inUse[c]? = some true).map fun c => BitVec.ofNat 8 c

/-- R180: the selectors of the MTF values `vs`, and the work vector after them. -/
def decodeSelectors : List Nat → List Nat → Option (List Nat × List Nat)
  | [], pos => some ([], pos)
  | v :: vs, pos =>
    match moveToFront pos v with
    | none => none
    | some (g, pos') =>
      match decodeSelectors vs pos' with
      | none => none
      | some (sel, last) => some (g :: sel, last)

/-- R158, R182: the tables of all groups in order, up to the first group whose lengths are over-subscribed; false if there is
one. -/
def buildTables : List (List Nat) → List HuffTable × Bool
  | [] => ([], true)
  | lens :: more =>
    match buildTable lens with
    | (t, false) => ([t], false)
    | (t, true) =>
      let rest := buildTables more
      (t :: rest.1, rest.2)

/-- R183: the set-up of the symbol loop. -/
def symbolSetup (s : State) : State :=
  { s with
    tab := { s.tab with yy := List.range 256, unzftab := List.replicate 256 0, ll8 := [] }
    blk := { s.blk with symCount := 0, last := -1 } }

/-- R179, R180: the selector MTF value `v`; after the last one the selectors are decoded. -/
def selectorValue (v : Nat) (s : State) : Outcome :=
  match s.ctl with
  | .busy job (.selector i) =>
    Flow.settle <|
      if v ≥ s.blk.nGroups then .raise .tableMalformed 4 s
      else
        let s1 := { s with tab := { s.tab with selectorMtf := putEntry s.tab.selectorMtf i v } }
        if i + 1 < s.blk.nSelectors then .go { s1 with ctl := .busy job (.selector (i + 1)) }
        else
          match decodeSelectors s1.tab.selectorMtf (List.range s.blk.nGroups) with
          | none => .fault .unspecifiedRead
          | some (sel, pos) =>
            .go { s1 with tab := { s1.tab with selector := sel, pos := pos, lens := [] }, ctl := .busy job (.codeLenStart 0) }
  | _ => .fault .tokenOutOfPlace

/-- R181: `curr` has been formed for symbol `k` of group `t`; its range is checked before another bit is read. -/
def checkLength (job : Job) (t k curr : Nat) (s : State) : Flow :=
  if curr < 1 || curr > Config.maxCodeLen then .raise .tableMalformed 5 s
  else .go { s with ctl := .busy job (.codeLen t k curr) }

/-- R182, R183: every group's lengths have been read; the tables are built and the symbol loop is set up. -/
def finishLengths (job : Job) (s : State) : Flow :=
  let built := buildTables s.tab.lens
  let s1 := { s with tab := { s.tab with tables := built.1 } }
  if built.2 then .go { symbolSetup s1 with ctl := .busy job (.symbols false) } else .raise .tableMalformed 6 s1

/-! ## Meanings -/

/-- SYMBOL_MAP (R174 to R176). -/
def execSymbolMap (u : BitVec 16) (ws : List (BitVec 16)) (s : State) : Outcome :=
  match s.ctl with
  | .busy job .symbolMap =>
    let inUse := inUseOf u ws
    let seq := compact inUse
    let s1 := { s with tab := { s.tab with inUse := inUse, seqToUnseq := seq }, blk := { s.blk with nInUse := seq.length } }
    Flow.settle <|
      if seq.length = 0 then .raise .tableMalformed 1 s1
      else .go { s1 with blk := { s1.blk with alphaSize := seq.length + 2 }, ctl := .busy job .tableCounts }
  | _ => .fault .tokenOutOfPlace

/-- TABLE_COUNTS (R177, R178). -/
def execTableCounts (g : BitVec 3) (n : BitVec 15) (s : State) : Outcome :=
  match s.ctl with
  | .busy job .tableCounts =>
    let s1 := { s with blk := { s.blk with nGroups := g.toNat } }
    Flow.settle <|
      if !legalGroups g.toNat then .raise .tableMalformed 2 s1
      else
        let s2 := { s1 with blk := { s1.blk with nSelectors := n.toNat } }
        if n.toNat < 1 || n.toNat > Config.maxSelectors then .raise .tableMalformed 3 s2
        else .go { s2 with tab := { s2.tab with selectorMtf := [] }, ctl := .busy job (.selector 0) }
  | _ => .fault .tokenOutOfPlace

/-- SELECTOR_MTF_0 (R179). -/
def execSelectorMtf0 (s : State) : Outcome := selectorValue 0 s

/-- SELECTOR_MTF_1 (R179). -/
def execSelectorMtf1 (s : State) : Outcome := selectorValue 1 s

/-- SELECTOR_MTF_2 (R179). -/
def execSelectorMtf2 (s : State) : Outcome := selectorValue 2 s

/-- SELECTOR_MTF_3 (R179). -/
def execSelectorMtf3 (s : State) : Outcome := selectorValue 3 s

/-- SELECTOR_MTF_4 (R179). -/
def execSelectorMtf4 (s : State) : Outcome := selectorValue 4 s

/-- SELECTOR_MTF_5 (R179). -/
def execSelectorMtf5 (s : State) : Outcome := selectorValue 5 s

/-- SELECTOR_MTF_BAD (R179): the one-bit that makes the count reach `N_GROUPS` raises TableMalformed(4). -/
def execSelectorMtfBad (s : State) : Outcome :=
  match s.ctl with
  | .busy _ (.selector _) => .next (raiseError .tableMalformed 4 s)
  | _ => .fault .tokenOutOfPlace

/-- CODE_LEN_START (R181): the row of group `t` begins. -/
def execCodeLenStart (l : BitVec 5) (s : State) : Outcome :=
  match s.ctl with
  | .busy job (.codeLenStart t) =>
    Flow.settle (checkLength job t 0 l.toNat { s with tab := { s.tab with lens := putEntry s.tab.lens t [] } })
  | _ => .fault .tokenOutOfPlace

/-- CODE_LEN_END (R181, R182): the length of symbol `k` is stored; after a group's last symbol comes the next group, after the last
group the tables. -/
def execCodeLenEnd (s : State) : Outcome :=
  match s.ctl with
  | .busy job (.codeLen t k curr) =>
    Flow.settle <|
      lookup s.tab.lens t fun row =>
        let s1 := { s with tab := { s.tab with lens := putEntry s.tab.lens t (putEntry row k curr) } }
        if k + 1 < s.blk.alphaSize then checkLength job t (k + 1) curr s1
        else if t + 1 < s.blk.nGroups then .go { s1 with ctl := .busy job (.codeLenStart (t + 1)) }
        else finishLengths job s1
  | _ => .fault .tokenOutOfPlace

/-- CODE_LEN_INC (R181). -/
def execCodeLenInc (s : State) : Outcome :=
  match s.ctl with
  | .busy job (.codeLen t k curr) => Flow.settle (checkLength job t k (curr + 1) s)
  | _ => .fault .tokenOutOfPlace

/-- CODE_LEN_DEC (R181). -/
def execCodeLenDec (s : State) : Outcome :=
  match s.ctl with
  | .busy job (.codeLen t k curr) => Flow.settle (checkLength job t k (curr - 1) s)
  | _ => .fault .tokenOutOfPlace

end Sys2Proof.Machine
end

