-- ==== Sys2Proof/Machine/Symbols.lean ====
section
/-! DEFINITION. The meanings of the block's symbols RUN_A, RUN_B, MTF and EOB (spec/42_block_decoder.md R185 to R189), and the set-up
of the inverse Burrows-Wheeler transform that EOB starts (spec/43_ibwt.md R200 to R204). -/

namespace Sys2Proof.Machine

/-- `cap = BLOCK_SIZE_100K x 100000` (R170). -/
def cap (s : State) : Int := ((s.blockSize100k * Config.baseBlockSize : Nat) : Int)

/-- `sat(v)`, `M = 2^20` (R186). -/
def sat (v : Nat) : Nat := min v Config.runSat

/-- R186: a run digit of weight `mult x 2^k`. The first digit of a run starts from `RUN_ACC = 0`, `RUN_W = 1`. -/
def runDigit (mult : Nat) (s : State) : Outcome :=
  match s.ctl with
  | .busy job (.symbols inRun) =>
    let acc := if inRun then s.blk.runAcc else 0
    let w := if inRun then s.blk.runW else 1
    .next { s with blk := { s.blk with runAcc := sat (acc + mult * w), runW := sat (2 * w) }, ctl := .busy job (.symbols true) }
  | _ => .fault .tokenOutOfPlace

/-- `n` copies of `c` are appended to `LL8` and counted (R187, R188). -/
def appendBytes (n : Nat) (c : Byte) (s : State) : Flow :=
  lookup s.tab.unzftab c.toNat fun m =>
    .go { s with
      tab := { s.tab with ll8 := s.tab.ll8 ++ List.replicate n c, unzftab := s.tab.unzftab.set c.toNat (m + n) }
      blk := { s.blk with last := s.blk.last + n } }

/-- `flush()` (R187). -/
def flush (s : State) : Flow :=
  if s.blk.last + s.blk.runAcc ≥ cap s then .raise .blockOverrun 2 s
  else lookup s.tab.yy 0 fun y => lookup s.tab.seqToUnseq y fun c => appendBytes s.blk.runAcc c s

/-- The flush of the run that a symbol other than RUN_A and RUN_B ends, if there is one (R185, R186). -/
def endRun (inRun : Bool) (s : State) : Flow := if inRun then flush s else .go s

/-- `mtf(sym)` (R188). -/
def mtfSymbol (sym : Nat) (s : State) : Flow :=
  match moveToFront s.tab.yy (sym - 1) with
  | none => .fault .unspecifiedRead
  | some (tmp, yy) =>
    let s1 := { s with tab := { s.tab with yy := yy } }
    if s.blk.last + 1 ≥ cap s then .raise .blockOverrun 1 s1
    else lookup s1.tab.seqToUnseq tmp fun c => appendBytes 1 c s1

/-- R200: `CFTAB` as prefix sums of `UNZFTAB`, starting from `n`. -/
def prefixSums : Nat → List Nat → List Nat
  | n, [] => [n]
  | n, u :: us => n :: prefixSums (n + u) us

/-- R201, for the bytes of `LL8` from index `i` on: `TT[CFTAB[c]] <- i; CFTAB[c] <- CFTAB[c] + 1`. -/
def fillTT : List Byte → Nat → List Nat → List Nat → Option (List Nat × List Nat)
  | [], _, cf, tt => some (cf, tt)
  | c :: cs, i, cf, tt =>
    match cf[c.toNat]? with
    | none => none
    | some p => fillTT cs (i + 1) (cf.set c.toNat (p + 1)) (tt.set p i)

/-- R203, R204: the cursor at the start of a block whose walk starts at `t`. -/
def startCursor (t : Nat) : Cursor :=
  { tPos := t, i2 := 0, count := 0, z := 0, j2 := 0, ch2 := 256, chPrev := 256, rnToGo := 0, rtPos := 0, blockCrc := crcInit }

/-- `ibwtSetup()` (R200 to R204). Every slot of `TT[0..LAST]` is written by R201; before that the slots hold 0 (log 25). -/
def ibwtSetup (s : State) : Flow :=
  match fillTT s.tab.ll8 0 (prefixSums 0 s.tab.unzftab) (List.replicate s.tab.ll8.length 0) with
  | none => .fault .unspecifiedRead
  | some (cf, tt) =>
    let s1 := { s with tab := { s.tab with cftab := cf, tt := tt } }
    if (s.blk.origPtr.toNat : Int) > s.blk.last then .raise .streamCorrupted 1 s1
    else
      lookup tt s.blk.origPtr.toNat fun t =>
        .go { s1 with cur := startCursor t, state := if s.blk.randomized then .randA else .norandA }

/-- RUN_A (R186). -/
def execRunA (s : State) : Outcome := runDigit 1 s

/-- RUN_B (R186). -/
def execRunB (s : State) : Outcome := runDigit 2 s

/-- MTF (R185, R188): a symbol `m` with `2 <= m <= nInUse`. -/
def execMtf (m : Nat) (s : State) : Outcome :=
  match s.ctl with
  | .busy job (.symbols inRun) =>
    if 2 ≤ m && m ≤ s.blk.nInUse then
      Flow.settle <| (endRun inRun s).andThen fun s1 => (mtfSymbol m s1).andThen fun s2 =>
        .go { s2 with ctl := .busy job (.symbols false) }
    else .fault .tokenOutOfPlace
  | _ => .fault .tokenOutOfPlace

/-- EOB (R185, R189, R200 to R204): the parse is complete, the walk is set up, and the step loop goes on. -/
def execEob (s : State) : Outcome :=
  match s.ctl with
  | .busy job (.symbols inRun) =>
    Flow.settle <| (endRun inRun s).andThen fun s1 => (ibwtSetup s1).andThen fun s2 =>
      .go { s2 with ctl := .busy job .walk }
  | _ => .fault .tokenOutOfPlace

end Sys2Proof.Machine
end

