-- ==== Sys2Proof/Machine/Walk.lean ====
section
/-! DEFINITION. The output walk (spec/43_ibwt.md R205 to R214, spec/44_stream_controller.md R235, R238 to R245): taking a byte, the
derandomiser, the steps `*_A`, `*_B`, `*_C`, the end of a block, what a read command does with a step's result, and the meaning
of RLE1_UNIT. -/

namespace Sys2Proof.Machine

/-- R206, R207: the countdown, then the toggle. -/
def derand (rnums : List Nat) (v : Byte) (c : Cursor) : Option (Byte × Cursor) :=
  let toggled (c : Cursor) : Byte × Cursor := (if c.rnToGo = 1 then v ^^^ 1 else v, c)
  if c.rnToGo = 0 then
    match rnums[c.rtPos]? with
    | none => none
    | some r => some (toggled { c with rnToGo := r - 1, rtPos := (c.rtPos + 1) % 512 })
  else some (toggled { c with rnToGo := c.rnToGo - 1 })

/-- `take()` (R205): the byte taken and the cursor after it; nothing where the walk leaves the written entries (R215, U11). -/
def take (s : State) : Option (Byte × Cursor) :=
  match s.tab.ll8[s.cur.tPos]?, s.tab.tt[s.cur.tPos]? with
  | some v, some t =>
    let c := { s.cur with tPos := t, i2 := s.cur.i2 + 1 }
    if s.blk.randomized then derand s.rnums v c else some (v, c)
  | _, _ => none

/-- What a step yields (R235). -/
inductive StepResult where
  | byte (v : Byte)
  | endOfStream
  | endOfBlock
deriving DecidableEq, Repr

/-- What the read command in progress does with a step's result (R242, R243). A byte ends READ_BYTE; READ_INTO writes it and goes
on until it has `len` of them. END_OF_BLOCK, when it is the command's result, is acknowledged by a scan (R245). -/
def yield (job : Job) (r : StepResult) (s : State) : Flow :=
  match job, r with
  | .readByte, .byte v => .go (respond (v.zeroExtend 64) s)
  | .readByte, .endOfStream => .go (respond endOfStreamResult s)
  | .readByte, .endOfBlock => .go { s with ctl := .busy .readByte .scan }
  | .readInto off len k, .byte v =>
    match outWrite (off + k) v s with
    | none => .fault .outAddress
    | some s1 =>
      if k + 1 < len then .go { s1 with ctl := .busy (.readInto off len (k + 1)) .walk }
      else .go (respond (BitVec.ofNat 64 (k + 1)) s1)
  | .readInto _ _ k, .endOfStream => .go (respond (if k > 0 then BitVec.ofNat 64 k else endOfStreamResult) s)
  | .readInto off len k, .endOfBlock =>
    if k > 0 then .go (respond (BitVec.ofNat 64 k) s) else .go { s with ctl := .busy (.readInto off len k) .scan }
  | .init, _ => .fault .tokenOutOfPlace

/-- `endOfBlock()` (R213, R214, R238). -/
def endOfBlock (s : State) : Flow :=
  let computed := crcFinal s.cur.blockCrc
  if computed ≠ s.blk.storedBlockCrc then .raise .crcMismatch 1 s
  else
    .go { s with
      combinedCrc := foldCrc s.combinedCrc computed
      state := if s.mode = .continuous then .startBlock else .noProcess }

/-- The step `*_A` (R208); `b` is the `*_B` of its family. -/
def stepA (job : Job) (b : StreamState) (s : State) : Flow :=
  if (s.cur.i2 : Int) > s.blk.last then endOfBlock s
  else
    match take s with
    | none => .fault .walkIndex
    | some (v, c) =>
      yield job (.byte v)
        { s with
          cur := { c with chPrev := s.cur.ch2, ch2 := v.zeroExtend 9, blockCrc := crcUpdate s.cur.blockCrc v }
          state := b }

/-- The step `*_C` (R210); `a` is the `*_A` of its family. -/
def stepC (job : Job) (a : StreamState) (s : State) : Flow :=
  if s.cur.j2 < s.cur.z.toNat then
    let v : Byte := s.cur.ch2.truncate 8
    yield job (.byte v) { s with cur := { s.cur with j2 := s.cur.j2 + 1, blockCrc := crcUpdate s.cur.blockCrc v } }
  else .go { s with cur := { s.cur with count := 0 }, state := a }

/-- How the step `*_B` goes on (R209). -/
inductive StepB where
  /-- Back to `*_A`, or an error. -/
  | flow (f : Flow)
  /-- The fourth equal byte: the length byte `z` has been taken, `s` is the state after that. -/
  | unit (c z : Byte) (s : State)
deriving DecidableEq, Repr

/-- The step `*_B` (R209) up to the length byte; `a` is the `*_A` of its family. -/
def stepB (a : StreamState) (s : State) : StepB :=
  if s.cur.ch2 ≠ s.cur.chPrev then .flow (.go { s with cur := { s.cur with count := 1 }, state := a })
  else
    let s1 := { s with cur := { s.cur with count := s.cur.count + 1 } }
    if s1.cur.count < 4 then .flow (.go { s1 with state := a })
    else if (s.cur.i2 : Int) > s.blk.last then .flow (.raise .streamCorrupted 2 s1)
    else
      match take s1 with
      | none => .flow (.fault .walkIndex)
      | some (z, c) => .unit (s.cur.ch2.truncate 8) z { s1 with cur := c }

/-- The `*_C` that follows a `*_B`; nothing for another state. -/
def tailState : StreamState → Option StreamState
  | .randB => some .randC
  | .norandB => some .norandC
  | .startBlock | .noProcess | .randA | .randC | .norandA | .norandC | .eof => none

/-- RLE1_UNIT (R209, R210): four equal bytes `c` have been emitted and the length byte `z` taken; `z` more copies of `c` are due
(log 17). -/
def execRle1Unit (c z : Byte) (s : State) : Outcome :=
  match s.ctl, tailState s.state with
  | .busy _ .walk, some st =>
    if s.cur.count = 4 && s.cur.ch2 = c.zeroExtend 9 then .next { s with cur := { s.cur with z := z, j2 := 0 }, state := st }
    else .fault .tokenOutOfPlace
  | _, _ => .fault .tokenOutOfPlace

end Sys2Proof.Machine
end

