-- ==== Sys2Proof/Machine/Sequencer.lean ====
section
/-! DEFINITION. The sequencer: what a command in progress does next. It is either a row of the opcode table (a token of the
bit-stream, the marker a scan finds, an RLE1 unit of the walk), read by `nextStep` and run by `runToken`, or one of the internal
steps of R208 to R210, R235 to R240 and R245. `runToResponse` repeats that until the command has responded or waits for its
source (R230, log 1). -/

namespace Sys2Proof.Machine

/-- How the reading of a token ends. -/
inductive Fetched where
  /-- The instruction, and the state with its bits consumed. -/
  | instr (i : Instr) (s : State)
  /-- An error of the rules, raised in `s`. -/
  | raised (e : ErrKind) (d : Nat) (s : State)
  /-- The source has not answered yet (U8): `s` holds what has been consumed and written so far (log 9). -/
  | wait (s : State)
  /-- A table entry that holds no value was needed (R53). -/
  | undefined
deriving DecidableEq, Repr

/-- A parse run over the machine's bit reader (R131). The bits consumed are held while the token is in progress. -/
def runParse : Parse → State → Fetched
  | .done i, s => .instr i { s with rd := s.rd.release }
  | .reject e d, s => .raised e d { s with rd := s.rd.release }
  | .nothing, _ => .undefined
  | .read n e d k, s =>
    match readBits n s.rd with
    | .got v r => runParse (k v) { s with rd := r.hold n v }
    | .eof r => .raised e d { s with rd := r.release }
    | .wait r => .wait { s with rd := r }
  | .write w k, s => runParse k (applyEarly w s)

/-- The rest of a parse of which the bits `bs` have been consumed. Early writes are kept: made again they change nothing. -/
def resume : Parse → List Bool → Parse
  | .read n e d k, bs => if n ≤ bs.length then resume (k (natOfBits (bs.take n))) (bs.drop n) else .read n e d k
  | .write w k, bs => .write w (resume k bs)
  | .done i, _ => .done i
  | .reject e d, _ => .reject e d
  | .nothing, _ => .nothing

/-- R184: the parse of the next symbol, with the table its selector names. -/
def symbolParse (s : State) : Parse :=
  let g := s.blk.symCount / Config.gSize
  if g ≥ s.blk.nSelectors then .reject .tableMalformed 8
  else
    match s.tab.selector[g]? with
    | none => .nothing
    | some t =>
      match s.tab.tables[t]? with
      | none => .nothing
      | some tbl => parseSymbol tbl s.blk.nInUse

/-- The parse of the token a phase expects; a scan and the walk read none this way. -/
def phaseParse (s : State) : Phase → Parse
  | .header => parseHeader
  | .marker => parseMarker
  | .blockHeader => parseBlockHeader
  | .symbolMap => parseSymbolMap
  | .tableCounts => parseTableCounts
  | .selector _ => parseSelector s.blk.nGroups 0
  | .codeLenStart _ => parseCodeLenStart
  | .codeLen _ _ _ => parseCodeLen
  | .symbols _ => symbolParse s
  | .scan | .walk => .nothing

/-- R184: a decoded symbol is counted in `SYM_COUNT`. -/
def countSymbol (ph : Phase) (s : State) : State :=
  match ph with
  | .symbols _ => { s with blk := { s.blk with symCount := s.blk.symCount + 1 } }
  | .header | .scan | .walk | .marker | .blockHeader | .symbolMap | .tableCounts => s
  | .selector _ | .codeLenStart _ | .codeLen _ _ _ => s

/-- Reads the token a phase expects, from where a wait has left it. -/
def fetchToken (ph : Phase) (s : State) : Fetched :=
  match runParse (resume (phaseParse s ph) s.rd.part) s with
  | .instr i s1 => .instr i (countSymbol ph s1)
  | .raised e d s1 => .raised e d s1
  | .wait s1 => .wait s1
  | .undefined => .undefined

/-- What a command in progress does next. -/
inductive Next where
  /-- It runs the instruction `i` in the state `s`. -/
  | instr (i : Instr) (s : State)
  /-- An internal step with this outcome. -/
  | inner (o : Flow)
  /-- It waits for the byte source, in the state `s`. -/
  | wait (s : State)
deriving DecidableEq, Repr

/-- A `*_B` step (R209); the length byte makes it an RLE1 unit. -/
def nextOfB (a : StreamState) (s : State) : Next :=
  match stepB a s with
  | .flow f => .inner f
  | .unit c z s1 => .instr (.rle1Unit c z) s1

/-- One pass of the step loop (R235). -/
def nextOfWalk (job : Job) (s : State) : Next :=
  match s.state with
  | .eof => .inner (yield job .endOfStream s)
  | .noProcess => .inner (yield job .endOfBlock s)
  | .startBlock => .inner (.go { s with ctl := .busy job (if s.mode = .continuous then .marker else .blockHeader) })
  | .randA => .inner (stepA job .randB s)
  | .norandA => .inner (stepA job .norandB s)
  | .randB => nextOfB .randA s
  | .norandB => nextOfB .norandA s
  | .randC => .inner (stepC job .randA s)
  | .norandC => .inner (stepC job .norandA s)

/-- The scan (R137 to R140): the marker found is BLOCK_MARK; without one, `REPORTED <- RAW` and the scan ends. -/
def nextOfScan (job : Job) (s : State) : Next :=
  match scanFor s.rd with
  | .found r => .instr .blockMark { s with rd := r }
  | .eof r => .inner (.go (finishScan job false { s with rd := r, reported := r.raw }))
  | .wait r => .wait { s with rd := r }

/-- What the command in progress does next; an idle machine has none and stays as it is. -/
def nextStep (s : State) : Next :=
  match s.ctl with
  | .idle => .inner (.go s)
  | .busy job .walk => nextOfWalk job s
  | .busy job .scan => nextOfScan job s
  | .busy _ ph =>
    match fetchToken ph s with
    | .instr i s1 => .instr i s1
    | .raised e d s1 => .inner (.raise e d s1)
    | .wait s1 => .wait s1
    | .undefined => .inner (.fault .unspecifiedRead)

/-- The meaning of a token; a host command is none. -/
def runToken (i : Instr) (s : State) : Outcome :=
  match i with
  | .streamHeader d => execStreamHeader d s
  | .blockMark => execBlockMark s
  | .eosMark c => execEosMark c s
  | .blockHeader c r p => execBlockHeader c r p s
  | .symbolMap u ws => execSymbolMap u ws s
  | .tableCounts g n => execTableCounts g n s
  | .selectorMtf0 => execSelectorMtf0 s
  | .selectorMtf1 => execSelectorMtf1 s
  | .selectorMtf2 => execSelectorMtf2 s
  | .selectorMtf3 => execSelectorMtf3 s
  | .selectorMtf4 => execSelectorMtf4 s
  | .selectorMtf5 => execSelectorMtf5 s
  | .selectorMtfBad => execSelectorMtfBad s
  | .codeLenStart l => execCodeLenStart l s
  | .codeLenEnd => execCodeLenEnd s
  | .codeLenInc => execCodeLenInc s
  | .codeLenDec => execCodeLenDec s
  | .runA => execRunA s
  | .runB => execRunB s
  | .mtf m => execMtf m s
  | .eob => execEob s
  | .rle1Unit c z => execRle1Unit c z s
  | .initContinuous | .initByblock | .readByte | .readInto | .getReported | .adjustReported | .close | .reserved _ =>
    .fault .tokenOutOfPlace

/-- How one step of the command in progress ends. -/
inductive Turn where
  /-- It ran, with this outcome. -/
  | ran (o : Outcome)
  /-- It waits for its source, in the state `s` (U8). -/
  | waits (s : State)

/-- One step of the command in progress. -/
def commandStep (s : State) : Turn :=
  match nextStep s with
  | .instr i s1 => .ran (runToken i s1)
  | .inner f => .ran f.settle
  | .wait s1 => .waits s1

/-- Steps of the command in progress until it has responded or waits, at most `fuel` of them. -/
def runToResponse : Nat → State → Outcome
  | 0, s => .next s
  | fuel + 1, s =>
    match s.ctl with
    | .idle => .next s
    | .busy _ _ =>
      match commandStep s with
      | .waits s1 => .next s1
      | .ran (.next s1) => runToResponse fuel s1
      | .ran (.fault f) => .fault f
      | .ran (.refused r) => .refused r

/-- The output bytes the command in progress still wants. -/
def bytesWanted (s : State) : Nat :=
  match s.ctl with
  | .idle => 0
  | .busy .init _ => 0
  | .busy .readByte _ => 1
  | .busy (.readInto _ len k) _ => len - k

/-- How far the control point is from the next read or the next byte (0 to 4): `*_B` leads to `*_C` and `*_A`, `*_A` to the block's
end, that to the next block. -/
def walkRank (s : State) : Nat :=
  match s.ctl with
  | .busy _ .walk =>
    match s.state with
    | .eof | .noProcess | .startBlock => 1
    | .randA | .norandA => 2
    | .randC | .norandC => 3
    | .randB | .norandB => 4
  | .idle | .busy _ _ => 0

/-- A bound on the steps a command takes: each completes a token of at least one bit, yields a byte, or lowers the rank (R235, R308,
log 21). -/
def stepBound (s : State) : Nat := 4 * (s.rd.part.length + bitsLeft s.rd) + 3 * bytesWanted s + walkRank s + 1

/-- A command in progress runs to its response (R230). -/
def runCommand (s : State) : Outcome := runToResponse (stepBound s) s

end Sys2Proof.Machine
end

