-- ==== Sys2Proof/Machine/Commands.lean ====
section
/-! DEFINITION. The meanings of the host commands INIT.CONTINUOUS, INIT.BYBLOCK, READ_BYTE, READ_INTO, GET_REPORTED,
ADJUST_REPORTED, CLOSE and of a reserved command word (spec/44_stream_controller.md R230 to R249, spec/30_encoding.md R94). A
command runs to its response (R230). -/

namespace Sys2Proof.Machine

/-- R305, U4: `CMD` must not be written while a command runs. -/
def whenIdle (s : State) (k : State → Outcome) : Outcome :=
  match s.ctl with
  | .idle => k s
  | .busy _ _ => .fault .commandWhileBusy

/-- R231, check 2: on a closed block the command is refused with InvalidArgument(4). -/
def whenOpen (s : State) (k : State → Outcome) : Outcome :=
  if s.closed then .next (raiseError .invalidArgument 4 s) else k s

/-- INIT.CONTINUOUS (R232, R233). -/
def execInitContinuous (s : State) : Outcome := whenIdle s fun s => runCommand (beginInit .continuous .header s)

/-- INIT.BYBLOCK (R232, R234). -/
def execInitByblock (s : State) : Outcome := whenIdle s fun s => runCommand (beginInit .byblock .scan s)

/-- READ_BYTE (R242). -/
def execReadByte (s : State) : Outcome :=
  whenIdle s fun s => whenOpen s fun s => runCommand { s with ctl := .busy .readByte .walk }

/-- READ_INTO (R243) with its checks (R231). -/
def execReadInto (s : State) : Outcome :=
  whenIdle s fun s => whenOpen s fun s =>
    match readIntoCheck s with
    | some d => .next (raiseError .invalidArgument d s)
    | none =>
      if lenOperand s = 0 then .next (respond 0 s)
      else runCommand { s with ctl := .busy (.readInto (offOperand s).toNat (lenOperand s).toNat 0) .walk }

/-- GET_REPORTED (R247). -/
def execGetReported (s : State) : Outcome := whenIdle s fun s => whenOpen s fun s => .next (respond s.reported s)

/-- ADJUST_REPORTED (R248): the sum is modulo `2^64`. -/
def execAdjustReported (s : State) : Outcome :=
  whenIdle s fun s => whenOpen s fun s =>
    .next (respond 0 { s with reported := s.reported + BitVec.ofNat 64 (adjustOperand s) })

/-- CLOSE (R249): on a closed block it changes nothing. -/
def execClose (s : State) : Outcome :=
  whenIdle s fun s => .next (respond 0 (if s.closed then s else closeInstance s))

/-- A reserved command word `w` (R94, R231 check 1). -/
def execReserved (_w : Word) (s : State) : Outcome := whenIdle s fun s => .next (raiseError .invalidArgument 1 s)

end Sys2Proof.Machine
end

