-- ==== Sys2Proof/Machine/Dispatch.lean ====
section
/-! DEFINITION. The meaning of every instruction: one arm for each row of spec/opcode_table.json. -/

namespace Sys2Proof.Machine

def exec (i : Instr) (s : State) : Host.Outcome State Fault Refusal :=
  match i with
  -- host commands (spec/44_stream_controller.md, spec/30_encoding.md)
  | .initContinuous => Sys2Proof.Machine.execInitContinuous s
  | .initByblock => Sys2Proof.Machine.execInitByblock s
  | .readByte => Sys2Proof.Machine.execReadByte s
  | .readInto => Sys2Proof.Machine.execReadInto s
  | .getReported => Sys2Proof.Machine.execGetReported s
  | .adjustReported => Sys2Proof.Machine.execAdjustReported s
  | .close => Sys2Proof.Machine.execClose s
  | .reserved w => Sys2Proof.Machine.execReserved w s
  -- framing tokens
  | .streamHeader d => Sys2Proof.Machine.execStreamHeader d s
  | .blockMark => Sys2Proof.Machine.execBlockMark s
  | .eosMark c => Sys2Proof.Machine.execEosMark c s
  | .blockHeader c r p => Sys2Proof.Machine.execBlockHeader c r p s
  -- tables
  | .symbolMap u ws => Sys2Proof.Machine.execSymbolMap u ws s
  | .tableCounts g n => Sys2Proof.Machine.execTableCounts g n s
  | .selectorMtf0 => Sys2Proof.Machine.execSelectorMtf0 s
  | .selectorMtf1 => Sys2Proof.Machine.execSelectorMtf1 s
  | .selectorMtf2 => Sys2Proof.Machine.execSelectorMtf2 s
  | .selectorMtf3 => Sys2Proof.Machine.execSelectorMtf3 s
  | .selectorMtf4 => Sys2Proof.Machine.execSelectorMtf4 s
  | .selectorMtf5 => Sys2Proof.Machine.execSelectorMtf5 s
  | .selectorMtfBad => Sys2Proof.Machine.execSelectorMtfBad s
  | .codeLenStart l => Sys2Proof.Machine.execCodeLenStart l s
  | .codeLenEnd => Sys2Proof.Machine.execCodeLenEnd s
  | .codeLenInc => Sys2Proof.Machine.execCodeLenInc s
  | .codeLenDec => Sys2Proof.Machine.execCodeLenDec s
  -- symbols
  | .runA => Sys2Proof.Machine.execRunA s
  | .runB => Sys2Proof.Machine.execRunB s
  | .mtf m => Sys2Proof.Machine.execMtf m s
  | .eob => Sys2Proof.Machine.execEob s
  -- the output walk
  | .rle1Unit c z => Sys2Proof.Machine.execRle1Unit c z s

end Sys2Proof.Machine
end

