-- ==== Sys2Proof/Machine/HostPort.lean ====
section
/-! DEFINITION. What the host and the byte source do between the block's steps (R6, R302, R305, R306, R62; log 13), and where a
word of the opcode table is put so that the next step runs it. Writing `CMD` is not here: it starts a command (Machine/Step.lean). -/

namespace Sys2Proof.Machine

/-- Whether a command is in progress. -/
def isBusy (s : State) : Bool :=
  match s.ctl with
  | .idle => false
  | .busy _ _ => true

/-- Whether offset `a` is in the range `OUT[off .. off+len-1]` of a READ_INTO in progress (R306). -/
def inReadRange (a : Nat) (s : State) : Bool :=
  match s.ctl with
  | .busy (.readInto off len _) _ => off ≤ a && a < off + len
  | .busy .init _ | .busy .readByte _ | .idle => false

/-- The host reads the `n`-bit value `v`, zero-extended. Before the command has completed it may read any `n`-bit value (R305, U5,
U6): a free value (log 14). -/
def hostReads {n : Nat} (v : BitVec n) (s : State) : State :=
  if isBusy s then
    { s with hostData := (BitVec.ofNat n (Config.freeNat s.draws 30)).zeroExtend 64, draws := s.draws + 1 }
  else { s with hostData := v.zeroExtend 64 }

/-- An action of the host or the source other than writing `CMD`. -/
def hostAct (a : HostAct) (s : State) : Outcome :=
  match a with
  | .writeArg0 v => .next { s with arg0 := v }
  | .writeArg1 v => .next { s with arg1 := v }
  | .writeCmd v => .next { s with cmd := v }
  | .readStatus => .next (hostReads s.status s)
  | .readResult => .next (hostReads s.result s)
  | .readOut o => if o < s.outCap then .next (hostReads (memRead s.out o) s) else .fault .outAddress
  | .writeOut o v =>
    if inReadRange o s then .fault .outDuringReadInto
    else
      match outWrite o v s with
      | some s1 => .next s1
      | none => .fault .outAddress
  | .attach src => .next { s with attached := some src }
  | .deliver bytes =>
    if s.rd.srcEnds then .refused .sourceBreaksDuty else .next { s with rd := { s.rd with src := s.rd.src ++ bytes } }
  | .endSource => .next { s with rd := { s.rd with srcEnds := true } }

/-! ## Placing a word of the opcode table (log 18, log 23) -/

/-- The bytes of a row of `n` bits, padded with zero bits to whole bytes, in stream order. -/
def rowBytes (n w : Nat) : List Byte :=
  let m := (n + 7) / 8
  (List.range m).map fun i => BitVec.ofNat 8 ((w <<< (8 * m - n)) >>> (8 * (m - 1 - i)))

/-- The command in progress is at `ph` and the source has just these bytes to deliver. -/
def placeToken (job : Job) (ph : Phase) (bytes : List Byte) (s : State) : State :=
  { s with closed := false, ctl := .busy job ph, rd := { s.rd with live := 0, src := bytes, srcEnds := true, part := [] } }

/-- An RLE1 unit in the walk: three equal bytes counted, the fourth just emitted, the length byte next (R209). -/
def placeUnit (c z : Byte) (s : State) : State :=
  { s with
    closed := false, ctl := .busy .readByte .walk, state := .norandB
    blk := { s.blk with randomized := false, last := 0 }
    tab := { s.tab with ll8 := [z], tt := [0] }
    cur := { s.cur with tPos := 0, i2 := 0, count := 3, ch2 := c.zeroExtend 9, chPrev := c.zeroExtend 9 } }

/-- `s` with the row of `nbits` bits and value `w` where the next step reads it. A command word is written to `CMD` by the host. A
token stands at the place the decoder expects it, in a command in progress. -/
def placeWord (nbits w : Nat) (s : State) : State :=
  if nbits = 32 then { s with ctl := .idle, script := .writeCmd (BitVec.ofNat 32 w) :: s.script }
  else if nbits = 16 then placeToken .init .header (rowBytes 16 w) s
  else if nbits = 48 then placeToken .readByte .marker (rowBytes 48 w) { s with state := .startBlock }
  else if nbits = 80 then placeToken .readByte .marker (rowBytes 80 w) { s with state := .startBlock }
  else if nbits = 64 then placeToken .readByte .blockHeader (rowBytes 57 w) { s with state := .startBlock }
  else if nbits = 24 then placeToken .readByte .tableCounts (rowBytes 18 w) { s with state := .startBlock }
  else if nbits = 40 then placeUnit (BitVec.ofNat 8 (w >>> 8)) (BitVec.ofNat 8 w) s
  else if nbits = 8 then
    let bytes := rowBytes (shortBits w).length w
    match decodeAll (.selector 6) (shortBits w) with
    | some _ =>
      placeToken .readByte (.selector 0) bytes
        { s with state := .startBlock, blk := { s.blk with nGroups := 6, nSelectors := 2 } }
    | none =>
      placeToken .readByte (.codeLen 0 0 10) bytes
        { s with state := .startBlock, blk := { s.blk with alphaSize := 3 }, tab := { s.tab with lens := [[]] } }
  else s

end Sys2Proof.Machine
end

