-- ==== Sys2Proof/Machine/Cycle.lean ====
section
/-! DEFINITION. The cycle of the machine (R6, R230, R235, log 13). A command in progress goes on by one instruction or one internal
step. When the block is idle, or waits for its source, the next action of the host or the source happens; writing `CMD` decodes the
word and runs the command. -/

namespace Sys2Proof.Machine

/-- The next action of the host or the source; with none left the machine waits (R301, U8). -/
def hostStep (s : State) : Outcome :=
  match s.script with
  | [] => .next s
  | .writeCmd w :: rest => exec (decodeCmd w) { s with cmd := w, script := rest }
  | a :: rest => hostAct a { s with script := rest }

/-- One cycle. -/
def cycle (s : State) : Outcome :=
  match s.ctl with
  | .idle => hostStep s
  | .busy _ _ =>
    match nextStep s with
    | .instr i s1 => exec i s1
    | .inner f => f.settle
    | .wait s1 => hostStep s1

end Sys2Proof.Machine
end

