-- ==== Sys2Proof/Machine/Step.lean ====
section
/-! DEFINITION. One step of the machine, and where the host's check puts a word so that the next step runs it. -/

namespace Sys2Proof.Machine

/-- One step of the machine (Machine/Cycle.lean). -/
def step (s : State) : Host.Outcome State Fault Refusal := cycle s

/-- `s` with a row of the opcode table where `step` reads its next instruction (log 18, log 23). -/
def State.withFetchWord (s : State) (nbits w : Nat) : State := placeWord nbits w s

end Sys2Proof.Machine
end

