-- ==== Sys2Proof/Safety.lean ====
section
/-! DEFINITION. What counts as a safe run. `Inv` is the invariant of the machine: the ranges of spec/10_state.md, the walk bounds of
R215, the permutation of R201 and the between-command invariants of R52, each where the control point makes it meaningful.
`HostDuty` is what R303, R305 and R306 ask of the host and the source. From a state with `Inv`, a step whose next action keeps
its duty gives a next state (spec/60_exceptions.md: an error of the rules is a next state, not a stop). -/

namespace Sys2Proof.Machine

/-- The parameters of R9: `OUT_CAP` and `RNUMS`. -/
def ParamsOk (s : State) : Prop :=
  s.outCap < 2 ^ 31 ∧ s.rnums.length = 512 ∧ ∀ r ∈ s.rnums, 1 ≤ r ∧ r < 2 ^ 16

/-- `OUT` is in its canonical form and inside `0 .. OUT_CAP-1` (R64, R74). -/
def OutOk (s : State) : Prop := Memory.wf s.out = true ∧ ∀ c ∈ s.out, c.1 < s.outCap

/-- The symbol map after R174 to R176. -/
def MapOk (s : State) : Prop :=
  s.tab.seqToUnseq = compact s.tab.inUse ∧ s.blk.nInUse = s.tab.seqToUnseq.length ∧ 1 ≤ s.blk.nInUse ∧
    s.blk.alphaSize = s.blk.nInUse + 2

/-- The table counts after R177, R178. -/
def CountsOk (s : State) : Prop :=
  2 ≤ s.blk.nGroups ∧ s.blk.nGroups ≤ 6 ∧ 1 ≤ s.blk.nSelectors ∧ s.blk.nSelectors ≤ Config.maxSelectors

/-- The selectors after R180. -/
def SelectorsOk (s : State) : Prop :=
  s.tab.selector.length = s.blk.nSelectors ∧ ∀ g ∈ s.tab.selector, g < s.blk.nGroups

/-- The first `n` code lengths of a group (R37). -/
def RowOk (n : Nat) (row : List Nat) : Prop := row.length = n ∧ ∀ l ∈ row, 1 ≤ l ∧ l ≤ Config.maxCodeLen

/-- The lengths and the tables of every group after R182 (R37, R38). -/
def TablesOk (s : State) : Prop :=
  s.tab.lens.length = s.blk.nGroups ∧ (∀ row ∈ s.tab.lens, RowOk s.blk.alphaSize row) ∧
    buildTables s.tab.lens = (s.tab.tables, true)

/-- How often each byte value stands in `l` (R42). -/
def counts (l : List Byte) : List Nat := (List.range 256).map fun c => l.count (BitVec.ofNat 8 c)

/-- `LL8`, `LAST` and `UNZFTAB` agree and the block is within its capacity (R41, R42, R189). -/
def BytesOk (s : State) : Prop :=
  s.tab.unzftab = counts s.tab.ll8 ∧ s.blk.last = (s.tab.ll8.length : Int) - 1 ∧ (s.tab.ll8.length : Int) ≤ cap s

/-- The symbol loop (R39, R40, R183 to R188): `YY` is a permutation, and so are its first `N_IN_USE` entries. -/
def SymbolsOk (s : State) : Prop :=
  s.tab.yy.Perm (List.range 256) ∧ (s.tab.yy.take s.blk.nInUse).Perm (List.range s.blk.nInUse) ∧
    s.blk.symCount ≤ Config.gSize * s.blk.nSelectors ∧ BytesOk s

/-- The registers of a run in progress (R43). -/
def RunOk (s : State) : Prop := s.blk.runAcc ≤ Config.runSat ∧ s.blk.runW ≤ Config.runSat

/-- The output walk (R45 to R50, R52, R201, R215). -/
def WalkOk (s : State) : Prop :=
  s.blk.last = (s.tab.ll8.length : Int) - 1 ∧ (s.tab.ll8.length : Int) ≤ cap s ∧
    s.tab.tt.Perm (List.range s.tab.ll8.length) ∧ s.cur.tPos < s.tab.ll8.length ∧ s.cur.i2 ≤ s.tab.ll8.length ∧
    s.cur.rtPos < 512 ∧ s.cur.rnToGo < 2 ^ 16

/-- A state `*_A`: at most three equal bytes counted (R47, R209). -/
def WalkA (s : State) : Prop := WalkOk s ∧ s.cur.count ≤ 3

/-- A state `*_B`: a byte has been taken (R48). -/
def WalkB (s : State) : Prop := WalkOk s ∧ s.cur.count ≤ 3 ∧ s.cur.ch2.toNat ≤ 255

/-- A state `*_C`: four equal bytes and a length byte have been taken (R50, R52). -/
def WalkC (s : State) : Prop := WalkOk s ∧ s.cur.count = 4 ∧ s.cur.ch2.toNat ≤ 255 ∧ s.cur.j2 ≤ s.cur.z.toNat

/-- What holds in each stream state (R23, R52, R241). -/
def StateOk (s : State) : Prop :=
  match s.state with
  | .startBlock | .eof => True
  | .noProcess => s.mode = .byblock
  | .randA => s.blk.randomized = true ∧ WalkA s
  | .randB => s.blk.randomized = true ∧ WalkB s
  | .randC => s.blk.randomized = true ∧ WalkC s
  | .norandA => s.blk.randomized = false ∧ WalkA s
  | .norandB => s.blk.randomized = false ∧ WalkB s
  | .norandC => s.blk.randomized = false ∧ WalkC s

/-- The operands of a command in progress (R231, R243). -/
def JobOk (s : State) : Job → Prop
  | .init | .readByte => True
  | .readInto off len k => k < len ∧ off + len ≤ s.outCap

/-- What holds at each control point of a command in progress. -/
def PhaseOk (s : State) (job : Job) : Phase → Prop
  | .header => job = .init
  | .scan => job = .init ∨ s.state = .noProcess
  | .walk => job ≠ .init ∧ StateOk s
  | .marker => job ≠ .init ∧ s.state = .startBlock ∧ s.mode = .continuous
  | .blockHeader | .symbolMap => job ≠ .init ∧ s.state = .startBlock
  | .tableCounts => job ≠ .init ∧ s.state = .startBlock ∧ MapOk s
  | .selector i =>
    job ≠ .init ∧ s.state = .startBlock ∧ MapOk s ∧ CountsOk s ∧ i < s.blk.nSelectors ∧
      s.tab.selectorMtf.length = i ∧ ∀ v ∈ s.tab.selectorMtf, v < s.blk.nGroups
  | .codeLenStart t =>
    job ≠ .init ∧ s.state = .startBlock ∧ MapOk s ∧ CountsOk s ∧ SelectorsOk s ∧ t < s.blk.nGroups ∧
      s.tab.lens.length = t ∧ ∀ row ∈ s.tab.lens, RowOk s.blk.alphaSize row
  | .codeLen t k curr =>
    job ≠ .init ∧ s.state = .startBlock ∧ MapOk s ∧ CountsOk s ∧ SelectorsOk s ∧ t < s.blk.nGroups ∧
      k < s.blk.alphaSize ∧ 1 ≤ curr ∧ curr ≤ Config.maxCodeLen ∧ s.tab.lens.length = t + 1 ∧
      (∀ row ∈ s.tab.lens.take t, RowOk s.blk.alphaSize row) ∧ ∀ row ∈ s.tab.lens.drop t, RowOk k row
  | .symbols inRun =>
    job ≠ .init ∧ s.state = .startBlock ∧ MapOk s ∧ CountsOk s ∧ SelectorsOk s ∧ TablesOk s ∧ SymbolsOk s ∧
      (inRun = true → RunOk s)

/-- Whether the machine may still read the bit-stream: it is at a control point that reads, or its stream has not ended. -/
def Reading (s : State) : Prop :=
  s.state ≠ .eof ∨ match s.ctl with
    | .idle | .busy _ .walk => False
    | .busy _ _ => True

/-- The bits `bs` end just where a read of the parse ends: a command can wait there (log 9). -/
def boundary : Parse → List Bool → Prop
  | .done _, bs | .reject _ _, bs | .nothing, bs => bs = []
  | .read n _ _ k, bs => bs = [] ∨ (n ≤ bs.length ∧ boundary (k (natOfBits (bs.take n))) (bs.drop n))
  | .write _ k, bs => boundary k bs

/-- The width of the next read of a parse. -/
def nextWidth : Parse → Nat
  | .read n _ _ _ => n
  | .write _ k => nextWidth k
  | .done _ | .reject _ _ | .nothing => 0

/-- The bit reader inside a token: `LIVE <= 7` where a read begins, and less than the read asks for where it waits. -/
def InToken (p : Parse) (r : BitReader) : Prop := boundary p r.part ∧ (r.live ≤ 7 ∨ r.live < nextWidth (resume p r.part))

/-- The bit reader (R26, R136, log 9). Between tokens `LIVE <= 7` while the stream may be read; an `EOF` or a wait inside a read may
leave up to 47 bits. Bits are held only by a command that waits: of a token, or of a scan its 48-bit window. -/
def ReaderOk (s : State) : Prop :=
  s.rd.live ≤ 47 ∧
    match s.ctl with
    | .idle | .busy _ .walk => s.rd.part = [] ∧ (s.state ≠ .eof → s.rd.live ≤ 7)
    | .busy _ .scan => s.rd.part = [] ∨ (s.rd.part.length = 48 ∧ s.rd.live ≤ 7)
    | .busy _ ph => InToken (phaseParse s ph) s.rd

/-- The error registers (R24, R271, R275, R276): an instance with an error is at `EOF` and reads nothing. -/
def ErrOk (s : State) : Prop := s.err.toNat ≤ 8 ∧ (s.err ≠ 0 → ¬ Reading s)

/-- What holds of an open instance. -/
def OpenInv (s : State) : Prop :=
  1 ≤ s.blockSize100k ∧ s.blockSize100k ≤ 9 ∧ ReaderOk s ∧ ErrOk s ∧
    match s.ctl with
    | .idle => StateOk s
    | .busy job ph => JobOk s job ∧ PhaseOk s job ph

/-- The invariant of the machine. Of a closed block it says only that no command runs and that the parameters and `OUT` are in
order: everything else is unspecified (R53). -/
def Inv (s : State) : Prop :=
  ParamsOk s ∧ OutOk s ∧ (s.closed = true → s.ctl = .idle) ∧ (s.closed = false → OpenInv s)

/-- What the host and the source owe the block (R303, R305, R306, R64): no `CMD` while a command runs, no access to the range of a
READ_INTO in progress by a write, no offset beyond `OUT_CAP` (log 29), no byte after `EOF`. A response or a byte of `OUT` read early
stops nothing, it gives a free value (U5, U6, log 14), so no duty is asked of the host's reads. -/
def HostDuty (s : State) : HostAct → Prop
  | .writeCmd _ => s.ctl = .idle
  | .readOut a => a < s.outCap
  | .writeOut a _ => a < s.outCap ∧ inReadRange a s = false
  | .deliver _ => s.rd.srcEnds = false
  | .writeArg0 _ | .writeArg1 _ | .readStatus | .readResult | .attach _ | .endSource => True

/-- The next action of the host or the source, if there is one, keeps its duty. -/
def NextActOk (s : State) : Prop := ∀ a ∈ s.script.head?, HostDuty s a

/-- A step is safe if it gives a next state. -/
def SafeStep (s : State) : Prop := ∃ t, step s = .next t

/-- The bits the block has not consumed yet, in stream order: the `LIVE` low bits of `BUF`, then the bytes the source will
deliver (R25, R68). -/
def bitsAhead (r : BitReader) : List Bool := bitsMsb r.live r.buf.toNat ++ bitsOfBytes r.src

/-- The bits from the start of the token or the scan window in progress on: those held, and those ahead (log 9). -/
def bitsSince (r : BitReader) : List Bool := r.part ++ bitsAhead r

/-- `r'` is `r` after the next `m` bytes of the source have been pulled: each counted in `RAW`, and no other byte touched (R73, R130). -/
def PulledBytes (m : Nat) (r r' : BitReader) : Prop :=
  m ≤ r.src.length ∧ r'.src = r.src.drop m ∧ r'.raw = r.raw + BitVec.ofNat 64 m ∧ r'.srcEnds = r.srcEnds

/-- The fields a parse of the bits `bs` writes before it ends (R171, R172, R174, R177; log 24), in order. -/
def earlyWrites : Parse → List Bool → List EarlyWrite
  | .done _, _ | .reject _ _, _ | .nothing, _ => []
  | .read n _ _ k, bs => if n ≤ bs.length then earlyWrites (k (natOfBits (bs.take n))) (bs.drop n) else []
  | .write w k, bs => w :: earlyWrites k bs

/-- A state after early writes. -/
def applyEarlies (ws : List EarlyWrite) (s : State) : State := ws.foldl (fun s w => applyEarly w s) s

/-- No read of a parse is wider than the bit reader allows (R112, R131). -/
def widthsOk : Parse → Prop
  | .done _ | .reject _ _ | .nothing => True
  | .read n _ _ k => n ≤ 48 ∧ ∀ v, widthsOk (k v)
  | .write _ k => widthsOk k

/-- The bit position `P = 8 x RAW - LIVE` (R135). -/
def bitPos (r : BitReader) : Nat := 8 * r.raw.toNat - r.live

/-! ## What the statements speak of -/

/-- The block marker as bits (R100). -/
def markBits : List Bool := bitsMsb 48 Config.blockMark

/-- The block marker begins at bit `q` of `bs`. -/
def MarkAt (bs : List Bool) (q : Nat) : Prop := (bs.drop q).take 48 = markBits

/-- The first block marker of `bs` begins at bit `q` (R138). -/
def FirstMark (bs : List Bool) (q : Nat) : Prop := MarkAt bs q ∧ ∀ p < q, ¬ MarkAt bs p

/-- Where the decoder expects something: at most six groups, and for a symbol the lengths of a whole alphabet that are in range and
not over-subscribed (R37, R103, R154). -/
def expectOk : Expect → Prop
  | .selector g => g ≤ 6
  | .symbol lens n =>
    lens.length = n + 2 ∧ 1 ≤ n ∧ n ≤ 256 ∧ (∀ l ∈ lens, 1 ≤ l ∧ l ≤ Config.maxCodeLen) ∧ (buildTable lens).2 = true
  | .header | .marker | .blockHeader | .symbolMap | .tableCounts | .codeLenStart | .codeLen | .rle1Unit => True

/-- What the decoder expects at a control point that reads a token; the lengths of a symbol are those of the group its selector names
(R106, R184). -/
def expectOf (s : State) : Phase → Option Expect
  | .header => some .header
  | .marker => some .marker
  | .blockHeader => some .blockHeader
  | .symbolMap => some .symbolMap
  | .tableCounts => some .tableCounts
  | .selector _ => some (.selector s.blk.nGroups)
  | .codeLenStart _ => some .codeLenStart
  | .codeLen _ _ _ => some .codeLen
  | .symbols _ =>
    match s.tab.selector[s.blk.symCount / Config.gSize]? with
    | none => none
    | some t => (s.tab.lens[t]?).map fun lens => .symbol lens s.blk.nInUse
  | .scan | .walk => none

/-- An open instance with the invariant, idle, with a source that ends: the next command finds every answer it asks for. -/
def Ready (s : State) : Prop := Inv s ∧ s.ctl = .idle ∧ s.closed = false ∧ s.rd.srcEnds = true

/-- How many bytes a READ_INTO that has answered stored: none where the result is a sentinel, else `RESULT` (R243, R274). -/
def storedCount (t : State) : Nat :=
  if t.result = endOfStreamResult ∨ t.result = endOfBlockResult then 0 else t.result.toNat

/-- What a command leaves alone: the port's operands, the parameters, the mode, the coming actions of the host. -/
def portKept (s t : State) : Prop :=
  t.cmd = s.cmd ∧ t.arg0 = s.arg0 ∧ t.arg1 = s.arg1 ∧ t.closed = s.closed ∧ t.mode = s.mode ∧ t.outCap = s.outCap ∧
    t.rnums = s.rnums ∧ t.attached = s.attached ∧ t.script = s.script ∧ t.hostData = s.hostData ∧ t.draws = s.draws

/-- READ_BYTE, run once for each byte of the list, gives these bytes and leads from `s` to `u`. -/
def byteReads : List Byte → State → State → Prop
  | [], s, u => u = s
  | v :: vs, s, u =>
    ∃ t, exec .readByte s = .next t ∧ t.ctl = .idle ∧ t.status = statusOk ∧ t.result = v.zeroExtend 64 ∧ byteReads vs t u

/-- The bytes of a list stored from offset `a` on (R244). -/
def storeAll : Nat → List Byte → Memory → Memory
  | _, [], m => m
  | a, v :: vs, m => storeAll (a + 1) vs (memWrite m a v)

/-- The run length a sequence of digits stands for (R108): `true` is RUN_B, the first digit the least significant. -/
def runLength : List Bool → Nat
  | [] => 0
  | b :: ds => (if b then 2 else 1) + 2 * runLength ds

/-- The digits as instructions. -/
def runInstr (b : Bool) : Instr := if b then .runB else .runA

/-- The derandomiser after `n` bytes (R206). -/
def derandAfter (rnums : List Nat) (c : Cursor) : Nat → Option Cursor
  | 0 => some c
  | n + 1 => (derandAfter rnums c n).bind fun c' => (derand rnums 0 c').map Prod.snd

/-- Where the `m`-th reload of the derandomiser happens (R206): the sum of the entries used before it. -/
def reloadAt (rnums : List Nat) : Nat → Nat
  | 0 => 0
  | m + 1 => reloadAt rnums m + rnums.getD (m % 512) 0

/-- No more bits stand in `BUF` than have been pulled, and `RAW` will not wrap: the source is shorter than `2^64` bytes (R27, R135,
log 16). -/
def RawOk (r : BitReader) : Prop := r.raw.toNat + r.src.length < 2 ^ 64 ∧ r.live ≤ 8 * r.raw.toNat

/-- The position invariant of R142: `REPORTED` is at most `RAW`, and while the stream may be read it is at most the byte of the next
bit. -/
def PosOk (s : State) : Prop :=
  RawOk s.rd ∧ s.reported.toNat ≤ s.rd.raw.toNat ∧ (Reading s → 8 * s.reported.toNat ≤ bitPos s.rd)

/-- The format of `STATUS` (R96, R271): a code of at most 8 in bits 3..0, a detail in bits 11..4, and nothing else; 0 for OK. -/
def StatusOk (s : State) : Prop :=
  s.status.toNat < 2 ^ 12 ∧ s.status.toNat % 16 ≤ 8 ∧ (s.status.toNat % 16 = 0 → s.status = statusOk)

end Sys2Proof.Machine
end

