-- ==== Sys2Proof/Certificates/Slice0/Obligations.lean ====
section
/-! DEFINITION. The statements for the provers, in the order of OBLIGATIONS.json. Each docstring says which rule of spec/ it
formalises, and names the log entry where a clause rests on a choice of the model. -/

open Sys2Proof Sys2Proof.Machine

/-! ## Reset and the step -/

/-- R54, R300, R301: the reset values the spec gives, and that the block then waits for a command. (The reset state of the idle
machine with no coming action of the host is the model's reading of R301: log 2, log 13.) -/
def Obligations.ResetState : Prop :=
  State.reset.closed = true ∧ State.reset.mode = .continuous ∧ State.reset.state = .eof ∧ State.reset.err = 0 ∧
    State.reset.errDetail = 0 ∧ State.reset.rd.live = 0 ∧ State.reset.rd.raw = 0 ∧ State.reset.reported = 0 ∧
    State.reset.status = 0 ∧ State.reset.result = 0 ∧ step State.reset = .next State.reset

/-- The invariant of the machine holds after reset. -/
def Obligations.ResetInvariant : Prop := Inv State.reset

/-- R90, R93, R230, R301: a step of the idle machine lets the next coming action of the host or the source happen, and waits where
there is none. When the host writes `CMD` it runs the command the word decodes to; every other action is `hostAct` of it
(PortAccess, OutputBufferHazard). A command that waits for its source gives way to the same `hostStep` (StepTokenErrors). (That the
coming actions stand in a list is the model's: log 13.) -/
def Obligations.StepRunsCommandWord : Prop :=
  (∀ (s : State) (w : Word) (rest : List HostAct), s.ctl = .idle → s.script = .writeCmd w :: rest →
    step s = exec (decodeCmd w) { s with cmd := w, script := rest }) ∧
  (∀ s : State, s.ctl = .idle → step s = hostStep s) ∧
  (∀ s : State, s.script = [] → hostStep s = .next s) ∧
  ∀ (s : State) (a : HostAct) (rest : List HostAct), s.script = a :: rest →
    (∀ w, a = .writeCmd w → hostStep s = exec (decodeCmd w) { s with cmd := w, script := rest }) ∧
    ((∀ w, a ≠ .writeCmd w) → hostStep s = hostAct a { s with script := rest })

/-- R99 to R106, R131, R184: when the bits from the token's start on decode to a token where a command in progress expects one, the
step runs that token, in a state whose bits are consumed and whose pulled bytes are counted, whose early fields are written (log 24) and
in which a symbol has been counted. (The token's start is the next bit ahead, unless the command has waited inside the token: log
9.) -/
def Obligations.StepRunsToken : Prop :=
  ∀ (s : State) (job : Job) (ph : Phase) (x : Expect) (i : Instr) (rest : List Bool), Inv s → s.ctl = .busy job ph →
    expectOf s ph = some x → decodeBits x (bitsSince s.rd) = .ok i rest →
    ∃ (r : BitReader) (m : Nat),
      step s = exec i (countSymbol ph
        { applyEarlies (earlyWrites (parseOf x) (bitsSince s.rd)) s with rd := r }) ∧
      bitsAhead r = rest ∧ PulledBytes m s.rd r ∧ r.live ≤ 7 ∧ r.part = []

/-- R137, R138, R209: a scan with a marker ahead runs BLOCK_MARK just after the first one; the fourth equal byte of the walk with a
length byte left runs RLE1_UNIT, that byte taken (log 17). -/
def Obligations.StepRunsMarkerAndUnit : Prop :=
  (∀ (s : State) (job : Job) (q : Nat), Inv s → s.ctl = .busy job .scan → FirstMark (bitsSince s.rd) q →
    ∃ (r : BitReader) (m : Nat), step s = exec .blockMark { s with rd := r } ∧ bitsAhead r = (bitsSince s.rd).drop (q + 48) ∧
      PulledBytes m s.rd r ∧ r.live ≤ 7 ∧ r.part = []) ∧
  ∀ (s : State) (job : Job) (z : Byte) (c : Cursor), s.ctl = .busy job .walk → (s.state = .randB ∨ s.state = .norandB) →
    s.cur.ch2 = s.cur.chPrev → s.cur.count = 3 → (s.cur.i2 : Int) ≤ s.blk.last →
    take { s with cur := { s.cur with count := 4 } } = some (z, c) →
    step s = exec (.rle1Unit (s.cur.ch2.truncate 8) z) { s with cur := c }

/-- R73, R111, R130, R140, R273, R278 (2): bits that begin no token raise the error the rules name for them; a token cut short by the
source's `EOF` raises its own; a scan without a marker ends at `EOF`. A source that has not answered lets the host or the source act
next (U8), in a state in which every byte it has answered with is counted and no bit is lost: the bits from the token's start on,
or of a scan its last 48 (log 9). Early fields stay written (R275, log 24). A symbol of a group
without a selector raises TableMalformed(8) before any of its bits is read (R184). -/
def Obligations.StepTokenErrors : Prop :=
  (∀ (s : State) (job : Job) (b : Bool), s.ctl = .busy job (.symbols b) → s.blk.nSelectors ≤ s.blk.symCount / 50 →
    step s = .next (raiseError .tableMalformed 8 { s with rd := { s.rd with part := [] } })) ∧
  (∀ (s : State) (job : Job) (ph : Phase) (x : Expect) (e : ErrKind) (d : Nat), Inv s → s.ctl = .busy job ph →
    expectOf s ph = some x →
    (decodeBits x (bitsSince s.rd) = .rejected e d → ∃ (r : BitReader) (m : Nat),
      step s = .next (raiseError e d { applyEarlies (earlyWrites (parseOf x) (bitsSince s.rd)) s with rd := r }) ∧
        PulledBytes m s.rd r) ∧
    (decodeBits x (bitsSince s.rd) = .short e d → s.rd.srcEnds = true → ∃ r : BitReader,
      step s = .next (raiseError e d { applyEarlies (earlyWrites (parseOf x) (bitsSince s.rd)) s with rd := r }) ∧
        PulledBytes s.rd.src.length s.rd r) ∧
    (decodeBits x (bitsSince s.rd) = .short e d → s.rd.srcEnds = false → ∃ r : BitReader,
      step s = hostStep { applyEarlies (earlyWrites (parseOf x) (bitsSince s.rd)) s with rd := r } ∧
        PulledBytes s.rd.src.length s.rd r ∧ bitsSince r = bitsSince s.rd)) ∧
  ∀ (s : State) (job : Job), Inv s → s.ctl = .busy job .scan → (∀ q, ¬ MarkAt (bitsSince s.rd) q) →
    (s.rd.srcEnds = true → ∃ r : BitReader, step s = .next { s with
        rd := r, reported := r.raw, state := .eof, status := 0, result := if job = .init then 0 else -2, ctl := .idle } ∧
      PulledBytes s.rd.src.length s.rd r) ∧
    (s.rd.srcEnds = false → ∃ r : BitReader, step s = hostStep { s with rd := r } ∧ PulledBytes s.rd.src.length s.rd r ∧
      bitsSince r = (bitsSince s.rd).drop ((bitsSince s.rd).length - 48))

/-- R230, R235, R232, R242, R243: a command is the steps it takes. What each command that reads the stream starts from; a command in
progress runs as its next step and then as what that leads to, until it has answered, or waits for its source (U8). So a pass of
READ_BYTE that goes on leads to a state from which READ_BYTE answers the same. (That a command given by the host runs to its
response in one step, and one that has waited goes on step by step, is log 1; an INIT without an attached source is log 8.) -/
def Obligations.CommandRunsPasses : Prop :=
  (∀ s : State, s.ctl = .idle →
    exec .initContinuous s = runCommand (beginInit .continuous .header s) ∧
    exec .initByblock s = runCommand (beginInit .byblock .scan s) ∧
    (s.closed = false → exec .readByte s = runCommand { s with ctl := .busy .readByte .walk }) ∧
    (s.closed = false → readIntoCheck s = none → 0 < lenOperand s → exec .readInto s =
      runCommand { s with ctl := .busy (.readInto (offOperand s).toNat (lenOperand s).toNat 0) .walk }) ∧
    runCommand s = .next s) ∧
  (∀ (s : State) (i : Instr), s.attached = none → (i = .initContinuous ∨ i = .initByblock) →
    exec i s = exec i { s with attached := some { bytes := s.rd.src, ends := s.rd.srcEnds } }) ∧
  (∀ (u : State) (job : Job) (ph : Phase), Inv u → u.ctl = .busy job ph →
    (∃ v, step u = .next v ∧ Inv v ∧ runCommand u = runCommand v) ∨
      ∃ w, u.rd.srcEnds = false ∧ step u = hostStep w ∧ runCommand u = .next w ∧ w.ctl = u.ctl ∧ w.rd.src = []) ∧
  ∀ s u : State, Inv s → s.ctl = .idle → s.closed = false → step { s with ctl := .busy .readByte .walk } = .next u →
    u.ctl = .busy .readByte .walk → exec .readByte s = exec .readByte { u with ctl := .idle }

/-! ## Encodings -/

/-- R95, R98, R100, R104, R105, R155: words written out from the spec's tables decode to the rows they stand for. (How
`decodeTableWord` lays the bits of a token's row out as a number, in the clauses of 16, 48 and 80 bits, is the model's choice: log
18.) -/
def Obligations.DecodedWords : Prop :=
  decodeTableWord 32 0x00000011 = some .initByblock ∧ decodeTableWord 32 0x00000012 = some (.reserved 0x12) ∧
    decodeTableWord 16 0x6839 = some (.streamHeader 0x39) ∧ decodeTableWord 48 0x314159265359 = some .blockMark ∧
    decodeTableWord 80 0x17724538509000000000 = some (.eosMark 0) ∧
    decodeBits (.selector 6) [true, true, false] = .ok .selectorMtf2 [] ∧
    decodeBits .codeLen [true, false] = .ok .codeLenInc [] ∧
    decodeBits (.symbol [2, 2, 2, 3, 3] 3) [true, true, true] = .ok .eob [] ∧
    decodeBits (.symbol [2, 2, 2, 3, 3] 3) [true, false] = .ok (.mtf 2) []

/-- R95: the seven command words, every other word reserved; every word is the encoding of the well-formed command it decodes to, and
of no other. -/
def Obligations.CommandWords : Prop :=
  decodeCmd 0x01 = .initContinuous ∧ decodeCmd 0x11 = .initByblock ∧ decodeCmd 0x02 = .readByte ∧ decodeCmd 0x03 = .readInto ∧
    decodeCmd 0x04 = .getReported ∧ decodeCmd 0x05 = .adjustReported ∧ decodeCmd 0x06 = .close ∧
    (∀ w : Word, w ∉ [0x01, 0x11, 0x02, 0x03, 0x04, 0x05, 0x06] → decodeCmd w = .reserved w) ∧
    (∀ w : Word, encodeCmd (decodeCmd w) = some w ∧ (decodeCmd w).wellFormed = true) ∧
    ∀ (i : Instr) (w : Word), i.wellFormed = true → encodeCmd i = some w → decodeCmd w = i

/-- R98 to R109: the decoder reads back every token from its encoding, with every operand, whatever bits follow. -/
def Obligations.TokenRoundTrip : Prop :=
  ∀ (x : Expect) (i : Instr) (bs rest : List Bool), expectOk x → i.wellFormed = true → encodeBits x i = some bs →
    decodeBits x (bs ++ rest) = .ok i rest

/-- R98 to R109, the other direction: a token that is read is well formed, and the bits it was read from are its encoding. -/
def Obligations.DecodedTokenEncodes : Prop :=
  ∀ (x : Expect) (i : Instr) (bs rest : List Bool), expectOk x → decodeBits x bs = .ok i rest →
    i.wellFormed = true ∧ ∃ used, encodeBits x i = some used ∧ bs = used ++ rest

/-- R157: for lengths that pass R154, decoding the codeword of symbol `s` followed by any bits gives `s` and consumes `len[s]` bits
(the row `symbolInstr` of a symbol tells which symbol it is), and no codeword is a prefix of another. -/
def Obligations.HuffmanDecodes : Prop :=
  ∀ (lens : List Nat) (n : Nat), lens.length = n + 2 → 1 ≤ n → (∀ l ∈ lens, 1 ≤ l ∧ l ≤ 23) → (buildTable lens).2 = true →
    (∀ s L, lens[s]? = some L → ∃ bits, encodeSym lens s = some bits ∧ bits.length = L ∧
      ∀ rest, parseBits (parseSymbol (buildTable lens).1 n) (bits ++ rest) = .ok (symbolInstr n s) rest) ∧
    (∀ s s', s < n + 2 → s' < n + 2 → symbolInstr n s = symbolInstr n s' → s = s') ∧
    ∀ s s' bits bits', s ≠ s' → encodeSym lens s = some bits → encodeSym lens s' = some bits' → ¬ bits <+: bits'

/-- R154: the lengths that pass are just those whose Kraft sum is at most 1, here scaled by `2^23`. -/
def Obligations.KraftBound : Prop :=
  ∀ lens : List Nat, lens ≠ [] → (∀ l ∈ lens, 1 ≤ l ∧ l ≤ 23) →
    ((buildTable lens).2 = true ↔ (lens.map fun l => 2 ^ (23 - l)).sum ≤ 2 ^ 23)

/-! ## The bit reader -/

/-- R131: `readBits(n)` gives the next `n` bits, most significant first, lowers `LIVE` by `n`, and pulls just the bytes it needs; at
`EOF`, and where a source that has not answered makes it wait (U8), the bytes pulled before that stay counted (R73, R130) and no
bit is consumed. (`RAW` counts modulo `2^64`: log 16.) -/
def Obligations.ReadBits : Prop :=
  ∀ (n : Nat) (r : BitReader), 1 ≤ n → n ≤ 48 →
    (n ≤ bitsLeft r → ∃ r' : BitReader, readBits n r = .got (natOfBits ((bitsAhead r).take n)) r' ∧
      PulledBytes ((n - r.live + 7) / 8) r r' ∧
      r'.live + n = r.live + 8 * ((n - r.live + 7) / 8) ∧ (r.live ≤ 7 → r'.live ≤ 7) ∧
      bitsAhead r' = (bitsAhead r).drop n) ∧
    (bitsLeft r < n → r.srcEnds = true → ∃ r' : BitReader, readBits n r = .eof r' ∧ PulledBytes r.src.length r r' ∧
      bitsAhead r' = bitsAhead r) ∧
    (bitsLeft r < n → r.srcEnds = false → ∃ r' : BitReader, readBits n r = .wait r' ∧ PulledBytes r.src.length r r' ∧
      bitsAhead r' = bitsAhead r)

/-! ## Host commands -/

/-- R234 with R232, R302, R139 and R140: INIT.BYBLOCK opens an instance on the source the host has attached, from its first bit. With a
marker in it `STATE` is START_BLOCK just after the first one and `REPORTED` the byte it begins in; without one `STATE` is `EOF` and
`REPORTED` the length of the source. Status OK both ways, `BLOCK_SIZE_100K` stays 9, `RAW` counts the bytes read (modulo `2^64`, log
16), and neither `OUT` nor the operands change. -/
def Obligations.InitByblock : Prop :=
  ∀ (s : State) (src : Source), Inv s → s.ctl = .idle → s.attached = some src →
    (∀ q, FirstMark (bitsOfBytes src.bytes) q → ∃ t, exec .initByblock s = .next t ∧ t.ctl = .idle ∧
      t.closed = false ∧ t.mode = .byblock ∧ t.state = .startBlock ∧ t.err = 0 ∧ t.errDetail = 0 ∧ t.status = statusOk ∧
      t.result = 0 ∧ t.blockSize100k = 9 ∧ t.combinedCrc = 0 ∧ t.reported = BitVec.ofNat 64 (q / 8) ∧
      t.rd.raw = BitVec.ofNat 64 ((q + 55) / 8) ∧ t.rd.src = src.bytes.drop ((q + 55) / 8) ∧ t.rd.srcEnds = src.ends ∧
      t.rd.live ≤ 7 ∧ bitsAhead t.rd = (bitsOfBytes src.bytes).drop (q + 48) ∧
      t.out = s.out ∧ t.arg0 = s.arg0 ∧ t.arg1 = s.arg1) ∧
    ((∀ q, ¬ MarkAt (bitsOfBytes src.bytes) q) → src.ends = true →
      ∃ t, exec .initByblock s = .next t ∧ t.ctl = .idle ∧
      t.closed = false ∧ t.mode = .byblock ∧ t.state = .eof ∧ t.err = 0 ∧ t.errDetail = 0 ∧ t.status = statusOk ∧
      t.result = 0 ∧ t.blockSize100k = 9 ∧ t.combinedCrc = 0 ∧ t.reported = BitVec.ofNat 64 src.bytes.length ∧
      t.rd.raw = BitVec.ofNat 64 src.bytes.length ∧ t.rd.src = [] ∧ t.out = s.out ∧ t.arg0 = s.arg0 ∧ t.arg1 = s.arg1)

/-- R233 with R232 and R302: INIT.CONTINUOUS reads `h` and a digit of the source the host has attached, and no more. What is wrong
with them, `EOF` included, is BadStreamHeader, of the first byte (1) or of the second (2). -/
def Obligations.InitContinuous : Prop :=
  ∀ (s : State) (src : Source), Inv s → s.ctl = .idle → s.attached = some src →
    (∀ (d : Byte) (rest : List Byte), src.bytes = 0x68 :: d :: rest → 0x31 ≤ d.toNat → d.toNat ≤ 0x39 →
      ∃ t, exec .initContinuous s = .next t ∧ t.ctl = .idle ∧ t.closed = false ∧ t.mode = .continuous ∧
        t.state = .startBlock ∧ t.err = 0 ∧ t.errDetail = 0 ∧ t.status = statusOk ∧ t.result = 0 ∧
        t.blockSize100k = d.toNat - 0x30 ∧ t.combinedCrc = 0 ∧ t.reported = 0 ∧ t.rd.raw = 2 ∧ t.rd.live = 0 ∧
        t.rd.src = rest ∧ t.rd.srcEnds = src.ends ∧ t.out = s.out ∧ t.arg0 = s.arg0 ∧ t.arg1 = s.arg1) ∧
    (∀ (d : Byte) (rest : List Byte), src.bytes = 0x68 :: d :: rest → (d.toNat < 0x31 ∨ 0x39 < d.toNat) →
      ∃ t, exec .initContinuous s = .next t ∧ t.ctl = .idle ∧ t.closed = false ∧ t.state = .eof ∧
        t.status = statusWord .badStreamHeader 2 ∧ t.result = 0 ∧ t.err = 2 ∧ t.errDetail = 2 ∧ t.reported = 0 ∧
        t.rd.raw = 2 ∧ t.rd.src = rest) ∧
    (∀ (h : Byte) (rest : List Byte), src.bytes = h :: rest → h ≠ 0x68 →
      ∃ t, exec .initContinuous s = .next t ∧ t.ctl = .idle ∧ t.closed = false ∧ t.state = .eof ∧
        t.status = statusWord .badStreamHeader 1 ∧ t.result = 0 ∧ t.err = 2 ∧ t.errDetail = 1 ∧ t.reported = 0 ∧
        t.rd.raw = 1 ∧ t.rd.src = rest) ∧
    (src.bytes = [] → src.ends = true →
      ∃ t, exec .initContinuous s = .next t ∧ t.ctl = .idle ∧ t.closed = false ∧ t.state = .eof ∧
        t.status = statusWord .badStreamHeader 1 ∧ t.result = 0 ∧ t.err = 2 ∧ t.errDetail = 1 ∧ t.reported = 0 ∧ t.rd.raw = 0) ∧
    (src.bytes = [0x68] → src.ends = true →
      ∃ t, exec .initContinuous s = .next t ∧ t.ctl = .idle ∧ t.closed = false ∧ t.state = .eof ∧
        t.status = statusWord .badStreamHeader 2 ∧ t.result = 0 ∧ t.err = 2 ∧ t.errDetail = 2 ∧ t.reported = 0 ∧ t.rd.raw = 1)

/-- R247: GET_REPORTED answers `REPORTED` and changes nothing else, in every state of an open instance; on a closed block it is
refused with InvalidArgument(4), status word `0x48`. -/
def Obligations.GetReported : Prop :=
  ∀ s : State, s.ctl = .idle →
    (s.closed = false → exec .getReported s = .next { s with status := 0, result := s.reported }) ∧
    (s.closed = true → exec .getReported s = .next { s with status := 0x48, result := 0 })

/-- R248 with R92: ADJUST_REPORTED adds the unsigned `ARG0` modulo `2^64`, answers 0 and changes nothing else. -/
def Obligations.AdjustReported : Prop :=
  ∀ s : State, s.ctl = .idle →
    (s.closed = false → exec .adjustReported s =
      .next { s with reported := s.reported + BitVec.ofNat 64 s.arg0.toNat, status := 0, result := 0 }) ∧
    (s.closed = true → exec .adjustReported s = .next { s with status := 0x48, result := 0 })

/-- R249 with R53: CLOSE closes an open block and answers 0 with status OK; the internal memories then hold no value (log 4) and
nothing is said of the other instance state (free values, log 5); the port, the parameters and `OUT` stay. On a closed block it
changes nothing. -/
def Obligations.CloseCommand : Prop :=
  ∀ s : State, s.ctl = .idle →
    (s.closed = true → exec .close s = .next { s with status := 0, result := 0 }) ∧
    (s.closed = false → ∃ t, exec .close s = .next t ∧ t.ctl = .idle ∧ t.closed = true ∧ t.status = 0 ∧ t.result = 0 ∧
      t.tab = Tables.empty ∧ t.cmd = s.cmd ∧ t.arg0 = s.arg0 ∧ t.arg1 = s.arg1 ∧ t.outCap = s.outCap ∧ t.rnums = s.rnums ∧
      t.out = s.out ∧ t.attached = s.attached ∧ t.script = s.script)

/-- R231 and R94, R275: the command checks in their order, each with its response and all it changes. On an open instance a refusal
is an error like every other: `STATE` becomes `EOF` and the first error is kept. -/
def Obligations.CommandChecks : Prop :=
  ∀ s : State, s.ctl = .idle →
    (∀ w : Word, s.closed = true → exec (.reserved w) s = .next { s with status := 0x18, result := 0 }) ∧
    (∀ w : Word, s.closed = false → exec (.reserved w) s = .next { s with
      status := 0x18, result := 0, state := .eof
      err := if s.err = 0 then 8 else s.err, errDetail := if s.err = 0 then 1 else s.errDetail }) ∧
    (∀ i ∈ [Instr.readByte, .readInto, .getReported, .adjustReported], s.closed = true →
      exec i s = .next { s with status := 0x48, result := 0 }) ∧
    (s.closed = false → (s.arg0.toInt < 0 ∨ s.arg1.toInt < 0) → exec .readInto s = .next { s with
      status := 0x28, result := 0, state := .eof
      err := if s.err = 0 then 8 else s.err, errDetail := if s.err = 0 then 2 else s.errDetail }) ∧
    (s.closed = false → 0 ≤ s.arg0.toInt → 0 ≤ s.arg1.toInt → s.arg0.toInt + s.arg1.toInt > s.outCap →
      exec .readInto s = .next { s with
        status := 0x38, result := 0, state := .eof
        err := if s.err = 0 then 8 else s.err, errDetail := if s.err = 0 then 3 else s.errDetail })

/-- R305, U4: a command given while another runs stops the model by name. -/
def Obligations.CommandWhileBusy : Prop :=
  ∀ (s : State) (job : Job) (ph : Phase) (i : Instr), s.ctl = .busy job ph → (encodeCmd i).isSome = true →
    exec i s = .fault .commandWhileBusy

/-- R240, R243, R276: at `EOF` a read answers END_OF_STREAM with status OK and changes nothing else, and a READ_INTO of length 0
answers 0 in every state. -/
def Obligations.ReadsAtEndOfStream : Prop :=
  ∀ s : State, s.ctl = .idle → s.closed = false →
    (s.state = .eof → exec .readByte s = .next { s with status := 0, result := -1 }) ∧
    (s.state = .eof → readIntoCheck s = none → 0 < s.arg1.toInt →
      exec .readInto s = .next { s with status := 0, result := -1 }) ∧
    (readIntoCheck s = none → s.arg1 = 0 → exec .readInto s = .next { s with status := 0, result := 0 })

/-- R208, R209, R210 and R238 in READ_BYTE. In a state `*_A` with a byte left, it takes that byte (TakesByte), updates the CRC and goes
to `*_B`; in a state `*_C` with copies due, it gives one copy of the run byte: the byte is `RESULT`, and nothing else changes. From
every other state of the walk it goes on as READ_BYTE from the state the step leads to, or ends in the error the step raises: `*_B`
counts the byte, and at four takes the length byte or raises StreamCorrupted(2); a `*_C` with no copy left sets `COUNT` to 0 and
goes to `*_A`; an exhausted `*_A` checks the block's CRC. (Block starts: BlockStart, CommandRunsPasses. `EOF` and NO_PROCESS:
ReadsAtEndOfStream, EndOfBlockAcknowledged.) -/
def Obligations.ReadByteYields : Prop :=
  (∀ s : State, s.ctl = .idle → s.closed = false →
    (∀ (v : Byte) (c : Cursor) (b : StreamState), (s.state = .randA ∧ b = .randB ∨ s.state = .norandA ∧ b = .norandB) →
      (s.cur.i2 : Int) ≤ s.blk.last → take s = some (v, c) → exec .readByte s = .next { s with
        cur := { c with chPrev := s.cur.ch2, ch2 := v.zeroExtend 9, blockCrc := crcUpdate s.cur.blockCrc v }
        state := b, status := 0, result := v.zeroExtend 64 }) ∧
    ((s.state = .randC ∨ s.state = .norandC) → s.cur.j2 < s.cur.z.toNat → exec .readByte s = .next { s with
      cur := { s.cur with j2 := s.cur.j2 + 1, blockCrc := crcUpdate s.cur.blockCrc (s.cur.ch2.truncate 8) }
      status := 0, result := (s.cur.ch2.truncate 8 : Byte).zeroExtend 64 })) ∧
  (∀ (s : State) (a st : StreamState), Inv s → s.ctl = .idle → s.closed = false →
    (s.state = .randB ∧ a = .randA ∧ st = .randC ∨ s.state = .norandB ∧ a = .norandA ∧ st = .norandC) →
    (s.cur.ch2 ≠ s.cur.chPrev →
      exec .readByte s = exec .readByte { s with cur := { s.cur with count := 1 }, state := a }) ∧
    (s.cur.ch2 = s.cur.chPrev → s.cur.count + 1 < 4 →
      exec .readByte s = exec .readByte { s with cur := { s.cur with count := s.cur.count + 1 }, state := a }) ∧
    (s.cur.ch2 = s.cur.chPrev → s.cur.count = 3 → (s.cur.i2 : Int) > s.blk.last →
      exec .readByte s = .next (raiseError .streamCorrupted 2 { s with cur := { s.cur with count := 4 } })) ∧
    ∀ (z : Byte) (c : Cursor), s.cur.ch2 = s.cur.chPrev → s.cur.count = 3 → (s.cur.i2 : Int) ≤ s.blk.last →
      take { s with cur := { s.cur with count := 4 } } = some (z, c) →
      exec .readByte s = exec .readByte { s with cur := { c with z := z, j2 := 0 }, state := st }) ∧
  (∀ (s : State) (a : StreamState), Inv s → s.ctl = .idle → s.closed = false →
    (s.state = .randC ∧ a = .randA ∨ s.state = .norandC ∧ a = .norandA) → ¬ s.cur.j2 < s.cur.z.toNat →
    exec .readByte s = exec .readByte { s with cur := { s.cur with count := 0 }, state := a }) ∧
  ∀ s : State, Inv s → s.ctl = .idle → s.closed = false → (s.state = .randA ∨ s.state = .norandA) →
    (s.cur.i2 : Int) > s.blk.last →
    (s.cur.blockCrc ^^^ 0xFFFFFFFF ≠ s.blk.storedBlockCrc → exec .readByte s = .next (raiseError .crcMismatch 1 s)) ∧
    (s.cur.blockCrc ^^^ 0xFFFFFFFF = s.blk.storedBlockCrc → exec .readByte s = exec .readByte { s with
      combinedCrc := s.combinedCrc.rotateLeft 1 ^^^ s.blk.storedBlockCrc
      state := if s.mode = .continuous then .startBlock else .noProcess })

/-- R245 with R138, R139, R140: at NO_PROCESS a read answers END_OF_BLOCK after a scan from the current bit: to the first marker, with
`REPORTED` the byte it begins in and `STATE` START_BLOCK; or to the end of the source, with `REPORTED` all its bytes and `STATE`
`EOF`. Nothing else changes. (The byte and the bit are counted where `RAW` does not wrap: `RawOk`, log 16.) -/
def Obligations.EndOfBlockAcknowledged : Prop :=
  ∀ (s : State) (i : Instr), Inv s → s.ctl = .idle → s.closed = false → s.state = .noProcess →
    (i = .readByte ∨ (i = .readInto ∧ readIntoCheck s = none ∧ 0 < s.arg1.toInt)) →
    (∀ q, FirstMark (bitsAhead s.rd) q → ∃ r : BitReader, exec i s = .next { s with
        status := 0, result := -2, state := .startBlock, rd := r, reported := markerByte r } ∧
      (RawOk s.rd → markerByte r = BitVec.ofNat 64 ((bitPos s.rd + q) / 8) ∧ bitPos r = bitPos s.rd + q + 48) ∧
      r.live ≤ 7 ∧ bitsAhead r = (bitsAhead s.rd).drop (q + 48)) ∧
    ((∀ q, ¬ MarkAt (bitsAhead s.rd) q) → s.rd.srcEnds = true → ∃ r : BitReader, exec i s = .next { s with
        status := 0, result := -2, state := .eof, rd := r, reported := r.raw } ∧
      PulledBytes s.rd.src.length s.rd r)

/-- R243, R244, R274, R306: a READ_INTO that passes its checks answers; it has stored to just the `k` bytes from `off` on, `k` at most
`len`; `RESULT` is `k`, or a sentinel when no byte came and no error was raised; the port's operands, the mode and the parameters
are as before. -/
def Obligations.ReadIntoStores : Prop :=
  ∀ s : State, Ready s → readIntoCheck s = none → 0 < lenOperand s →
    ∃ t, exec .readInto s = .next t ∧ t.ctl = .idle ∧ (storedCount t : Int) ≤ lenOperand s ∧
      (∀ a : Nat, ¬ (offOperand s ≤ a ∧ (a : Int) < offOperand s + storedCount t) → memRead t.out a = memRead s.out a) ∧
      ((t.status = statusOk ∧ ((t.result = endOfStreamResult ∨ t.result = endOfBlockResult) ∨ 0 < storedCount t)) ∨
        (t.status ≠ statusOk ∧ t.result = BitVec.ofNat 64 (storedCount t))) ∧
      (t.result = endOfBlockResult → s.mode = .byblock) ∧ portKept s t

/-- R242, R96, R274: READ_BYTE answers; `RESULT` is a byte, END_OF_STREAM, or (only BYBLOCK) END_OF_BLOCK, with status OK; or an error
with `RESULT` 0 after which `STATE` is `EOF`. It stores nothing, and the port's operands, the mode and the parameters are as
before. -/
def Obligations.ReadByteAnswers : Prop :=
  ∀ s : State, Ready s →
    ∃ t, exec .readByte s = .next t ∧ t.ctl = .idle ∧ t.out = s.out ∧ portKept s t ∧
      ((t.status = statusOk ∧ ((∃ v : Byte, t.result = v.zeroExtend 64) ∨ t.result = endOfStreamResult ∨
          (t.result = endOfBlockResult ∧ s.mode = .byblock))) ∨
        (∃ e d, e ≠ ErrKind.invalidArgument ∧ e ≠ ErrKind.badStreamHeader ∧ t.status = statusWord e d ∧ t.result = 0 ∧
          t.state = .eof ∧ t.err = BitVec.ofNat 4 (errCode e) ∧ t.errDetail = BitVec.ofNat 8 d))

/-- R246: one READ_INTO is the READ_BYTEs it stands for. Its bytes are those of as many READ_BYTEs, stored in order from `off` on, and
it leaves the same state. If it ends early, the next READ_BYTE gives no byte: what that one answers is what the READ_INTO answers
if it stored nothing or if an error was raised (then `RESULT` counts the bytes), and else what the next read answers. -/
def Obligations.BulkUnitEquivalence : Prop :=
  ∀ s : State, Ready s → readIntoCheck s = none → 0 < lenOperand s →
    ∃ (t u : State) (vs : List Byte), exec .readInto s = .next t ∧ byteReads vs s u ∧ (vs.length : Int) ≤ lenOperand s ∧
      t.out = storeAll (offOperand s).toNat vs s.out ∧
      (((vs.length : Int) = lenOperand s ∧
          t = { u with out := t.out, status := statusOk, result := BitVec.ofNat 64 vs.length }) ∨
        ((vs.length : Int) < lenOperand s ∧ ∃ w, exec .readByte u = .next w ∧ w.ctl = .idle ∧
          ((w.status = statusOk ∧ (w.result = endOfStreamResult ∨ w.result = endOfBlockResult) ∧ vs = [] ∧
              t = { w with out := t.out }) ∨
            (w.status = statusOk ∧ (w.result = endOfStreamResult ∨ w.result = endOfBlockResult) ∧ vs ≠ [] ∧
              t.status = statusOk ∧ t.result = BitVec.ofNat 64 vs.length ∧ exec .readByte t = .next { w with out := t.out }) ∨
            (w.status ≠ statusOk ∧ t = { w with out := t.out, result := BitVec.ofNat 64 vs.length }))))

/-- R27, R62, R73, R135, R144: a read consumes the stream in order: the bytes it pulls are the next ones of the source, `RAW` counts
them, the bits it consumes are the next ones, and `P` counts those where `RAW` does not wrap (`RawOk`, log 16). Every step of an
open instance keeps `RawOk`, as long as the source stays shorter than `2^64` bytes. -/
def Obligations.ReadsConsumeInOrder : Prop :=
  (∀ (s : State) (i : Instr), Ready s → (i = .readByte ∨ i = .readInto) →
    ∃ (t : State) (bytes : List Byte) (k : Nat), exec i s = .next t ∧ t.ctl = .idle ∧ s.rd.src = bytes ++ t.rd.src ∧
      t.rd.raw = s.rd.raw + BitVec.ofNat 64 bytes.length ∧ bitsAhead t.rd = (bitsAhead s.rd).drop k ∧
      t.rd.live + k = s.rd.live + 8 * bytes.length ∧ (RawOk s.rd → bitPos t.rd = bitPos s.rd + k)) ∧
  ∀ s t : State, Inv s → (s.closed = false → RawOk s.rd) → (initReader s).src.length < 2 ^ 64 → step s = .next t →
    t.closed = false → t.rd.raw.toNat + t.rd.src.length < 2 ^ 64 → RawOk t.rd

/-- R143: in CONTINUOUS mode no scan runs: INIT leaves `REPORTED` 0, and no read changes it. -/
def Obligations.ContinuousKeepsReported : Prop :=
  (∀ s t : State, Inv s → exec .initContinuous s = .next t → t.reported = 0) ∧
  ∀ (s : State) (i : Instr), Ready s → s.mode = .continuous → (i = .readByte ∨ i = .readInto) →
    ∃ t, exec i s = .next t ∧ t.reported = s.reported

/-- R142, for INIT.BYBLOCK and the two reads, without ADJUST_REPORTED and with a source that ends: INIT.BYBLOCK leaves the position
invariant `PosOk`, by which `REPORTED` is at most `RAW`, and every read, which may scan, keeps it and lowers no `REPORTED`. -/
def Obligations.ReportedMonotone : Prop :=
  (∀ s : State, Inv s → s.ctl = .idle → (initReader s).srcEnds = true → (initReader s).src.length < 2 ^ 64 →
    ∃ t, exec .initByblock s = .next t ∧ PosOk t) ∧
  ∀ (s : State) (i : Instr), Ready s → PosOk s → (i = .readByte ∨ i = .readInto) →
    ∃ t, exec i s = .next t ∧ PosOk t ∧ s.reported.toNat ≤ t.reported.toNat

/-! ## Errors -/

/-- R273, R274, R275: raising an error ends the command with the status word and with `RESULT` the bytes READ_INTO has stored or else
0. `STATE` becomes `EOF` and the first error is kept; but InvalidArgument(1) or (4) on a closed block changes neither. Nothing else
changes. -/
def Obligations.RaisedError : Prop :=
  ∀ (e : ErrKind) (d : Nat) (s t : State), t = { s with
      status := statusWord e d, ctl := .idle
      result := match s.ctl with
        | .busy (.readInto _ _ k) _ => BitVec.ofNat 64 k
        | _ => 0 } →
    (s.closed = true ∧ e = .invalidArgument ∧ (d = 1 ∨ d = 4) → raiseError e d s = t) ∧
    (¬ (s.closed = true ∧ e = .invalidArgument ∧ (d = 1 ∨ d = 4)) → raiseError e d s = { t with
      state := .eof
      err := if s.err = 0 then BitVec.ofNat 4 (errCode e) else s.err
      errDetail := if s.err = 0 then BitVec.ofNat 8 d else s.errDetail })

/-! ## Tokens of the bit-stream -/

/-- R98, R233: STREAM_HEADER judges the digit: `1` to `9` sets the block size and completes INIT, any other raises
BadStreamHeader(2). -/
def Obligations.StreamHeaderToken : Prop :=
  ∀ (s : State) (d : Byte), s.ctl = .busy .init .header →
    (0x31 ≤ d.toNat → d.toNat ≤ 0x39 → exec (.streamHeader d) s = .next { s with
      blockSize100k := d.toNat - 0x30, state := .startBlock, status := 0, result := 0, ctl := .idle }) ∧
    (d.toNat < 0x31 ∨ 0x39 < d.toNat → exec (.streamHeader d) s = .next (raiseError .badStreamHeader 2 s))

/-- R236, R139, R234, R245, R237: BLOCK_MARK at a block start opens the body; in a scan it sets `REPORTED` to the byte the marker
begins in and ends the command. EOS_MARK ends the stream, and raises CRCMismatch(2) if its CRC is not the combined one. -/
def Obligations.MarkerTokens : Prop :=
  ∀ (s : State) (job : Job),
    (s.ctl = .busy job .marker → exec .blockMark s = .next { s with ctl := .busy job .blockHeader }) ∧
    (s.ctl = .busy job .scan → 48 + s.rd.live ≤ 8 * s.rd.raw.toNat → exec .blockMark s = .next { s with
      reported := BitVec.ofNat 64 ((bitPos s.rd - 48) / 8), state := .startBlock, status := 0
      result := if job = .init then 0 else -2
      ctl := .idle }) ∧
    ∀ c : Word, s.ctl = .busy job .marker →
      exec (.eosMark c) s = .next (if c = s.combinedCrc then { s with state := .eof, ctl := .busy job .walk }
        else raiseError .crcMismatch 2 { s with state := .eof })

/-- R235, R236: at START_BLOCK the step loop goes on to the 48-bit token in CONTINUOUS mode, and to the block's body in BYBLOCK. -/
def Obligations.BlockStart : Prop :=
  ∀ (s : State) (job : Job), s.ctl = .busy job .walk → s.state = .startBlock →
    (s.mode = .continuous → step s = .next { s with ctl := .busy job .marker }) ∧
    (s.mode = .byblock → step s = .next { s with ctl := .busy job .blockHeader })

/-- R171, R172, R173: BLOCK_HEADER writes the stored CRC, the randomised flag and the origin pointer, unchecked. -/
def Obligations.BlockHeaderToken : Prop :=
  ∀ (s : State) (job : Job) (c : Word) (r : Bool) (p : BitVec 24), s.ctl = .busy job .blockHeader →
    exec (.blockHeader c r p) s = .next { s with
      blk := { s.blk with storedBlockCrc := c, randomized := r, origPtr := p }, ctl := .busy job .symbolMap }

/-- R174, R175, R176: SYMBOL_MAP. Byte `16 i + j` is in use if the word that follows for bit `i` of `inUse16` has bit `j` set, both in
stream order; `SEQ_TO_UNSEQ` lists the bytes in use in increasing order; an empty map raises TableMalformed(1). (A table is the list
of its written entries: log 4.) -/
def Obligations.SymbolMapToken : Prop :=
  ∀ (s : State) (job : Job) (u : BitVec 16) (ws : List (BitVec 16)), s.ctl = .busy job .symbolMap →
    (Instr.symbolMap u ws).wellFormed = true → ∃ (inUse : List Bool) (seq : List Byte),
      exec (.symbolMap u ws) s = .next (if seq = [] then
          raiseError .tableMalformed 1 { s with
            tab := { s.tab with inUse := inUse, seqToUnseq := seq }, blk := { s.blk with nInUse := 0 } }
        else { s with
          tab := { s.tab with inUse := inUse, seqToUnseq := seq }
          blk := { s.blk with nInUse := seq.length, alphaSize := seq.length + 2 }
          ctl := .busy job .tableCounts }) ∧
      inUse.length = 256 ∧
      (∀ i j : Nat, i < 16 → j < 16 → (inUse[16 * i + j]? = some true ↔ u.getLsbD (15 - i) = true ∧
        ∃ w, ws[((List.range i).filter fun k => u.getLsbD (15 - k)).length]? = some w ∧ w.getLsbD (15 - j) = true)) ∧
      seq.Pairwise (fun a b => a.toNat < b.toNat) ∧ ∀ c : Byte, c ∈ seq ↔ inUse[c.toNat]? = some true

/-- R177, R178: TABLE_COUNTS writes `N_GROUPS` and, if that is in 2..6, `N_SELECTORS`; TableMalformed(2) and (3). (The list of selector
values starts again: the model's form of a table, log 4.) -/
def Obligations.TableCountsToken : Prop :=
  ∀ (s : State) (job : Job) (g : BitVec 3) (n : BitVec 15), s.ctl = .busy job .tableCounts →
    (g.toNat < 2 ∨ 6 < g.toNat → exec (.tableCounts g n) s =
      .next (raiseError .tableMalformed 2 { s with blk := { s.blk with nGroups := g.toNat } })) ∧
    (2 ≤ g.toNat → g.toNat ≤ 6 → (n.toNat < 1 ∨ 18002 < n.toNat) → exec (.tableCounts g n) s =
      .next (raiseError .tableMalformed 3 { s with blk := { s.blk with nGroups := g.toNat, nSelectors := n.toNat } })) ∧
    (2 ≤ g.toNat → g.toNat ≤ 6 → 1 ≤ n.toNat → n.toNat ≤ 18002 → exec (.tableCounts g n) s =
      .next { s with
        blk := { s.blk with nGroups := g.toNat, nSelectors := n.toNat }, tab := { s.tab with selectorMtf := [] }
        ctl := .busy job (.selector 0) })

/-- R179, R180: the selector value `v` is stored as number `i`, or raises TableMalformed(4) if it is not below `N_GROUPS`; after the
last one the selectors are decoded by move-to-front and the code lengths begin. (The table `LEN` starts again empty: the
model's form of a table, log 4.) -/
def Obligations.SelectorTokens : Prop :=
  ∀ (s : State) (job : Job) (k v : Nat) (i : Instr), s.ctl = .busy job (.selector k) →
    (v, i) ∈ [(0, Instr.selectorMtf0), (1, .selectorMtf1), (2, .selectorMtf2), (3, .selectorMtf3), (4, .selectorMtf4),
      (5, .selectorMtf5)] →
    exec .selectorMtfBad s = .next (raiseError .tableMalformed 4 s) ∧
    (s.blk.nGroups ≤ v → exec i s = .next (raiseError .tableMalformed 4 s)) ∧
    (v < s.blk.nGroups → k + 1 < s.blk.nSelectors → exec i s = .next { s with
      tab := { s.tab with selectorMtf := putEntry s.tab.selectorMtf k v }, ctl := .busy job (.selector (k + 1)) }) ∧
    (v < s.blk.nGroups → ¬ k + 1 < s.blk.nSelectors → (∀ w ∈ putEntry s.tab.selectorMtf k v, w < s.blk.nGroups) →
      ∃ sel pos, decodeSelectors (putEntry s.tab.selectorMtf k v) (List.range s.blk.nGroups) = some (sel, pos) ∧
        sel.length = (putEntry s.tab.selectorMtf k v).length ∧ (∀ g ∈ sel, g < s.blk.nGroups) ∧
        exec i s = .next { s with
          tab := { s.tab with
            selectorMtf := putEntry s.tab.selectorMtf k v, selector := sel, pos := pos, lens := [] }
          ctl := .busy job (.codeLenStart 0) })

/-- R180, R188: move-to-front. Entry `v` comes first, the entries before it move up by one, the others stay; the first selector of a
list of MTF values is that entry and the others are decoded from the moved vector. -/
def Obligations.MoveToFront : Prop :=
  (∀ (l : List Nat) (v x : Nat), l[v]? = some x → ∃ l', moveToFront l v = some (x, l') ∧ l'.length = l.length ∧
    l'[0]? = some x ∧ (∀ k, 1 ≤ k → k ≤ v → l'[k]? = l[k - 1]?) ∧ ∀ k, v < k → l'[k]? = l[k]?) ∧
  (∀ l : List Nat, decodeSelectors [] l = some ([], l)) ∧
  ∀ (l l' sel last : List Nat) (v x : Nat) (vs : List Nat), moveToFront l v = some (x, l') →
    decodeSelectors vs l' = some (sel, last) → decodeSelectors (v :: vs) l = some (x :: sel, last)

/-- R105, R181, R182, R183: the code-length tokens. A length outside 1..23 raises TableMalformed(5) as soon as it is formed;
CODE_LEN_END stores the length of symbol `k`, and after the last symbol of the last group the tables are built, which may raise
TableMalformed(6), and the symbol loop is set up. (A group's row starts again empty, and so does `LL8`: the model's form of a table,
log 4.) -/
def Obligations.CodeLengthTokens : Prop :=
  (∀ (s : State) (job : Job) (t : Nat) (l : BitVec 5), s.ctl = .busy job (.codeLenStart t) →
    exec (.codeLenStart l) s = .next (if 1 ≤ l.toNat ∧ l.toNat ≤ 23
      then { s with tab := { s.tab with lens := putEntry s.tab.lens t [] }, ctl := .busy job (.codeLen t 0 l.toNat) }
      else raiseError .tableMalformed 5 { s with tab := { s.tab with lens := putEntry s.tab.lens t [] } })) ∧
  (∀ (s : State) (job : Job) (t k c : Nat), s.ctl = .busy job (.codeLen t k c) → 1 ≤ c → c ≤ 23 →
    exec .codeLenInc s = .next (if c + 1 ≤ 23 then { s with ctl := .busy job (.codeLen t k (c + 1)) }
      else raiseError .tableMalformed 5 s) ∧
    exec .codeLenDec s = .next (if 1 ≤ c - 1 then { s with ctl := .busy job (.codeLen t k (c - 1)) }
      else raiseError .tableMalformed 5 s) ∧
    ∀ (row : List Nat) (lens : List (List Nat)), s.tab.lens[t]? = some row →
      lens = putEntry s.tab.lens t (putEntry row k c) →
      (k + 1 < s.blk.alphaSize → exec .codeLenEnd s = .next { s with
        tab := { s.tab with lens := lens }, ctl := .busy job (.codeLen t (k + 1) c) }) ∧
      (¬ k + 1 < s.blk.alphaSize → t + 1 < s.blk.nGroups → exec .codeLenEnd s = .next { s with
        tab := { s.tab with lens := lens }, ctl := .busy job (.codeLenStart (t + 1)) }) ∧
      (¬ k + 1 < s.blk.alphaSize → ¬ t + 1 < s.blk.nGroups → exec .codeLenEnd s = .next (
        if (buildTables lens).2 then { s with
          tab := { s.tab with
            lens := lens, tables := (buildTables lens).1, yy := List.range 256, unzftab := List.replicate 256 0, ll8 := [] }
          blk := { s.blk with symCount := 0, last := -1 }
          ctl := .busy job (.symbols false) }
        else raiseError .tableMalformed 6 { s with
          tab := { s.tab with lens := lens, tables := (buildTables lens).1 } })))

/-- R186: RUN_A adds the weight of its digit to the accumulator and RUN_B twice that, both saturated at `2^20`; the weight doubles; the
first digit of a run starts from 0 with weight 1. -/
def Obligations.RunDigits : Prop :=
  ∀ (s : State) (job : Job) (b : Bool),
    (s.ctl = .busy job (.symbols false) → exec (runInstr b) s = .next { s with
      blk := { s.blk with runAcc := if b then 2 else 1, runW := 2 }, ctl := .busy job (.symbols true) }) ∧
    (s.ctl = .busy job (.symbols true) → exec (runInstr b) s = .next { s with
      blk := { s.blk with
        runAcc := min (s.blk.runAcc + if b then 2 * s.blk.runW else s.blk.runW) (2 ^ 20)
        runW := min (2 * s.blk.runW) (2 ^ 20) }
      ctl := .busy job (.symbols true) })

/-- R108, R186: every run length `s >= 1` has exactly one spelling in digits, least significant first; and the digits run one after
another leave `min(s, 2^20)` in the accumulator. -/
def Obligations.RunLengthSpelling : Prop :=
  (∀ n : Nat, 1 ≤ n → ∃ ds : List Bool, runLength ds = n ∧ ∀ ds' : List Bool, runLength ds' = n → ds' = ds) ∧
  ∀ (b : Bool) (ds : List Bool) (s : State) (job : Job), s.ctl = .busy job (.symbols false) →
    ∃ t, (b :: ds).foldl (fun o d => match o with
        | Host.Outcome.next u => exec (runInstr d) u
        | o => o) (.next s) = .next t ∧ t.ctl = .busy job (.symbols true) ∧
      t.blk.runAcc = min (runLength (b :: ds)) (2 ^ 20) ∧
      t = { s with blk := { s.blk with runAcc := t.blk.runAcc, runW := t.blk.runW }, ctl := t.ctl }

/-- R187, R185: a symbol other than a run digit first ends the run. If a byte of the run would land at index `cap` or beyond it
raises BlockOverrun(2); else `RUN_ACC` copies of the byte at the front of the MTF list are appended and counted, and the symbol
goes on from there. -/
def Obligations.RunFlush : Prop :=
  ∀ (s : State) (job : Job) (i : Instr), s.ctl = .busy job (.symbols true) →
    (i = .eob ∨ ∃ m, 2 ≤ m ∧ m ≤ s.blk.nInUse ∧ i = .mtf m) →
    (s.blk.last + s.blk.runAcc ≥ (s.blockSize100k * 100000 : Nat) → exec i s = .next (raiseError .blockOverrun 2 s)) ∧
    ∀ (y n : Nat) (c : Byte), s.blk.last + s.blk.runAcc < (s.blockSize100k * 100000 : Nat) → s.tab.yy[0]? = some y →
      s.tab.seqToUnseq[y]? = some c → s.tab.unzftab[c.toNat]? = some n →
      exec i s = exec i { s with
        tab := { s.tab with
          ll8 := s.tab.ll8 ++ List.replicate s.blk.runAcc c, unzftab := s.tab.unzftab.set c.toNat (n + s.blk.runAcc) }
        blk := { s.blk with last := s.blk.last + s.blk.runAcc }, ctl := .busy job (.symbols false) }

/-- R188: MTF moves entry `m - 1` of the MTF list to the front and appends its byte; a byte at index `cap` raises BlockOverrun(1)
instead, the list already moved. -/
def Obligations.MtfToken : Prop :=
  ∀ (s : State) (job : Job) (m tmp : Nat), s.ctl = .busy job (.symbols false) → 2 ≤ m → m ≤ s.blk.nInUse →
    s.tab.yy[m - 1]? = some tmp →
    (s.blk.last + 1 ≥ (s.blockSize100k * 100000 : Nat) → exec (.mtf m) s =
      .next (raiseError .blockOverrun 1 { s with tab := { s.tab with yy := tmp :: s.tab.yy.eraseIdx (m - 1) } })) ∧
    ∀ (c : Byte) (n : Nat), s.blk.last + 1 < (s.blockSize100k * 100000 : Nat) → s.tab.seqToUnseq[tmp]? = some c →
      s.tab.unzftab[c.toNat]? = some n → exec (.mtf m) s = .next { s with
        tab := { s.tab with
          yy := tmp :: s.tab.yy.eraseIdx (m - 1), ll8 := s.tab.ll8 ++ [c], unzftab := s.tab.unzftab.set c.toNat (n + 1) }
        blk := { s.blk with last := s.blk.last + 1 } }

/-- R200 to R204: EOB sets the walk up. `TT` lists the indices of `LL8` by byte and, for one byte, in order, so it is a permutation of
`0 .. LAST`; an origin beyond `LAST` raises StreamCorrupted(1); else the walk starts at `TT[ORIG_PTR]` with everything else of the
cursor as R203 and R204 say, in the family the randomised flag selects. -/
def Obligations.EobToken : Prop :=
  ∀ (s : State) (job : Job), Inv s → s.ctl = .busy job (.symbols false) → ∃ cf tt : List Nat,
    tt.Perm (List.range s.tab.ll8.length) ∧
    (∀ j k a b : Nat, j < k → tt[j]? = some a → tt[k]? = some b →
      (s.tab.ll8.getD a 0).toNat < (s.tab.ll8.getD b 0).toNat ∨ (s.tab.ll8.getD a 0 = s.tab.ll8.getD b 0 ∧ a < b)) ∧
    ((s.blk.origPtr.toNat : Int) > s.blk.last → exec .eob s =
      .next (raiseError .streamCorrupted 1 { s with tab := { s.tab with cftab := cf, tt := tt } })) ∧
    ((s.blk.origPtr.toNat : Int) ≤ s.blk.last → ∃ tp, tt[s.blk.origPtr.toNat]? = some tp ∧ exec .eob s = .next { s with
      tab := { s.tab with cftab := cf, tt := tt }
      cur := { tPos := tp, i2 := 0, count := 0, z := 0, j2 := 0, ch2 := 256, chPrev := 256, rnToGo := 0, rtPos := 0,
               blockCrc := 0xFFFFFFFF }
      state := if s.blk.randomized then .randA else .norandA
      ctl := .busy job .walk })

/-- R109, R209, R210: the length byte `z` of a unit makes `z` more copies due. (That the row RLE1_UNIT is run where four equal bytes
have been counted and the length byte taken, and does just this, is the model's choice: log 17.) -/
def Obligations.Rle1UnitToken : Prop :=
  ∀ (s : State) (job : Job) (c z : Byte) (st : StreamState), s.ctl = .busy job .walk →
    (s.state = .randB ∧ st = .randC ∨ s.state = .norandB ∧ st = .norandC) → s.cur.count = 4 → s.cur.ch2 = c.zeroExtend 9 →
    exec (.rle1Unit c z) s = .next { s with cur := { s.cur with z := z, j2 := 0 }, state := st }

/-! ## The output walk -/

/-- R209, R210: a step `*_B`, and a `*_C` with no copy left. A byte unlike the one before it starts a count at 1; an equal one is
counted; below four the walk goes on at `*_A`; at four the length byte is taken and `*_C` follows, or, with no byte left, StreamCorrupted(2) is raised. After the copies
`COUNT` is 0 and `*_A` follows. -/
def Obligations.CompareStep : Prop :=
  (∀ (s : State) (job : Job) (a st : StreamState), s.ctl = .busy job .walk →
    (s.state = .randB ∧ a = .randA ∧ st = .randC ∨ s.state = .norandB ∧ a = .norandA ∧ st = .norandC) →
    (s.cur.ch2 ≠ s.cur.chPrev → step s = .next { s with cur := { s.cur with count := 1 }, state := a }) ∧
    (s.cur.ch2 = s.cur.chPrev → s.cur.count + 1 < 4 →
      step s = .next { s with cur := { s.cur with count := s.cur.count + 1 }, state := a }) ∧
    (s.cur.ch2 = s.cur.chPrev → s.cur.count = 3 → (s.cur.i2 : Int) > s.blk.last →
      step s = .next (raiseError .streamCorrupted 2 { s with cur := { s.cur with count := 4 } })) ∧
    ∀ (z : Byte) (c : Cursor), s.cur.ch2 = s.cur.chPrev → s.cur.ch2.toNat ≤ 255 → s.cur.count = 3 →
      (s.cur.i2 : Int) ≤ s.blk.last → take { s with cur := { s.cur with count := 4 } } = some (z, c) →
      step s = .next { s with cur := { c with z := z, j2 := 0 }, state := st }) ∧
  ∀ (s : State) (job : Job) (a : StreamState), s.ctl = .busy job .walk →
    (s.state = .randC ∧ a = .randA ∨ s.state = .norandC ∧ a = .norandA) → ¬ s.cur.j2 < s.cur.z.toNat →
    step s = .next { s with cur := { s.cur with count := 0 }, state := a }

/-- R205, R206, R207: `take` gives the byte at the walk position, toggled only in a randomised block; the position follows `TT`, the
walk counts one byte more, and a block that is not randomised touches neither `RN_TO_GO` nor `RT_POS`. The derandomiser counts
down, or reloads from `RNUMS` when the count is 0, and toggles the byte where the new count is 1. -/
def Obligations.TakesByte : Prop :=
  (∀ (s : State) (v : Byte) (p : Nat), s.tab.ll8[s.cur.tPos]? = some v → s.tab.tt[s.cur.tPos]? = some p →
    (s.blk.randomized = false → take s = some (v, { s.cur with tPos := p, i2 := s.cur.i2 + 1 })) ∧
    (s.blk.randomized = true → ∀ r : Nat, s.cur.rnToGo = 0 → s.rnums[s.cur.rtPos]? = some r →
      take s = some (if r = 2 then v ^^^ 1 else v,
        { s.cur with tPos := p, i2 := s.cur.i2 + 1, rnToGo := r - 1, rtPos := (s.cur.rtPos + 1) % 512 })) ∧
    (s.blk.randomized = true → s.cur.rnToGo ≠ 0 →
      take s = some (if s.cur.rnToGo = 2 then v ^^^ 1 else v,
        { s.cur with tPos := p, i2 := s.cur.i2 + 1, rnToGo := s.cur.rnToGo - 1 }))) ∧
  ∀ s : State, Inv s → s.closed = false → (s.ctl = .idle ∨ ∃ job, s.ctl = .busy job .walk) →
    s.state ∈ [.randA, .randB, .randC, .norandA, .norandB, .norandC] → ∃ v c, take s = some (v, c) ∧
      s.tab.ll8[s.cur.tPos]? = some (if s.blk.randomized ∧ c.rnToGo = 1 then v ^^^ 1 else v)

/-- R213, R214, R238: the step that finds the walk exhausted compares the block's CRC; if it differs it raises CRCMismatch(1) and folds
nothing; else it folds it into the combined CRC and goes to START_BLOCK or NO_PROCESS. The two worked folds of R214. -/
def Obligations.EndOfBlockStep : Prop :=
  (∀ (s : State) (job : Job), s.ctl = .busy job .walk → (s.state = .randA ∨ s.state = .norandA) →
    (s.cur.i2 : Int) > s.blk.last →
    (s.cur.blockCrc ^^^ 0xFFFFFFFF ≠ s.blk.storedBlockCrc → step s = .next (raiseError .crcMismatch 1 s)) ∧
    (s.cur.blockCrc ^^^ 0xFFFFFFFF = s.blk.storedBlockCrc → step s = .next { s with
      combinedCrc := s.combinedCrc.rotateLeft 1 ^^^ s.blk.storedBlockCrc
      state := if s.mode = .continuous then .startBlock else .noProcess })) ∧
  foldCrc 0 0x5188D079 = 0x5188D079 ∧ foldCrc 0x81B02D8B 0x8CF30B52 = 0x8F935045

/-- R206, R207, R110: with every entry of `RNUMS` at least 2, the byte at walk position `p` is toggled just when `p` is
`RNUMS[m] - 2` after the `m`-th reload, whatever the data. -/
def Obligations.DerandomiserPositions : Prop :=
  ∀ (rnums : List Nat) (c : Cursor), rnums.length = 512 → (∀ r ∈ rnums, 2 ≤ r) → c.rnToGo = 0 → c.rtPos = 0 →
    ∀ p : Nat, ∃ c1 c2 : Cursor, derandAfter rnums c p = some c1 ∧ derandAfter rnums c (p + 1) = some c2 ∧
      ∀ v : Byte, ((∃ m : Nat, p + 2 = reloadAt rnums (m + 1)) → derand rnums v c1 = some (v ^^^ 1, c2)) ∧
        ((∀ m : Nat, p + 2 ≠ reloadAt rnums (m + 1)) → derand rnums v c1 = some (v, c2))

/-- R211, R212: the CRC of no byte and of the ASCII bytes `123456789`. (The bitwise form of the CRC and this check value are general
knowledge, which the spec marks as not in its source: log 15, K1, K2.) -/
def Obligations.CrcCheckValue : Prop :=
  crcFinal crcInit = 0 ∧
    crcFinal ([0x31, 0x32, 0x33, 0x34, 0x35, 0x36, 0x37, 0x38, 0x39].foldl crcUpdate crcInit) = 0xFC891918

/-! ## Memory and the host -/

/-- R64, R71: `OUT` as data: two memories in canonical form that read alike are equal; a write keeps the form, gives the byte written
where it was written and leaves every other byte (the canonical form is the model's, log 12). -/
def Obligations.MemoryCanonical : Prop :=
  (∀ m n : Memory, m.wf = true → n.wf = true → (∀ a, memRead m a = memRead n a) → m = n) ∧
  ∀ (m : Memory) (a : Nat) (v : Byte), m.wf = true → Memory.wf (memWrite m a v) = true ∧ memRead (memWrite m a v) a = v ∧
    ∀ b, b ≠ a → memRead (memWrite m a v) b = memRead m b

/-- R90, R305, R302, R62, R303: what the host and the source do beside writing `CMD`. The host writes the operands at any time, also
while a command runs. It reads the response when the block is idle; before that it may read any 32-bit `STATUS` and any 64-bit
`RESULT` (U5). It attaches the source of its next INIT. The source delivers bytes after those it still has to say, or ends; a byte
after its `EOF` is refused (U7). None of this changes anything else (what a read gave stands in the model's `hostData`, and a free
value counts a draw: log 14). -/
def Obligations.PortAccess : Prop :=
  (∀ (s : State) (v : Word),
    hostAct (.writeArg0 v) s = .next { s with arg0 := v } ∧ hostAct (.writeArg1 v) s = .next { s with arg1 := v } ∧
    (s.ctl = .idle → hostAct .readStatus s = .next { s with hostData := s.status.zeroExtend 64 }) ∧
    (s.ctl = .idle → hostAct .readResult s = .next { s with hostData := s.result }) ∧
    (s.ctl ≠ .idle → ∃ x : Word, hostAct .readStatus s = .next { s with hostData := x.zeroExtend 64, draws := s.draws + 1 }) ∧
    (s.ctl ≠ .idle → ∃ x : DWord, hostAct .readResult s = .next { s with hostData := x, draws := s.draws + 1 })) ∧
  ∀ (s : State) (src : Source) (bytes : List Byte),
    hostAct (.attach src) s = .next { s with attached := some src } ∧
    (s.rd.srcEnds = false →
      hostAct (.deliver bytes) s = .next { s with rd := { s.rd with src := s.rd.src ++ bytes } }) ∧
    (s.rd.srcEnds = true → hostAct (.deliver bytes) s = .refused .sourceBreaksDuty) ∧
    hostAct .endSource s = .next { s with rd := { s.rd with srcEnds := true } }

/-- R305, R306, U6, R64: the host's accesses to `OUT`. A write into the range of a READ_INTO in progress stops the model by name; any
other write stores its byte. A read gives the byte that stands there when the block is idle, and any byte before that (U6, log 14);
neither changes anything else. (That an access beyond `OUT_CAP` by the host stops the model by name is its own choice: log 29.) -/
def Obligations.OutputBufferHazard : Prop :=
  ∀ (s : State) (a : Nat) (v : Byte),
    (s.outCap ≤ a → hostAct (.readOut a) s = .fault .outAddress) ∧
    (a < s.outCap → s.ctl = .idle →
      hostAct (.readOut a) s = .next { s with hostData := (memRead s.out a).zeroExtend 64 }) ∧
    (a < s.outCap → s.ctl ≠ .idle → ∃ x : Byte,
      hostAct (.readOut a) s = .next { s with hostData := x.zeroExtend 64, draws := s.draws + 1 }) ∧
    (inReadRange a s = true → hostAct (.writeOut a v) s = .fault .outDuringReadInto) ∧
    (inReadRange a s = false → s.outCap ≤ a → hostAct (.writeOut a v) s = .fault .outAddress) ∧
    (inReadRange a s = false → a < s.outCap → hostAct (.writeOut a v) s = .next { s with out := memWrite s.out a v })

/-! ## The whole machine -/

/-- Every step keeps the invariant `Inv`: the ranges of spec/10_state.md, the permutation of R201, the walk bounds of R215, the bounds
of R136, R52, R189 and R241, and the canonical form of `OUT`. -/
def Obligations.StepKeepsInvariant : Prop :=
  ∀ s t : State, Inv s → step s = .next t → Inv t

/-- R53, R62, R215: from a state with the invariant, a step whose next host action keeps its duty (R303, R305, R306) gives a next state: no
entry without a value is read, the walk never leaves the block, no token stands out of place. -/
def Obligations.StepNeverStops : Prop :=
  ∀ s : State, Inv s → NextActOk s → SafeStep s

/-- R254, R308: with a source that ends, every command answers: an idle machine is idle again after it, with the invariant. -/
def Obligations.CommandsAnswer : Prop :=
  ∀ (s : State) (i : Instr), Inv s → s.ctl = .idle → (encodeCmd i).isSome = true →
    (i = .initContinuous ∨ i = .initByblock → (initReader s).srcEnds = true) →
    (i = .readByte ∨ i = .readInto → s.closed = true ∨ s.rd.srcEnds = true) →
    ∃ t, exec i s = .next t ∧ t.ctl = .idle ∧ Inv t

/-- R96, R271: `STATUS` always has its format: it has it after reset, and every step from a state with the invariant keeps it. -/
def Obligations.StatusFormat : Prop :=
  StatusOk State.reset ∧ ∀ s t : State, Inv s → StatusOk s → step s = .next t → StatusOk t

/-- R9, R21, R22: no step writes the parameters; `CLOSED` and `MODE` are written only when a command word of INIT or CLOSE is run. -/
def Obligations.ModeAndClosedWriters : Prop :=
  ∀ s t : State, Inv s → step s = .next t → t.outCap = s.outCap ∧ t.rnums = s.rnums ∧
    ((t.closed = s.closed ∧ t.mode = s.mode) ∨
      ∃ w rest, s.ctl = .idle ∧ s.script = .writeCmd w :: rest ∧
        ((decodeCmd w = .initContinuous ∧ t.closed = false ∧ t.mode = .continuous) ∨
          (decodeCmd w = .initByblock ∧ t.closed = false ∧ t.mode = .byblock) ∨ (decodeCmd w = .close ∧ t.closed = true)))

/-- R24, R275: an error, once there is one, is kept by every step but one that runs INIT or CLOSE. -/
def Obligations.FirstErrorKept : Prop :=
  ∀ s t : State, Inv s → s.err ≠ 0 → step s = .next t →
    (t.err = s.err ∧ t.errDetail = s.errDetail) ∨
      ∃ w rest, s.ctl = .idle ∧ s.script = .writeCmd w :: rest ∧ decodeCmd w ∈ [.initContinuous, .initByblock, .close]
end

