-- ==== Sys2Proof/Laws/Bits.lean ====
section
/-! SUPPORT. The laws of bit fields: `bitsMsb` and `natOfBits` are inverse to each other, and split where a field is split. -/

namespace Sys2Proof

@[simp] theorem bitsMsb_length (n v : Nat) : (bitsMsb n v).length = n := by
  induction n with
  | zero => rfl
  | succ n ih => simp [bitsMsb, ih]

theorem bitsMsb_congr {n v w : Nat} (h : ∀ i < n, v.testBit i = w.testBit i) : bitsMsb n v = bitsMsb n w := by
  induction n with
  | zero => rfl
  | succ n ih =>
    rw [bitsMsb, bitsMsb, h n (by omega), ih fun i hi => h i (by omega)]

theorem bitsMsb_add (a b v : Nat) : bitsMsb (a + b) v = bitsMsb a (v >>> b) ++ bitsMsb b v := by
  induction a with
  | zero => simp [bitsMsb]
  | succ a ih =>
    rw [show a + 1 + b = (a + b) + 1 by omega, bitsMsb, bitsMsb, ih]
    simp [Nat.testBit_shiftRight, Nat.add_comm b a]

theorem natOfBits_append (as bs : List Bool) : natOfBits (as ++ bs) = natOfBits as * 2 ^ bs.length + natOfBits bs := by
  have fold : ∀ (bs : List Bool) (v : Nat),
      bs.foldl (fun v b => 2 * v + b.toNat) v = v * 2 ^ bs.length + bs.foldl (fun v b => 2 * v + b.toNat) 0 := by
    intro bs
    induction bs with
    | nil => simp
    | cons b bs ih =>
      intro v
      rw [List.foldl_cons, List.foldl_cons, ih, ih (2 * 0 + b.toNat), List.length_cons, Nat.pow_succ]
      ring
  unfold natOfBits
  rw [List.foldl_append, fold]

theorem natOfBits_lt (bs : List Bool) : natOfBits bs < 2 ^ bs.length := by
  induction bs using List.reverseRecOn with
  | nil => simp [natOfBits]
  | append_singleton bs b ih =>
    rw [natOfBits_append, List.length_append, Nat.pow_add]
    have : natOfBits [b] < 2 := by cases b <;> decide
    simp only [List.length_singleton, pow_one]
    omega

theorem natOfBits_bitsMsb (n v : Nat) : natOfBits (bitsMsb n v) = v % 2 ^ n := by
  induction n with
  | zero => simp [bitsMsb, natOfBits, Nat.mod_one]
  | succ n ih =>
    rw [bitsMsb, show v.testBit n :: bitsMsb n v = [v.testBit n] ++ bitsMsb n v from rfl, natOfBits_append, ih,
      bitsMsb_length]
    have h1 : natOfBits [v.testBit n] = (v / 2 ^ n) % 2 := by
      rw [Nat.testBit_eq_decide_div_mod_eq]
      have := Nat.mod_two_eq_zero_or_one (v / 2 ^ n)
      rcases this with h | h <;> simp [h, natOfBits]
    rw [h1, Nat.pow_succ, Nat.mod_mul]
    ring

theorem natOfBits_bitsMsb_of_lt {n v : Nat} (h : v < 2 ^ n) : natOfBits (bitsMsb n v) = v := by
  rw [natOfBits_bitsMsb, Nat.mod_eq_of_lt h]

theorem bitsMsb_mod (n v : Nat) : bitsMsb n (v % 2 ^ n) = bitsMsb n v :=
  bitsMsb_congr fun i hi => by simp [Nat.testBit_mod_two_pow, hi]

theorem bitsMsb_inj {n v w : Nat} (h : bitsMsb n v = bitsMsb n w) : v % 2 ^ n = w % 2 ^ n := by
  have := congrArg natOfBits h
  rwa [natOfBits_bitsMsb, natOfBits_bitsMsb] at this

theorem bitsMsb_natOfBits (bs : List Bool) : bitsMsb bs.length (natOfBits bs) = bs := by
  induction bs with
  | nil => rfl
  | cons b bs ih =>
    have h := natOfBits_append [b] bs
    have hlt := natOfBits_lt bs
    simp only [List.singleton_append] at h
    have h1 : natOfBits (b :: bs) >>> bs.length = natOfBits [b] := by
      rw [h, Nat.shiftRight_eq_div_pow, Nat.mul_comm, Nat.mul_add_div (by positivity), Nat.div_eq_of_lt hlt, Nat.add_zero]
    have h2 : natOfBits (b :: bs) % 2 ^ bs.length = natOfBits bs := by
      rw [h, Nat.mul_comm, Nat.mul_add_mod, Nat.mod_eq_of_lt hlt]
    have h3 : bitsMsb 1 (natOfBits [b]) = [b] := by cases b <;> decide
    rw [List.length_cons, Nat.add_comm, bitsMsb_add, h1, h3, ← bitsMsb_mod bs.length, h2, ih]
    rfl

theorem bitsMsb_take (n k v : Nat) (h : k ≤ n) : (bitsMsb n v).take k = bitsMsb k (v >>> (n - k)) := by
  obtain ⟨m, rfl⟩ := Nat.exists_eq_add_of_le h
  rw [bitsMsb_add, List.take_append_of_le_length (by simp), List.take_of_length_le (by simp)]
  simp

theorem bitsMsb_drop (n k v : Nat) (h : k ≤ n) : (bitsMsb n v).drop k = bitsMsb (n - k) v := by
  obtain ⟨m, rfl⟩ := Nat.exists_eq_add_of_le h
  rw [bitsMsb_add, List.drop_append_of_le_length (by simp), List.drop_of_length_le (by simp)]
  simp

@[simp] theorem bitsOfBytes_nil : bitsOfBytes [] = [] := rfl

@[simp] theorem bitsOfBytes_cons (b : Byte) (bs : List Byte) : bitsOfBytes (b :: bs) = bitsMsb 8 b.toNat ++ bitsOfBytes bs := by
  simp [bitsOfBytes]

@[simp] theorem bitsOfBytes_length (bs : List Byte) : (bitsOfBytes bs).length = 8 * bs.length := by
  induction bs with
  | nil => rfl
  | cons b bs ih => simp [ih]; omega

end Sys2Proof
end

