-- ==== Sys2Proof/Laws/BitReader.lean ====
section
/-! SUPPORT. What the bit reader can do (R130 to R136), in terms of the bits ahead: a refill moves bytes of the source into the
buffer and changes no bit ahead; a read consumes the first bits ahead. -/

namespace Sys2Proof.Machine

/-- `r'` is `r` after refills that pulled the bytes `bs` (R130). -/
structure Pulled (r r' : BitReader) (bs : List Byte) : Prop where
  src : r.src = bs ++ r'.src
  raw : r'.raw = r.raw + BitVec.ofNat 64 bs.length
  live : r'.live = r.live + 8 * bs.length
  ends : r'.srcEnds = r.srcEnds
  part : r'.part = r.part
  ahead : bitsAhead r' = bitsAhead r

theorem raw_add (v : DWord) (m n : Nat) : v + BitVec.ofNat 64 m + BitVec.ofNat 64 n = v + BitVec.ofNat 64 (m + n) := by
  rw [BitVec.add_assoc, BitVec.ofNat_add]

theorem raw_zero (v : DWord) : v = v + BitVec.ofNat 64 0 := by simp

theorem Pulled.refl (r : BitReader) : Pulled r r [] := ⟨rfl, raw_zero _, rfl, rfl, rfl, rfl⟩

theorem Pulled.trans {a b c : BitReader} {x y : List Byte} (h : Pulled a b x) (k : Pulled b c y) : Pulled a c (x ++ y) :=
  ⟨by rw [h.src, k.src, List.append_assoc], by rw [k.raw, h.raw, List.length_append, raw_add],
    by rw [k.live, h.live, List.length_append]; omega, by rw [k.ends, h.ends], by rw [k.part, h.part], by rw [k.ahead, h.ahead]⟩

/-- `r'` is `r` after reads that consumed `k` bits; of the bits held it says nothing. -/
structure Consumed (r r' : BitReader) (k : Nat) : Prop where
  src : ∃ bs : List Byte, r.src = bs ++ r'.src ∧ r'.raw = r.raw + BitVec.ofNat 64 bs.length ∧
    r'.live + k = r.live + 8 * bs.length
  ends : r'.srcEnds = r.srcEnds
  ahead : bitsAhead r' = (bitsAhead r).drop k

theorem Consumed.refl (r : BitReader) : Consumed r r 0 := ⟨⟨[], rfl, raw_zero _, rfl⟩, rfl, rfl⟩

/-- What is held plays no part in what is consumed. -/
theorem Consumed.held {r r' : BitReader} {k : Nat} (h : Consumed r r' k) (p q : List Bool) :
    Consumed { r with part := p } { r' with part := q } k := ⟨h.src, h.ends, h.ahead⟩

theorem Consumed.trans {a b c : BitReader} {m n : Nat} (h : Consumed a b m) (k : Consumed b c n) : Consumed a c (m + n) := by
  obtain ⟨⟨x, hx, hxr, hxl⟩, he, ha⟩ := h
  obtain ⟨⟨y, hy, hyr, hyl⟩, ke, ka⟩ := k
  refine ⟨⟨x ++ y, by rw [hx, hy, List.append_assoc], by rw [hyr, hxr, List.length_append, raw_add], ?_⟩,
    by rw [ke, he], by rw [ka, ha, List.drop_drop]⟩
  rw [List.length_append]
  omega

@[simp] theorem bitsAhead_length (r : BitReader) : (bitsAhead r).length = r.live + 8 * r.src.length := by
  simp [bitsAhead]

theorem bitsLeft_eq (r : BitReader) : bitsLeft r = (bitsAhead r).length := by simp [bitsLeft]

/-- What is left after `k` bits have been consumed. -/
theorem Consumed.left {r r' : BitReader} {k : Nat} (h : Consumed r r' k) : bitsLeft r' + k = bitsLeft r := by
  obtain ⟨⟨x, hx, -, hl⟩, -, -⟩ := h
  simp only [bitsLeft, hx, List.length_append]
  omega

theorem Consumed.pulled {r r' : BitReader} {k : Nat} (h : Consumed r r' k) : ∃ m, PulledBytes m r r' ∧ r'.live + k = r.live + 8 * m := by
  obtain ⟨⟨x, hx, hr, hl⟩, he, -⟩ := h
  exact ⟨x.length, ⟨by rw [hx, List.length_append]; omega, by rw [hx, List.drop_left], hr, he⟩, hl⟩

/-- A source that has been read to its end has been pulled whole. -/
theorem Consumed.pulled_all {r r' : BitReader} {k : Nat} (h : Consumed r r' k) (hs : r'.src = []) :
    PulledBytes r.src.length r r' := by
  obtain ⟨⟨x, hx, hr, -⟩, he, -⟩ := h
  rw [hs, List.append_nil] at hx
  exact ⟨le_rfl, by rw [hs, List.drop_length], by rw [hr, hx], he⟩

/-- `P` advances by the bits consumed (R135), where `RAW` does not wrap. -/
theorem Consumed.pos {r r' : BitReader} {k : Nat} (h : Consumed r r' k) (hw : RawOk r) :
    RawOk r' ∧ bitPos r' = bitPos r + k ∧ r'.raw.toNat + r'.src.length = r.raw.toNat + r.src.length := by
  obtain ⟨⟨x, hx, hr, hl⟩, -, -⟩ := h
  obtain ⟨h1, h2⟩ := hw
  rw [hx, List.length_append] at h1
  have hraw : r'.raw.toNat = r.raw.toNat + x.length := by
    rw [hr, BitVec.toNat_add, BitVec.toNat_ofNat, Nat.mod_eq_of_lt (a := x.length) (by omega), Nat.mod_eq_of_lt (by omega)]
  refine ⟨⟨by omega, by omega⟩, ?_, ?_⟩
  · unfold bitPos; omega
  · rw [hraw, hx, List.length_append]; omega

theorem Pulled.consumed {r r' : BitReader} {x : List Byte} (h : Pulled r r' x) : Consumed r r' 0 :=
  ⟨⟨x, h.src, h.raw, h.live⟩, h.ends, h.ahead⟩

/-- Everything `pull` can do (R130). -/
theorem pull_cases (r : BitReader) (h : r.live ≤ 56) :
    (∃ b r', pull r = .got r' ∧ Pulled r r' [b]) ∨ (pull r = .eof ∧ r.src = [] ∧ r.srcEnds = true) ∨
      (pull r = .wait ∧ r.src = [] ∧ r.srcEnds = false) := by
  unfold pull
  cases hs : r.src with
  | nil =>
    cases he : r.srcEnds
    · exact .inr (.inr ⟨by simp, rfl, rfl⟩)
    · exact .inr (.inl ⟨by simp, rfl, rfl⟩)
  | cons b rest =>
    refine .inl ⟨b, _, rfl, ⟨by simp [hs], rfl, by simp, rfl, rfl, ?_⟩⟩
    simp only [bitsAhead, hs, bitsOfBytes_cons, ← List.append_assoc]
    congr 1
    rw [bitsMsb_add]
    have tb : ∀ i, ((r.buf <<< 8) ||| b.zeroExtend 64).toNat.testBit i
        = (decide (i < 64) && (!decide (i < 8) && r.buf.toNat.testBit (i - 8)) || (decide (i < 64) && b.toNat.testBit i)) := by
      intro i
      rw [BitVec.testBit_toNat, BitVec.getLsbD_or, BitVec.getLsbD_shiftLeft]
      rw [show (BitVec.zeroExtend 64 b).getLsbD i = (decide (i < 64) && b.getLsbD i) from BitVec.getLsbD_setWidth ..]
      simp only [BitVec.testBit_toNat]
      by_cases h1 : i < 64 <;> by_cases h2 : i < 8 <;> simp [h1, h2]
    congr 1
    · apply bitsMsb_congr
      intro i hi
      rw [Nat.testBit_shiftRight, tb]
      have : b.toNat.testBit (8 + i) = false := by
        apply Nat.testBit_lt_two_pow
        exact Nat.lt_of_lt_of_le b.isLt (Nat.pow_le_pow_right (by omega) (by omega))
      simp [this]
      omega
    · apply bitsMsb_congr
      intro i hi
      rw [tb]
      have : i < 64 := by omega
      simp [hi, this]

/-- Everything a refill can do (R131): it ends with enough bits, and pulled no more bytes than were needed; or the source has
ended, or has not answered, with too few bits and every byte pulled. -/
theorem fill_cases (fuel n : Nat) (r : BitReader) (hn : n ≤ 48) (hf : n ≤ r.live + fuel) :
    (∃ r' bs, fill fuel n r = .full r' ∧ Pulled r r' bs ∧ n ≤ r'.live ∧ ((r.live < n ∧ r'.live ≤ n + 7) ∨ r' = r)) ∨
      (∃ r', fill fuel n r = .eof r' ∧ Pulled r r' r.src ∧ r'.src = [] ∧ r.srcEnds = true ∧ r'.live < n) ∨
      (∃ r', fill fuel n r = .wait r' ∧ Pulled r r' r.src ∧ r'.src = [] ∧ r.srcEnds = false ∧ r'.live < n) := by
  induction fuel generalizing r with
  | zero =>
    refine .inl ⟨r, [], rfl, Pulled.refl r, by omega, .inr rfl⟩
  | succ fuel ih =>
    by_cases hl : r.live < n
    · rcases pull_cases r (by omega) with ⟨b, r1, hp, hpd⟩ | ⟨hp, hs, he⟩ | ⟨hp, hs, he⟩
      · have hlive := hpd.live
        have hstep : fill (fuel + 1) n r = fill fuel n r1 := by simp only [fill, if_pos hl, hp]
        simp only [List.length_singleton] at hlive
        rw [hstep]
        rcases ih r1 (by omega) with ⟨r', bs, hf', hpl, hle, hub⟩ | ⟨r', hf', hpl, hs', he', hlt⟩ |
            ⟨r', hf', hpl, hs', he', hlt⟩
        · refine .inl ⟨r', _, hf', hpd.trans hpl, hle, .inl ⟨hl, ?_⟩⟩
          rcases hub with h | h
          · exact h.2
          · subst h; omega
        · refine .inr (.inl ⟨r', hf', ?_, hs', by rw [← hpd.ends]; exact he', hlt⟩)
          rw [hpd.src]; exact hpd.trans hpl
        · refine .inr (.inr ⟨r', hf', ?_, hs', by rw [← hpd.ends]; exact he', hlt⟩)
          rw [hpd.src]; exact hpd.trans hpl
      · refine .inr (.inl ⟨r, by simp only [fill, if_pos hl, hp], ?_, hs, he, hl⟩)
        rw [hs]; exact Pulled.refl r
      · refine .inr (.inr ⟨r, by simp only [fill, if_pos hl, hp], ?_, hs, he, hl⟩)
        rw [hs]; exact Pulled.refl r
    · exact .inl ⟨r, [], by simp only [fill, if_neg hl], Pulled.refl r, by omega, .inr rfl⟩

theorem topBits_eq (n : Nat) (r : BitReader) (h : n ≤ r.live) : topBits n r = natOfBits ((bitsAhead r).take n) := by
  rw [bitsAhead, List.take_append_of_le_length (by simpa using h), bitsMsb_take _ _ _ h, natOfBits_bitsMsb, topBits]

theorem consume_full (n : Nat) (r : BitReader) (h : n ≤ r.live) : Consumed r { r with live := r.live - n } n := by
  refine ⟨⟨[], rfl, raw_zero _, by simp; omega⟩, rfl, ?_⟩
  simp only [bitsAhead]
  rw [List.drop_append_of_le_length (by simpa using h), bitsMsb_drop _ _ _ h]

/-- Everything `readBits` can do (R131). It pulls only where `LIVE` is too low, and then leaves at most 7. -/
theorem readBits_cases (n : Nat) (r : BitReader) (hn : n ≤ 48) :
    (∃ r', readBits n r = .got (natOfBits ((bitsAhead r).take n)) r' ∧ n ≤ bitsLeft r ∧ Consumed r r' n ∧ r'.part = r.part ∧
      ((r.live < n ∧ r'.live ≤ 7) ∨ r'.live + n = r.live)) ∨
      (∃ r', readBits n r = .eof r' ∧ Pulled r r' r.src ∧ r'.src = [] ∧ r.srcEnds = true ∧ r'.live < n ∧ bitsLeft r < n) ∨
      (∃ r', readBits n r = .wait r' ∧ Pulled r r' r.src ∧ r'.src = [] ∧ r.srcEnds = false ∧ r'.live < n ∧ bitsLeft r < n) := by
  rcases fill_cases n n r hn (by omega) with ⟨r', bs, hf, hp, hle, hub⟩ | ⟨r', hf, hp, hs, he, hlt⟩ | ⟨r', hf, hp, hs, he, hlt⟩
  · have hc := consume_full n r' hle
    refine .inl ⟨{ r' with live := r'.live - n }, ?_, ?_, ?_, hp.part, ?_⟩
    · simp only [readBits, hf, topBits_eq n r' hle, hp.ahead]
    · rw [bitsLeft_eq, ← hp.ahead, bitsAhead_length]; omega
    · obtain ⟨⟨x, hx, hxr, hxl⟩, hce, hca⟩ := hc
      refine ⟨⟨bs ++ x, by rw [hp.src, List.append_assoc, ← hx], ?_, ?_⟩, by rw [hce, hp.ends], by rw [hca, hp.ahead]⟩
      · rw [hxr, hp.raw, List.length_append, raw_add]
      · rw [hxl, hp.live, List.length_append]; omega
    · simp only
      rcases hub with h | h
      · left; omega
      · right; rw [h] at hle ⊢; omega
  · refine .inr (.inl ⟨r', by simp only [readBits, hf], hp, hs, he, hlt, ?_⟩)
    have := hp.live
    simp only [bitsLeft]
    omega
  · refine .inr (.inr ⟨r', by simp only [readBits, hf], hp, hs, he, hlt, ?_⟩)
    have := hp.live
    simp only [bitsLeft]
    omega

/-- A read of bits that are there (R131). -/
theorem readBits_got (n : Nat) (r : BitReader) (hn : n ≤ 48) (h : n ≤ bitsLeft r) :
    ∃ r', readBits n r = .got (natOfBits ((bitsAhead r).take n)) r' ∧ Consumed r r' n ∧
      ((r.live < n ∧ r'.live ≤ 7) ∨ r'.live + n = r.live) := by
  rcases readBits_cases n r hn with ⟨r', h1, -, h3, -, h4⟩ | ⟨r', -, -, -, -, -, h6⟩ | ⟨r', -, -, -, -, -, h6⟩
  · exact ⟨r', h1, h3, h4⟩
  · omega
  · omega

end Sys2Proof.Machine
end

