-- ==== Sys2Proof/Laws/Huffman.lean ====
section
/-! SUPPORT. The canonical Huffman tables (R150 to R156): what `LIMIT`, `BASE` and `PERM` hold, and that decoding reads only entries
that were written. -/

namespace Sys2Proof

/-- The number of symbols shorter than `L`: the index in `PERM` of the first symbol of length `L`. -/
def shorter (lens : List Nat) (L : Nat) : Nat := lens.countP (· < L)

theorem shorter_succ (lens : List Nat) (L : Nat) : shorter lens (L + 1) = shorter lens L + lens.count L := by
  induction lens with
  | nil => rfl
  | cons a l ih =>
    simp only [shorter, List.countP_cons, List.count_cons] at ih ⊢
    rw [ih]
    by_cases h1 : a < L
    · simp [h1, show a < L + 1 by omega, show ¬ a = L by omega]; omega
    · by_cases h2 : a = L
      · simp [h2]; omega
      · simp [h1, h2, show ¬ a < L + 1 by omega]

theorem minLenOf_le {lens : List Nat} {l : Nat} (h : l ∈ lens) : minLenOf lens ≤ l := by
  have aux : ∀ (ls : List Nat) (a : Nat), ls.foldl min a ≤ a ∧ ∀ l ∈ ls, ls.foldl min a ≤ l := by
    intro ls
    induction ls with
    | nil => simp
    | cons x ls ih =>
      intro a
      have := ih (min a x)
      rw [List.foldl_cons]
      refine ⟨by omega, fun l hl => ?_⟩
      rcases List.mem_cons.mp hl with rfl | hl
      · omega
      · exact this.2 l hl
  exact (aux lens _).2 l h

theorem le_maxLenOf {lens : List Nat} {l : Nat} (h : l ∈ lens) : l ≤ maxLenOf lens := by
  have aux : ∀ (ls : List Nat) (a : Nat), a ≤ ls.foldl max a ∧ ∀ l ∈ ls, l ≤ ls.foldl max a := by
    intro ls
    induction ls with
    | nil => simp
    | cons x ls ih =>
      intro a
      have := ih (max a x)
      rw [List.foldl_cons]
      refine ⟨by omega, fun l hl => ?_⟩
      rcases List.mem_cons.mp hl with rfl | hl
      · omega
      · exact this.2 l hl
  exact (aux lens _).2 l h

theorem minLenOf_mem {lens : List Nat} (h : lens ≠ []) : minLenOf lens ∈ lens := by
  have aux : ∀ (ls : List Nat) (a : Nat), ls.foldl min a = a ∨ ls.foldl min a ∈ ls := by
    intro ls
    induction ls with
    | nil => simp
    | cons x ls ih =>
      intro a
      rw [List.foldl_cons]
      rcases ih (min a x) with h | h
      · rcases Nat.le_total a x with hx | hx
        · left; rw [h]; omega
        · right; rw [h, Nat.min_eq_right hx]; exact List.mem_cons_self
      · exact .inr (List.mem_cons_of_mem _ h)
  cases lens with
  | nil => exact absurd rfl h
  | cons a l =>
    rcases aux (a :: l) ((a :: l).headD 0) with h | h
    · unfold minLenOf; rw [h]; exact List.mem_cons_self
    · exact h

theorem count_eq_zero_below {lens : List Nat} {L : Nat} (h : L < minLenOf lens) : lens.count L = 0 := by
  rw [List.count_eq_zero]
  intro hm
  have := minLenOf_le hm
  omega

theorem firstCode_below {lens : List Nat} {L : Nat} (h : L ≤ minLenOf lens) : firstCode lens L = 0 := by
  induction L with
  | zero => rfl
  | succ L ih => rw [firstCode, ih (by omega), count_eq_zero_below (by omega)]

theorem shorter_below {lens : List Nat} {L : Nat} (h : L ≤ minLenOf lens) : shorter lens L = 0 := by
  rw [shorter, List.countP_eq_zero]
  intro l hl
  have := minLenOf_le hl
  simp only [decide_eq_true_eq]
  omega

/-- R153 and R154: the rows of `LIMIT` and `BASE` from length `L` on, for lengths that pass the check. -/
theorem limitRows_get (lens : List Nat) : ∀ (n L : Nat), (limitRows lens n L (firstCode lens L) (shorter lens L)).2 = true →
    (limitRows lens n L (firstCode lens L) (shorter lens L)).1.length = n ∧
    ∀ j < n, (limitRows lens n L (firstCode lens L) (shorter lens L)).1[j]? =
        some ((firstCode lens (L + j) : Int) + lens.count (L + j) - 1, (firstCode lens (L + j) : Int) - shorter lens (L + j)) ∧
      firstCode lens (L + j) + lens.count (L + j) ≤ 2 ^ (L + j) := by
  intro n
  induction n with
  | zero => intro L _; exact ⟨rfl, fun j hj => absurd hj (by omega)⟩
  | succ n ih =>
    intro L h
    by_cases hc : firstCode lens L + lens.count L > 2 ^ L
    · simp [limitRows, if_pos hc] at h
    · have e : limitRows lens (n + 1) L (firstCode lens L) (shorter lens L) =
          (((firstCode lens L : Int) + lens.count L - 1, (firstCode lens L : Int) - shorter lens L) ::
            (limitRows lens n (L + 1) (firstCode lens (L + 1)) (shorter lens (L + 1))).1,
           (limitRows lens n (L + 1) (firstCode lens (L + 1)) (shorter lens (L + 1))).2) := by
        simp only [limitRows, if_neg hc, firstCode, shorter_succ]
      rw [e] at h ⊢
      obtain ⟨h1, h2⟩ := ih (L + 1) h
      refine ⟨by simp [h1], fun j hj => ?_⟩
      cases j with
      | zero => exact ⟨by simp, by simpa using hc⟩
      | succ j =>
        have := h2 j (by omega)
        rw [show L + (j + 1) = L + 1 + j by omega]
        exact ⟨by simpa using this.1, this.2⟩

/-- The symbols of one length: as many as `LEN` has entries of it. -/
theorem filter_range_length (lens : List Nat) (L s : Nat) (h : s ≤ lens.length) :
    ((List.range s).filter fun i => lens[i]? = some L).length = (lens.take s).count L := by
  induction s with
  | zero => simp
  | succ s ih =>
    have hs : lens[s]? = some lens[s] := List.getElem?_eq_getElem (by omega)
    rw [List.range_succ, List.filter_append, List.length_append, ih (by omega), List.take_add_one, hs,
      List.count_append]
    by_cases e : lens[s] = L
    · simp [hs, e]
    · simp [hs, e]

theorem symbolsOfLen_length (lens : List Nat) (L : Nat) : (symbolsOfLen lens L).length = lens.count L := by
  have := filter_range_length lens L lens.length le_rfl
  rwa [List.take_length] at this

/-- R152: within one length the symbols stand in ascending order, so a symbol's place is its rank. -/
theorem symbolsOfLen_get {lens : List Nat} {s L : Nat} (h : lens[s]? = some L) :
    (symbolsOfLen lens L)[(lens.take s).count L]? = some s := by
  have hs : s < lens.length := by
    rw [List.getElem?_eq_some_iff] at h; exact h.1
  obtain ⟨m, hm⟩ := Nat.exists_eq_add_of_lt hs
  have e : symbolsOfLen lens L = ((List.range s).filter fun i => lens[i]? = some L) ++
      s :: (((List.range m).map (s + 1 + ·)).filter fun i => lens[i]? = some L) := by
    unfold symbolsOfLen
    rw [hm, show s + m + 1 = s + 1 + m by omega, List.range_add, List.range_succ, List.filter_append, List.filter_append]
    simp [h]
  rw [e, List.getElem?_append_right (by rw [filter_range_length _ _ _ (by omega)]),
    filter_range_length _ _ _ (by omega)]
  simp

theorem mem_symbolsOfLen {lens : List Nat} {s L : Nat} (h : s ∈ symbolsOfLen lens L) : s < lens.length ∧ lens[s]? = some L := by
  simp only [symbolsOfLen, List.mem_filter, List.mem_range, decide_eq_true_eq] at h
  exact h

/-- The symbols of the lengths `lo .. lo+n-1`, as `PERM` lists them (R152). -/
def permOf (lens : List Nat) (lo n : Nat) : List Nat := (List.range n).flatMap fun j => symbolsOfLen lens (lo + j)

theorem permOf_length (lens : List Nat) (lo n : Nat) : shorter lens lo + (permOf lens lo n).length = shorter lens (lo + n) := by
  induction n with
  | zero => simp [permOf]
  | succ n ih =>
    have : permOf lens lo (n + 1) = permOf lens lo n ++ symbolsOfLen lens (lo + n) := by
      simp [permOf, List.range_succ]
    rw [this, List.length_append, ← Nat.add_assoc, ih, symbolsOfLen_length, ← Nat.add_assoc, shorter_succ]

/-- The place in `PERM` of the `k`-th symbol of length `lo + j` (R152, R153). -/
theorem permOf_get (lens : List Nat) (lo n j k : Nat) (h0 : shorter lens lo = 0) (hj : j < n)
    (hk : k < lens.count (lo + j)) :
    (permOf lens lo n)[shorter lens (lo + j) + k]? = (symbolsOfLen lens (lo + j))[k]? := by
  obtain ⟨m, rfl⟩ := Nat.exists_eq_add_of_lt hj
  have e : permOf lens lo (j + m + 1) = permOf lens lo j ++ (symbolsOfLen lens (lo + j) ++
      ((List.range m).map (j + 1 + ·)).flatMap fun j => symbolsOfLen lens (lo + j)) := by
    unfold permOf
    rw [show j + m + 1 = j + 1 + m by omega, List.range_add, List.range_succ, List.flatMap_append, List.flatMap_append]
    simp
  have hl := permOf_length lens lo j
  rw [h0, Nat.zero_add] at hl
  rw [e, List.getElem?_append_right (by omega), hl, Nat.add_sub_cancel_left,
    List.getElem?_append_left (by rw [symbolsOfLen_length]; exact hk)]

/-- What the table of one group holds when its lengths pass the check of R154 (R151 to R153). -/
structure TableSpec (lens : List Nat) (t : HuffTable) : Prop where
  minLen : t.minLen = minLenOf lens
  maxLen : t.maxLen = maxLenOf lens
  limit : ∀ L, minLenOf lens ≤ L → L ≤ maxLenOf lens →
    t.limit[L - t.minLen]? = some ((firstCode lens L : Int) + lens.count L - 1)
  base : ∀ L, minLenOf lens ≤ L → L ≤ maxLenOf lens →
    t.base[L - t.minLen]? = some ((firstCode lens L : Int) - shorter lens L)
  perm : ∀ L k, minLenOf lens ≤ L → L ≤ maxLenOf lens → k < lens.count L →
    t.perm[shorter lens L + k]? = (symbolsOfLen lens L)[k]?
  fits : ∀ L, minLenOf lens ≤ L → L ≤ maxLenOf lens → firstCode lens L + lens.count L ≤ 2 ^ L

/-- Everything `buildTable` says of lengths it accepts (R151 to R154). -/
theorem buildTable_spec {lens : List Nat} {t : HuffTable} (h : buildTable lens = (t, true)) : TableSpec lens t := by
  have h0 : firstCode lens (minLenOf lens) = 0 := firstCode_below le_rfl
  have s0 : shorter lens (minLenOf lens) = 0 := shorter_below le_rfl
  have hrows := limitRows_get lens (maxLenOf lens + 1 - minLenOf lens) (minLenOf lens)
  rw [h0, s0] at hrows
  simp only [buildTable, Prod.mk.injEq] at h
  obtain ⟨ht, hok⟩ := h
  obtain ⟨-, hget⟩ := hrows hok
  subst ht
  refine ⟨rfl, rfl, fun L h1 h2 => ?_, fun L h1 h2 => ?_, fun L k h1 h2 hk => ?_, fun L h1 h2 => ?_⟩
  · have := (hget (L - minLenOf lens) (by omega)).1
    rw [show minLenOf lens + (L - minLenOf lens) = L by omega] at this
    simp [List.getElem?_map, this]
  · have := (hget (L - minLenOf lens) (by omega)).1
    rw [show minLenOf lens + (L - minLenOf lens) = L by omega] at this
    simp [List.getElem?_map, this]
  · have := permOf_get lens (minLenOf lens) (maxLenOf lens + 1 - minLenOf lens) (L - minLenOf lens) k s0 (by omega)
    rw [show minLenOf lens + (L - minLenOf lens) = L by omega] at this
    exact this hk
  · have := (hget (L - minLenOf lens) (by omega)).2
    rwa [show minLenOf lens + (L - minLenOf lens) = L by omega] at this

/-- The symbol at a value `zvec` that is not above the limit of its length (R155). -/
theorem symbolAt_eq {lens : List Nat} {t : HuffTable} (ht : TableSpec lens t) (n L k : Nat) (h1 : minLenOf lens ≤ L)
    (h2 : L ≤ maxLenOf lens) (hk : k < lens.count L) :
    ∃ sym, (symbolsOfLen lens L)[k]? = some sym ∧ symbolAt t n L (firstCode lens L + k) = .done (symbolInstr n sym) := by
  have hk' : k < (symbolsOfLen lens L).length := by rw [symbolsOfLen_length]; exact hk
  refine ⟨(symbolsOfLen lens L)[k], List.getElem?_eq_getElem hk', ?_⟩
  have hp := ht.perm L k h1 h2 hk
  have hi : (((firstCode lens L + k : Nat) : Int) - ((firstCode lens L : Int) - shorter lens L)).toNat = shorter lens L + k := by
    push_cast; omega
  simp only [symbolAt, ht.base L h1 h2, hi, hp, List.getElem?_eq_getElem hk']

/-- A parse of a symbol ends in a symbol of the alphabet, in TableMalformed(7), or in a read that needs bits that are not there: it
never reads an entry that was not written (R153, R155, R156). -/
theorem parseSymbolFrom_cases {lens : List Nat} {t : HuffTable} (ht : TableSpec lens t) (n : Nat) :
    ∀ (left zn zvec : Nat) (bs : List Bool), minLenOf lens ≤ zn → zn + left = maxLenOf lens → firstCode lens zn ≤ zvec →
    (∃ sym rest, parseBits (parseSymbolFrom t n left zn zvec) bs = .ok (symbolInstr n sym) rest ∧ sym < lens.length ∧
        rest.length ≤ bs.length) ∨
      parseBits (parseSymbolFrom t n left zn zvec) bs = .rejected .tableMalformed 7 ∨
      parseBits (parseSymbolFrom t n left zn zvec) bs = .short .unexpectedEndOfStream 0 := by
  intro left
  have hit : ∀ (zn zvec : Nat) (bs : List Bool), minLenOf lens ≤ zn → zn ≤ maxLenOf lens → firstCode lens zn ≤ zvec →
      zvec < firstCode lens zn + lens.count zn →
      ∃ sym rest, parseBits (symbolAt t n zn zvec) bs = .ok (symbolInstr n sym) rest ∧ sym < lens.length ∧
        rest.length ≤ bs.length := by
    intro zn zvec bs h1 h2 h3 h4
    obtain ⟨sym, hs, he⟩ := symbolAt_eq ht n zn (zvec - firstCode lens zn) h1 h2 (by omega)
    rw [show firstCode lens zn + (zvec - firstCode lens zn) = zvec by omega] at he
    exact ⟨sym, bs, by rw [he]; rfl, (mem_symbolsOfLen (List.mem_of_getElem? hs)).1, le_rfl⟩
  induction left with
  | zero =>
    intro zn zvec bs h1 h2 h3
    rw [Nat.add_zero] at h2
    simp only [parseSymbolFrom, ht.limit zn h1 (by omega)]
    by_cases hc : (zvec : Int) > (firstCode lens zn : Int) + lens.count zn - 1
    · rw [if_pos hc]; exact .inr (.inl rfl)
    · rw [if_neg hc]; exact .inl (hit zn zvec bs h1 (by omega) h3 (by omega))
  | succ left ih =>
    intro zn zvec bs h1 h2 h3
    simp only [parseSymbolFrom, ht.limit zn h1 (by omega)]
    by_cases hc : (zvec : Int) > (firstCode lens zn : Int) + lens.count zn - 1
    · rw [if_pos hc]
      simp only [Parse.field, parseBits]
      by_cases hb : 1 ≤ bs.length
      · rw [if_pos hb]
        rcases ih (zn + 1) (2 * zvec + natOfBits (bs.take 1)) (bs.drop 1) (by omega) (by omega)
          (by rw [firstCode]; omega) with ⟨sym, rest, e, hlt, hle⟩ | h | h
        · refine .inl ⟨sym, rest, e, hlt, ?_⟩
          rw [List.length_drop] at hle; omega
        · exact .inr (.inl h)
        · exact .inr (.inr h)
      · rw [if_neg hb]; exact .inr (.inr rfl)
    · rw [if_neg hc]; exact .inl (hit zn zvec bs h1 (by omega) h3 (by omega))

/-- The same for the whole of `decodeSym`, which reads at least the least length's bits. -/
theorem parseSymbol_cases {lens : List Nat} {t : HuffTable} (ht : TableSpec lens t) (hne : lens ≠ []) (n : Nat)
    (bs : List Bool) :
    (∃ sym rest, parseBits (parseSymbol t n) bs = .ok (symbolInstr n sym) rest ∧ sym < lens.length ∧
        rest.length + minLenOf lens ≤ bs.length) ∨
      parseBits (parseSymbol t n) bs = .rejected .tableMalformed 7 ∨
      parseBits (parseSymbol t n) bs = .short .unexpectedEndOfStream 0 := by
  have hmm : minLenOf lens ≤ maxLenOf lens := le_maxLenOf (minLenOf_mem hne)
  simp only [parseSymbol, Parse.field, parseBits, ht.minLen, ht.maxLen]
  by_cases hb : minLenOf lens ≤ bs.length
  · rw [if_pos hb]
    rcases parseSymbolFrom_cases ht n (maxLenOf lens - minLenOf lens) (minLenOf lens) (natOfBits (bs.take (minLenOf lens)))
      (bs.drop (minLenOf lens)) le_rfl (by omega) (by rw [firstCode_below le_rfl]; omega) with ⟨sym, rest, e, hlt, hle⟩ | h | h
    · refine .inl ⟨sym, rest, e, hlt, ?_⟩
      rw [List.length_drop] at hle; omega
    · exact .inr (.inl h)
    · exact .inr (.inr h)
  · rw [if_neg hb]; exact .inr (.inr rfl)

end Sys2Proof
end

