-- ==== Sys2Proof/Laws/Parse.lean ====
section
/-! SUPPORT. Small facts about parses run over the machine's bit reader: early writes and reads do not touch each other, and no parse
of a phase reads more than 48 bits at once (R112). -/

namespace Sys2Proof.Machine

theorem applyEarly_rd (w : EarlyWrite) (s : State) (r : BitReader) :
    applyEarly w { s with rd := r } = { applyEarly w s with rd := r } := by cases w <;> rfl

@[simp] theorem applyEarly_rd_eq (w : EarlyWrite) (s : State) : (applyEarly w s).rd = s.rd := by cases w <;> rfl

theorem applyEarlies_rd (ws : List EarlyWrite) (s : State) (r : BitReader) :
    applyEarlies ws { s with rd := r } = { applyEarlies ws s with rd := r } := by
  induction ws generalizing s with
  | nil => rfl
  | cons w ws ih => simp only [applyEarlies, List.foldl_cons, applyEarly_rd] at ih ⊢; rw [ih]

@[simp] theorem applyEarlies_rd_eq (ws : List EarlyWrite) (s : State) : (applyEarlies ws s).rd = s.rd := by
  induction ws generalizing s with
  | nil => rfl
  | cons w ws ih => simp only [applyEarlies, List.foldl_cons] at ih ⊢; rw [ih, applyEarly_rd_eq]

@[simp] theorem applyEarlies_nil (s : State) : applyEarlies [] s = s := rfl

theorem applyEarlies_cons (w : EarlyWrite) (ws : List EarlyWrite) (s : State) :
    applyEarlies (w :: ws) s = applyEarlies ws (applyEarly w s) := rfl

theorem widthsOk_bytes (m v : Nat) (k : Nat → Parse) (h : ∀ v, widthsOk (k v)) : widthsOk (Parse.bytes m v k) := by
  induction m generalizing v with
  | zero => exact h v
  | succ m ih => exact ⟨by omega, fun b => ih _⟩

theorem widthsOk_mapWords (u : BitVec 16) (is : List Nat) (ws : List (BitVec 16)) (l : List Bool) :
    widthsOk (parseMapWords u is ws l) := by
  induction is generalizing ws l with
  | nil => trivial
  | cons i is ih => exact ⟨by omega, fun v => ih _ _⟩

theorem widthsOk_selector (g v : Nat) : widthsOk (parseSelector g v) := by
  induction g generalizing v with
  | zero => trivial
  | succ g ih =>
    refine ⟨by omega, fun b => ?_⟩
    by_cases h : b = 1
    · simp only [h, if_true]; exact ih _
    · simp only [h, if_false]; trivial

theorem widthsOk_symbolAt (t : HuffTable) (n zn zvec : Nat) : widthsOk (symbolAt t n zn zvec) := by
  unfold symbolAt
  split
  · trivial
  · split <;> trivial

theorem widthsOk_symbolFrom (t : HuffTable) (n left zn zvec : Nat) : widthsOk (parseSymbolFrom t n left zn zvec) := by
  induction left generalizing zn zvec with
  | zero =>
    unfold parseSymbolFrom
    split
    · trivial
    · split
      · trivial
      · exact widthsOk_symbolAt ..
  | succ left ih =>
    unfold parseSymbolFrom
    split
    · trivial
    · split
      · exact ⟨by omega, fun b => ih _ _⟩
      · exact widthsOk_symbolAt ..

theorem widthsOk_symbol (t : HuffTable) (n : Nat) (h : t.minLen ≤ 48) : widthsOk (parseSymbol t n) :=
  ⟨h, fun _ => widthsOk_symbolFrom ..⟩

/-- No read of a phase's parse is wider than 48 bits (R112), if the Huffman tables have no codeword longer than that. -/
theorem widthsOk_phase (s : State) (ph : Phase) (h : ∀ r, ph = .symbols r → ∀ t ∈ s.tab.tables, t.minLen ≤ 48) :
    widthsOk (phaseParse s ph) := by
  cases ph with
  | header =>
    refine ⟨by omega, fun h => ?_⟩
    by_cases hh : h = 0x68
    · simp only [hh, ne_eq, not_true_eq_false, if_false]; exact ⟨by omega, fun d => trivial⟩
    · simp only [ne_eq, hh, not_false_eq_true, if_true]; trivial
  | scan => trivial
  | walk => trivial
  | marker =>
    refine widthsOk_bytes 6 0 _ fun m => ?_
    split
    · exact widthsOk_bytes 4 0 _ fun c => trivial
    · split <;> trivial
  | blockHeader => exact widthsOk_bytes 4 0 _ fun c => ⟨by omega, fun r => ⟨by omega, fun p => trivial⟩⟩
  | symbolMap => exact ⟨by omega, fun v => widthsOk_mapWords ..⟩
  | tableCounts =>
    refine ⟨by omega, fun g => ?_⟩
    by_cases hg : legalGroups g = true
    · simp only [widthsOk, hg, if_true]; exact ⟨by omega, fun n => trivial⟩
    · simp only [widthsOk, hg]; trivial
  | selector i => exact widthsOk_selector _ _
  | codeLenStart t => exact ⟨by omega, fun l => trivial⟩
  | codeLen t k c =>
    refine ⟨by omega, fun b => ?_⟩
    by_cases hb : b = 0
    · simp only [hb, if_true]; trivial
    · simp only [hb, if_false]
      refine ⟨by omega, fun c => ?_⟩
      by_cases hc : c = 0
      · simp only [hc, if_true]; trivial
      · simp only [hc, if_false]; trivial
  | symbols r =>
    simp only [phaseParse, symbolParse]
    split
    · trivial
    · split
      · trivial
      · split
        · trivial
        · rename_i tbl htbl
          exact widthsOk_symbol _ _ (h r rfl _ (List.mem_of_getElem? htbl))

theorem boundary_nil (p : Parse) : boundary p [] := by
  induction p with
  | done i => rfl
  | reject e d => rfl
  | nothing => rfl
  | read n e d k ih => exact .inl rfl
  | write w k ih => exact ih

theorem parseBits_read {n : Nat} {e : ErrKind} {d : Nat} {k : Nat → Parse} {bs : List Bool} (h : n ≤ bs.length) :
    parseBits (.read n e d k) bs = parseBits (k (natOfBits (bs.take n))) (bs.drop n) := by simp only [parseBits, if_pos h]

theorem earlyWrites_read {n : Nat} {e : ErrKind} {d : Nat} {k : Nat → Parse} {bs : List Bool} (h : n ≤ bs.length) :
    earlyWrites (.read n e d k) bs = earlyWrites (k (natOfBits (bs.take n))) (bs.drop n) := by simp only [earlyWrites, if_pos h]

theorem resume_read {n : Nat} {e : ErrKind} {d : Nat} {k : Nat → Parse} {bs : List Bool} (h : n ≤ bs.length) :
    resume (.read n e d k) bs = resume (k (natOfBits (bs.take n))) (bs.drop n) := by simp only [resume, if_pos h]

theorem resume_short {n : Nat} {e : ErrKind} {d : Nat} {k : Nat → Parse} {bs : List Bool} (h : ¬ n ≤ bs.length) :
    resume (.read n e d k) bs = .read n e d k := by simp only [resume, if_neg h]

theorem boundary_read {n : Nat} {e : ErrKind} {d : Nat} {k : Nat → Parse} {bs : List Bool} (h : n ≤ bs.length)
    (hb : boundary (.read n e d k) bs) : boundary (k (natOfBits (bs.take n))) (bs.drop n) := by
  rcases hb with rfl | hb
  · rw [List.drop_nil]; exact boundary_nil _
  · exact hb.2

/-- With nothing held a parse is run from its start. -/
theorem runParse_resume_nil (p : Parse) : ∀ s : State, runParse (resume p []) s = runParse p s := by
  induction p with
  | done i => intro s; rfl
  | reject e d => intro s; rfl
  | nothing => intro s; rfl
  | write w k ih => intro s; exact ih _
  | read n e d k ih =>
    intro s
    by_cases hn : n ≤ ([] : List Bool).length
    · obtain rfl : n = 0 := by simpa using hn
      rw [resume_read hn]
      refine (ih _ s).trans ?_
      simp [runParse, readBits, fill, topBits, BitReader.hold, bitsMsb, Nat.mod_one, natOfBits]
    · rw [resume_short hn]

/-- How the reading of a token ends. `L` are the bits from the token's start on; `acc` and the bits held after it are those consumed
so far. A token that has been read, an error and an `EOF` hold nothing, and leave `LIVE` at most 7 but for the `EOF`. -/
inductive ParseRun (p : Parse) (s : State) (acc L : List Bool) : Fetched → Prop where
  | instr (i : Instr) (s1 : State) (k : Nat) (bits : parseBits p L = .ok i (bitsAhead s1.rd)) (used : Consumed s.rd s1.rd k)
      (live : s1.rd.live ≤ 7) (part : s1.rd.part = [])
      (eq : s1 = { applyEarlies (earlyWrites p L) s with rd := s1.rd }) : ParseRun p s acc L (.instr i s1)
  | rejected (e : ErrKind) (d : Nat) (s1 : State) (k : Nat) (bits : parseBits p L = .rejected e d) (used : Consumed s.rd s1.rd k)
      (live : s1.rd.live ≤ 7) (part : s1.rd.part = [])
      (eq : s1 = { applyEarlies (earlyWrites p L) s with rd := s1.rd }) : ParseRun p s acc L (.raised e d s1)
  | ended (e : ErrKind) (d : Nat) (s1 : State) (k : Nat) (bits : parseBits p L = .short e d) (ends : s.rd.srcEnds = true)
      (used : Consumed s.rd s1.rd k) (src : s1.rd.src = []) (live : s1.rd.live < 48) (part : s1.rd.part = [])
      (eq : s1 = { applyEarlies (earlyWrites p L) s with rd := s1.rd }) : ParseRun p s acc L (.raised e d s1)
  | waits (e : ErrKind) (d : Nat) (s1 : State) (k : Nat) (held : List Bool) (bits : parseBits p L = .short e d)
      (ends : s.rd.srcEnds = false) (used : Consumed s.rd s1.rd k) (src : s1.rd.src = []) (live : s1.rd.live < 48)
      (part : s1.rd.part = acc ++ held) (all : held ++ bitsAhead s1.rd = L) (bound : boundary p held)
      (width : s1.rd.live < nextWidth (resume p held))
      (eq : s1 = { applyEarlies (earlyWrites p L) s with rd := s1.rd }) : ParseRun p s acc L (.wait s1)
  | undefined (bits : parseBits p L = .nothing) : ParseRun p s acc L .undefined

/-- The rest of a parse after one read, or after bits that were held. -/
theorem ParseRun.read {n : Nat} {e : ErrKind} {d : Nat} {k : Nat → Parse} {s s' : State} {acc bs L L' : List Bool} {m : Nat} {f : Fetched}
    (h : ParseRun (k (natOfBits bs)) s' (acc ++ bs) L' f) (hl : bs.length = n) (hL : L = bs ++ L') (hc : Consumed s.rd s'.rd m)
    (hs : s' = { s with rd := s'.rd }) : ParseRun (.read n e d k) s acc L f := by
  have hle : n ≤ (bs ++ L').length := by rw [List.length_append]; omega
  have ht : (bs ++ L').take n = bs := by rw [← hl, List.take_left]
  have hd : (bs ++ L').drop n = L' := by rw [← hl, List.drop_left]
  have hb : parseBits (.read n e d k) L = parseBits (k (natOfBits bs)) L' := by rw [hL, parseBits_read hle, ht, hd]
  have hw : earlyWrites (.read n e d k) L = earlyWrites (k (natOfBits bs)) L' := by rw [hL, earlyWrites_read hle, ht, hd]
  have hst : ∀ (ws : List EarlyWrite) (r : BitReader), { applyEarlies ws s' with rd := r } = { applyEarlies ws s with rd := r } := by
    intro ws r; rw [hs, applyEarlies_rd]
  cases h with
  | instr i s1 j bits used live part eq =>
    exact .instr i s1 _ (hb.trans bits) (hc.trans used) live part (by rw [hw, ← hst]; exact eq)
  | rejected e' d' s1 j bits used live part eq =>
    exact .rejected e' d' s1 _ (hb.trans bits) (hc.trans used) live part (by rw [hw, ← hst]; exact eq)
  | ended e' d' s1 j bits ends used src live part eq =>
    exact .ended e' d' s1 _ (hb.trans bits) (by rw [← hc.ends]; exact ends) (hc.trans used) src live part
      (by rw [hw, ← hst]; exact eq)
  | waits e' d' s1 j held bits ends used src live part all bound width eq =>
    have hle' : n ≤ (bs ++ held).length := by rw [List.length_append]; omega
    have ht' : (bs ++ held).take n = bs := by rw [← hl, List.take_left]
    have hd' : (bs ++ held).drop n = held := by rw [← hl, List.drop_left]
    refine .waits e' d' s1 _ (bs ++ held) (hb.trans bits) (by rw [← hc.ends]; exact ends) (hc.trans used) src live
      (by rw [part, List.append_assoc]) (by rw [hL, List.append_assoc, all]) (.inr ⟨hle', ?_⟩) ?_ (by rw [hw, ← hst]; exact eq)
    · rw [ht', hd']; exact bound
    · rw [resume_read hle', ht', hd']; exact width
  | undefined bits => exact .undefined (hb.trans bits)

theorem ParseRun.write {w : EarlyWrite} {k : Parse} {s : State} {acc L : List Bool} {f : Fetched}
    (h : ParseRun k (applyEarly w s) acc L f) : ParseRun (.write w k) s acc L f := by
  have hrd := applyEarly_rd_eq w s
  cases h with
  | instr i s1 j bits used live part eq => exact .instr i s1 j bits (by rw [← hrd]; exact used) live part eq
  | rejected e' d' s1 j bits used live part eq => exact .rejected e' d' s1 j bits (by rw [← hrd]; exact used) live part eq
  | ended e' d' s1 j bits ends used src live part eq =>
    exact .ended e' d' s1 j bits (by rw [← hrd]; exact ends) (by rw [← hrd]; exact used) src live part eq
  | waits e' d' s1 j held bits ends used src live part all bound width eq =>
    exact .waits e' d' s1 j held bits (by rw [← hrd]; exact ends) (by rw [← hrd]; exact used) src live part all bound width eq
  | undefined bits => exact .undefined bits

/-- Everything a parse over the bit reader can do, from its start or from where a wait has left it: it agrees with the decoder on the
bits from the token's start on, consumes just the bits the decoder does, and changes nothing but the bit reader and the fields it
writes early. Where the bits end inside the token, the source's `EOF` raises the error the parse names; a source that has not
answered makes it wait, with every byte of the source pulled and the bits consumed so far held. -/
theorem runParse_cases (p : Parse) : ∀ (s : State) (acc held : List Bool), widthsOk p → boundary p held →
    s.rd.part = acc ++ held → (s.rd.live ≤ 7 ∨ s.rd.live < nextWidth (resume p held)) →
    ParseRun p s acc (held ++ bitsAhead s.rd) (runParse (resume p held) s) := by
  induction p with
  | done i =>
    intro s acc held _ hb _ hl
    obtain rfl : held = [] := hb
    exact .instr i _ 0 rfl ⟨(Consumed.refl s.rd).src, rfl, rfl⟩ (by rcases hl with h | h; exact h; exact absurd h (Nat.not_lt_zero _)) rfl rfl
  | reject e d =>
    intro s acc held _ hb _ hl
    obtain rfl : held = [] := hb
    exact .rejected e d _ 0 rfl ⟨(Consumed.refl s.rd).src, rfl, rfl⟩ (by rcases hl with h | h; exact h; exact absurd h (Nat.not_lt_zero _)) rfl
      rfl
  | nothing => intro s acc held _ hb _ _; exact .undefined rfl
  | write w k ih =>
    intro s acc held hw hb hp hl
    have := ih (applyEarly w s) acc held hw hb (by rw [applyEarly_rd_eq]; exact hp) (by rw [applyEarly_rd_eq]; exact hl)
    rw [applyEarly_rd_eq] at this
    exact this.write
  | read n e d k ih =>
    intro s acc held hw hb hp hl
    by_cases hn : n ≤ held.length
    · rw [resume_read hn] at hl ⊢
      have := ih (natOfBits (held.take n)) s (acc ++ held.take n) (held.drop n) (hw.2 _) (boundary_read hn hb)
        (by rw [List.append_assoc, List.take_append_drop]; exact hp) hl
      exact this.read (by rw [List.length_take]; omega) (by rw [← List.append_assoc, List.take_append_drop]) (Consumed.refl _) rfl
    · rw [resume_short hn] at hl ⊢
      obtain rfl : held = [] := by
        rcases hb with hb | hb
        · exact hb
        · exact absurd hb.1 hn
      rw [List.append_nil] at hp
      rw [List.nil_append]
      rcases readBits_cases n s.rd hw.1 with ⟨r, h1, h2, h3, h4, h5⟩ | ⟨r, h1, h2, h3, h4, h5, h6⟩ | ⟨r, h1, h2, h3, h4, h5, h6⟩
      · have hlen : ((bitsAhead s.rd).take n).length = n := by rw [List.length_take, ← bitsLeft_eq]; omega
        have hhold : (r.hold n (natOfBits ((bitsAhead s.rd).take n))).part = acc ++ (bitsAhead s.rd).take n ++ [] := by
          have := bitsMsb_natOfBits ((bitsAhead s.rd).take n)
          rw [hlen] at this
          simp only [BitReader.hold, this, h4, hp, List.append_nil]
        have hrun : runParse (.read n e d k) s = runParse (resume (k (natOfBits ((bitsAhead s.rd).take n))) [])
            { s with rd := r.hold n (natOfBits ((bitsAhead s.rd).take n)) } := by
          rw [runParse_resume_nil]
          simp only [runParse, h1]
        rw [hrun]
        have hl7 : r.live ≤ 7 := by
          simp only [nextWidth] at hl
          omega
        refine (ih _ { s with rd := r.hold n (natOfBits ((bitsAhead s.rd).take n)) } (acc ++ (bitsAhead s.rd).take n) [] (hw.2 _)
          (boundary_nil _) hhold (.inl hl7)).read hlen ?_ (h3.held s.rd.part _) rfl
        show bitsAhead s.rd = (bitsAhead s.rd).take n ++ bitsAhead r
        rw [h3.ahead, List.take_append_drop]
      · have hlen : ¬ n ≤ (bitsAhead s.rd).length := by rw [← bitsLeft_eq]; omega
        have hrun : runParse (.read n e d k) s = .raised e d { s with rd := r.release } := by simp only [runParse, h1]
        rw [hrun]
        exact .ended e d _ 0 (by simp only [parseBits, if_neg hlen]) h4 (h2.consumed.held s.rd.part []) h3
          (by have := hw.1; show r.live < 48; omega) rfl (by simp only [earlyWrites, if_neg hlen, applyEarlies_nil])
      · have hlen : ¬ n ≤ (bitsAhead s.rd).length := by rw [← bitsLeft_eq]; omega
        have hrun : runParse (.read n e d k) s = .wait { s with rd := r } := by simp only [runParse, h1]
        rw [hrun]
        exact .waits e d _ 0 [] (by simp only [parseBits, if_neg hlen]) h4 h2.consumed h3
          (by have := hw.1; show r.live < 48; omega) (by rw [List.append_nil]; exact h2.part.trans hp)
          h2.ahead (.inl rfl) (by rw [resume_short hn]; exact h5) (by simp only [earlyWrites, if_neg hlen, applyEarlies_nil])

end Sys2Proof.Machine
end

