-- ==== Sys2Proof/Laws/Scan.lean ====
section
/-! SUPPORT. What the marker scanner can do (R137 to R140), in terms of the bits ahead. -/

namespace Sys2Proof.Machine

@[simp] theorem markBits_length : markBits.length = 48 := bitsMsb_length ..

theorem MarkAt.le {bs : List Bool} {q : Nat} (h : MarkAt bs q) : q + 48 ≤ bs.length := by
  have := congrArg List.length h
  simp only [List.length_take, List.length_drop, markBits_length] at this
  omega

theorem natOfBits_eq_mark {w : List Bool} (hw : w.length = 48) : natOfBits w = Config.blockMark ↔ w = markBits := by
  constructor
  · intro h
    rw [← bitsMsb_natOfBits w, hw, h]
    rfl
  · intro h
    rw [h]
    exact natOfBits_bitsMsb_of_lt (by decide)

/-- One bit into the window. -/
theorem window_shift (w : List Bool) (b : Bool) (hw : w.length = 48) :
    ((natOfBits w <<< 1) % 2 ^ 48) ||| natOfBits [b] = natOfBits (w.drop 1 ++ [b]) := by
  have hb : natOfBits [b] = b.toNat := by cases b <;> rfl
  obtain ⟨a, w', rfl⟩ : ∃ a w', w = a :: w' := by
    cases w with
    | nil => simp at hw
    | cons a w' => exact ⟨a, w', rfl⟩
  have hl : w'.length = 47 := by simpa using hw
  have h1 := natOfBits_append [a] w'
  have h2 := natOfBits_append w' [b]
  have hlt := natOfBits_lt w'
  simp only [List.singleton_append, List.length_singleton, pow_one, hl] at h1 h2 hlt
  simp only [List.drop_succ_cons, List.drop_zero]
  have h3 : (natOfBits (a :: w') <<< 1) % 2 ^ 48 = 2 * natOfBits w' := by
    rw [h1, Nat.shiftLeft_eq]; omega
  rw [h3, h2, hb, Nat.mul_comm (natOfBits w') 2]
  have e : 2 * natOfBits w' = natOfBits w' <<< 1 := by rw [Nat.shiftLeft_eq]; omega
  rw [e, ← Nat.shiftLeft_add_eq_or_of_lt (by cases b <;> decide)]

/-- The loop finds the first marker of the window and the bits after it. -/
theorem scanLoop_found (q : Nat) : ∀ (fuel : Nat) (w : List Bool) (r : BitReader), w.length = 48 → q < fuel →
    MarkAt (w ++ bitsAhead r) q → (∀ p < q, ¬ MarkAt (w ++ bitsAhead r) p) →
    ∃ r', scanLoop fuel (natOfBits w) r = .found r' ∧ Consumed r r' q ∧ (r'.live ≤ 7 ∨ r'.live ≤ r.live) ∧ r'.part = [] := by
  induction q with
  | zero =>
    intro fuel w r hw hf hm _
    obtain ⟨fuel, rfl⟩ : ∃ n, fuel = n + 1 := ⟨fuel - 1, by omega⟩
    have : w = markBits := by
      have := hm
      rwa [MarkAt, List.drop_zero, List.take_append_of_le_length (by omega), List.take_of_length_le (by omega)] at this
    refine ⟨r.release, ?_, (Consumed.refl r).held r.part [], .inr le_rfl, rfl⟩
    simp only [scanLoop, if_pos ((natOfBits_eq_mark hw).mpr this)]
  | succ q ih =>
    intro fuel w r hw hf hm hmin
    obtain ⟨fuel, rfl⟩ : ∃ n, fuel = n + 1 := ⟨fuel - 1, by omega⟩
    have hne : ¬ natOfBits w = Config.blockMark := by
      intro h
      have h0 := hmin 0 (by omega)
      apply h0
      rw [MarkAt, List.drop_zero, List.take_append_of_le_length (by omega), List.take_of_length_le (by omega)]
      exact (natOfBits_eq_mark hw).mp h
    have hlen := hm.le
    rw [List.length_append, hw] at hlen
    obtain ⟨r', hr, hc, hl⟩ := readBits_got 1 r (by omega) (by rw [bitsLeft_eq]; omega)
    obtain ⟨b, rest, hbr⟩ : ∃ b rest, bitsAhead r = b :: rest := by
      cases h : bitsAhead r with
      | nil => rw [h] at hlen; simp at hlen
      | cons b rest => exact ⟨b, rest, rfl⟩
    have hrest : bitsAhead r' = rest := by rw [hc.ahead, hbr]; rfl
    have hwin : (w ++ bitsAhead r).drop 1 = (w.drop 1 ++ [b]) ++ bitsAhead r' := by
      rw [List.drop_append_of_le_length (by omega), hbr, hrest]; simp
    have hmk : ∀ p, MarkAt ((w.drop 1 ++ [b]) ++ bitsAhead r') p ↔ MarkAt (w ++ bitsAhead r) (p + 1) := by
      intro p
      rw [← hwin, MarkAt, MarkAt, List.drop_drop, Nat.add_comm]
    obtain ⟨r2, h2, c2, l2, p2⟩ := ih fuel (w.drop 1 ++ [b]) r' (by simp [hw]) (by omega) ((hmk q).mpr hm)
      fun p hp h => hmin (p + 1) (by omega) ((hmk p).mp h)
    refine ⟨r2, ?_, by rw [Nat.add_comm]; exact hc.trans c2, by omega, p2⟩
    have ht : (bitsAhead r).take 1 = [b] := by rw [hbr]; rfl
    rw [ht] at hr
    simp only [scanLoop, if_neg hne, readBit, hr, window_shift w b hw, h2]

/-- Without a marker the loop runs to the end of the source; where that has not answered it holds the last 48 bits. -/
theorem scanLoop_none : ∀ (fuel : Nat) (w : List Bool) (r : BitReader), w.length = 48 → bitsLeft r < fuel →
    (∀ p, ¬ MarkAt (w ++ bitsAhead r) p) →
    (∃ r', scanLoop fuel (natOfBits w) r = .eof r' ∧ r.srcEnds = true ∧ r'.src = [] ∧ r'.live = 0 ∧ r'.part = [] ∧
      ∃ k, Consumed r r' k) ∨
      ∃ r', scanLoop fuel (natOfBits w) r = .wait r' ∧ r.srcEnds = false ∧ r'.src = [] ∧ r'.live = 0 ∧
        r'.part = (w ++ bitsAhead r).drop (bitsAhead r).length ∧ ∃ k, Consumed r r' k := by
  intro fuel
  induction fuel with
  | zero => intro w r _ h; omega
  | succ fuel ih =>
    intro w r hw hf hmin
    have hne : ¬ natOfBits w = Config.blockMark := by
      intro h
      apply hmin 0
      rw [MarkAt, List.drop_zero, List.take_append_of_le_length (by omega), List.take_of_length_le (by omega)]
      exact (natOfBits_eq_mark hw).mp h
    rcases readBits_cases 1 r (by omega) with ⟨r', hr, hle, hc, -, hl⟩ | ⟨r', hr, hp, hs, he, hlt, -⟩ |
        ⟨r', hr, hp, hs, he, hlt, hlt2⟩
    · obtain ⟨b, rest, hbr⟩ : ∃ b rest, bitsAhead r = b :: rest := by
        cases h : bitsAhead r with
        | nil => rw [bitsLeft_eq, h] at hle; simp at hle
        | cons b rest => exact ⟨b, rest, rfl⟩
      have hrest : bitsAhead r' = rest := by rw [hc.ahead, hbr]; rfl
      have hwin : (w ++ bitsAhead r).drop 1 = (w.drop 1 ++ [b]) ++ bitsAhead r' := by
        rw [List.drop_append_of_le_length (by omega), hbr, hrest]; simp
      have ht : (bitsAhead r).take 1 = [b] := by rw [hbr]; rfl
      rw [ht] at hr
      have hleft := hc.left
      have hstep : scanLoop (fuel + 1) (natOfBits w) r = scanLoop fuel (natOfBits (w.drop 1 ++ [b])) r' := by
        simp only [scanLoop, if_neg hne, readBit, hr, window_shift w b hw]
      rw [hstep]
      rcases ih (w.drop 1 ++ [b]) r' (by simp [hw]) (by omega) (by
        intro p h
        apply hmin (p + 1)
        rw [MarkAt, Nat.add_comm, ← List.drop_drop, hwin]; exact h) with ⟨r2, h2, e2, s2, l2, p2, k2, c2⟩ |
          ⟨r2, h2, e2, s2, l2, p2, k2, c2⟩
      · exact .inl ⟨r2, h2, by rw [← hc.ends]; exact e2, s2, l2, p2, _, hc.trans c2⟩
      · refine .inr ⟨r2, h2, by rw [← hc.ends]; exact e2, s2, l2, ?_, _, hc.trans c2⟩
        rw [p2, ← hwin, List.drop_drop]
        congr 1
        rw [hbr, hrest, List.length_cons, Nat.add_comm]
    · exact .inl ⟨r'.release, by simp only [scanLoop, if_neg hne, readBit, hr], he, hs, by show r'.live = 0; omega, rfl,
        _, hp.consumed.held r.part []⟩
    · have hnil : bitsAhead r = [] := by
        rw [← List.length_eq_zero_iff, ← bitsLeft_eq]; omega
      refine .inr ⟨{ r' with part := bitsMsb 48 (natOfBits w) }, by simp only [scanLoop, if_neg hne, readBit, hr], he, hs,
        by show r'.live = 0; omega, ?_, _, hp.consumed.held r.part _⟩
      have := bitsMsb_natOfBits w
      rw [hw] at this
      simp [this, hnil]

/-- What a scan may hold when it goes on: nothing, or its window (log 9). -/
def ScanReader (r : BitReader) : Prop := r.live ≤ 47 ∧ (r.part = [] ∨ (r.part.length = 48 ∧ r.live ≤ 7))

/-- A scan finds the first marker from where it began and stops just after it (R138). -/
theorem scanFor_found (r : BitReader) (hr : ScanReader r) (q : Nat) (h : FirstMark (bitsSince r) q) :
    ∃ r' k, scanFor r = .found r' ∧ Consumed r r' k ∧ k + r.part.length = q + 48 ∧
      bitsAhead r' = (bitsSince r).drop (q + 48) ∧ r'.live ≤ 7 ∧ r'.part = [] := by
  obtain ⟨hm, hmin⟩ := h
  have hlen := hm.le
  obtain ⟨h47, hp | ⟨hp, h7⟩⟩ := hr
  · rw [bitsSince, hp, List.nil_append] at hm hmin hlen ⊢
    obtain ⟨r1, hr, hc, hl⟩ := readBits_got 48 r (by omega) (by rw [bitsLeft_eq]; omega)
    have hw : ((bitsAhead r).take 48).length = 48 := by rw [List.length_take]; omega
    have happ : (bitsAhead r).take 48 ++ bitsAhead r1 = bitsAhead r := by rw [hc.ahead, List.take_append_drop]
    have hleft := hc.left
    rw [bitsLeft_eq r] at hleft
    obtain ⟨r2, h2, c2, l2, p2⟩ := scanLoop_found q (bitsLeft r1 + 1) _ r1 hw (by omega) (by rw [happ]; exact hm)
      (by rw [happ]; exact hmin)
    have hcc := hc.trans c2
    rw [Nat.add_comm] at hcc
    exact ⟨r2, q + 48, by simp only [scanFor, if_pos hp, hr, h2], hcc, rfl, hcc.ahead, by omega, p2⟩
  · have hne : r.part ≠ [] := by intro e; rw [e] at hp; simp at hp
    rw [bitsSince, List.length_append, hp] at hlen
    obtain ⟨r2, h2, c2, l2, p2⟩ := scanLoop_found q (bitsLeft r + 1) _ r hp (by rw [bitsLeft_eq]; omega) hm hmin
    refine ⟨r2, q, by simp only [scanFor, if_neg hne, h2], c2, by rw [hp], ?_, by omega, p2⟩
    rw [c2.ahead, bitsSince, List.drop_append, List.drop_of_length_le (l := r.part) (by omega), List.nil_append, hp,
      Nat.add_sub_cancel]

/-- A scan with no marker ahead runs to the end of the source (R140), with fewer than 48 bits left unread; or it waits, holding the
bits in which a marker could still begin. -/
theorem scanFor_none (r : BitReader) (hr : ScanReader r) (hmin : ∀ p, ¬ MarkAt (bitsSince r) p) :
    (∃ r' k, scanFor r = .eof r' ∧ r.srcEnds = true ∧ Consumed r r' k ∧ r'.src = [] ∧ r'.live < 48 ∧ r'.part = []) ∨
      ∃ r' k, scanFor r = .wait r' ∧ r.srcEnds = false ∧ Consumed r r' k ∧ r'.src = [] ∧ ScanReader r' ∧
        bitsSince r' = (bitsSince r).drop ((bitsSince r).length - 48) := by
  obtain ⟨h47, hp | ⟨hp, h7⟩⟩ := hr
  · rw [bitsSince, hp, List.nil_append] at hmin ⊢
    rcases readBits_cases 48 r (by omega) with ⟨r1, hr, hle, hc, -, hl⟩ | ⟨r', hr, hpl, hs, he, hlt, -⟩ |
        ⟨r', hr, hpl, hs, he, hlt, hlt2⟩
    · have hw : ((bitsAhead r).take 48).length = 48 := by rw [List.length_take, ← bitsLeft_eq]; omega
      have happ : (bitsAhead r).take 48 ++ bitsAhead r1 = bitsAhead r := by rw [hc.ahead, List.take_append_drop]
      rcases scanLoop_none (bitsLeft r1 + 1) _ r1 hw (by omega) (by rw [happ]; exact hmin) with
        ⟨r2, h2, e2, s2, l2, p2, k2, c2⟩ | ⟨r2, h2, e2, s2, l2, p2, k2, c2⟩
      · exact .inl ⟨r2, _, by simp only [scanFor, if_pos hp, hr, h2], by rw [← hc.ends]; exact e2, hc.trans c2, s2, by omega, p2⟩
      · have hl1 : (bitsAhead r1).length = (bitsAhead r).length - 48 := by rw [hc.ahead, List.length_drop]
        have hle' : 48 ≤ (bitsAhead r).length := by rw [← bitsLeft_eq]; exact hle
        rw [happ, hl1] at p2
        refine .inr ⟨r2, _, by simp only [scanFor, if_pos hp, hr, h2], by rw [← hc.ends]; exact e2, hc.trans c2, s2,
          ⟨by omega, .inr ⟨by rw [p2, List.length_drop]; omega, by omega⟩⟩, ?_⟩
        rw [bitsSince, p2, show bitsAhead r2 = [] by rw [← List.length_eq_zero_iff, bitsAhead_length, s2, l2]; rfl, List.append_nil]
    · exact .inl ⟨r', _, by simp only [scanFor, if_pos hp, hr], he, hpl.consumed, hs, hlt, hpl.part.trans hp⟩
    · refine .inr ⟨r', _, by simp only [scanFor, if_pos hp, hr], he, hpl.consumed, hs, ⟨by omega, .inl (hpl.part.trans hp)⟩, ?_⟩
      rw [bitsLeft_eq] at hlt2
      rw [bitsSince, hpl.part, hp, List.nil_append, hpl.ahead, Nat.sub_eq_zero_of_le (by omega), List.drop_zero]
  · have hne : r.part ≠ [] := by intro e; rw [e] at hp; simp at hp
    rcases scanLoop_none (bitsLeft r + 1) _ r hp (by omega) hmin with
      ⟨r2, h2, e2, s2, l2, p2, k2, c2⟩ | ⟨r2, h2, e2, s2, l2, p2, k2, c2⟩
    · exact .inl ⟨r2, _, by simp only [scanFor, if_neg hne, h2], e2, c2, s2, by omega, p2⟩
    · refine .inr ⟨r2, _, by simp only [scanFor, if_neg hne, h2], e2, c2, s2, ⟨by omega, .inr ⟨?_, by omega⟩⟩, ?_⟩
      · rw [p2, List.length_drop, List.length_append, hp]; omega
      · rw [bitsSince, p2, show bitsAhead r2 = [] by rw [← List.length_eq_zero_iff, bitsAhead_length, s2, l2]; rfl, List.append_nil,
          bitsSince, List.length_append, hp, Nat.add_sub_cancel_left]

/-- Everything a scan can do (R137 to R140). -/
theorem scanFor_cases (r : BitReader) (hr : ScanReader r) :
    (∃ r' k, scanFor r = .found r' ∧ Consumed r r' k ∧ 48 ≤ k + r.part.length ∧ r'.live ≤ 7 ∧ r'.part = []) ∨
      (∃ r' k, scanFor r = .eof r' ∧ r.srcEnds = true ∧ Consumed r r' k ∧ r'.src = [] ∧ r'.live < 48 ∧ r'.part = []) ∨
      ∃ r' k, scanFor r = .wait r' ∧ r.srcEnds = false ∧ Consumed r r' k ∧ r'.src = [] ∧ ScanReader r' := by
  by_cases h : ∃ q, MarkAt (bitsSince r) q
  · have : DecidablePred (MarkAt (bitsSince r)) := fun q => by unfold MarkAt; infer_instance
    obtain ⟨r', k, h1, h2, h3, -, h4, h5⟩ := scanFor_found r hr (Nat.find h)
      ⟨Nat.find_spec h, fun p hp => Nat.find_min h hp⟩
    exact .inl ⟨r', k, h1, h2, by omega, h4, h5⟩
  · rcases scanFor_none r hr fun p hp => h ⟨p, hp⟩ with h1 | ⟨r', k, h1, h2, h3, h4, h5, -⟩
    · exact .inr (.inl h1)
    · exact .inr (.inr ⟨r', k, h1, h2, h3, h4, h5⟩)

end Sys2Proof.Machine
end

