-- ==== Sys2Proof/Laws/Memory.lean ====
section
/-! SUPPORT. The laws of `OUT` (R64, log 12): a read after a write, and the canonical form. -/

namespace Sys2Proof.Machine

theorem memWfFrom_cons {lo x : Nat} {w : Byte} {m : Memory} :
    memWfFrom lo ((x, w) :: m) = true ↔ lo ≤ x ∧ w ≠ 0 ∧ memWfFrom (x + 1) m = true := by
  simp only [memWfFrom, Bool.and_eq_true, decide_eq_true_eq, and_assoc]

/-- Below its lower bound a canonical memory reads 0. -/
theorem memRead_below (m : Memory) (lo b : Nat) (h : memWfFrom lo m = true) (hb : b < lo) : memRead m b = 0 := by
  induction m generalizing lo with
  | nil => rfl
  | cons c m ih =>
    obtain ⟨x, w⟩ := c
    rw [memWfFrom_cons] at h
    simp only [memRead]
    rw [if_neg (by omega)]
    exact ih _ h.2.2 (by omega)

/-- A read after a write: the written byte at its offset, the old byte everywhere else. -/
theorem memRead_memWrite (m : Memory) (lo a b : Nat) (v : Byte) (h : memWfFrom lo m = true) :
    memRead (memWrite m a v) b = if b = a then v else memRead m b := by
  induction m generalizing lo with
  | nil =>
    by_cases hv : v = 0
    · rw [memWrite, if_pos hv]
      simp only [memRead, hv, ite_self]
    · rw [memWrite, if_neg hv]
      simp only [memRead]
  | cons c m ih =>
    obtain ⟨x, w⟩ := c
    rw [memWfFrom_cons] at h
    have tail0 := memRead_below m (x + 1) b h.2.2
    rw [memWrite]
    by_cases h1 : a < x
    · rw [if_pos h1]
      by_cases hv : v = 0
      · rw [if_pos hv]
        by_cases hb : b = a
        · rw [if_pos hb, hv, memRead, if_neg (by omega)]
          exact tail0 (by omega)
        · rw [if_neg hb]
      · rw [if_neg hv, memRead]
    · rw [if_neg h1]
      by_cases h2 : a = x
      · rw [if_pos h2]
        by_cases hv : v = 0
        · rw [if_pos hv]
          by_cases hb : b = a
          · rw [if_pos hb, hv]
            exact tail0 (by omega)
          · rw [if_neg hb, memRead, if_neg (by omega)]
        · rw [if_neg hv, memRead]
          by_cases hb : b = a
          · rw [if_pos hb, if_pos hb]
          · rw [if_neg hb, if_neg hb, memRead, if_neg (by omega)]
      · rw [if_neg h2, memRead, memRead, ih _ h.2.2]
        by_cases hb : b = x
        · rw [if_pos hb, if_pos hb, if_neg (by omega)]
        · rw [if_neg hb, if_neg hb]

theorem memWfFrom_mono (m : Memory) (lo lo' : Nat) (h : memWfFrom lo m = true) (hl : lo' ≤ lo) : memWfFrom lo' m = true := by
  cases m with
  | nil => rfl
  | cons c m =>
    obtain ⟨x, w⟩ := c
    rw [memWfFrom_cons] at h ⊢
    exact ⟨by omega, h.2⟩

theorem memWfFrom_memWrite (m : Memory) (lo a : Nat) (v : Byte) (h : memWfFrom lo m = true) (ha : lo ≤ a) :
    memWfFrom lo (memWrite m a v) = true := by
  induction m generalizing lo with
  | nil =>
    by_cases hv : v = 0
    · rw [memWrite, if_pos hv]; rfl
    · rw [memWrite, if_neg hv, memWfFrom_cons]; exact ⟨ha, hv, rfl⟩
  | cons c m ih =>
    obtain ⟨x, w⟩ := c
    have h' := memWfFrom_cons.mp h
    rw [memWrite]
    by_cases h1 : a < x
    · rw [if_pos h1]
      by_cases hv : v = 0
      · rw [if_pos hv]; exact h
      · rw [if_neg hv, memWfFrom_cons, memWfFrom_cons]
        exact ⟨ha, hv, by omega, h'.2⟩
    · rw [if_neg h1]
      by_cases h2 : a = x
      · rw [if_pos h2]
        by_cases hv : v = 0
        · rw [if_pos hv]; exact memWfFrom_mono _ _ _ h'.2.2 (by omega)
        · rw [if_neg hv, memWfFrom_cons]
          exact ⟨ha, hv, by rw [h2]; exact h'.2.2⟩
      · rw [if_neg h2, memWfFrom_cons]
        exact ⟨h'.1, h'.2.1, ih _ h'.2.2 (by omega)⟩

/-- Every write keeps the canonical form. -/
theorem wf_memWrite (m : Memory) (a : Nat) (v : Byte) (h : m.wf = true) : Memory.wf (memWrite m a v) = true :=
  memWfFrom_memWrite m 0 a v h (by omega)

/-- A read after a write, for a memory in canonical form. -/
theorem memRead_memWrite_wf (m : Memory) (a b : Nat) (v : Byte) (h : m.wf = true) :
    memRead (memWrite m a v) b = if b = a then v else memRead m b :=
  memRead_memWrite m 0 a b v h

/-- The offsets a write lists: the written one or those listed before. -/
theorem mem_memWrite (m : Memory) (a : Nat) (v : Byte) (c : Host.Cell) (h : c ∈ memWrite m a v) : c.1 = a ∨ c ∈ m := by
  induction m with
  | nil =>
    by_cases hv : v = 0
    · rw [memWrite, if_pos hv] at h; simp at h
    · rw [memWrite, if_neg hv] at h; simp at h; simp [h]
  | cons d m ih =>
    obtain ⟨x, w⟩ := d
    rw [memWrite] at h
    by_cases h1 : a < x
    · rw [if_pos h1] at h
      by_cases hv : v = 0
      · rw [if_pos hv] at h; exact .inr h
      · rw [if_neg hv, List.mem_cons] at h
        rcases h with h | h
        · exact .inl (by rw [h])
        · exact .inr h
    · rw [if_neg h1] at h
      by_cases h2 : a = x
      · rw [if_pos h2] at h
        by_cases hv : v = 0
        · rw [if_pos hv] at h; exact .inr (List.mem_cons_of_mem _ h)
        · rw [if_neg hv, List.mem_cons] at h
          rcases h with h | h
          · exact .inl (by rw [h])
          · exact .inr (List.mem_cons_of_mem _ h)
      · rw [if_neg h2, List.mem_cons] at h
        rcases h with h | h
        · exact .inr (by rw [h]; exact List.mem_cons_self)
        · rcases ih h with h | h
          · exact .inl h
          · exact .inr (List.mem_cons_of_mem _ h)

/-- Everything an `OUT` write does: the offset exists, and one byte of `OUT` is written. -/
theorem outWrite_cases {a : Nat} {v : Byte} {s t : State} (h : outWrite a v s = some t) :
    a < s.outCap ∧ t = { s with out := memWrite s.out a v } := by
  unfold outWrite at h
  split at h
  · exact ⟨‹_›, by simpa using h.symm⟩
  · simp at h

end Sys2Proof.Machine
end

