-- ==== Sys2Proof/Laws/State.lean ====
section
/-! SUPPORT. One lemma per field per update of the shared operations, so that no later proof unfolds a record update. -/

namespace Sys2Proof.Machine

/-! ## `respond` -/

@[simp] theorem respond_cmd (v : DWord) (s : State) : (respond v s).cmd = s.cmd := rfl
@[simp] theorem respond_arg0 (v : DWord) (s : State) : (respond v s).arg0 = s.arg0 := rfl
@[simp] theorem respond_arg1 (v : DWord) (s : State) : (respond v s).arg1 = s.arg1 := rfl
@[simp] theorem respond_status (v : DWord) (s : State) : (respond v s).status = statusOk := rfl
@[simp] theorem respond_result (v : DWord) (s : State) : (respond v s).result = v := rfl
@[simp] theorem respond_closed (v : DWord) (s : State) : (respond v s).closed = s.closed := rfl
@[simp] theorem respond_mode (v : DWord) (s : State) : (respond v s).mode = s.mode := rfl
@[simp] theorem respond_state (v : DWord) (s : State) : (respond v s).state = s.state := rfl
@[simp] theorem respond_err (v : DWord) (s : State) : (respond v s).err = s.err := rfl
@[simp] theorem respond_errDetail (v : DWord) (s : State) : (respond v s).errDetail = s.errDetail := rfl
@[simp] theorem respond_rd (v : DWord) (s : State) : (respond v s).rd = s.rd := rfl
@[simp] theorem respond_reported (v : DWord) (s : State) : (respond v s).reported = s.reported := rfl
@[simp] theorem respond_blockSize100k (v : DWord) (s : State) : (respond v s).blockSize100k = s.blockSize100k := rfl
@[simp] theorem respond_combinedCrc (v : DWord) (s : State) : (respond v s).combinedCrc = s.combinedCrc := rfl
@[simp] theorem respond_blk (v : DWord) (s : State) : (respond v s).blk = s.blk := rfl
@[simp] theorem respond_tab (v : DWord) (s : State) : (respond v s).tab = s.tab := rfl
@[simp] theorem respond_cur (v : DWord) (s : State) : (respond v s).cur = s.cur := rfl
@[simp] theorem respond_outCap (v : DWord) (s : State) : (respond v s).outCap = s.outCap := rfl
@[simp] theorem respond_rnums (v : DWord) (s : State) : (respond v s).rnums = s.rnums := rfl
@[simp] theorem respond_out (v : DWord) (s : State) : (respond v s).out = s.out := rfl
@[simp] theorem respond_ctl (v : DWord) (s : State) : (respond v s).ctl = .idle := rfl
@[simp] theorem respond_attached (v : DWord) (s : State) : (respond v s).attached = s.attached := rfl
@[simp] theorem respond_script (v : DWord) (s : State) : (respond v s).script = s.script := rfl
@[simp] theorem respond_hostData (v : DWord) (s : State) : (respond v s).hostData = s.hostData := rfl
@[simp] theorem respond_draws (v : DWord) (s : State) : (respond v s).draws = s.draws := rfl

/-! ## `recordError` -/

@[simp] theorem recordError_cmd (e : ErrKind) (d : Nat) (s : State) : (recordError e d s).cmd = s.cmd := by
  unfold recordError; split <;> rfl
@[simp] theorem recordError_arg0 (e : ErrKind) (d : Nat) (s : State) : (recordError e d s).arg0 = s.arg0 := by
  unfold recordError; split <;> rfl
@[simp] theorem recordError_arg1 (e : ErrKind) (d : Nat) (s : State) : (recordError e d s).arg1 = s.arg1 := by
  unfold recordError; split <;> rfl
@[simp] theorem recordError_status (e : ErrKind) (d : Nat) (s : State) : (recordError e d s).status = s.status := by
  unfold recordError; split <;> rfl
@[simp] theorem recordError_result (e : ErrKind) (d : Nat) (s : State) : (recordError e d s).result = s.result := by
  unfold recordError; split <;> rfl
@[simp] theorem recordError_closed (e : ErrKind) (d : Nat) (s : State) : (recordError e d s).closed = s.closed := by
  unfold recordError; split <;> rfl
@[simp] theorem recordError_mode (e : ErrKind) (d : Nat) (s : State) : (recordError e d s).mode = s.mode := by
  unfold recordError; split <;> rfl
@[simp] theorem recordError_rd (e : ErrKind) (d : Nat) (s : State) : (recordError e d s).rd = s.rd := by
  unfold recordError; split <;> rfl
@[simp] theorem recordError_reported (e : ErrKind) (d : Nat) (s : State) : (recordError e d s).reported = s.reported := by
  unfold recordError; split <;> rfl
@[simp] theorem recordError_blockSize100k (e : ErrKind) (d : Nat) (s : State) : (recordError e d s).blockSize100k = s.blockSize100k := by
  unfold recordError; split <;> rfl
@[simp] theorem recordError_combinedCrc (e : ErrKind) (d : Nat) (s : State) : (recordError e d s).combinedCrc = s.combinedCrc := by
  unfold recordError; split <;> rfl
@[simp] theorem recordError_blk (e : ErrKind) (d : Nat) (s : State) : (recordError e d s).blk = s.blk := by
  unfold recordError; split <;> rfl
@[simp] theorem recordError_tab (e : ErrKind) (d : Nat) (s : State) : (recordError e d s).tab = s.tab := by
  unfold recordError; split <;> rfl
@[simp] theorem recordError_cur (e : ErrKind) (d : Nat) (s : State) : (recordError e d s).cur = s.cur := by
  unfold recordError; split <;> rfl
@[simp] theorem recordError_outCap (e : ErrKind) (d : Nat) (s : State) : (recordError e d s).outCap = s.outCap := by
  unfold recordError; split <;> rfl
@[simp] theorem recordError_rnums (e : ErrKind) (d : Nat) (s : State) : (recordError e d s).rnums = s.rnums := by
  unfold recordError; split <;> rfl
@[simp] theorem recordError_out (e : ErrKind) (d : Nat) (s : State) : (recordError e d s).out = s.out := by
  unfold recordError; split <;> rfl
@[simp] theorem recordError_ctl (e : ErrKind) (d : Nat) (s : State) : (recordError e d s).ctl = s.ctl := by
  unfold recordError; split <;> rfl
@[simp] theorem recordError_attached (e : ErrKind) (d : Nat) (s : State) : (recordError e d s).attached = s.attached := by
  unfold recordError; split <;> rfl
@[simp] theorem recordError_script (e : ErrKind) (d : Nat) (s : State) : (recordError e d s).script = s.script := by
  unfold recordError; split <;> rfl
@[simp] theorem recordError_hostData (e : ErrKind) (d : Nat) (s : State) : (recordError e d s).hostData = s.hostData := by
  unfold recordError; split <;> rfl
@[simp] theorem recordError_draws (e : ErrKind) (d : Nat) (s : State) : (recordError e d s).draws = s.draws := by
  unfold recordError; split <;> rfl

/-! ## `raiseError` -/

@[simp] theorem raiseError_cmd (e : ErrKind) (d : Nat) (s : State) : (raiseError e d s).cmd = s.cmd := by
  simp [raiseError]
@[simp] theorem raiseError_arg0 (e : ErrKind) (d : Nat) (s : State) : (raiseError e d s).arg0 = s.arg0 := by
  simp [raiseError]
@[simp] theorem raiseError_arg1 (e : ErrKind) (d : Nat) (s : State) : (raiseError e d s).arg1 = s.arg1 := by
  simp [raiseError]
@[simp] theorem raiseError_status (e : ErrKind) (d : Nat) (s : State) : (raiseError e d s).status = statusWord e d := by
  simp [raiseError]
@[simp] theorem raiseError_result (e : ErrKind) (d : Nat) (s : State) : (raiseError e d s).result = failedResult s := by
  simp [raiseError]
@[simp] theorem raiseError_closed (e : ErrKind) (d : Nat) (s : State) : (raiseError e d s).closed = s.closed := by
  simp [raiseError]
@[simp] theorem raiseError_mode (e : ErrKind) (d : Nat) (s : State) : (raiseError e d s).mode = s.mode := by
  simp [raiseError]
@[simp] theorem raiseError_state (e : ErrKind) (d : Nat) (s : State) : (raiseError e d s).state = (recordError e d s).state := by
  simp [raiseError]
@[simp] theorem raiseError_err (e : ErrKind) (d : Nat) (s : State) : (raiseError e d s).err = (recordError e d s).err := by
  simp [raiseError]
@[simp] theorem raiseError_errDetail (e : ErrKind) (d : Nat) (s : State) : (raiseError e d s).errDetail = (recordError e d s).errDetail := by
  simp [raiseError]
@[simp] theorem raiseError_rd (e : ErrKind) (d : Nat) (s : State) : (raiseError e d s).rd = s.rd := by
  simp [raiseError]
@[simp] theorem raiseError_reported (e : ErrKind) (d : Nat) (s : State) : (raiseError e d s).reported = s.reported := by
  simp [raiseError]
@[simp] theorem raiseError_blockSize100k (e : ErrKind) (d : Nat) (s : State) : (raiseError e d s).blockSize100k = s.blockSize100k := by
  simp [raiseError]
@[simp] theorem raiseError_combinedCrc (e : ErrKind) (d : Nat) (s : State) : (raiseError e d s).combinedCrc = s.combinedCrc := by
  simp [raiseError]
@[simp] theorem raiseError_blk (e : ErrKind) (d : Nat) (s : State) : (raiseError e d s).blk = s.blk := by
  simp [raiseError]
@[simp] theorem raiseError_tab (e : ErrKind) (d : Nat) (s : State) : (raiseError e d s).tab = s.tab := by
  simp [raiseError]
@[simp] theorem raiseError_cur (e : ErrKind) (d : Nat) (s : State) : (raiseError e d s).cur = s.cur := by
  simp [raiseError]
@[simp] theorem raiseError_outCap (e : ErrKind) (d : Nat) (s : State) : (raiseError e d s).outCap = s.outCap := by
  simp [raiseError]
@[simp] theorem raiseError_rnums (e : ErrKind) (d : Nat) (s : State) : (raiseError e d s).rnums = s.rnums := by
  simp [raiseError]
@[simp] theorem raiseError_out (e : ErrKind) (d : Nat) (s : State) : (raiseError e d s).out = s.out := by
  simp [raiseError]
@[simp] theorem raiseError_ctl (e : ErrKind) (d : Nat) (s : State) : (raiseError e d s).ctl = .idle := by
  simp [raiseError]
@[simp] theorem raiseError_attached (e : ErrKind) (d : Nat) (s : State) : (raiseError e d s).attached = s.attached := by
  simp [raiseError]
@[simp] theorem raiseError_script (e : ErrKind) (d : Nat) (s : State) : (raiseError e d s).script = s.script := by
  simp [raiseError]
@[simp] theorem raiseError_hostData (e : ErrKind) (d : Nat) (s : State) : (raiseError e d s).hostData = s.hostData := by
  simp [raiseError]
@[simp] theorem raiseError_draws (e : ErrKind) (d : Nat) (s : State) : (raiseError e d s).draws = s.draws := by
  simp [raiseError]

/-! ## `symbolSetup` -/

@[simp] theorem symbolSetup_cmd (s : State) : (symbolSetup s).cmd = s.cmd := rfl
@[simp] theorem symbolSetup_arg0 (s : State) : (symbolSetup s).arg0 = s.arg0 := rfl
@[simp] theorem symbolSetup_arg1 (s : State) : (symbolSetup s).arg1 = s.arg1 := rfl
@[simp] theorem symbolSetup_status (s : State) : (symbolSetup s).status = s.status := rfl
@[simp] theorem symbolSetup_result (s : State) : (symbolSetup s).result = s.result := rfl
@[simp] theorem symbolSetup_closed (s : State) : (symbolSetup s).closed = s.closed := rfl
@[simp] theorem symbolSetup_mode (s : State) : (symbolSetup s).mode = s.mode := rfl
@[simp] theorem symbolSetup_state (s : State) : (symbolSetup s).state = s.state := rfl
@[simp] theorem symbolSetup_err (s : State) : (symbolSetup s).err = s.err := rfl
@[simp] theorem symbolSetup_errDetail (s : State) : (symbolSetup s).errDetail = s.errDetail := rfl
@[simp] theorem symbolSetup_rd (s : State) : (symbolSetup s).rd = s.rd := rfl
@[simp] theorem symbolSetup_reported (s : State) : (symbolSetup s).reported = s.reported := rfl
@[simp] theorem symbolSetup_blockSize100k (s : State) : (symbolSetup s).blockSize100k = s.blockSize100k := rfl
@[simp] theorem symbolSetup_combinedCrc (s : State) : (symbolSetup s).combinedCrc = s.combinedCrc := rfl
@[simp] theorem symbolSetup_blk (s : State) : (symbolSetup s).blk = { s.blk with symCount := 0, last := -1 } := rfl
@[simp] theorem symbolSetup_tab (s : State) : (symbolSetup s).tab = { s.tab with yy := List.range 256, unzftab := List.replicate 256 0, ll8 := [] } := rfl
@[simp] theorem symbolSetup_cur (s : State) : (symbolSetup s).cur = s.cur := rfl
@[simp] theorem symbolSetup_outCap (s : State) : (symbolSetup s).outCap = s.outCap := rfl
@[simp] theorem symbolSetup_rnums (s : State) : (symbolSetup s).rnums = s.rnums := rfl
@[simp] theorem symbolSetup_out (s : State) : (symbolSetup s).out = s.out := rfl
@[simp] theorem symbolSetup_ctl (s : State) : (symbolSetup s).ctl = s.ctl := rfl
@[simp] theorem symbolSetup_attached (s : State) : (symbolSetup s).attached = s.attached := rfl
@[simp] theorem symbolSetup_script (s : State) : (symbolSetup s).script = s.script := rfl
@[simp] theorem symbolSetup_hostData (s : State) : (symbolSetup s).hostData = s.hostData := rfl
@[simp] theorem symbolSetup_draws (s : State) : (symbolSetup s).draws = s.draws := rfl

/-! ## `beginInit` -/

@[simp] theorem beginInit_cmd (m : Mode) (ph : Phase) (s : State) : (beginInit m ph s).cmd = s.cmd := rfl
@[simp] theorem beginInit_arg0 (m : Mode) (ph : Phase) (s : State) : (beginInit m ph s).arg0 = s.arg0 := rfl
@[simp] theorem beginInit_arg1 (m : Mode) (ph : Phase) (s : State) : (beginInit m ph s).arg1 = s.arg1 := rfl
@[simp] theorem beginInit_status (m : Mode) (ph : Phase) (s : State) : (beginInit m ph s).status = s.status := rfl
@[simp] theorem beginInit_result (m : Mode) (ph : Phase) (s : State) : (beginInit m ph s).result = s.result := rfl
@[simp] theorem beginInit_closed (m : Mode) (ph : Phase) (s : State) : (beginInit m ph s).closed = false := rfl
@[simp] theorem beginInit_mode (m : Mode) (ph : Phase) (s : State) : (beginInit m ph s).mode = m := rfl
@[simp] theorem beginInit_state (m : Mode) (ph : Phase) (s : State) : (beginInit m ph s).state = s.state := rfl
@[simp] theorem beginInit_err (m : Mode) (ph : Phase) (s : State) : (beginInit m ph s).err = 0 := rfl
@[simp] theorem beginInit_errDetail (m : Mode) (ph : Phase) (s : State) : (beginInit m ph s).errDetail = 0 := rfl
@[simp] theorem beginInit_rd (m : Mode) (ph : Phase) (s : State) : (beginInit m ph s).rd = initReader s := rfl
@[simp] theorem beginInit_reported (m : Mode) (ph : Phase) (s : State) : (beginInit m ph s).reported = 0 := rfl
@[simp] theorem beginInit_blockSize100k (m : Mode) (ph : Phase) (s : State) : (beginInit m ph s).blockSize100k = 9 := rfl
@[simp] theorem beginInit_combinedCrc (m : Mode) (ph : Phase) (s : State) : (beginInit m ph s).combinedCrc = 0 := rfl
@[simp] theorem beginInit_blk (m : Mode) (ph : Phase) (s : State) : (beginInit m ph s).blk = freeBlockRegs s.draws := rfl
@[simp] theorem beginInit_tab (m : Mode) (ph : Phase) (s : State) : (beginInit m ph s).tab = Tables.empty := rfl
@[simp] theorem beginInit_cur (m : Mode) (ph : Phase) (s : State) : (beginInit m ph s).cur = freeCursor s.draws := rfl
@[simp] theorem beginInit_outCap (m : Mode) (ph : Phase) (s : State) : (beginInit m ph s).outCap = s.outCap := rfl
@[simp] theorem beginInit_rnums (m : Mode) (ph : Phase) (s : State) : (beginInit m ph s).rnums = s.rnums := rfl
@[simp] theorem beginInit_out (m : Mode) (ph : Phase) (s : State) : (beginInit m ph s).out = s.out := rfl
@[simp] theorem beginInit_ctl (m : Mode) (ph : Phase) (s : State) : (beginInit m ph s).ctl = .busy .init ph := rfl
@[simp] theorem beginInit_attached (m : Mode) (ph : Phase) (s : State) : (beginInit m ph s).attached = none := rfl
@[simp] theorem beginInit_script (m : Mode) (ph : Phase) (s : State) : (beginInit m ph s).script = s.script := rfl
@[simp] theorem beginInit_hostData (m : Mode) (ph : Phase) (s : State) : (beginInit m ph s).hostData = s.hostData := rfl
@[simp] theorem beginInit_draws (m : Mode) (ph : Phase) (s : State) : (beginInit m ph s).draws = s.draws + 1 := rfl

/-! ## `closeInstance` -/

@[simp] theorem closeInstance_cmd (s : State) : (closeInstance s).cmd = s.cmd := rfl
@[simp] theorem closeInstance_arg0 (s : State) : (closeInstance s).arg0 = s.arg0 := rfl
@[simp] theorem closeInstance_arg1 (s : State) : (closeInstance s).arg1 = s.arg1 := rfl
@[simp] theorem closeInstance_status (s : State) : (closeInstance s).status = s.status := rfl
@[simp] theorem closeInstance_result (s : State) : (closeInstance s).result = s.result := rfl
@[simp] theorem closeInstance_closed (s : State) : (closeInstance s).closed = true := rfl
@[simp] theorem closeInstance_blk (s : State) : (closeInstance s).blk = freeBlockRegs s.draws := rfl
@[simp] theorem closeInstance_tab (s : State) : (closeInstance s).tab = Tables.empty := rfl
@[simp] theorem closeInstance_cur (s : State) : (closeInstance s).cur = freeCursor s.draws := rfl
@[simp] theorem closeInstance_outCap (s : State) : (closeInstance s).outCap = s.outCap := rfl
@[simp] theorem closeInstance_rnums (s : State) : (closeInstance s).rnums = s.rnums := rfl
@[simp] theorem closeInstance_out (s : State) : (closeInstance s).out = s.out := rfl
@[simp] theorem closeInstance_ctl (s : State) : (closeInstance s).ctl = s.ctl := rfl
@[simp] theorem closeInstance_attached (s : State) : (closeInstance s).attached = s.attached := rfl
@[simp] theorem closeInstance_script (s : State) : (closeInstance s).script = s.script := rfl
@[simp] theorem closeInstance_hostData (s : State) : (closeInstance s).hostData = s.hostData := rfl
@[simp] theorem closeInstance_draws (s : State) : (closeInstance s).draws = s.draws + 1 := rfl

end Sys2Proof.Machine
end

