-- ==== Sys2Proof/Laws/Tables.lean ====
section
/-! SUPPORT. The laws of the table operations: move-to-front (R180, R188), the symbol map (R174, R175), the byte counts (R42, R187,
R188) and the transition table of the inverse BWT (R200, R201). -/

namespace Sys2Proof.Machine

/-! ## Move to front -/

/-- Everything `moveToFront` does (R180, R188). -/
theorem moveToFront_cases {α : Type} (l : List α) (v : Nat) :
    (∃ x, l[v]? = some x ∧ v < l.length ∧ moveToFront l v = some (x, x :: l.eraseIdx v)) ∨
      (l.length ≤ v ∧ moveToFront l v = none) := by
  unfold moveToFront
  by_cases h : v < l.length
  · exact .inl ⟨l[v], List.getElem?_eq_getElem h, h, by rw [List.getElem?_eq_getElem h]⟩
  · exact .inr ⟨by omega, by rw [List.getElem?_eq_none (by omega)]⟩

theorem moveToFront_perm {α : Type} {l : List α} {v : Nat} {x : α} (h : l[v]? = some x) :
    (x :: l.eraseIdx v).Perm l := by
  obtain ⟨hv, rfl⟩ := List.getElem?_eq_some_iff.mp h
  exact List.getElem_cons_eraseIdx_perm hv

theorem moveToFront_take_perm {α : Type} {l : List α} {v n : Nat} {x : α} (h : l[v]? = some x) (hv : v < n) :
    ((x :: l.eraseIdx v).take n).Perm (l.take n) := by
  obtain ⟨n, rfl⟩ : ∃ m, n = m + 1 := ⟨n - 1, by omega⟩
  have hx : (l.take (n + 1))[v]? = some x := by rw [List.getElem?_take_of_lt hv]; exact h
  have e : (l.eraseIdx v).take n = (l.take (n + 1)).eraseIdx v := by
    apply List.ext_getElem?
    intro i
    simp only [List.getElem?_take, List.getElem?_eraseIdx]
    by_cases h1 : i < n <;> by_cases h2 : i < v <;> simp [h1, h2] <;> omega
  rw [List.take_succ_cons, e]
  exact moveToFront_perm hx

/-- R180: selectors of legal MTF values exist and are legal. -/
theorem decodeSelectors_cases (n : Nat) : ∀ (vs pos : List Nat), pos.Perm (List.range n) → (∀ v ∈ vs, v < n) →
    ∃ sel last, decodeSelectors vs pos = some (sel, last) ∧ sel.length = vs.length ∧ (∀ g ∈ sel, g < n) ∧
      last.Perm (List.range n) := by
  intro vs
  induction vs with
  | nil => intro pos hp _; exact ⟨[], pos, rfl, rfl, by simp, hp⟩
  | cons v vs ih =>
    intro pos hp hv
    have hlen : pos.length = n := by rw [hp.length_eq, List.length_range]
    have hvn := hv v List.mem_cons_self
    rcases moveToFront_cases pos v with ⟨x, hx, -, hm⟩ | ⟨hle, -⟩
    · obtain ⟨sel, last, he, hl, hg, hp'⟩ := ih (x :: pos.eraseIdx v) ((moveToFront_perm hx).trans hp)
        fun w hw => hv w (List.mem_cons_of_mem _ hw)
      have hxn : x < n := List.mem_range.mp (hp.mem_iff.mp (List.mem_of_getElem? hx))
      refine ⟨x :: sel, last, by simp only [decodeSelectors, hm, he], by simp [hl], ?_, hp'⟩
      intro g hg'
      rcases List.mem_cons.mp hg' with rfl | h
      · exact hxn
      · exact hg g h
    · omega

/-! ## Entries -/

theorem putEntry_append {α : Type} (l : List α) (v : α) : putEntry l l.length v = l ++ [v] := by
  simp [putEntry]

theorem lookup_some {α : Type} {l : List α} {i : Nat} {v : α} (h : l[i]? = some v) (k : α → Flow) : lookup l i k = k v := by
  simp [lookup, h]

theorem compact_length_le (l : List Bool) : (compact l).length ≤ 256 := by
  rw [compact, List.length_map]
  exact (List.length_filter_le _ _).trans (by simp)

/-! ## Byte counts -/

@[simp] theorem counts_length (l : List Byte) : (counts l).length = 256 := by simp [counts]

theorem counts_get (l : List Byte) (c : Byte) : (counts l)[c.toNat]? = some (l.count c) := by
  simp [counts, List.getElem?_map, List.getElem?_range c.isLt]

theorem counts_nil : counts [] = List.replicate 256 0 := by
  simp [counts, List.map_const']

/-- Appending `n` bytes `c` to `LL8` raises its count by `n` (R187, R188). -/
theorem counts_append_replicate (l : List Byte) (n : Nat) (c : Byte) :
    (counts l).set c.toNat (l.count c + n) = counts (l ++ List.replicate n c) := by
  apply List.ext_getElem?
  intro i
  by_cases hi : i < 256
  · simp only [counts, List.getElem?_set, List.getElem?_map, List.getElem?_range hi, List.length_map, List.length_range,
      Option.map_some, List.count_append, List.count_replicate]
    by_cases h : c.toNat = i
    · have : BitVec.ofNat 8 i = c := by rw [← h]; simp
      simp [h, hi, this]
    · have : ¬ c = BitVec.ofNat 8 i := by
        intro e; apply h; rw [e, BitVec.toNat_ofNat]; omega
      simp [h, this]
  · rw [List.getElem?_eq_none (by simp; omega), List.getElem?_eq_none (by simp; omega)]

/-! ## The transition table of the inverse BWT -/

/-- The number of bytes of `l` below `c` (R200). -/
def below (l : List Byte) (c : Nat) : Nat := l.countP fun b => b.toNat < c

theorem below_succ (l : List Byte) (c : Nat) (hc : c < 256) : below l (c + 1) = below l c + l.count (BitVec.ofNat 8 c) := by
  induction l with
  | nil => rfl
  | cons b l ih =>
    simp only [below, List.countP_cons, List.count_cons] at ih ⊢
    rw [ih]
    by_cases h1 : b.toNat < c
    · have : ¬ b = BitVec.ofNat 8 c := by
        intro e; rw [e, BitVec.toNat_ofNat] at h1; omega
      simp [h1, show b.toNat < c + 1 by omega, this]; omega
    · by_cases h2 : b.toNat = c
      · have : b = BitVec.ofNat 8 c := by rw [← h2]; simp
        simp only [this, BitVec.toNat_ofNat, Nat.mod_eq_of_lt hc, beq_self_eq_true, if_true, Nat.lt_irrefl,
          Nat.lt_succ_self, decide_true, decide_false, Bool.false_eq_true, if_false]
        omega
      · have : ¬ b = BitVec.ofNat 8 c := by
          intro e; apply h2; rw [e, BitVec.toNat_ofNat]; omega
        simp [h1, show ¬ b.toNat < c + 1 by omega, this]

theorem below_mono (l : List Byte) {c d : Nat} (h : c ≤ d) : below l c ≤ below l d := by
  apply List.countP_mono_left
  intro b _ hb
  simp only [decide_eq_true_eq] at hb ⊢
  omega

theorem below_le (l : List Byte) (c : Nat) : below l c ≤ l.length := List.countP_le_length

theorem below_256 (l : List Byte) : below l 256 = l.length := by
  rw [below, List.countP_eq_length]
  intro b _
  simp [b.isLt]

/-- R200: `CFTAB` holds the numbers of smaller bytes. -/
theorem prefixSums_counts (l : List Byte) (c : Nat) (hc : c ≤ 256) : (prefixSums 0 (counts l))[c]? = some (below l c) := by
  have gen : ∀ (us : List Nat) (n c : Nat), c ≤ us.length → (prefixSums n us)[c]? = some (n + (us.take c).sum) := by
    intro us
    induction us with
    | nil => 
      intro n c hc
      obtain rfl : c = 0 := Nat.le_zero.mp hc
      simp [prefixSums]
    | cons u us ih =>
      intro n c hc
      cases c with
      | zero => simp [prefixSums]
      | succ c =>
        simp only [prefixSums, List.getElem?_cons_succ, List.take_succ_cons, List.sum_cons]
        rw [ih (n + u) c (by simpa using hc), Nat.add_assoc]
  rw [gen _ _ _ (by simpa using hc), Nat.zero_add]
  congr 1
  induction c with
  | zero => simp [below]
  | succ c ih =>
    have hg : (counts l)[c]? = some (l.count (BitVec.ofNat 8 c)) := by
      simp [counts, List.getElem?_map, List.getElem?_range (show c < 256 by omega)]
    rw [List.take_add_one, hg, Option.toList_some, List.sum_append, List.sum_singleton, ih (by omega),
      below_succ l c (by omega)]

theorem prefixSums_length (n : Nat) (us : List Nat) : (prefixSums n us).length = us.length + 1 := by
  induction us generalizing n with
  | nil => rfl
  | cons u us ih => simp [prefixSums, ih]

/-- The slot of `TT` that R201 gives to index `j` of `l`. -/
def slot (l : List Byte) (j : Nat) : Nat :=
  match l[j]? with
  | some c => below l c.toNat + (l.take j).count c
  | none => 0

theorem slot_eq {l : List Byte} {j : Nat} {c : Byte} (h : l[j]? = some c) :
    slot l j = below l c.toNat + (l.take j).count c := by simp [slot, h]

theorem count_take_lt {l : List Byte} {j k : Nat} {c : Byte} (h : l[j]? = some c) (hk : j < k) :
    (l.take j).count c < (l.take k).count c := by
  have h1 : (l.take (j + 1)).count c = (l.take j).count c + 1 := by
    rw [List.take_add_one, h]; simp
  have h2 : (l.take (j + 1)).Sublist (l.take k) := List.take_sublist_take_left (by omega)
  have := h2.count_le c
  omega

theorem slot_lt_next {l : List Byte} {j : Nat} {c : Byte} (h : l[j]? = some c) : slot l j < below l (c.toNat + 1) := by
  have hj : j < l.length := (List.getElem?_eq_some_iff.mp h).1
  have := count_take_lt h hj
  rw [List.take_length] at this
  rw [slot_eq h, below_succ l _ c.isLt]
  simpa using this

theorem slot_lt {l : List Byte} {j : Nat} (h : j < l.length) : slot l j < l.length := by
  have := slot_lt_next (List.getElem?_eq_getElem h)
  have := below_le l (l[j].toNat + 1)
  omega

/-- R201: no two indices share a slot. -/
theorem slot_inj {l : List Byte} {i j : Nat} (hi : i < l.length) (hj : j < l.length) (h : slot l i = slot l j) : i = j := by
  have gi := List.getElem?_eq_getElem hi
  have gj := List.getElem?_eq_getElem hj
  have ni := slot_lt_next gi
  have nj := slot_lt_next gj
  have ei := slot_eq gi
  have ej := slot_eq gj
  rcases Nat.lt_trichotomy l[i].toNat l[j].toNat with hc | hc | hc
  · have := below_mono l (show l[i].toNat + 1 ≤ l[j].toNat by omega); omega
  · have hc' : l[i] = l[j] := BitVec.eq_of_toNat_eq hc
    rw [hc'] at ei
    rcases Nat.lt_trichotomy i j with h1 | h1 | h1
    · have := count_take_lt (hc' ▸ gi) h1; omega
    · exact h1
    · have := count_take_lt gj h1; omega
  · have := below_mono l (show l[j].toNat + 1 ≤ l[i].toNat by omega); omega

/-- Everything the loop of R201 does: `TT` gets index `j` in the slot of `j`. -/
theorem fillTT_cases (l : List Byte) : ∀ (cs done : List Byte) (cf tt : List Nat), done ++ cs = l → cf.length = 257 →
    (∀ c : Byte, cf[c.toNat]? = some (below l c.toNat + done.count c)) → tt.length = l.length →
    ∃ cf' tt', fillTT cs done.length cf tt = some (cf', tt') ∧ cf'.length = 257 ∧ tt'.length = l.length ∧
      (∀ c : Byte, cf'[c.toNat]? = some (below l c.toNat + l.count c)) ∧
      (∀ j, done.length ≤ j → j < l.length → tt'[slot l j]? = some j) ∧
      (∀ p, (∀ j, done.length ≤ j → j < l.length → p ≠ slot l j) → tt'[p]? = tt[p]?) := by
  intro cs
  induction cs with
  | nil =>
    intro done cf tt hd hcf hc htt
    rw [List.append_nil] at hd
    subst hd
    exact ⟨cf, tt, rfl, hcf, htt, hc, fun j h1 h2 => absurd h2 (by omega), fun p _ => rfl⟩
  | cons c cs ih =>
    intro done cf tt hd hcf hc htt
    have hlen : done.length < l.length := by rw [← hd]; simp
    have hget : l[done.length]? = some c := by rw [← hd]; simp
    have htake : l.take done.length = done := by rw [← hd]; simp
    have hslot : slot l done.length = below l c.toNat + done.count c := by rw [slot_eq hget, htake]
    have hd' : (done ++ [c]) ++ cs = l := by rw [← hd]; simp
    have hcf' : ∀ d : Byte, (cf.set c.toNat (below l c.toNat + done.count c + 1))[d.toNat]? =
        some (below l d.toNat + (done ++ [c]).count d) := by
      intro d
      rw [List.count_append, List.count_singleton]
      by_cases h : c = d
      · subst h
        rw [List.getElem?_set_self (by have := c.isLt; omega)]
        simp [Nat.add_assoc]
      · have hn : c.toNat ≠ d.toNat := fun e => h (BitVec.eq_of_toNat_eq e)
        rw [List.getElem?_set_ne hn, hc d]
        simp [h]
    obtain ⟨cf', tt', he, h1, h2, h3, h4, h5⟩ := ih (done ++ [c]) _
      (tt.set (below l c.toNat + done.count c) done.length) hd' (by simpa using hcf) hcf' (by simpa using htt)
    rw [List.length_append, List.length_singleton] at he h4 h5
    have hrun : fillTT (c :: cs) done.length cf tt = some (cf', tt') := by
      simp only [fillTT, hc c, he]
    refine ⟨cf', tt', hrun, h1, h2, h3, fun j hj hjl => ?_, fun p hp => ?_⟩
    · by_cases hjd : j = done.length
      · subst hjd
        rw [h5 (slot l done.length) fun k hk1 hk2 e => by have := slot_inj hlen hk2 e; omega, hslot,
          List.getElem?_set_self]
        rw [htt, ← hslot]
        exact slot_lt hlen
      · exact h4 j (by omega) hjl
    · rw [h5 p fun j hj hjl => hp j (by omega) hjl, List.getElem?_set_ne]
      rw [← hslot]
      exact fun e => hp done.length le_rfl hlen e.symm

/-- R200, R201: what the two tables hold after the set-up. -/
theorem fillTT_counts (l : List Byte) :
    ∃ cf tt, fillTT l 0 (prefixSums 0 (counts l)) (List.replicate l.length 0) = some (cf, tt) ∧ tt.length = l.length ∧
      (∀ c : Byte, cf[c.toNat]? = some (below l c.toNat + l.count c)) ∧ ∀ j < l.length, tt[slot l j]? = some j := by
  obtain ⟨cf, tt, h1, -, h3, h4, h5, -⟩ := fillTT_cases l l [] (prefixSums 0 (counts l)) (List.replicate l.length 0) rfl
    (by simp [prefixSums_length]) (fun c => by rw [prefixSums_counts l _ (by have := c.isLt; omega)]; simp) (by simp)
  exact ⟨cf, tt, h1, h3, h4, fun j hj => h5 j (by simp) hj⟩

/-- A table in which every index has a slot is a permutation. -/
theorem perm_of_slots {l : List Byte} {tt : List Nat} (hl : tt.length = l.length)
    (h : ∀ j < l.length, tt[slot l j]? = some j) : tt.Perm (List.range l.length) := by
  have sub : List.range l.length ⊆ tt := fun j hj => List.mem_of_getElem? (h j (List.mem_range.mp hj))
  have sp := List.nodup_range.subperm sub
  exact (sp.perm_of_length_le (by simp [hl])).symm

end Sys2Proof.Machine
end

