-- ==== Sys2Proof/Laws/Invariant.lean ====
section
/-! SUPPORT. The invariant, in the pieces a token or an internal step touches: what no token touches (`Core`), how a busy or an idle
state gets the invariant from its pieces, and that an error leaves it (R275). -/

namespace Sys2Proof.Machine

/-- The part of the invariant of an open instance that no token changes; no token is in progress. -/
structure Core (s : State) : Prop where
  params : ParamsOk s
  out : OutOk s
  opened : s.closed = false
  bsLo : 1 ≤ s.blockSize100k
  bsHi : s.blockSize100k ≤ 9
  live47 : s.rd.live ≤ 47
  part : s.rd.part = []
  err8 : s.err.toNat ≤ 8

/-- The instance has no error and may read the bit-stream. -/
def CanRead (s : State) : Prop := s.rd.live ≤ 7 ∧ s.err = 0

theorem Core.congr {s t : State} (h : Core s) (h1 : t.outCap = s.outCap) (h2 : t.rnums = s.rnums) (h3 : t.out = s.out)
    (h4 : t.closed = s.closed) (h5 : t.blockSize100k = s.blockSize100k) (h6 : t.rd = s.rd) (h7 : t.err = s.err) : Core t :=
  ⟨by simpa only [ParamsOk, h1, h2] using h.params, by simpa only [OutOk, h1, h3] using h.out, by rw [h4]; exact h.opened,
    by rw [h5]; exact h.bsLo, by rw [h5]; exact h.bsHi, by rw [h6]; exact h.live47, by rw [h6]; exact h.part,
    by rw [h7]; exact h.err8⟩

theorem errOk_of {s : State} (c : Core s) (h : Reading s → CanRead s) : ErrOk s :=
  ⟨c.err8, fun he hr => he (h hr).2⟩

theorem readerOk_idle {s : State} (c : Core s) (hi : s.ctl = .idle ∨ ∃ job, s.ctl = .busy job .walk)
    (h : s.state ≠ .eof → CanRead s) : ReaderOk s := by
  refine ⟨c.live47, ?_⟩
  rcases hi with hi | ⟨job, hi⟩ <;> rw [hi] <;> exact ⟨c.part, fun hne => (h hne).1⟩

theorem readerOk_token {s : State} {job : Job} {ph : Phase} (hl : s.rd.live ≤ 47) (hb : s.ctl = .busy job ph) (hw : ph ≠ .walk)
    (hsc : ph ≠ .scan) (h : InToken (phaseParse s ph) s.rd) : ReaderOk s := by
  refine ⟨hl, ?_⟩
  rw [hb]
  cases ph <;> first | exact absurd rfl hw | exact absurd rfl hsc | exact h

theorem readerOk_busy {s : State} {job : Job} {ph : Phase} (c : Core s) (hb : s.ctl = .busy job ph) (h : Reading s → CanRead s) :
    ReaderOk s := by
  by_cases hw : ph = .walk
  · subst hw; exact readerOk_idle c (.inr ⟨job, hb⟩) fun hne => h (.inl hne)
  · by_cases hsc : ph = .scan
    · subst hsc; exact ⟨c.live47, by rw [hb]; exact .inl c.part⟩
    · have hr : Reading s := by right; rw [hb]; cases ph <;> first | exact absurd rfl hw | trivial
      exact readerOk_token c.live47 hb hw hsc ⟨by rw [c.part]; exact boundary_nil _, .inl (h hr).1⟩

theorem inv_busy {s : State} {job : Job} {ph : Phase} (c : Core s) (h : s.ctl = .busy job ph) (hj : JobOk s job)
    (hp : PhaseOk s job ph) (hr : Reading s → CanRead s) : Inv s := by
  refine ⟨c.params, c.out, fun hc => ?_, fun _ => ⟨c.bsLo, c.bsHi, readerOk_busy c h hr, errOk_of c hr, ?_⟩⟩
  · rw [c.opened] at hc; exact absurd hc (by decide)
  · rw [h]; exact ⟨hj, hp⟩

theorem inv_idle {s : State} (c : Core s) (h : s.ctl = .idle) (hs : StateOk s) (hr : s.state ≠ .eof → CanRead s) : Inv s := by
  have hr' : Reading s → CanRead s := by
    intro hrd
    rcases hrd with h' | h'
    · exact hr h'
    · rw [h] at h'; exact h'.elim
  refine ⟨c.params, c.out, fun _ => h, fun _ => ⟨c.bsLo, c.bsHi, readerOk_idle c (.inl h) hr, errOk_of c hr', ?_⟩⟩
  rw [h]; exact hs

/-- `Core` holds with any bit reader that is between tokens. -/
theorem Inv.core_with {s : State} (h : Inv s) (ho : s.closed = false) (r : BitReader) (hl : r.live ≤ 47) (hp : r.part = []) :
    Core { s with rd := r } := by
  obtain ⟨hpar, hout, -, hi⟩ := h
  obtain ⟨h1, h2, -, h4, -⟩ := hi ho
  exact ⟨hpar, hout, ho, h1, h2, hl, hp, h4.1⟩

theorem Inv.reader {s : State} (h : Inv s) (ho : s.closed = false) : ReaderOk s := (h.2.2.2 ho).2.2.1

/-- Between tokens nothing is held, and while the stream may be read `LIVE` is at most 7. -/
theorem Inv.between {s : State} (h : Inv s) (ho : s.closed = false) (hi : s.ctl = .idle ∨ ∃ job, s.ctl = .busy job .walk) :
    s.rd.part = [] ∧ (s.state ≠ .eof → s.rd.live ≤ 7) := by
  have := (h.reader ho).2
  rcases hi with hi | ⟨job, hi⟩ <;> rw [hi] at this <;> exact this

theorem Inv.core {s : State} (h : Inv s) (ho : s.closed = false) (hi : s.ctl = .idle ∨ ∃ job, s.ctl = .busy job .walk) : Core s :=
  h.core_with ho s.rd (h.reader ho).1 (h.between ho hi).1

theorem Inv.err_zero {s : State} (h : Inv s) (ho : s.closed = false) (hr : Reading s) : s.err = 0 := by
  obtain ⟨-, -, -, h4, -⟩ := h.2.2.2 ho
  by_contra he
  exact h4.2 he hr

theorem Inv.canRead {s : State} (h : Inv s) (ho : s.closed = false) (hi : s.ctl = .idle ∨ ∃ job, s.ctl = .busy job .walk)
    (hr : s.state ≠ .eof) : CanRead s := ⟨(h.between ho hi).2 hr, h.err_zero ho (.inl hr)⟩

theorem Inv.busy {s : State} {job : Job} {ph : Phase} (h : Inv s) (hb : s.ctl = .busy job ph) :
    s.closed = false ∧ JobOk s job ∧ PhaseOk s job ph := by
  obtain ⟨-, -, hc, hi⟩ := h
  have ho : s.closed = false := by
    cases hcl : s.closed
    · rfl
    · have := hc hcl; rw [hb] at this; cases this
  have := (hi ho).2.2.2.2
  rw [hb] at this
  exact ⟨ho, this⟩

theorem Inv.idle {s : State} (h : Inv s) (ho : s.closed = false) (hb : s.ctl = .idle) : StateOk s := by
  obtain ⟨-, -, -, hi⟩ := h
  have := (hi ho).2.2.2.2
  rwa [hb] at this

theorem reading_of_phase {s : State} {job : Job} {ph : Phase} (hb : s.ctl = .busy job ph) (hw : ph ≠ .walk) : Reading s := by
  right; rw [hb]; cases ph <;> first | exact absurd rfl hw | trivial

theorem reading_walk {s : State} {job : Job} (hb : s.ctl = .busy job .walk) : Reading s ↔ s.state ≠ .eof := by
  simp [Reading, hb]

theorem errCode_le (e : ErrKind) : errCode e ≤ 8 := by cases e <;> decide

/-- R275: the state an error leaves. -/
theorem recordError_state {e : ErrKind} {d : Nat} {s : State} (h : s.closed = false) : (recordError e d s).state = .eof := by
  simp [recordError, h]

theorem recordError_err8 {e : ErrKind} {d : Nat} {s : State} (h : s.err.toNat ≤ 8) : (recordError e d s).err.toNat ≤ 8 := by
  unfold recordError
  split
  · exact h
  · simp only
    split
    · have := errCode_le e
      rw [BitVec.toNat_ofNat]; omega
    · exact h

/-- An error keeps the invariant: the instance is at `EOF` and the command has ended. -/
theorem inv_raise {s : State} (c : Core s) (e : ErrKind) (d : Nat) : Inv (raiseError e d s) := by
  have hst : (raiseError e d s).state = .eof := by rw [raiseError_state]; exact recordError_state c.opened
  refine inv_idle ⟨?_, ?_, ?_, ?_, ?_, ?_, ?_, ?_⟩ (by simp) ?_ fun h => absurd hst h
  · simpa [ParamsOk] using c.params
  · simpa [OutOk] using c.out
  · simpa using c.opened
  · simpa using c.bsLo
  · simpa using c.bsHi
  · simpa using c.live47
  · simpa using c.part
  · simpa using recordError_err8 c.err8
  · simp only [StateOk, hst]

/-- What no token and no step of a command changes. -/
structure Kept (s t : State) : Prop where
  cmd : t.cmd = s.cmd
  arg0 : t.arg0 = s.arg0
  arg1 : t.arg1 = s.arg1
  closed : t.closed = s.closed
  mode : t.mode = s.mode
  outCap : t.outCap = s.outCap
  rnums : t.rnums = s.rnums
  attached : t.attached = s.attached
  script : t.script = s.script
  hostData : t.hostData = s.hostData
  draws : t.draws = s.draws

theorem Kept.refl (s : State) : Kept s s := ⟨rfl, rfl, rfl, rfl, rfl, rfl, rfl, rfl, rfl, rfl, rfl⟩

theorem Kept.trans {a b c : State} (h : Kept a b) (k : Kept b c) : Kept a c :=
  ⟨k.cmd.trans h.cmd, k.arg0.trans h.arg0, k.arg1.trans h.arg1, k.closed.trans h.closed, k.mode.trans h.mode,
    k.outCap.trans h.outCap, k.rnums.trans h.rnums, k.attached.trans h.attached, k.script.trans h.script,
    k.hostData.trans h.hostData, k.draws.trans h.draws⟩

theorem kept_raise {s t : State} (h : Kept s t) (e : ErrKind) (d : Nat) : Kept s (raiseError e d t) :=
  h.trans ⟨by simp, by simp, by simp, by simp, by simp, by simp, by simp, by simp, by simp, by simp, by simp⟩

theorem kept_respond {s t : State} (h : Kept s t) (v : DWord) : Kept s (respond v t) :=
  h.trans ⟨rfl, rfl, rfl, rfl, rfl, rfl, rfl, rfl, rfl, rfl, rfl⟩

/-- What a token's meaning does in a command `job`: it answers a next state with the invariant, it touches neither the bit reader nor
`OUT`, and the command either has ended or goes on. -/
def TokenOk (s : State) (job : Job) (o : Outcome) : Prop :=
  ∃ t, o = .next t ∧ Inv t ∧ t.rd = s.rd ∧ t.out = s.out ∧ Kept s t ∧
    (t.ctl = .idle ∨ ∃ ph, t.ctl = .busy job ph ∧ walkRank t ≤ 2)

theorem tokenOk_raise {s t : State} {job : Job} (c : Core t) (h1 : t.rd = s.rd) (h2 : t.out = s.out) (k : Kept s t)
    {e : ErrKind} {d : Nat} : TokenOk s job (Flow.raise e d t).settle :=
  ⟨_, rfl, inv_raise c e d, by simpa using h1, by simpa using h2, kept_raise k e d, .inl (by simp)⟩

theorem walkRank_of_phase {s : State} {job : Job} {ph : Phase} (h : s.ctl = .busy job ph) (hw : ph ≠ .walk) : walkRank s = 0 := by
  unfold walkRank; rw [h]; cases ph <;> first | exact absurd rfl hw | rfl

/-- A token that leads to another control point that reads. -/
theorem tokenOk_busy {s t : State} {job : Job} {ph : Phase} (c : Core t) (h1 : t.rd = s.rd) (h2 : t.out = s.out) (k : Kept s t)
    (hb : t.ctl = .busy job ph) (hw : ph ≠ .walk) (hj : JobOk t job) (hp : PhaseOk t job ph) (hr : CanRead t) :
    TokenOk s job (Flow.go t).settle :=
  ⟨t, rfl, inv_busy c hb hj hp fun _ => hr, h1, h2, k, .inr ⟨ph, hb, by rw [walkRank_of_phase hb hw]; omega⟩⟩

theorem JobOk.congr {s t : State} {job : Job} (h : JobOk s job) (e : t.outCap = s.outCap) : JobOk t job := by
  cases job with
  | init => trivial
  | readByte => trivial
  | readInto off len k => rw [JobOk, e]; exact h

end Sys2Proof.Machine
end

