-- ==== Sys2Proof/Laws/TokenInv.lean ====
section
/-! SUPPORT. Every token of the bit-stream, run where the decoder expects it in a state with the invariant, gives a next state with the
invariant. -/

namespace Sys2Proof.Machine

/-- What holds where a token of phase `ph` is run. -/
structure At (s : State) (job : Job) (ph : Phase) : Prop where
  core : Core s
  ctl : s.ctl = .busy job ph
  jobOk : JobOk s job
  phase : PhaseOk s job ph
  can : CanRead s

/-- What holds where a command reads a token or a scan, from its start or from where a wait has left it. -/
structure Point (s : State) (job : Job) (ph : Phase) : Prop where
  core : ∀ r : BitReader, r.live ≤ 47 → r.part = [] → Core { s with rd := r }
  ctl : s.ctl = .busy job ph
  jobOk : JobOk s job
  phase : PhaseOk s job ph
  err : s.err = 0
  reader : ReaderOk s

theorem Point.of_inv {s : State} {job : Job} {ph : Phase} (h : Inv s) (hb : s.ctl = .busy job ph) (hw : ph ≠ .walk) :
    Point s job ph := by
  obtain ⟨ho, hj, hp⟩ := h.busy hb
  exact ⟨h.core_with ho, hb, hj, hp, h.err_zero ho (reading_of_phase hb hw), h.reader ho⟩

theorem PhaseOk.rd {s : State} {job : Job} {ph : Phase} (h : PhaseOk s job ph) (r : BitReader) : PhaseOk { s with rd := r } job ph := by
  cases ph <;> exact h

/-- The token read, its meaning starts. -/
theorem Point.toAt {s : State} {job : Job} {ph : Phase} (h : Point s job ph) {r : BitReader} (hl : r.live ≤ 7) (hp : r.part = []) :
    At { s with rd := r } job ph :=
  ⟨h.core r (by omega) hp, h.ctl, h.jobOk.congr rfl, h.phase.rd r, hl, h.err⟩

/-- A point of a waiting command is one with the invariant. -/
theorem Point.inv {s : State} {job : Job} {ph : Phase} (h : Point s job ph) : Inv s := by
  have c := h.core { s.rd with live := 0, part := [] } (Nat.zero_le _) rfl
  refine ⟨c.params, c.out, fun hc => ?_, fun _ => ⟨c.bsLo, c.bsHi, h.reader, ⟨c.err8, fun he => absurd h.err he⟩, ?_⟩⟩
  · have := c.opened; rw [hc] at this; cases this
  · rw [h.ctl]; exact ⟨h.jobOk, h.phase⟩

theorem At.congr {s t : State} {job : Job} {ph : Phase} (h : At s job ph) (h1 : t.outCap = s.outCap) (h2 : t.rnums = s.rnums)
    (h3 : t.out = s.out) (h4 : t.closed = s.closed) (h5 : t.blockSize100k = s.blockSize100k) (h6 : t.rd = s.rd)
    (h7 : t.err = s.err) : Core t ∧ JobOk t job ∧ CanRead t :=
  ⟨h.core.congr h1 h2 h3 h4 h5 h6 h7, h.jobOk.congr h1, by rw [CanRead, h6, h7]; exact h.can⟩

/-! ## Framing tokens -/

theorem streamHeader_ok {s : State} {job : Job} (h : At s job .header) (d : Byte) : TokenOk s job (execStreamHeader d s) := by
  have hj : job = .init := h.phase
  subst hj
  have hc := h.ctl
  unfold execStreamHeader
  rw [hc]
  simp only
  by_cases hd : d.toNat < 0x31 ∨ d.toNat > 0x39
  · rw [if_pos (by simpa using hd)]
    exact tokenOk_raise h.core rfl rfl (Kept.refl s)
  · rw [if_neg (by simpa using hd)]
    refine ⟨_, rfl, inv_idle ?_ rfl trivial fun _ => h.can, rfl, rfl,
      ⟨rfl, rfl, rfl, rfl, rfl, rfl, rfl, rfl, rfl, rfl, rfl⟩, .inl rfl⟩
    exact ⟨h.core.params, h.core.out, h.core.opened, by simp; omega, by simp; omega, h.core.live47, h.core.part, h.core.err8⟩

theorem finishScan_ok {s : State} {job : Job} (t : State) (ht : Core t) (hk : Kept s t) (ho : t.out = s.out)
    (found : Bool) (hcan : found = true → CanRead t) :
    Inv (finishScan job found t) ∧ (finishScan job found t).out = s.out ∧ Kept s (finishScan job found t) ∧
      (finishScan job found t).ctl = .idle ∧ (finishScan job found t).rd = t.rd := by
  refine ⟨?_, ho, ?_, rfl, rfl⟩
  · refine inv_idle (ht.congr rfl rfl rfl rfl rfl rfl rfl) rfl ?_ ?_
    · cases found <;> trivial
    · intro hne
      cases found
      · exact absurd rfl hne
      · exact hcan rfl
  · exact hk.trans ⟨rfl, rfl, rfl, rfl, rfl, rfl, rfl, rfl, rfl, rfl, rfl⟩

theorem blockMark_scan_ok {s : State} {job : Job} (h : At s job .scan) : TokenOk s job (execBlockMark s) := by
  have hc := h.ctl
  unfold execBlockMark
  rw [hc]
  have := finishScan_ok (s := s) (job := job) { s with reported := markerByte s.rd } (h.core.congr rfl rfl rfl rfl rfl rfl rfl)
    ⟨rfl, rfl, rfl, rfl, rfl, rfl, rfl, rfl, rfl, rfl, rfl⟩ rfl true fun _ => h.can
  rw [hc] at this
  exact ⟨_, rfl, this.1, this.2.2.2.2, this.2.1, this.2.2.1, .inl this.2.2.2.1⟩

theorem blockMark_marker_ok {s : State} {job : Job} (h : At s job .marker) : TokenOk s job (execBlockMark s) := by
  have hc := h.ctl
  unfold execBlockMark
  rw [hc]
  exact tokenOk_busy (h.core.congr rfl rfl rfl rfl rfl rfl rfl) rfl rfl ⟨rfl, rfl, rfl, rfl, rfl, rfl, rfl, rfl, rfl, rfl, rfl⟩
    rfl (by decide) (h.jobOk.congr rfl) ⟨h.phase.1, h.phase.2.1⟩ h.can

theorem eosMark_ok {s : State} {job : Job} (h : At s job .marker) (c : Word) : TokenOk s job (execEosMark c s) := by
  have hc := h.ctl
  unfold execEosMark
  rw [hc]
  simp only
  by_cases he : c = s.combinedCrc
  · rw [if_neg (by simpa using he)]
    refine ⟨_, rfl, inv_busy (h.core.congr rfl rfl rfl rfl rfl rfl rfl) rfl (h.jobOk.congr rfl) ⟨h.phase.1, trivial⟩ fun _ => h.can,
      rfl, rfl, ⟨rfl, rfl, rfl, rfl, rfl, rfl, rfl, rfl, rfl, rfl, rfl⟩, .inr ⟨.walk, rfl, by simp [walkRank]⟩⟩
  · rw [if_pos (by simpa using he)]
    apply tokenOk_raise
    · exact h.core.congr rfl rfl rfl rfl rfl rfl rfl
    · rfl
    · rfl
    · exact ⟨rfl, rfl, rfl, rfl, rfl, rfl, rfl, rfl, rfl, rfl, rfl⟩

theorem blockHeader_ok {s : State} {job : Job} (h : At s job .blockHeader) (c : Word) (r : Bool) (p : BitVec 24) :
    TokenOk s job (execBlockHeader c r p s) := by
  have hc := h.ctl
  unfold execBlockHeader
  rw [hc]
  exact tokenOk_busy (h.core.congr rfl rfl rfl rfl rfl rfl rfl) rfl rfl ⟨rfl, rfl, rfl, rfl, rfl, rfl, rfl, rfl, rfl, rfl, rfl⟩
    rfl (by decide) (h.jobOk.congr rfl) ⟨h.phase.1, h.phase.2⟩ h.can

/-! ## Tables -/

theorem symbolMap_ok {s : State} {job : Job} (h : At s job .symbolMap) (u : BitVec 16) (ws : List (BitVec 16)) :
    TokenOk s job (execSymbolMap u ws s) := by
  have hc := h.ctl
  unfold execSymbolMap
  rw [hc]
  simp only
  by_cases hz : (compact (inUseOf u ws)).length = 0
  · rw [if_pos hz]
    apply tokenOk_raise
    · exact h.core.congr rfl rfl rfl rfl rfl rfl rfl
    · rfl
    · rfl
    · exact ⟨rfl, rfl, rfl, rfl, rfl, rfl, rfl, rfl, rfl, rfl, rfl⟩
  · rw [if_neg hz]
    exact tokenOk_busy (h.core.congr rfl rfl rfl rfl rfl rfl rfl) rfl rfl
      ⟨rfl, rfl, rfl, rfl, rfl, rfl, rfl, rfl, rfl, rfl, rfl⟩ rfl (by decide) (h.jobOk.congr rfl)
      ⟨h.phase.1, h.phase.2, rfl, rfl, Nat.pos_of_ne_zero hz, rfl⟩ h.can

theorem tableCounts_ok {s : State} {job : Job} (h : At s job .tableCounts) (g : BitVec 3) (n : BitVec 15) :
    TokenOk s job (execTableCounts g n s) := by
  have hc := h.ctl
  unfold execTableCounts
  rw [hc]
  simp only
  by_cases hg : legalGroups g.toNat = true
  · rw [if_neg (by simpa using hg)]
    by_cases hn : n.toNat < 1 ∨ n.toNat > Config.maxSelectors
    · rw [if_pos (by simpa using hn)]
      apply tokenOk_raise
      · exact h.core.congr rfl rfl rfl rfl rfl rfl rfl
      · rfl
      · rfl
      · exact ⟨rfl, rfl, rfl, rfl, rfl, rfl, rfl, rfl, rfl, rfl, rfl⟩
    · rw [if_neg (by simpa using hn)]
      simp only [legalGroups, Bool.and_eq_true, decide_eq_true_eq] at hg
      exact tokenOk_busy (h.core.congr rfl rfl rfl rfl rfl rfl rfl) rfl rfl
        ⟨rfl, rfl, rfl, rfl, rfl, rfl, rfl, rfl, rfl, rfl, rfl⟩ rfl (by decide) (h.jobOk.congr rfl)
        ⟨h.phase.1, h.phase.2.1, h.phase.2.2, ⟨hg.1, hg.2, show 1 ≤ n.toNat by omega, show n.toNat ≤ Config.maxSelectors by omega⟩,
          by show 0 < n.toNat; omega, rfl, by simp⟩ h.can
  · rw [if_pos (by simpa using hg)]
    apply tokenOk_raise
    · exact h.core.congr rfl rfl rfl rfl rfl rfl rfl
    · rfl
    · rfl
    · exact ⟨rfl, rfl, rfl, rfl, rfl, rfl, rfl, rfl, rfl, rfl, rfl⟩

theorem selectorValue_ok {s : State} {job : Job} {i : Nat} (h : At s job (.selector i)) (v : Nat) :
    TokenOk s job (selectorValue v s) := by
  have hc := h.ctl
  obtain ⟨p1, p2, p3, p4, p5, p6, p7⟩ := h.phase
  unfold selectorValue
  rw [hc]
  simp only
  by_cases hv : v ≥ s.blk.nGroups
  · rw [if_pos hv]
    exact tokenOk_raise h.core rfl rfl (Kept.refl s)
  · rw [if_neg hv]
    have hput : putEntry s.tab.selectorMtf i v = s.tab.selectorMtf ++ [v] := by rw [← p6, putEntry_append]
    have hall : ∀ w ∈ s.tab.selectorMtf ++ [v], w < s.blk.nGroups := by
      intro w hw
      rcases List.mem_append.mp hw with h' | h'
      · exact p7 w h'
      · rw [List.mem_singleton.mp h']; omega
    simp only [hput]
    by_cases hl : i + 1 < s.blk.nSelectors
    · rw [if_pos hl]
      exact tokenOk_busy (h.core.congr rfl rfl rfl rfl rfl rfl rfl) rfl rfl
        ⟨rfl, rfl, rfl, rfl, rfl, rfl, rfl, rfl, rfl, rfl, rfl⟩ rfl (by simp) (h.jobOk.congr rfl)
        ⟨p1, p2, p3, p4, hl, by simp [p6], hall⟩ h.can
    · rw [if_neg hl]
      obtain ⟨sel, last, he, hsl, hg, hp⟩ := decodeSelectors_cases s.blk.nGroups (s.tab.selectorMtf ++ [v])
        (List.range s.blk.nGroups) (List.Perm.refl _) hall
      simp only [he]
      exact tokenOk_busy (h.core.congr rfl rfl rfl rfl rfl rfl rfl) rfl rfl
        ⟨rfl, rfl, rfl, rfl, rfl, rfl, rfl, rfl, rfl, rfl, rfl⟩ rfl (by simp) (h.jobOk.congr rfl)
        ⟨p1, p2, p3, p4, ⟨by simp [hsl, p6]; omega, hg⟩, by have := p4.1; show 0 < s.blk.nGroups; omega, rfl, by simp⟩ h.can

theorem selectorBad_ok {s : State} {job : Job} {i : Nat} (h : At s job (.selector i)) :
    TokenOk s job (execSelectorMtfBad s) := by
  have hc := h.ctl
  unfold execSelectorMtfBad
  rw [hc]
  exact tokenOk_raise h.core rfl rfl (Kept.refl s)

/-- A code length for the next symbol of the last group read so far. -/
theorem checkLength_ok {s t : State} {job : Job} {g k curr : Nat} (c : Core t) (h1 : t.rd = s.rd) (h2 : t.out = s.out)
    (kept : Kept s t) (hj : JobOk t job) (can : CanRead t) (p1 : job ≠ .init) (p2 : t.state = .startBlock) (p3 : MapOk t)
    (p4 : CountsOk t) (p5 : SelectorsOk t) (p6 : g < t.blk.nGroups) (p7 : k < t.blk.alphaSize) (p8 : t.tab.lens.length = g + 1)
    (p9 : ∀ row ∈ t.tab.lens.take g, RowOk t.blk.alphaSize row) (p10 : ∀ row ∈ t.tab.lens.drop g, RowOk k row) :
    TokenOk s job (Flow.settle (checkLength job g k curr t)) := by
  unfold checkLength
  by_cases hr : curr < 1 ∨ curr > Config.maxCodeLen
  · rw [if_pos (by simpa using hr)]
    exact tokenOk_raise c h1 h2 kept
  · rw [if_neg (by simpa using hr)]
    exact tokenOk_busy (c.congr rfl rfl rfl rfl rfl rfl rfl) h1 h2
      (kept.trans ⟨rfl, rfl, rfl, rfl, rfl, rfl, rfl, rfl, rfl, rfl, rfl⟩) rfl (by simp) (hj.congr rfl)
      ⟨p1, p2, p3, p4, p5, p6, p7, by omega, by omega, p8, p9, p10⟩ can

theorem codeLenStart_ok {s : State} {job : Job} {g : Nat} (h : At s job (.codeLenStart g)) (l : BitVec 5) :
    TokenOk s job (execCodeLenStart l s) := by
  have hc := h.ctl
  obtain ⟨p1, p2, p3, p4, p5, p6, p7, p8⟩ := h.phase
  unfold execCodeLenStart
  rw [hc]
  simp only
  have hput : putEntry s.tab.lens g [] = s.tab.lens ++ [[]] := by rw [← p7, putEntry_append]
  rw [hput]
  refine checkLength_ok (h.core.congr rfl rfl rfl rfl rfl rfl rfl) rfl rfl
    ⟨rfl, rfl, rfl, rfl, rfl, rfl, rfl, rfl, rfl, rfl, rfl⟩ (h.jobOk.congr rfl) h.can p1 p2 p3 p4 p5 p6 ?_ (by simp [p7]) ?_ ?_
  · show 0 < s.blk.alphaSize
    have := p3.2.2.2
    omega
  · intro row hr
    simp only at hr
    rw [List.take_append_of_le_length (by omega), List.take_of_length_le (by omega)] at hr
    exact p8 row hr
  · intro row hr
    simp only at hr
    rw [List.drop_append_of_le_length (by omega), List.drop_of_length_le (by omega)] at hr
    simp at hr
    subst hr
    exact ⟨rfl, by simp⟩

theorem codeLenDelta_ok {s : State} {job : Job} {g k curr : Nat} (h : At s job (.codeLen g k curr)) (c' : Nat) :
    TokenOk s job (Flow.settle (checkLength job g k c' s)) := by
  obtain ⟨p1, p2, p3, p4, p5, p6, p7, -, -, p10, p11, p12⟩ := h.phase
  exact checkLength_ok h.core rfl rfl (Kept.refl s) h.jobOk h.can p1 p2 p3 p4 p5 p6 p7 p10 p11 p12

theorem codeLenInc_ok {s : State} {job : Job} {g k curr : Nat} (h : At s job (.codeLen g k curr)) :
    TokenOk s job (execCodeLenInc s) := by
  have hc := h.ctl
  unfold execCodeLenInc
  rw [hc]
  exact codeLenDelta_ok h _

theorem codeLenDec_ok {s : State} {job : Job} {g k curr : Nat} (h : At s job (.codeLen g k curr)) :
    TokenOk s job (execCodeLenDec s) := by
  have hc := h.ctl
  unfold execCodeLenDec
  rw [hc]
  exact codeLenDelta_ok h _

/-- The set-up of the symbol loop has the invariant of the loop (R183). -/
theorem symbolsOk_setup {s : State} (hn : s.blk.nInUse ≤ 256) : SymbolsOk (symbolSetup s) := by
  refine ⟨?_, ?_, ?_, ?_⟩
  · rw [symbolSetup_tab]
  · simp only [symbolSetup_tab, symbolSetup_blk]
    rw [show (List.range 256).take s.blk.nInUse = List.range s.blk.nInUse by
      rw [List.take_range, Nat.min_eq_left hn]]
  · rw [symbolSetup_blk]; exact Nat.zero_le _
  · refine ⟨?_, rfl, ?_⟩
    · simp only [symbolSetup_tab]; exact counts_nil.symm
    · simp only [symbolSetup_tab, List.length_nil, cap, symbolSetup_blockSize100k]; positivity

theorem codeLenEnd_ok {s : State} {job : Job} {g k curr : Nat} (h : At s job (.codeLen g k curr)) :
    TokenOk s job (execCodeLenEnd s) := by
  have hc := h.ctl
  obtain ⟨p1, p2, p3, p4, p5, p6, p7, p8, p9, p10, p11, p12⟩ := h.phase
  unfold execCodeLenEnd
  rw [hc]
  simp only
  have hg : s.tab.lens[g]? = some s.tab.lens[g] := List.getElem?_eq_getElem (by omega)
  rw [lookup_some hg]
  have hrow : RowOk k s.tab.lens[g] := p12 _ (by
    rw [List.mem_iff_getElem?]; exact ⟨0, by rw [List.getElem?_drop]; exact hg⟩)
  have hput : putEntry s.tab.lens[g] k curr = s.tab.lens[g] ++ [curr] := by rw [← hrow.1, putEntry_append]
  have hdrop : s.tab.lens.drop (g + 1) = [] := List.drop_of_length_le (by omega)
  have hput2 : putEntry s.tab.lens g (putEntry s.tab.lens[g] k curr) = s.tab.lens.take g ++ [s.tab.lens[g] ++ [curr]] := by
    rw [putEntry, hput, hdrop]
  have hrow' : RowOk (k + 1) (s.tab.lens[g] ++ [curr]) := by
    refine ⟨by simp [hrow.1], fun l hl => ?_⟩
    rcases List.mem_append.mp hl with h' | h'
    · exact hrow.2 l h'
    · rw [List.mem_singleton.mp h']; exact ⟨p8, p9⟩
  have htl : (s.tab.lens.take g).length = g := by rw [List.length_take]; omega
  rw [hput2]
  by_cases hk : k + 1 < s.blk.alphaSize
  · rw [if_pos hk]
    refine checkLength_ok (h.core.congr rfl rfl rfl rfl rfl rfl rfl) rfl rfl
      ⟨rfl, rfl, rfl, rfl, rfl, rfl, rfl, rfl, rfl, rfl, rfl⟩ (h.jobOk.congr rfl) h.can p1 p2 p3 p4 p5 p6 hk (by simp [htl]) ?_ ?_
    · intro row hr
      simp only at hr
      rw [List.take_append_of_le_length (by omega), List.take_of_length_le (by omega)] at hr
      exact p11 row hr
    · intro row hr
      simp only at hr
      rw [List.drop_append_of_le_length (by omega), List.drop_of_length_le (by omega)] at hr
      simp only [List.nil_append, List.mem_singleton] at hr
      subst hr
      exact hrow'
  · rw [if_neg hk]
    have hall : ∀ row ∈ s.tab.lens.take g ++ [s.tab.lens[g] ++ [curr]], RowOk s.blk.alphaSize row := by
      intro row hr
      rcases List.mem_append.mp hr with h' | h'
      · exact p11 row h'
      · rw [List.mem_singleton.mp h', show s.blk.alphaSize = k + 1 by omega]; exact hrow'
    by_cases ht : g + 1 < s.blk.nGroups
    · rw [if_pos ht]
      exact tokenOk_busy (h.core.congr rfl rfl rfl rfl rfl rfl rfl) rfl rfl
        ⟨rfl, rfl, rfl, rfl, rfl, rfl, rfl, rfl, rfl, rfl, rfl⟩ rfl (by simp) (h.jobOk.congr rfl)
        ⟨p1, p2, p3, p4, p5, ht, by simp [htl], hall⟩ h.can
    · rw [if_neg ht]
      unfold finishLengths
      simp only
      by_cases hbt : (buildTables (s.tab.lens.take g ++ [s.tab.lens[g] ++ [curr]])).2 = true
      · rw [if_pos hbt]
        have hn : s.blk.nInUse ≤ 256 := by
          rw [p3.2.1, p3.1]; exact compact_length_le _
        have hso := symbolsOk_setup (s := { s with tab := { s.tab with
          lens := s.tab.lens.take g ++ [s.tab.lens[g] ++ [curr]],
          tables := (buildTables (s.tab.lens.take g ++ [s.tab.lens[g] ++ [curr]])).1 } }) hn
        refine tokenOk_busy (h.core.congr rfl rfl rfl rfl rfl rfl rfl) rfl rfl
          ⟨rfl, rfl, rfl, rfl, rfl, rfl, rfl, rfl, rfl, rfl, rfl⟩ rfl (by simp) (h.jobOk.congr rfl)
          ⟨p1, p2, p3, p4, p5, ⟨?_, hall, ?_⟩, hso, nofun⟩ h.can
        · show (s.tab.lens.take g ++ [s.tab.lens[g] ++ [curr]]).length = s.blk.nGroups
          simp [htl]; omega
        · show buildTables (s.tab.lens.take g ++ [s.tab.lens[g] ++ [curr]]) = _
          exact Prod.ext rfl hbt
      · rw [if_neg hbt]
        apply tokenOk_raise
        · exact h.core.congr rfl rfl rfl rfl rfl rfl rfl
        · rfl
        · rfl
        · exact ⟨rfl, rfl, rfl, rfl, rfl, rfl, rfl, rfl, rfl, rfl, rfl⟩

/-! ## Symbols -/

theorem sat_le (v : Nat) : sat v ≤ Config.runSat := Nat.min_le_right ..

theorem runDigit_ok {s : State} {job : Job} {r : Bool} (h : At s job (.symbols r)) (m : Nat) :
    TokenOk s job (runDigit m s) := by
  have hc := h.ctl
  obtain ⟨p1, p2, p3, p4, p5, p6, p7, -⟩ := h.phase
  unfold runDigit
  rw [hc]
  exact tokenOk_busy (h.core.congr rfl rfl rfl rfl rfl rfl rfl) rfl rfl
    ⟨rfl, rfl, rfl, rfl, rfl, rfl, rfl, rfl, rfl, rfl, rfl⟩ rfl (by simp) (h.jobOk.congr rfl)
    ⟨p1, p2, p3, p4, p5, p6, p7, fun _ => ⟨sat_le _, sat_le _⟩⟩ h.can

/-- The part of the invariant of the symbol loop that a flush or an MTF symbol keeps. -/
structure Loop (s t : State) : Prop where
  core : Core t
  rd : t.rd = s.rd
  out : t.out = s.out
  kept : Kept s t
  err : t.err = s.err
  state : t.state = s.state
  ctl : t.ctl = s.ctl
  blockSize : t.blockSize100k = s.blockSize100k
  nInUse : t.blk.nInUse = s.blk.nInUse
  map : MapOk t
  counts : CountsOk t
  selectors : SelectorsOk t
  tables : TablesOk t
  symbols : SymbolsOk t

theorem seqToUnseq_some {s : State} (h : MapOk s) {y : Nat} (hy : y < s.blk.nInUse) : ∃ c, s.tab.seqToUnseq[y]? = some c :=
  ⟨_, List.getElem?_eq_getElem (by rw [← h.2.1]; exact hy)⟩

theorem mem_take_lt {s : State} (hp : (s.tab.yy.take s.blk.nInUse).Perm (List.range s.blk.nInUse)) {i y : Nat}
    (h : s.tab.yy[i]? = some y) (hi : i < s.blk.nInUse) : y < s.blk.nInUse := by
  have : y ∈ s.tab.yy.take s.blk.nInUse := by
    rw [List.mem_iff_getElem?]; exact ⟨i, by rw [List.getElem?_take_of_lt hi]; exact h⟩
  exact List.mem_range.mp (hp.mem_iff.mp this)

theorem appendBytes_go {n : Nat} {c : Byte} {t : State} {m : Nat} (h : t.tab.unzftab[c.toNat]? = some m) :
    appendBytes n c t = .go { t with
      tab := { t.tab with ll8 := t.tab.ll8 ++ List.replicate n c, unzftab := t.tab.unzftab.set c.toNat (m + n) }
      blk := { t.blk with last := t.blk.last + n } } := by
  unfold appendBytes; rw [lookup_some h]

/-- `n` more bytes that fit in the block. -/
theorem appendBytes_ok {s t : State} (h : Loop s t) (n : Nat) (c : Byte) (hfit : t.blk.last + n < cap t) :
    ∃ u, appendBytes n c t = .go u ∧ Loop s u := by
  obtain ⟨q1, q2, q3, q4, q5, q6⟩ := h.symbols
  have hg : t.tab.unzftab[c.toNat]? = some (t.tab.ll8.count c) := by rw [q4]; exact counts_get _ _
  refine ⟨_, appendBytes_go hg, h.core.congr rfl rfl rfl rfl rfl rfl rfl, h.rd, h.out,
    h.kept.trans ⟨rfl, rfl, rfl, rfl, rfl, rfl, rfl, rfl, rfl, rfl, rfl⟩, h.err, h.state, h.ctl, h.blockSize, h.nInUse,
    h.map, h.counts, h.selectors, h.tables, q1, q2, q3, ?_, ?_, ?_⟩
  · show t.tab.unzftab.set c.toNat (t.tab.ll8.count c + n) = counts (t.tab.ll8 ++ List.replicate n c)
    rw [q4]; exact counts_append_replicate _ _ _
  · show t.blk.last + n = ((t.tab.ll8 ++ List.replicate n c).length : Int) - 1
    rw [q5]; simp; ring
  · show ((t.tab.ll8 ++ List.replicate n c).length : Int) ≤ cap t
    rw [q5] at hfit; simp; omega

theorem flush_ok {s t : State} (h : Loop s t) :
    (∃ u, flush t = .go u ∧ Loop s u) ∨ flush t = .raise .blockOverrun 2 t := by
  unfold flush
  by_cases hc : t.blk.last + t.blk.runAcc ≥ cap t
  · rw [if_pos hc]; exact .inr rfl
  · rw [if_neg hc]
    obtain ⟨q1, q2, -⟩ := h.symbols
    have hlen : t.tab.yy.length = 256 := by rw [q1.length_eq, List.length_range]
    have hy : t.tab.yy[0]? = some t.tab.yy[0] := List.getElem?_eq_getElem (by omega)
    obtain ⟨c, hs⟩ := seqToUnseq_some h.map (mem_take_lt q2 hy h.map.2.2.1)
    rw [lookup_some hy, lookup_some hs]
    exact .inl (appendBytes_ok h _ _ (by omega))

theorem endRun_ok {s t : State} (h : Loop s t) (r : Bool) :
    (∃ u, endRun r t = .go u ∧ Loop s u) ∨ endRun r t = .raise .blockOverrun 2 t := by
  cases r
  · exact .inl ⟨t, rfl, h⟩
  · exact flush_ok h

theorem mtfSymbol_ok {s t : State} (h : Loop s t) (m : Nat) (h1 : 2 ≤ m) (h2 : m ≤ t.blk.nInUse) :
    (∃ u, mtfSymbol m t = .go u ∧ Loop s u) ∨ ∃ u, mtfSymbol m t = .raise .blockOverrun 1 u ∧ Loop s u := by
  obtain ⟨q1, q2, q3, q4⟩ := h.symbols
  have hlen : t.tab.yy.length = 256 := by rw [q1.length_eq, List.length_range]
  have hn : t.blk.nInUse ≤ 256 := by rw [h.map.2.1, h.map.1]; exact compact_length_le _
  rcases moveToFront_cases t.tab.yy (m - 1) with ⟨x, hx, -, hm⟩ | ⟨hle, -⟩
  · have hL : Loop s { t with tab := { t.tab with yy := x :: t.tab.yy.eraseIdx (m - 1) } } := by
      refine ⟨h.core.congr rfl rfl rfl rfl rfl rfl rfl, h.rd, h.out,
        h.kept.trans ⟨rfl, rfl, rfl, rfl, rfl, rfl, rfl, rfl, rfl, rfl, rfl⟩, h.err, h.state, h.ctl, h.blockSize, h.nInUse,
        h.map, h.counts, h.selectors, h.tables, ?_, ?_, q3, q4⟩
      · exact (moveToFront_perm hx).trans q1
      · exact (moveToFront_take_perm hx (by show m - 1 < t.blk.nInUse; omega)).trans q2
    unfold mtfSymbol
    rw [hm]
    simp only
    by_cases hc : t.blk.last + 1 ≥ cap t
    · rw [if_pos hc]; exact .inr ⟨_, rfl, hL⟩
    · rw [if_neg hc]
      obtain ⟨c, hs⟩ := seqToUnseq_some h.map (mem_take_lt q2 hx (by omega))
      rw [lookup_some hs]
      have hfit : t.blk.last + (1 : Nat) < cap t := by push_cast; omega
      exact .inl (appendBytes_ok hL _ _ hfit)
  · omega

theorem Loop.refl {s : State} {job : Job} {r : Bool} (h : At s job (.symbols r)) : Loop s s := by
  obtain ⟨-, -, p3, p4, p5, p6, p7, -⟩ := h.phase
  exact ⟨h.core, rfl, rfl, Kept.refl s, rfl, rfl, rfl, rfl, rfl, p3, p4, p5, p6, p7⟩

theorem mtf_ok {s : State} {job : Job} {r : Bool} (h : At s job (.symbols r)) (m : Nat) (h1 : 2 ≤ m) (h2 : m ≤ s.blk.nInUse) :
    TokenOk s job (execMtf m s) := by
  have hc := h.ctl
  have p := h.phase
  unfold execMtf
  rw [hc]
  simp only
  rw [if_pos (by simp [h1, h2])]
  rcases endRun_ok (Loop.refl h) r with ⟨u, hu, hL⟩ | he
  · rw [hu]
    simp only [Flow.andThen]
    have hn := hL.nInUse
    rcases mtfSymbol_ok hL m h1 (by omega) with ⟨v, hv, hV⟩ | ⟨v, hv, hV⟩
    · rw [hv]
      exact tokenOk_busy (hV.core.congr rfl rfl rfl rfl rfl rfl rfl) hV.rd hV.out
        (hV.kept.trans ⟨rfl, rfl, rfl, rfl, rfl, rfl, rfl, rfl, rfl, rfl, rfl⟩) rfl (by simp)
        (h.jobOk.congr hV.kept.outCap)
        ⟨p.1, by show v.state = _; rw [hV.state]; exact p.2.1, hV.map, hV.counts, hV.selectors, hV.tables, hV.symbols, nofun⟩
        ⟨by show v.rd.live ≤ 7; rw [hV.rd]; exact h.can.1, by show v.err = 0; rw [hV.err]; exact h.can.2⟩
    · rw [hv]
      exact tokenOk_raise hV.core hV.rd hV.out hV.kept
  · rw [he]
    exact tokenOk_raise h.core rfl rfl (Kept.refl s)

/-- The set-up of the walk (R200 to R204): the walk's invariant, or StreamCorrupted(1). -/
theorem ibwtSetup_ok {s t : State} (h : Loop s t) :
    (∃ u, ibwtSetup t = .raise .streamCorrupted 1 u ∧ Core u ∧ u.rd = s.rd ∧ u.out = s.out ∧ Kept s u) ∨
      ∃ u, ibwtSetup t = .go u ∧ Core u ∧ u.rd = s.rd ∧ u.out = s.out ∧ Kept s u ∧ u.err = s.err ∧ u.state ≠ .eof ∧
        (u.state = .randA ∨ u.state = .norandA) ∧ StateOk u := by
  obtain ⟨-, -, -, q4, q5, q6⟩ := h.symbols
  obtain ⟨cf, tt, he, hl, -, hsl⟩ := fillTT_counts t.tab.ll8
  have hperm := perm_of_slots hl hsl
  unfold ibwtSetup
  rw [q4, he]
  simp only
  by_cases hc : (t.blk.origPtr.toNat : Int) > t.blk.last
  · rw [if_pos hc]
    exact .inl ⟨_, rfl, h.core.congr rfl rfl rfl rfl rfl rfl rfl, h.rd, h.out,
      h.kept.trans ⟨rfl, rfl, rfl, rfl, rfl, rfl, rfl, rfl, rfl, rfl, rfl⟩⟩
  · rw [if_neg hc]
    have ho : t.blk.origPtr.toNat < tt.length := by omega
    have hg : tt[t.blk.origPtr.toNat]? = some tt[t.blk.origPtr.toNat] := List.getElem?_eq_getElem ho
    rw [lookup_some hg]
    have hlt : tt[t.blk.origPtr.toNat] < t.tab.ll8.length :=
      List.mem_range.mp (hperm.mem_iff.mp (List.getElem_mem ho))
    refine .inr ⟨_, rfl, h.core.congr rfl rfl rfl rfl rfl rfl rfl, h.rd, h.out,
      h.kept.trans ⟨rfl, rfl, rfl, rfl, rfl, rfl, rfl, rfl, rfl, rfl, rfl⟩, h.err, ?_, ?_, ?_⟩
    · simp only; split <;> simp
    · simp only; split <;> simp
    · have hw : ∀ st : StreamState, WalkA { t with
          tab := { t.tab with cftab := cf, tt := tt }
          cur := startCursor tt[t.blk.origPtr.toNat], state := st } :=
        fun st => ⟨⟨q5, q6, hperm, hlt, Nat.zero_le _, by show (0 : Nat) < 512; omega, by show (0 : Nat) < 2 ^ 16; omega⟩,
          by show (0 : Nat) ≤ 3; omega⟩
      cases hr : t.blk.randomized
      · simp only [StateOk]
        exact ⟨hr, hw .norandA⟩
      · simp only [StateOk, if_true]
        exact ⟨hr, hw .randA⟩

theorem eob_ok {s : State} {job : Job} {r : Bool} (h : At s job (.symbols r)) : TokenOk s job (execEob s) := by
  have hc := h.ctl
  have p := h.phase
  unfold execEob
  rw [hc]
  simp only
  rcases endRun_ok (Loop.refl h) r with ⟨u, hu, hL⟩ | he
  · rw [hu]
    simp only [Flow.andThen]
    rcases ibwtSetup_ok hL with ⟨v, hv, c, h1, h2, k⟩ | ⟨v, hv, c, h1, h2, k, e, hne, hst, hok⟩
    · rw [hv]
      exact tokenOk_raise c h1 h2 k
    · rw [hv]
      refine ⟨_, rfl, inv_busy (c.congr rfl rfl rfl rfl rfl rfl rfl) rfl (h.jobOk.congr k.outCap) ⟨p.1, ?_⟩ fun _ => ?_, h1, h2,
        k.trans ⟨rfl, rfl, rfl, rfl, rfl, rfl, rfl, rfl, rfl, rfl, rfl⟩, .inr ⟨.walk, rfl, ?_⟩⟩
      · exact hok
      · exact ⟨by show v.rd.live ≤ 7; rw [h1]; exact h.can.1, by show v.err = 0; rw [e]; exact h.can.2⟩
      · rcases hst with h' | h' <;> simp [walkRank, h']
  · rw [he]
    exact tokenOk_raise h.core rfl rfl (Kept.refl s)

end Sys2Proof.Machine
end

