-- ==== Sys2Proof/Laws/WalkInv.lean ====
section
/-! SUPPORT. Every internal step of the output walk (R205 to R210, R238 to R245), taken in a state with the invariant, gives a next
state with the invariant, and brings the command nearer to its response. -/

namespace Sys2Proof.Machine

/-- How far a command is from its response, once the bits it reads are counted (R235, R308). -/
def walkMeasure (s : State) : Nat := 3 * bytesWanted s + walkRank s

/-- What an internal step of a command `job` does. -/
def StepOk (s : State) (o : Outcome) : Prop :=
  ∃ t, o = .next t ∧ Inv t ∧ t.rd = s.rd ∧ Kept s t ∧ (t.ctl = .idle ∨ walkMeasure t < walkMeasure s)

/-- Everything the derandomiser does (R206, R207). -/
theorem derand_ok {rnums : List Nat} {c : Cursor} (hl : rnums.length = 512) (hr : ∀ r ∈ rnums, 1 ≤ r ∧ r < 2 ^ 16)
    (h1 : c.rtPos < 512) (h2 : c.rnToGo < 2 ^ 16) (v : Byte) :
    ∃ w rn rt, derand rnums v c = some (w, { c with rnToGo := rn, rtPos := rt }) ∧ rn < 2 ^ 16 ∧ rt < 512 := by
  unfold derand
  by_cases h0 : c.rnToGo = 0
  · have hg : rnums[c.rtPos]? = some rnums[c.rtPos] := List.getElem?_eq_getElem (by omega)
    have := hr _ (List.getElem_mem (by omega : c.rtPos < rnums.length))
    rw [if_pos h0, hg]
    exact ⟨_, _, _, rfl, by omega, Nat.mod_lt _ (by omega)⟩
  · rw [if_neg h0]
    exact ⟨_, _, _, rfl, by omega, h1⟩

/-- Everything `take` does inside a block (R205, R215). -/
theorem take_ok {s : State} (hp : ParamsOk s) (hw : WalkOk s) :
    ∃ v tp rn rt, take s = some (v, { s.cur with tPos := tp, i2 := s.cur.i2 + 1, rnToGo := rn, rtPos := rt }) ∧
      tp < s.tab.ll8.length ∧ rn < 2 ^ 16 ∧ rt < 512 := by
  obtain ⟨w1, w2, w3, w4, w5, w6, w7⟩ := hw
  have hlen : s.tab.tt.length = s.tab.ll8.length := by rw [w3.length_eq, List.length_range]
  have g1 : s.tab.ll8[s.cur.tPos]? = some s.tab.ll8[s.cur.tPos] := List.getElem?_eq_getElem w4
  have g2 : s.tab.tt[s.cur.tPos]? = some s.tab.tt[s.cur.tPos] := List.getElem?_eq_getElem (by omega)
  have hlt : s.tab.tt[s.cur.tPos] < s.tab.ll8.length :=
    List.mem_range.mp (w3.mem_iff.mp (List.getElem_mem (by omega)))
  unfold take
  rw [g1, g2]
  simp only
  by_cases hr : s.blk.randomized = true
  · rw [if_pos hr]
    obtain ⟨w, rn, rt, he, h1, h2⟩ := derand_ok hp.2.1 hp.2.2
      (c := { s.cur with tPos := s.tab.tt[s.cur.tPos], i2 := s.cur.i2 + 1 }) w6 w7 s.tab.ll8[s.cur.tPos]
    exact ⟨w, _, rn, rt, he, hlt, h1, h2⟩
  · rw [if_neg hr]
    exact ⟨_, _, _, _, rfl, hlt, w7, w6⟩

/-- A byte yielded in a state that has the invariant of the walk. -/
theorem yield_byte_ok {s : State} {job : Job} (c : Core s) (hb : s.ctl = .busy job .walk) (hj : JobOk s job) (hni : job ≠ .init)
    (hs : StateOk s) (hr : CanRead s) (v : Byte) :
    ∃ t, (yield job (.byte v) s).settle = .next t ∧ Inv t ∧ t.rd = s.rd ∧ Kept s t ∧
      (t.ctl = .idle ∨ (t.ctl ≠ .idle ∧ bytesWanted t + 1 = bytesWanted s ∧ walkRank t = walkRank s)) := by
  cases job with
  | init => exact absurd rfl hni
  | readByte =>
    exact ⟨_, rfl, inv_idle (c.congr rfl rfl rfl rfl rfl rfl rfl) rfl hs fun _ => hr, rfl,
      ⟨rfl, rfl, rfl, rfl, rfl, rfl, rfl, rfl, rfl, rfl, rfl⟩, .inl rfl⟩
  | readInto off len k =>
    obtain ⟨hk, ho⟩ := hj
    have hw : outWrite (off + k) v s = some { s with out := memWrite s.out (off + k) v } := by
      unfold outWrite; rw [if_pos (by omega)]
    have hout : OutOk { s with out := memWrite s.out (off + k) v } := by
      refine ⟨wf_memWrite _ _ _ c.out.1, fun d hd => ?_⟩
      rcases mem_memWrite _ _ _ _ hd with h | h
      · rw [h]; show off + k < s.outCap; omega
      · exact c.out.2 d h
    have hc : ∀ t : State, t.outCap = s.outCap → t.rnums = s.rnums → t.out = memWrite s.out (off + k) v →
        t.closed = s.closed → t.blockSize100k = s.blockSize100k → t.rd = s.rd → t.err = s.err → Core t := by
      intro t e1 e2 e3 e4 e5 e6 e7
      refine ⟨by simpa only [ParamsOk, e1, e2] using c.params, ?_, by rw [e4]; exact c.opened, by rw [e5]; exact c.bsLo,
        by rw [e5]; exact c.bsHi, by rw [e6]; exact c.live47, by rw [e6]; exact c.part, by rw [e7]; exact c.err8⟩
      simpa only [OutOk, e1, e3] using hout
    simp only [yield, hw]
    by_cases hkl : k + 1 < len
    · rw [if_pos hkl]
      refine ⟨_, rfl, inv_busy (hc _ rfl rfl rfl rfl rfl rfl rfl) rfl ⟨hkl, ho⟩ ⟨hni', ?_⟩ fun _ => hr, rfl,
        ⟨rfl, rfl, rfl, rfl, rfl, rfl, rfl, rfl, rfl, rfl, rfl⟩, .inr ⟨by simp, ?_, ?_⟩⟩
      · exact hs
      · simp only [bytesWanted, hb]; omega
      · simp only [walkRank, hb]
    · rw [if_neg hkl]
      exact ⟨_, rfl, inv_idle (hc _ rfl rfl rfl rfl rfl rfl rfl) rfl hs fun _ => hr, rfl,
        ⟨rfl, rfl, rfl, rfl, rfl, rfl, rfl, rfl, rfl, rfl, rfl⟩, .inl rfl⟩
where hni' {off len k : Nat} : Job.readInto off len k ≠ .init := by simp

/-- What holds where a walk step is taken. -/
structure AtWalk (s : State) (job : Job) : Prop where
  core : Core s
  ctl : s.ctl = .busy job .walk
  jobOk : JobOk s job
  notInit : job ≠ .init
  state : StateOk s
  can : s.state ≠ .eof → CanRead s

theorem AtWalk.of_inv {s : State} {job : Job} (h : Inv s) (hb : s.ctl = .busy job .walk) : AtWalk s job := by
  obtain ⟨ho, hj, hp⟩ := h.busy hb
  have hi : s.ctl = .idle ∨ ∃ job, s.ctl = .busy job .walk := .inr ⟨job, hb⟩
  exact ⟨h.core ho hi, hb, hj, hp.1, hp.2, h.canRead ho hi⟩

theorem yield_sentinel_ok {s : State} {job : Job} (h : AtWalk s job) :
    (s.state = .eof → StepOk s (yield job .endOfStream s).settle) ∧
      (s.state = .noProcess → StepOk s (yield job .endOfBlock s).settle) := by
  have hc := h.ctl
  constructor
  · intro he
    cases job with
    | init => exact absurd rfl h.notInit
    | readByte =>
      exact ⟨_, rfl, inv_idle (h.core.congr rfl rfl rfl rfl rfl rfl rfl) rfl h.state (fun hne => absurd he hne), rfl,
        ⟨rfl, rfl, rfl, rfl, rfl, rfl, rfl, rfl, rfl, rfl, rfl⟩, .inl rfl⟩
    | readInto off len k =>
      exact ⟨_, rfl, inv_idle (h.core.congr rfl rfl rfl rfl rfl rfl rfl) rfl h.state (fun hne => absurd he hne), rfl,
        ⟨rfl, rfl, rfl, rfl, rfl, rfl, rfl, rfl, rfl, rfl, rfl⟩, .inl rfl⟩
  · intro he
    have hr : CanRead s := h.can (by rw [he]; decide)
    have scan : ∀ j : Job, j = job → StepOk s (Flow.settle (.go { s with ctl := .busy j .scan })) := by
      intro j hj
      subst hj
      refine ⟨_, rfl, inv_busy (h.core.congr rfl rfl rfl rfl rfl rfl rfl) rfl (h.jobOk.congr rfl) (.inr he) fun _ => hr, rfl,
        ⟨rfl, rfl, rfl, rfl, rfl, rfl, rfl, rfl, rfl, rfl, rfl⟩, .inr ?_⟩
      have : bytesWanted { s with ctl := .busy j .scan } = bytesWanted s := by
        simp only [bytesWanted, hc]
        cases j <;> rfl
      simp only [walkMeasure, this]
      simp [walkRank, hc, he]
    cases job with
    | init => exact absurd rfl h.notInit
    | readByte => exact scan _ rfl
    | readInto off len k =>
      simp only [yield]
      by_cases hk : k > 0
      · rw [if_pos hk]
        exact ⟨_, rfl, inv_idle (h.core.congr rfl rfl rfl rfl rfl rfl rfl) rfl h.state (fun _ => hr), rfl,
          ⟨rfl, rfl, rfl, rfl, rfl, rfl, rfl, rfl, rfl, rfl, rfl⟩, .inl rfl⟩
      · rw [if_neg hk]
        exact scan _ rfl

/-- A step that only changes `STATE` and the cursor and goes round again. -/
theorem continue_ok {s t : State} {job : Job} (h : AtWalk s job) (hcore : Core t) (h1 : t.rd = s.rd) (k : Kept s t)
    (he : t.err = s.err) (hctl : t.ctl = s.ctl) (hs : StateOk t) (hne : s.state ≠ .eof) (hw : walkRank t < walkRank s) :
    StepOk s (Flow.settle (.go t)) := by
  refine ⟨t, rfl, inv_busy hcore (hctl.trans h.ctl) (h.jobOk.congr k.outCap) ⟨h.notInit, hs⟩ fun _ => ?_, h1, k, .inr ?_⟩
  · rw [CanRead, h1, he]; exact h.can hne
  · have : bytesWanted t = bytesWanted s := by unfold bytesWanted; rw [hctl]
    simp only [walkMeasure, this]; omega

theorem stepOk_raise {s t : State} (c : Core t) (h1 : t.rd = s.rd) (k : Kept s t) {e : ErrKind} {d : Nat} :
    StepOk s (Flow.raise e d t).settle :=
  ⟨_, rfl, inv_raise c e d, by simpa using h1, kept_raise k e d, .inl (by simp)⟩

/-- R238: the end of a block. -/
theorem endOfBlock_ok {s : State} {job : Job} (h : AtWalk s job) (hs : s.state = .randA ∨ s.state = .norandA) :
    StepOk s (endOfBlock s).settle := by
  have hc := h.ctl
  unfold endOfBlock
  by_cases he : crcFinal s.cur.blockCrc ≠ s.blk.storedBlockCrc
  · simp only [if_pos he]
    exact stepOk_raise h.core rfl (Kept.refl s)
  · simp only [if_neg he]
    refine continue_ok h (h.core.congr rfl rfl rfl rfl rfl rfl rfl) rfl
      ⟨rfl, rfl, rfl, rfl, rfl, rfl, rfl, rfl, rfl, rfl, rfl⟩ rfl rfl ?_ (by rcases hs with h' | h' <;> rw [h'] <;> decide) ?_
    · cases hm : s.mode
      · simp [StateOk]
      · simp [StateOk]
    · rcases hs with h' | h' <;> cases hm : s.mode <;> simp [walkRank, hc, h']

/-- R208: a step `*_A`; `b` is the `*_B` of its family. -/
theorem stepA_ok {s : State} {job : Job} (h : AtWalk s job) (b : StreamState)
    (hs : (s.state = .randA ∧ b = .randB ∧ s.blk.randomized = true) ∨
      (s.state = .norandA ∧ b = .norandB ∧ s.blk.randomized = false)) (hw : WalkA s) :
    StepOk s (stepA job b s).settle := by
  have hc := h.ctl
  obtain ⟨w, hcount⟩ := hw
  have hne : s.state ≠ .eof := by rcases hs with ⟨h', -, -⟩ | ⟨h', -, -⟩ <;> rw [h'] <;> decide
  unfold stepA
  by_cases hi : (s.cur.i2 : Int) > s.blk.last
  · rw [if_pos hi]
    exact endOfBlock_ok h (by rcases hs with ⟨h', -, -⟩ | ⟨h', -, -⟩ <;> simp [h'])
  · rw [if_neg hi]
    have hlast := w.1
    have hi' : s.cur.i2 < s.tab.ll8.length := by omega
    obtain ⟨v, tp, rn, rt, ht, h1, h2, h3⟩ := take_ok h.core.params w
    rw [ht]
    simp only
    have hW : ∀ t : State, t.tab = s.tab → t.blk = s.blk → t.blockSize100k = s.blockSize100k →
        t.cur = { s.cur with tPos := tp, i2 := s.cur.i2 + 1, rnToGo := rn, rtPos := rt, chPrev := s.cur.ch2
                             ch2 := v.zeroExtend 9, blockCrc := crcUpdate s.cur.blockCrc v } → WalkB t := by
      intro t e1 e2 e3 e4
      refine ⟨⟨by rw [e1, e2]; exact w.1, by rw [cap, e1, e3]; exact w.2.1, by rw [e1]; exact w.2.2.1, ?_, ?_, ?_, ?_⟩, ?_, ?_⟩
      · rw [e1, e4]; exact h1
      · rw [e1, e4]; exact hi'
      · rw [e4]; exact h3
      · rw [e4]; exact h2
      · rw [e4]; exact hcount
      · rw [e4]
        show (v.setWidth 9).toNat ≤ 255
        rw [BitVec.toNat_setWidth]
        have := v.isLt
        omega
    obtain ⟨t, he, hinv, hrd, hk, hm⟩ := yield_byte_ok (s := { s with
        cur := { s.cur with tPos := tp, i2 := s.cur.i2 + 1, rnToGo := rn, rtPos := rt, chPrev := s.cur.ch2
                            ch2 := v.zeroExtend 9, blockCrc := crcUpdate s.cur.blockCrc v }
        state := b }) (h.core.congr rfl rfl rfl rfl rfl rfl rfl) hc (h.jobOk.congr rfl) h.notInit (by
          rcases hs with ⟨-, rfl, hr⟩ | ⟨-, rfl, hr⟩
          · exact ⟨hr, hW _ rfl rfl rfl rfl⟩
          · exact ⟨hr, hW _ rfl rfl rfl rfl⟩) (h.can hne) v
    refine ⟨t, he, hinv, hrd, ⟨hk.cmd, hk.arg0, hk.arg1, hk.closed, hk.mode, hk.outCap, hk.rnums, hk.attached, hk.script,
      hk.hostData, hk.draws⟩, ?_⟩
    rcases hm with hm | ⟨-, hm, hr⟩
    · exact .inl hm
    · right
      have e1 : bytesWanted { s with
          cur := { s.cur with tPos := tp, i2 := s.cur.i2 + 1, rnToGo := rn, rtPos := rt, chPrev := s.cur.ch2
                              ch2 := v.zeroExtend 9, blockCrc := crcUpdate s.cur.blockCrc v }
          state := b } = bytesWanted s := rfl
      rw [e1] at hm
      have e2 : walkRank t = 4 := by
        rw [hr]; rcases hs with ⟨-, rfl, -⟩ | ⟨-, rfl, -⟩ <;> simp [walkRank, hc]
      have e3 : walkRank s = 2 := by rcases hs with ⟨h', -, -⟩ | ⟨h', -, -⟩ <;> simp [walkRank, hc, h']
      simp only [walkMeasure, e2, e3]
      omega

/-- R210: a step `*_C`; `a` is the `*_A` of its family. -/
theorem stepC_ok {s : State} {job : Job} (h : AtWalk s job) (a : StreamState)
    (hs : (s.state = .randC ∧ a = .randA ∧ s.blk.randomized = true) ∨
      (s.state = .norandC ∧ a = .norandA ∧ s.blk.randomized = false)) (hw : WalkC s) :
    StepOk s (stepC job a s).settle := by
  have hc := h.ctl
  obtain ⟨w, hcount, hch, hj⟩ := hw
  have hne : s.state ≠ .eof := by rcases hs with ⟨h', -, -⟩ | ⟨h', -, -⟩ <;> rw [h'] <;> decide
  unfold stepC
  by_cases hz : s.cur.j2 < s.cur.z.toNat
  · rw [if_pos hz]
    simp only
    have hW : WalkC { s with cur := { s.cur with
        j2 := s.cur.j2 + 1, blockCrc := crcUpdate s.cur.blockCrc (s.cur.ch2.truncate 8) } } :=
      ⟨w, hcount, hch, hz⟩
    obtain ⟨t, he, hinv, hrd, hk, hm⟩ := yield_byte_ok (s := { s with cur := { s.cur with
        j2 := s.cur.j2 + 1, blockCrc := crcUpdate s.cur.blockCrc (s.cur.ch2.truncate 8) } })
        (h.core.congr rfl rfl rfl rfl rfl rfl rfl) hc (h.jobOk.congr rfl) h.notInit (by
          rcases hs with ⟨h', -, hr⟩ | ⟨h', -, hr⟩
          · simp only [StateOk, h']; exact ⟨hr, hW⟩
          · simp only [StateOk, h']; exact ⟨hr, hW⟩) (h.can hne) (s.cur.ch2.truncate 8)
    refine ⟨t, he, hinv, hrd, ⟨hk.cmd, hk.arg0, hk.arg1, hk.closed, hk.mode, hk.outCap, hk.rnums, hk.attached, hk.script,
      hk.hostData, hk.draws⟩, ?_⟩
    rcases hm with hm | ⟨-, hm, hr⟩
    · exact .inl hm
    · right
      have e1 : bytesWanted { s with cur := { s.cur with
          j2 := s.cur.j2 + 1, blockCrc := crcUpdate s.cur.blockCrc (s.cur.ch2.truncate 8) } } = bytesWanted s := rfl
      have e2 : walkRank { s with cur := { s.cur with
          j2 := s.cur.j2 + 1, blockCrc := crcUpdate s.cur.blockCrc (s.cur.ch2.truncate 8) } } = walkRank s := rfl
      rw [e1] at hm
      rw [e2] at hr
      simp only [walkMeasure, hr]
      omega
  · rw [if_neg hz]
    refine continue_ok h (h.core.congr rfl rfl rfl rfl rfl rfl rfl) rfl
      ⟨rfl, rfl, rfl, rfl, rfl, rfl, rfl, rfl, rfl, rfl, rfl⟩ rfl rfl ?_ hne ?_
    · have hA : WalkA { s with cur := { s.cur with count := 0 }, state := a } := ⟨w, by show (0 : Nat) ≤ 3; omega⟩
      rcases hs with ⟨-, rfl, hr⟩ | ⟨-, rfl, hr⟩
      · exact ⟨hr, hA⟩
      · exact ⟨hr, hA⟩
    · rcases hs with ⟨h', rfl, -⟩ | ⟨h', rfl, -⟩ <;> simp [walkRank, hc, h']

/-- R209: a step `*_B`, with the RLE1 unit it may complete. -/
theorem stepB_ok {s : State} {job : Job} (h : AtWalk s job) (a cst : StreamState)
    (hs : (s.state = .randB ∧ a = .randA ∧ cst = .randC ∧ s.blk.randomized = true) ∨
      (s.state = .norandB ∧ a = .norandA ∧ cst = .norandC ∧ s.blk.randomized = false)) (hw : WalkB s) :
    (∃ f, stepB a s = .flow f ∧ StepOk s f.settle) ∨
      ∃ c z t, stepB a s = .unit c z t ∧ StepOk s (execRle1Unit c z t) := by
  have hc := h.ctl
  obtain ⟨w, hcount, hch⟩ := hw
  have hne : s.state ≠ .eof := by rcases hs with ⟨h', -⟩ | ⟨h', -⟩ <;> rw [h'] <;> decide
  have hrank : walkRank s = 4 := by rcases hs with ⟨h', -⟩ | ⟨h', -⟩ <;> simp [walkRank, hc, h']
  unfold stepB
  have back : ∀ n : Nat, n ≤ 3 → StepOk s (Flow.settle (.go { s with cur := { s.cur with count := n }, state := a })) := by
    intro n hn
    refine continue_ok h (h.core.congr rfl rfl rfl rfl rfl rfl rfl) rfl
      ⟨rfl, rfl, rfl, rfl, rfl, rfl, rfl, rfl, rfl, rfl, rfl⟩ rfl rfl ?_ hne ?_
    · have hA : WalkA { s with cur := { s.cur with count := n }, state := a } := ⟨w, hn⟩
      rcases hs with ⟨-, rfl, -, hr⟩ | ⟨-, rfl, -, hr⟩
      · exact ⟨hr, hA⟩
      · exact ⟨hr, hA⟩
    · rw [hrank]; rcases hs with ⟨-, rfl, -⟩ | ⟨-, rfl, -⟩ <;> simp [walkRank, hc]
  by_cases h1 : s.cur.ch2 ≠ s.cur.chPrev
  · rw [if_pos h1]; exact .inl ⟨_, rfl, back 1 (by omega)⟩
  · rw [if_neg h1]
    simp only
    by_cases h2 : s.cur.count + 1 < 4
    · rw [if_pos h2]; exact .inl ⟨_, rfl, back _ (by omega)⟩
    · rw [if_neg h2]
      by_cases hi : (s.cur.i2 : Int) > s.blk.last
      · rw [if_pos hi]
        refine .inl ⟨_, rfl, ?_⟩
        apply stepOk_raise
        · exact h.core.congr rfl rfl rfl rfl rfl rfl rfl
        · rfl
        · exact ⟨rfl, rfl, rfl, rfl, rfl, rfl, rfl, rfl, rfl, rfl, rfl⟩
      · rw [if_neg hi]
        have hlast := w.1
        have hi' : s.cur.i2 < s.tab.ll8.length := by omega
        obtain ⟨z, tp, rn, rt, ht, g1, g2, g3⟩ := take_ok (s := { s with cur := { s.cur with count := s.cur.count + 1 } })
          h.core.params ⟨w.1, w.2.1, w.2.2.1, w.2.2.2.1, w.2.2.2.2.1, w.2.2.2.2.2.1, w.2.2.2.2.2.2⟩
        rw [ht]
        refine .inr ⟨_, _, _, rfl, ?_⟩
        have hc4 : s.cur.count + 1 = 4 := by omega
        have hext : s.cur.ch2 = (s.cur.ch2.truncate 8).zeroExtend 9 := by
          apply BitVec.eq_of_toNat_eq
          show _ = (BitVec.setWidth 9 (BitVec.setWidth 8 s.cur.ch2)).toNat
          rw [BitVec.toNat_setWidth, BitVec.toNat_setWidth]
          omega
        have htail : tailState s.state = some cst := by
          rcases hs with ⟨h', -, rfl, -⟩ | ⟨h', -, rfl, -⟩ <;> rw [h'] <;> rfl
        unfold execRle1Unit
        simp only [hc, htail]
        rw [if_pos (by simp only [hc4, Bool.and_eq_true, decide_eq_true_eq]; exact ⟨trivial, hext⟩)]
        refine continue_ok h (h.core.congr rfl rfl rfl rfl rfl rfl rfl) rfl
          ⟨rfl, rfl, rfl, rfl, rfl, rfl, rfl, rfl, rfl, rfl, rfl⟩ rfl hc.symm ?_ hne ?_
        · have hW : WalkC { s with
              cur := { s.cur with count := s.cur.count + 1, tPos := tp, i2 := s.cur.i2 + 1, rnToGo := rn, rtPos := rt
                                  z := z, j2 := 0 }
              state := cst } :=
            ⟨⟨w.1, w.2.1, w.2.2.1, g1, hi', g3, g2⟩, hc4, hch, Nat.zero_le _⟩
          rcases hs with ⟨-, -, rfl, hr⟩ | ⟨-, -, rfl, hr⟩
          · exact ⟨hr, hW⟩
          · exact ⟨hr, hW⟩
        · rw [hrank]; rcases hs with ⟨-, -, rfl, -⟩ | ⟨-, -, rfl, -⟩ <;> simp [walkRank]

end Sys2Proof.Machine
end

