-- ==== Sys2Proof/Laws/Fetch.lean ====
section
/-! SUPPORT. Reading a token in a state with the invariant: which tokens each control point can give, that a token has at least one
bit, that no entry without a value is read, and that the invariant is kept up to the token's meaning. -/

namespace Sys2Proof.Machine

/-- The tokens that can stand where a phase reads one (R99 to R106). -/
def Fits (s : State) (i : Instr) : Phase → Prop
  | .header => ∃ d, i = .streamHeader d
  | .marker => i = .blockMark ∨ ∃ c, i = .eosMark c
  | .blockHeader => ∃ c r p, i = .blockHeader c r p
  | .symbolMap => ∃ u ws, i = .symbolMap u ws
  | .tableCounts => ∃ g n, i = .tableCounts g n
  | .selector _ => (∃ v, i = selectorInstr v) ∨ i = .selectorMtfBad
  | .codeLenStart _ => ∃ l, i = .codeLenStart l
  | .codeLen _ _ _ => i = .codeLenEnd ∨ i = .codeLenInc ∨ i = .codeLenDec
  | .symbols _ => i = .runA ∨ i = .runB ∨ (∃ m, 2 ≤ m ∧ m ≤ s.blk.nInUse ∧ i = .mtf m) ∨ i = .eob
  | .scan | .walk => False

/-- What a parse can end in: a token with a property, after at least one bit, or an error; never nothing. -/
def Ends (P : Instr → Prop) (n : Nat) : Decoded → Prop
  | .ok i rest => P i ∧ rest.length < n
  | .rejected _ _ | .short _ _ => True
  | .nothing => False

theorem Ends.mono {P Q : Instr → Prop} {m n : Nat} {d : Decoded} (h : Ends P m d) (hp : ∀ i, P i → Q i) (hn : m ≤ n) :
    Ends Q n d := by
  cases d with
  | ok i rest => exact ⟨hp _ h.1, Nat.lt_of_lt_of_le h.2 hn⟩
  | rejected e d => trivial
  | short e d => trivial
  | nothing => exact h

/-- After a read of at least one bit it is enough that the rest of the parse does not lengthen the bits. -/
theorem ends_read {P : Instr → Prop} {n : Nat} {e : ErrKind} {d : Nat} {k : Nat → Parse} {bs : List Bool} (hn : 1 ≤ n)
    (h : ∀ v (bs' : List Bool), bs'.length < bs.length → Ends P bs.length (parseBits (k v) bs')) :
    Ends P bs.length (parseBits (.read n e d k) bs) := by
  simp only [parseBits]
  by_cases hl : n ≤ bs.length
  · rw [if_pos hl]
    exact h _ _ (by rw [List.length_drop]; omega)
  · rw [if_neg hl]; trivial

theorem ends_bytes {P : Instr → Prop} {N : Nat} {k : Nat → Parse} (m : Nat) : ∀ (v : Nat) (bs : List Bool), bs.length < N →
    (∀ v (bs' : List Bool), bs'.length < N → Ends P N (parseBits (k v) bs')) → Ends P N (parseBits (Parse.bytes m v k) bs) := by
  induction m with
  | zero => intro v bs hb h; exact h v bs hb
  | succ m ih =>
    intro v bs hb h
    have := ends_read (P := P) (n := 8) (e := .unexpectedEndOfStream) (d := 0) (bs := bs)
      (k := fun b => Parse.bytes m (v * 256 + b) k) (by omega)
    simp only [Parse.bytes, Parse.field, parseBits]
    by_cases hl : 8 ≤ bs.length
    · rw [if_pos hl]
      exact ih _ _ (by rw [List.length_drop]; omega) h
    · rw [if_neg hl]; trivial

theorem ends_mapWords (u : BitVec 16) (N : Nat) : ∀ (is : List Nat) (ws : List (BitVec 16)) (l : List Bool) (bs : List Bool),
    bs.length < N → Ends (fun i => ∃ u ws, i = .symbolMap u ws) N (parseBits (parseMapWords u is ws l) bs) := by
  intro is
  induction is with
  | nil => intro ws l bs hb; exact ⟨⟨_, _, rfl⟩, hb⟩
  | cons i is ih =>
    intro ws l bs hb
    simp only [parseMapWords, Parse.field, parseBits]
    by_cases hl : 16 ≤ bs.length
    · rw [if_pos hl]
      exact ih _ _ _ (by rw [List.length_drop]; omega)
    · rw [if_neg hl]; trivial

theorem ends_selector (N : Nat) : ∀ (left v : Nat) (bs : List Bool), (bs.length < N ∨ (left ≠ 0 ∧ bs.length ≤ N)) →
    Ends (fun i => (∃ v, i = selectorInstr v) ∨ i = .selectorMtfBad) N (parseBits (parseSelector left v) bs) := by
  intro left
  induction left with
  | zero =>
    intro v bs hb
    exact ⟨.inr rfl, by omega⟩
  | succ left ih =>
    intro v bs hb
    simp only [parseSelector, Parse.field, parseBits]
    by_cases hl : 1 ≤ bs.length
    · rw [if_pos hl]
      split
      · exact ih _ _ (.inl (by rw [List.length_drop]; omega))
      · exact ⟨.inl ⟨v, rfl⟩, by rw [List.length_drop]; omega⟩
    · rw [if_neg hl]; trivial

theorem symbolInstr_fits (n sym : Nat) (h : sym < n + 2) :
    symbolInstr n sym = .runA ∨ symbolInstr n sym = .runB ∨ (∃ m, 2 ≤ m ∧ m ≤ n ∧ symbolInstr n sym = .mtf m) ∨
      symbolInstr n sym = .eob := by
  unfold symbolInstr
  by_cases h0 : sym = 0
  · simp [h0]
  · by_cases h1 : sym = 1
    · simp [h1]
    · by_cases h2 : sym = n + 1
      · rw [if_neg h0, if_neg h1, if_pos h2]; simp
      · rw [if_neg h0, if_neg h1, if_neg h2]
        exact .inr (.inr (.inl ⟨sym, by omega, by omega, rfl⟩))

/-- The table of every group, where the tables have been built. -/
theorem buildTables_get : ∀ (rows : List (List Nat)) (ts : List HuffTable) (t : Nat) (tbl : HuffTable),
    buildTables rows = (ts, true) → ts[t]? = some tbl → ∃ lens, rows[t]? = some lens ∧ buildTable lens = (tbl, true) := by
  intro rows
  induction rows with
  | nil => intro ts t tbl h ht; cases h; simp at ht
  | cons lens rows ih =>
    intro ts t tbl h ht
    simp only [buildTables] at h
    rcases hb : buildTable lens with ⟨t0, ok⟩
    rw [hb] at h
    cases ok with
    | false => simp at h
    | true =>
      simp only [Prod.mk.injEq] at h
      obtain ⟨rfl, hok⟩ := h
      cases t with
      | zero => simp at ht; subst ht; exact ⟨lens, rfl, hb⟩
      | succ t => simpa using ih _ t tbl (Prod.ext rfl hok) (by simpa using ht)

theorem buildTables_length : ∀ (rows : List (List Nat)) (ts : List HuffTable), buildTables rows = (ts, true) →
    ts.length = rows.length := by
  intro rows
  induction rows with
  | nil => intro ts h; cases h; rfl
  | cons lens rows ih =>
    intro ts h
    simp only [buildTables] at h
    rcases hb : buildTable lens with ⟨t0, ok⟩
    rw [hb] at h
    cases ok with
    | false => simp at h
    | true =>
      simp only [Prod.mk.injEq] at h
      obtain ⟨rfl, hok⟩ := h
      simp [ih _ (Prod.ext rfl hok)]

/-- Every table of a block is that of lengths in `1 .. 23`, one for each symbol (R37, R151). -/
theorem table_ok {s : State} (h : TablesOk s) {t : Nat} {tbl : HuffTable} (ht : s.tab.tables[t]? = some tbl) :
    ∃ lens, buildTable lens = (tbl, true) ∧ RowOk s.blk.alphaSize lens := by
  obtain ⟨lens, hl, hb⟩ := buildTables_get _ _ _ _ h.2.2 ht
  exact ⟨lens, hb, h.2.1 _ (List.mem_of_getElem? hl)⟩

/-- The symbol that comes next: TableMalformed(8) where the selectors are used up, or a symbol of the alphabet. -/
theorem ends_symbol {s : State} (hm : MapOk s) (hs : SelectorsOk s) (ht : TablesOk s) (bs : List Bool) :
    Ends (fun i => (i = .runA ∨ i = .runB ∨ (∃ m, 2 ≤ m ∧ m ≤ s.blk.nInUse ∧ i = .mtf m) ∨ i = .eob) ∧
      s.blk.symCount / Config.gSize < s.blk.nSelectors) bs.length (parseBits (symbolParse s) bs) := by
  unfold symbolParse
  by_cases hg : s.blk.symCount / Config.gSize ≥ s.blk.nSelectors
  · simp only [if_pos hg, parseBits, Ends]
  · simp only [if_neg hg]
    have hlt : s.blk.symCount / Config.gSize < s.tab.selector.length := by rw [hs.1]; omega
    rw [List.getElem?_eq_getElem hlt]
    simp only
    have htl : s.tab.selector[s.blk.symCount / Config.gSize] < s.tab.tables.length := by
      rw [buildTables_length _ _ ht.2.2, ht.1]
      exact hs.2 _ (List.getElem_mem hlt)
    have hget := List.getElem?_eq_getElem htl
    rw [hget]
    obtain ⟨lens, hb, hrow⟩ := table_ok ht hget
    have hne : lens ≠ [] := by
      intro e
      have := hrow.1
      rw [e] at this
      have := hm.2.2.2
      simp at *
      omega
    rcases parseSymbol_cases (buildTable_spec hb) hne s.blk.nInUse bs with ⟨sym, rest, he, hsym, hle⟩ | he | he
    · rw [he]
      have h1 := (hrow.2 _ (minLenOf_mem hne)).1
      refine ⟨⟨symbolInstr_fits _ _ ?_, by omega⟩, by omega⟩
      rw [← hm.2.2.2, ← hrow.1]; exact hsym
    · rw [he]; trivial
    · rw [he]; trivial

/-- What every phase of a command can read. -/
theorem ends_phase {s : State} {job : Job} {ph : Phase} (h : PhaseOk s job ph) (hw : ph ≠ .walk) (hsc : ph ≠ .scan) (bs : List Bool) :
    Ends (fun i => Fits s i ph) bs.length (parseBits (phaseParse s ph) bs) := by
  cases ph with
  | walk => exact absurd rfl hw
  | scan => exact absurd rfl hsc
  | header =>
    refine ends_read (by omega) fun v bs' hb => ?_
    by_cases hv : v = 0x68
    · simp only [hv, ne_eq, not_true_eq_false, if_false]
      simp only [parseBits]
      split
      · exact ⟨⟨_, rfl⟩, by rw [List.length_drop]; omega⟩
      · trivial
    · simp only [ne_eq, hv, not_false_eq_true, if_true]; trivial
  | marker =>
    simp only [phaseParse, parseMarker]
    show Ends _ _ (parseBits (.read 8 .unexpectedEndOfStream 0 _) bs)
    refine ends_read (by omega) fun v bs' hb => ?_
    refine ends_bytes 5 _ _ hb fun m bs2 hb2 => ?_
    split
    · exact ends_bytes 4 _ _ hb2 fun c bs3 hb3 => ⟨.inr ⟨_, rfl⟩, hb3⟩
    · split
      · exact ⟨.inl rfl, hb2⟩
      · trivial
  | blockHeader =>
    simp only [phaseParse, parseBlockHeader]
    show Ends _ _ (parseBits (.read 8 .unexpectedEndOfStream 0 _) bs)
    refine ends_read (by omega) fun v bs' hb => ?_
    refine ends_bytes 3 _ _ hb fun c bs2 hb2 => ?_
    simp only [parseBits, Parse.field]
    split
    · split
      · exact ⟨⟨_, _, _, rfl⟩, by rw [List.length_drop, List.length_drop]; omega⟩
      · trivial
    · trivial
  | symbolMap =>
    simp only [phaseParse, parseSymbolMap, parseBits, Parse.field]
    split
    · exact ends_mapWords _ _ _ _ _ _ (by rw [List.length_drop]; omega)
    · trivial
  | tableCounts =>
    simp only [phaseParse, parseTableCounts]
    refine ends_read (by omega) fun g bs' hb => ?_
    simp only [parseBits]
    split
    · simp only [parseBits, Parse.field]
      split
      · exact ⟨⟨_, _, rfl⟩, by rw [List.length_drop]; omega⟩
      · trivial
    · exact ⟨⟨_, _, rfl⟩, hb⟩
  | selector i =>
    have hg : 2 ≤ s.blk.nGroups := h.2.2.2.1.1
    exact ends_selector _ _ _ _ (.inr ⟨by omega, le_rfl⟩)
  | codeLenStart t =>
    exact ends_read (by omega) fun v bs' hb => ⟨⟨_, rfl⟩, hb⟩
  | codeLen t k c =>
    simp only [phaseParse, parseCodeLen]
    refine ends_read (by omega) fun v bs' hb => ?_
    split
    · exact ⟨.inl rfl, hb⟩
    · simp only [parseBits, Parse.field]
      split
      · split
        · exact ⟨.inr (.inl rfl), by rw [List.length_drop]; omega⟩
        · exact ⟨.inr (.inr rfl), by rw [List.length_drop]; omega⟩
      · trivial
  | symbols r =>
    obtain ⟨-, -, p3, -, p5, p6, -⟩ := h
    exact (ends_symbol p3 p5 p6 bs).mono (fun i hi => hi.1) le_rfl

/-- A parse of a phase with the invariant reads no more than 48 bits at once. -/
theorem widthsOk_at {s : State} {job : Job} {ph : Phase} (h : PhaseOk s job ph) : widthsOk (phaseParse s ph) := by
  apply widthsOk_phase
  intro r hr t ht
  subst hr
  obtain ⟨-, -, p3, -, -, p6, -⟩ := h
  obtain ⟨i, hi⟩ := List.mem_iff_getElem?.mp ht
  obtain ⟨lens, hb, hrow⟩ := table_ok p6 hi
  rw [(buildTable_spec hb).minLen]
  have hne : lens ≠ [] := by
    intro e
    have := hrow.1
    rw [e] at this
    have := p3.2.2.2
    simp at *
    omega
  have := (hrow.2 _ (minLenOf_mem hne)).2
  simp only [Config.maxCodeLen] at this
  omega

/-! ## Early writes -/

theorem earlyWrites_bytes (m : Nat) (k : Nat → Parse) (h : ∀ v bs, earlyWrites (k v) bs = []) : ∀ (v : Nat) (bs : List Bool),
    earlyWrites (Parse.bytes m v k) bs = [] := by
  induction m with
  | zero => intro v bs; exact h v bs
  | succ m ih =>
    intro v bs
    simp only [Parse.bytes, Parse.field, earlyWrites]
    split
    · exact ih _ _
    · rfl

theorem earlyWrites_selector : ∀ (left v : Nat) (bs : List Bool), earlyWrites (parseSelector left v) bs = [] := by
  intro left
  induction left with
  | zero => intros; rfl
  | succ left ih =>
    intro v bs
    simp only [parseSelector, Parse.field, earlyWrites]
    split
    · split
      · exact ih _ _
      · rfl
    · rfl

theorem earlyWrites_symbolAt (t : HuffTable) (n zn zvec : Nat) (bs : List Bool) :
    earlyWrites (symbolAt t n zn zvec) bs = [] := by
  unfold symbolAt
  split
  · rfl
  · split <;> rfl

theorem earlyWrites_symbolFrom (t : HuffTable) (n : Nat) : ∀ (left zn zvec : Nat) (bs : List Bool),
    earlyWrites (parseSymbolFrom t n left zn zvec) bs = [] := by
  intro left
  induction left with
  | zero =>
    intro zn zvec bs
    unfold parseSymbolFrom
    split
    · rfl
    · split
      · rfl
      · exact earlyWrites_symbolAt ..
  | succ left ih =>
    intro zn zvec bs
    unfold parseSymbolFrom
    split
    · rfl
    · split
      · simp only [Parse.field, earlyWrites]
        split
        · exact ih _ _ _
        · rfl
      · exact earlyWrites_symbolAt ..

/-- Which phases write fields early: the block header, the symbol map and the table counts (R171 to R177). -/
theorem earlyWrites_phase (s : State) (ph : Phase) (bs : List Bool) :
    earlyWrites (phaseParse s ph) bs = [] ∨ ph = .blockHeader ∨ ph = .symbolMap ∨
      (ph = .tableCounts ∧ ∃ g, earlyWrites (phaseParse s ph) bs = [.nGroups g]) := by
  cases ph with
  | blockHeader => simp
  | symbolMap => simp
  | scan => exact .inl rfl
  | walk => exact .inl rfl
  | header =>
    left
    simp only [phaseParse, parseHeader, earlyWrites]
    split
    · split
      · rfl
      · simp only [earlyWrites]; split <;> rfl
    · rfl
  | marker =>
    left
    refine earlyWrites_bytes _ _ (fun v bs => ?_) _ _
    split
    · exact earlyWrites_bytes _ _ (fun _ _ => rfl) _ _
    · split <;> rfl
  | tableCounts =>
    simp only [phaseParse, parseTableCounts, Parse.field, earlyWrites]
    split
    · refine .inr (.inr (.inr ⟨trivial, natOfBits (bs.take 3), ?_⟩))
      split
      · simp only [earlyWrites]; split <;> rfl
      · rfl
    · exact .inl rfl
  | selector i => exact .inl (earlyWrites_selector _ _ _)
  | codeLenStart t =>
    left
    simp only [phaseParse, parseCodeLenStart, Parse.field, earlyWrites]
    split <;> rfl
  | codeLen t k c =>
    left
    simp only [phaseParse, parseCodeLen, Parse.field, earlyWrites]
    split
    · split
      · rfl
      · simp only [earlyWrites]
        split
        · split <;> rfl
        · rfl
    · rfl
  | symbols r =>
    left
    simp only [phaseParse, symbolParse]
    split
    · rfl
    · split
      · rfl
      · split
        · rfl
        · simp only [parseSymbol, Parse.field, earlyWrites]
          split
          · exact earlyWrites_symbolFrom ..
          · rfl

/-- Early writes touch block registers and the symbol map only. -/
theorem applyEarlies_frame (ws : List EarlyWrite) (s : State) :
    ∃ blk tab, applyEarlies ws s = { s with blk := blk, tab := tab } := by
  induction ws generalizing s with
  | nil => exact ⟨s.blk, s.tab, rfl⟩
  | cons w ws ih =>
    have : ∃ blk tab, applyEarly w s = { s with blk := blk, tab := tab } := by
      cases w with
      | storedBlockCrc c => exact ⟨_, s.tab, rfl⟩
      | randomized r => exact ⟨_, s.tab, rfl⟩
      | nGroups g => exact ⟨_, s.tab, rfl⟩
      | inUse l => exact ⟨s.blk, _, rfl⟩
    obtain ⟨b, t, h⟩ := this
    obtain ⟨b', t', h'⟩ := ih { s with blk := b, tab := t }
    exact ⟨b', t', by rw [applyEarlies_cons, h, h']⟩

theorem phaseParse_rd (s : State) (r : BitReader) (ph : Phase) : phaseParse { s with rd := r } ph = phaseParse s ph := by
  cases ph <;> rfl

/-- A control point after early writes and reads: the parse is the same, and so is what the token still needs. -/
theorem earlies_point {s : State} {job : Job} {ph : Phase} (h : Point s job ph) (hw : ph ≠ .walk) (hsc : ph ≠ .scan)
    (bs : List Bool) (r : BitReader) (hl : r.live ≤ 47) (hr : InToken (phaseParse s ph) r) :
    Point { applyEarlies (earlyWrites (phaseParse s ph) bs) s with rd := r } job ph ∧
      Kept s { applyEarlies (earlyWrites (phaseParse s ph) bs) s with rd := r } ∧
      (applyEarlies (earlyWrites (phaseParse s ph) bs) s).out = s.out := by
  have core : ∀ blk tab, ∀ r : BitReader, r.live ≤ 47 → r.part = [] → Core { s with blk := blk, tab := tab, rd := r } :=
    fun _ _ r hl hp => (h.core r hl hp).congr rfl rfl rfl rfl rfl rfl rfl
  have kept : ∀ blk tab, Kept s { s with blk := blk, tab := tab, rd := r } := fun _ _ =>
    ⟨rfl, rfl, rfl, rfl, rfl, rfl, rfl, rfl, rfl, rfl, rfl⟩
  have mk : ∀ blk tab, PhaseOk { s with blk := blk, tab := tab, rd := r } job ph →
      phaseParse { s with blk := blk, tab := tab, rd := r } ph = phaseParse s ph →
      Point { s with blk := blk, tab := tab, rd := r } job ph := fun blk tab hp hq =>
    ⟨core blk tab, h.ctl, h.jobOk.congr rfl, hp, h.err, readerOk_token hl h.ctl hw hsc (by rw [hq]; exact hr)⟩
  obtain ⟨blk, tab, hf⟩ := applyEarlies_frame (earlyWrites (phaseParse s ph) bs) s
  rcases earlyWrites_phase s ph bs with he | rfl | rfl | ⟨rfl, g, he⟩
  · rw [he]
    exact ⟨mk s.blk s.tab (h.phase.rd r) (phaseParse_rd s r ph), kept s.blk s.tab, rfl⟩
  · rw [hf]
    exact ⟨mk blk tab h.phase rfl, kept blk tab, rfl⟩
  · rw [hf]
    exact ⟨mk blk tab h.phase rfl, kept blk tab, rfl⟩
  · rw [he]
    exact ⟨mk { s.blk with nGroups := g } s.tab h.phase rfl, kept { s.blk with nGroups := g } s.tab, rfl⟩

theorem inToken_between {p : Parse} {r : BitReader} (hl : r.live ≤ 7) (hp : r.part = []) : InToken p r :=
  ⟨by rw [hp]; exact boundary_nil p, .inl hl⟩

theorem Point.inToken {s : State} {job : Job} {ph : Phase} (h : Point s job ph) (hw : ph ≠ .walk) (hsc : ph ≠ .scan) :
    InToken (phaseParse s ph) s.rd := by
  have := h.reader.2
  rw [h.ctl] at this
  cases ph <;> first | exact absurd rfl hw | exact absurd rfl hsc | exact this

/-- The run of a control point's parse, from its start or from where a wait has left it. -/
theorem Point.run {s : State} {job : Job} {ph : Phase} (h : Point s job ph) (hw : ph ≠ .walk) (hsc : ph ≠ .scan) :
    ParseRun (phaseParse s ph) s [] (bitsSince s.rd) (runParse (resume (phaseParse s ph) s.rd.part) s) :=
  runParse_cases _ s [] s.rd.part (widthsOk_at h.phase) (h.inToken hw hsc).1 rfl (h.inToken hw hsc).2

/-- Everything the reading of a token can do in a state with the invariant: a token of the phase, of at least one bit, in a state
that still has the invariant; an error of the rules; or a wait for a source that has not answered, in a state with the invariant. -/
theorem fetchToken_cases {s : State} {job : Job} {ph : Phase} (h : Point s job ph) (hw : ph ≠ .walk) (hsc : ph ≠ .scan) :
    (∃ i t, fetchToken ph s = .instr i t ∧ At t job ph ∧ Fits t i ph ∧ Kept s t ∧ t.out = s.out ∧
        bitsLeft t.rd < s.rd.part.length + bitsLeft s.rd ∧ ∃ k, Consumed s.rd t.rd k) ∨
      (∃ e d t, fetchToken ph s = .raised e d t ∧ Core t ∧ Kept s t ∧ t.out = s.out ∧ ∃ k, Consumed s.rd t.rd k) ∨
      (∃ t, fetchToken ph s = .wait t ∧ Point t job ph ∧ Kept s t ∧ t.out = s.out ∧ s.rd.srcEnds = false ∧
        t.rd.src = [] ∧ ∃ k, Consumed s.rd t.rd k) := by
  have hends := ends_phase h.phase hw hsc (bitsSince s.rd)
  have hrun := h.run hw hsc
  generalize hf : runParse (resume (phaseParse s ph) s.rd.part) s = f at hrun
  cases hrun with
  | instr i t k b c hl7 hp q =>
    left
    rw [b] at hends
    obtain ⟨hat, hk, ho⟩ := earlies_point h hw hsc (bitsSince s.rd) t.rd (by omega) (inToken_between hl7 hp)
    rw [← q] at hat hk
    have hat : At t job ph := hat.toAt (r := t.rd) hl7 hp
    have hout : t.out = s.out := by rw [q]; exact ho
    have hbits : bitsLeft t.rd < s.rd.part.length + bitsLeft s.rd := by
      rw [bitsLeft_eq, bitsLeft_eq, ← List.length_append]
      exact hends.2
    have hn : t.blk.nInUse = s.blk.nInUse := by
      rw [q]
      show (applyEarlies _ s).blk.nInUse = _
      rcases earlyWrites_phase s ph (bitsSince s.rd) with he | rfl | rfl | ⟨rfl, g, he⟩
      · rw [he]; rfl
      all_goals
        have : ∀ (ws : List EarlyWrite) (s : State), (applyEarlies ws s).blk.nInUse = s.blk.nInUse := by
          intro ws
          induction ws with
          | nil => intro s; rfl
          | cons w ws ih => intro s; rw [applyEarlies_cons, ih]; cases w <;> rfl
        exact this _ _
    have hfits : Fits t i ph := by
      have := hends.1
      cases ph <;> first | exact this | (simp only [Fits, hn] at this ⊢; exact this)
    cases ph with
    | symbols r =>
      refine ⟨i, { t with blk := { t.blk with symCount := t.blk.symCount + 1 } }, by simp only [fetchToken, hf, countSymbol], ?_,
        hfits, ⟨hk.cmd, hk.arg0, hk.arg1, hk.closed, hk.mode, hk.outCap, hk.rnums, hk.attached, hk.script, hk.hostData, hk.draws⟩,
        hout, hbits, _, c⟩
      obtain ⟨p1, p2, p3, p4, p5, p6, p7, p8⟩ := hat.phase
      refine ⟨hat.core.congr rfl rfl rfl rfl rfl rfl rfl, hat.ctl, hat.jobOk.congr rfl, ⟨p1, p2, p3, p4, p5, p6, ?_, p8⟩, hat.can⟩
      refine ⟨p7.1, p7.2.1, ?_, p7.2.2.2⟩
      have hsy := ends_symbol h.phase.2.2.1 h.phase.2.2.2.2.1 h.phase.2.2.2.2.2.1 (bitsSince s.rd)
      rw [show parseBits (symbolParse s) (bitsSince s.rd) = .ok i (bitsAhead t.rd) from b] at hsy
      have hlt := hsy.1.2
      have e : t.blk.symCount = s.blk.symCount ∧ t.blk.nSelectors = s.blk.nSelectors := by
        rw [q]
        rcases earlyWrites_phase s (.symbols r) (bitsSince s.rd) with he | he | he | ⟨he, -⟩
        · rw [he]; exact ⟨rfl, rfl⟩
        · cases he
        · cases he
        · cases he
      show t.blk.symCount + 1 ≤ Config.gSize * t.blk.nSelectors
      rw [e.1, e.2]
      simp only [Config.gSize] at hlt ⊢
      omega
    | walk => exact absurd rfl hw
    | scan => exact absurd rfl hsc
    | _ => exact ⟨i, t, by simp only [fetchToken, hf, countSymbol], hat, hfits, hk, hout, hbits, _, c⟩
  | rejected e d t k b c hl7 hp q =>
    right; left
    obtain ⟨hat, hk, ho⟩ := earlies_point h hw hsc (bitsSince s.rd) t.rd (by omega) (inToken_between hl7 hp)
    rw [← q] at hat hk
    exact ⟨e, d, t, by simp only [fetchToken, hf], hat.core t.rd (by omega) hp, hk, by rw [q]; exact ho, _, c⟩
  | ended e d t k b se c sn hl hp q =>
    right; left
    obtain ⟨hat, hk, ho⟩ := earlies_point h hw hsc (bitsSince s.rd) { t.rd with live := 0 } (Nat.zero_le _)
      (inToken_between (Nat.zero_le _) hp)
    refine ⟨e, d, t, by simp only [fetchToken, hf], ?_, ?_, by rw [q]; exact ho, _, c⟩
    · rw [q]; exact hat.core t.rd (by omega) hp
    · rw [q]
      exact ⟨hk.cmd, hk.arg0, hk.arg1, hk.closed, hk.mode, hk.outCap, hk.rnums, hk.attached, hk.script, hk.hostData, hk.draws⟩
  | waits e d t k held b se c sn hl hp hall hb hwd q =>
    right; right
    rw [List.nil_append] at hp
    obtain ⟨hat, hk, ho⟩ := earlies_point h hw hsc (bitsSince s.rd) t.rd (by omega) ⟨by rw [hp]; exact hb, .inr (by rw [hp]; exact hwd)⟩
    rw [← q] at hat hk
    exact ⟨t, by simp only [fetchToken, hf], hat, hk, by rw [q]; exact ho, se, sn, _, c⟩
  | undefined b => rw [b] at hends; exact hends.elim

end Sys2Proof.Machine
end

