-- ==== Sys2Proof/Laws/Command.lean ====
section
/-! SUPPORT. One step of a command in progress, in a state with the invariant: a next state with the invariant that is nearer to the
response, or a wait for a source that has not answered. -/

namespace Sys2Proof.Machine

/-- How far a command is from its response (R254, R308): bits that no token has taken, bytes still wanted, control point. -/
def commandMeasure (s : State) : Nat := 4 * (s.rd.part.length + bitsLeft s.rd) + walkMeasure s

/-- What one step of a command does when it does not wait; no token is in progress after it. -/
def CommandOk (s : State) (o : Outcome) : Prop :=
  ∃ t, o = .next t ∧ Inv t ∧ Kept s t ∧ (∃ k, Consumed s.rd t.rd k) ∧ t.rd.part = [] ∧
    (t.ctl = .idle ∨ commandMeasure t < commandMeasure s)

/-- What one step of a command does when it waits (U8): the control point is kept, every byte of the source is counted. -/
def WaitOk (s w : State) : Prop :=
  Inv w ∧ Kept s w ∧ w.ctl = s.ctl ∧ s.rd.srcEnds = false ∧ w.rd.src = [] ∧ ∃ k, Consumed s.rd w.rd k

theorem StepOk.command {s : State} {o : Outcome} (h : StepOk s o) (hp : s.rd.part = []) : CommandOk s o := by
  obtain ⟨t, h1, h2, h3, h4, h5⟩ := h
  refine ⟨t, h1, h2, h4, ⟨0, by rw [h3]; exact Consumed.refl _⟩, by rw [h3]; exact hp, ?_⟩
  rcases h5 with h5 | h5
  · exact .inl h5
  · right; unfold commandMeasure; rw [h3]; omega

theorem bytesWanted_congr {s t : State} {job : Job} {p q : Phase} (h : s.ctl = .busy job p) (k : t.ctl = .busy job q) :
    bytesWanted t = bytesWanted s := by
  unfold bytesWanted
  rw [h, k]
  cases job <;> rfl

/-- The meaning of every token that can stand where it is read. -/
theorem runToken_ok {t : State} {job : Job} {ph : Phase} {i : Instr} (h : At t job ph) (f : Fits t i ph) :
    TokenOk t job (runToken i t) := by
  cases ph with
  | header => obtain ⟨d, rfl⟩ := f; exact streamHeader_ok h d
  | marker =>
    obtain rfl | ⟨c, rfl⟩ := f
    · exact blockMark_marker_ok h
    · exact eosMark_ok h c
  | blockHeader => obtain ⟨c, r, p, rfl⟩ := f; exact blockHeader_ok h c r p
  | symbolMap => obtain ⟨u, ws, rfl⟩ := f; exact symbolMap_ok h u ws
  | tableCounts => obtain ⟨g, n, rfl⟩ := f; exact tableCounts_ok h g n
  | selector k =>
    obtain ⟨v, rfl⟩ | rfl := f
    · match v with
      | 0 => exact selectorValue_ok h 0
      | 1 => exact selectorValue_ok h 1
      | 2 => exact selectorValue_ok h 2
      | 3 => exact selectorValue_ok h 3
      | 4 => exact selectorValue_ok h 4
      | 5 => exact selectorValue_ok h 5
      | _ + 6 => exact selectorBad_ok h
    · exact selectorBad_ok h
  | codeLenStart g => obtain ⟨l, rfl⟩ := f; exact codeLenStart_ok h l
  | codeLen g k c =>
    obtain rfl | rfl | rfl := f
    · exact codeLenEnd_ok h
    · exact codeLenInc_ok h
    · exact codeLenDec_ok h
  | symbols r =>
    obtain rfl | rfl | ⟨m, h1, h2, rfl⟩ | rfl := f
    · exact runDigit_ok h 1
    · exact runDigit_ok h 2
    · exact mtf_ok h m h1 h2
    · exact eob_ok h
  | scan => exact f.elim
  | walk => exact f.elim

/-- A step of a command at a control point that reads a token. -/
theorem tokenStep_ok {s : State} {job : Job} {ph : Phase} (h : Point s job ph) (hw : ph ≠ .walk) (hsc : ph ≠ .scan) :
    (∃ o, commandStep s = .ran o ∧ CommandOk s o) ∨ ∃ w, commandStep s = .waits w ∧ WaitOk s w := by
  have hnext : nextStep s = match fetchToken ph s with
      | .instr i s1 => .instr i s1
      | .raised e d s1 => .inner (.raise e d s1)
      | .wait s1 => .wait s1
      | .undefined => .inner (.fault .unspecifiedRead) := by
    unfold nextStep
    rw [h.ctl]
    cases ph <;> first | exact absurd rfl hw | exact absurd rfl hsc | rfl
  rcases fetchToken_cases h hw hsc with ⟨i, t, hf, hat, hfit, hk, ho, hb, he⟩ | ⟨e, d, t, hf, hc, hk, ho, he⟩ |
      ⟨t, hf, hpt, hk, ho, he, hs, hcc⟩
  · left
    obtain ⟨u, h1, h2, h3, -, h5, h6⟩ := runToken_ok hat hfit
    refine ⟨_, by simp only [commandStep, hnext, hf], u, h1, h2, hk.trans h5, by rw [h3]; exact he,
      by rw [h3]; exact hat.core.part, ?_⟩
    rcases h6 with h6 | ⟨ph', h6, h7⟩
    · exact .inl h6
    · right
      have := bytesWanted_congr h.ctl h6
      unfold commandMeasure walkMeasure
      rw [h3, this, hat.core.part, List.length_nil]
      omega
  · left
    exact ⟨_, by simp only [commandStep, hnext, hf, Flow.settle], _, rfl, inv_raise hc e d, kept_raise hk e d,
      by simpa using he, by simpa using hc.part, .inl (by simp)⟩
  · right
    exact ⟨t, by simp only [commandStep, hnext, hf], hpt.inv, hk, hpt.ctl.trans h.ctl.symm, he, hs, hcc⟩

theorem Point.scanReader {s : State} {job : Job} (h : Point s job .scan) : ScanReader s.rd := by
  have := h.reader
  rw [ReaderOk, h.ctl] at this
  exact this

/-- A scan (R137 to R140). -/
theorem scanStep_ok {s : State} {job : Job} (h : Point s job .scan) :
    (∃ o, commandStep s = .ran o ∧ CommandOk s o) ∨ ∃ w, commandStep s = .waits w ∧ WaitOk s w := by
  have hnext : nextStep s = nextOfScan job s := by unfold nextStep; rw [h.ctl]
  rcases scanFor_cases s.rd h.scanReader with ⟨r, k, hf, hc, -, hl, hp⟩ | ⟨r, k, hf, he, hcc, hs, hl, hp⟩ |
      ⟨r, k, hf, he, hcc, hs, hsr⟩
  · left
    have hat : At { s with rd := r } job .scan := h.toAt hl hp
    have hcore := hat.core
    obtain ⟨hi, ho, hkp, hidle, hrd⟩ := finishScan_ok (s := s) (job := job) { s with rd := r, reported := markerByte r }
      (hcore.congr rfl rfl rfl rfl rfl rfl rfl) ⟨rfl, rfl, rfl, rfl, rfl, rfl, rfl, rfl, rfl, rfl, rfl⟩ rfl true fun _ => hat.can
    refine ⟨execBlockMark { s with rd := r }, by simp only [commandStep, hnext, nextOfScan, hf, runToken], _, ?_, hi, hkp,
      ⟨_, hc⟩, hp, .inl hidle⟩
    unfold execBlockMark
    rw [hat.ctl]
  · left
    have hcore : Core { s with rd := r, reported := r.raw } :=
      (h.core r (by omega) hp).congr rfl rfl rfl rfl rfl rfl rfl
    obtain ⟨hi, ho, hkp, hidle, hrd⟩ := finishScan_ok (s := s) (job := job) _ hcore
      ⟨rfl, rfl, rfl, rfl, rfl, rfl, rfl, rfl, rfl, rfl, rfl⟩ rfl false fun hx => absurd hx (by decide)
    exact ⟨_, by simp only [commandStep, hnext, nextOfScan, hf, Flow.settle], _, rfl, hi, hkp, 
      by rw [hrd]; exact ⟨k, hcc⟩, by rw [hrd]; exact hp, .inl hidle⟩
  · right
    have hpt : Point { s with rd := r } job .scan :=
      ⟨h.core, h.ctl, h.jobOk.congr rfl, h.phase, h.err, by rw [ReaderOk, show ({ s with rd := r } : State).ctl = _ from h.ctl]; exact hsr⟩
    exact ⟨{ s with rd := r }, by simp only [commandStep, hnext, nextOfScan, hf], hpt.inv,
      ⟨rfl, rfl, rfl, rfl, rfl, rfl, rfl, rfl, rfl, rfl, rfl⟩, rfl, he, hs, k, hcc⟩

/-- A pass of the step loop (R235). It never waits: it reads no bit. -/
theorem walkStep_ok {s : State} {job : Job} (h : AtWalk s job) : ∃ o, commandStep s = .ran o ∧ CommandOk s o := by
  have hnext : nextStep s = nextOfWalk job s := by unfold nextStep; rw [h.ctl]
  have hs := h.state
  have inner : ∀ f : Flow, nextOfWalk job s = .inner f → StepOk s f.settle → ∃ o, commandStep s = .ran o ∧ CommandOk s o :=
    fun f hf ho => ⟨_, by simp only [commandStep, hnext, hf], ho.command h.core.part⟩
  have stepB : ∀ a cst : StreamState, nextOfWalk job s = nextOfB a s →
      ((s.state = .randB ∧ a = .randA ∧ cst = .randC ∧ s.blk.randomized = true) ∨
        (s.state = .norandB ∧ a = .norandA ∧ cst = .norandC ∧ s.blk.randomized = false)) → WalkB s →
      ∃ o, commandStep s = .ran o ∧ CommandOk s o := by
    intro a cst hn hc hb
    rcases stepB_ok h a cst hc hb with ⟨f, hf, ho⟩ | ⟨c, z, t, hf, ho⟩
    · exact inner f (by rw [hn]; simp only [nextOfB, hf]) ho
    · exact ⟨_, by simp only [commandStep, hnext, hn, nextOfB, hf, runToken], ho.command h.core.part⟩
  cases hst : s.state with
  | eof => exact inner _ (by simp only [nextOfWalk, hst]) ((yield_sentinel_ok h).1 hst)
  | noProcess => exact inner _ (by simp only [nextOfWalk, hst]) ((yield_sentinel_ok h).2 hst)
  | startBlock =>
    refine inner (.go { s with ctl := .busy job (if s.mode = .continuous then .marker else .blockHeader) })
      (by unfold nextOfWalk; rw [hst]) ?_
    have hcan := h.can (by rw [hst]; decide)
    refine ⟨_, rfl, inv_busy (h.core.congr rfl rfl rfl rfl rfl rfl rfl) rfl (h.jobOk.congr rfl) ?_ fun _ => hcan, rfl,
      ⟨rfl, rfl, rfl, rfl, rfl, rfl, rfl, rfl, rfl, rfl, rfl⟩, .inr ?_⟩
    · split
      · exact ⟨h.notInit, hst, by assumption⟩
      · exact ⟨h.notInit, hst⟩
    · have h1 : walkRank s = 1 := by unfold walkRank; rw [h.ctl, hst]
      unfold walkMeasure
      rw [h1, bytesWanted_congr h.ctl rfl, walkRank_of_phase rfl (by split <;> decide)]
      omega
  | randA =>
    rw [StateOk, hst] at hs
    exact inner _ (by simp only [nextOfWalk, hst]) (stepA_ok h .randB (.inl ⟨hst, rfl, hs.1⟩) hs.2)
  | norandA =>
    rw [StateOk, hst] at hs
    exact inner _ (by simp only [nextOfWalk, hst]) (stepA_ok h .norandB (.inr ⟨hst, rfl, hs.1⟩) hs.2)
  | randB =>
    rw [StateOk, hst] at hs
    exact stepB .randA .randC (by simp only [nextOfWalk, hst]) (.inl ⟨hst, rfl, rfl, hs.1⟩) hs.2
  | norandB =>
    rw [StateOk, hst] at hs
    exact stepB .norandA .norandC (by simp only [nextOfWalk, hst]) (.inr ⟨hst, rfl, rfl, hs.1⟩) hs.2
  | randC =>
    rw [StateOk, hst] at hs
    exact inner _ (by simp only [nextOfWalk, hst]) (stepC_ok h .randA (.inl ⟨hst, rfl, hs.1⟩) hs.2)
  | norandC =>
    rw [StateOk, hst] at hs
    exact inner _ (by simp only [nextOfWalk, hst]) (stepC_ok h .norandA (.inr ⟨hst, rfl, hs.1⟩) hs.2)

/-- Everything one step of a command in progress can do in a state with the invariant. -/
theorem commandStep_cases {s : State} {job : Job} {ph : Phase} (h : Inv s) (hb : s.ctl = .busy job ph) :
    (∃ o, commandStep s = .ran o ∧ CommandOk s o) ∨ ∃ w, commandStep s = .waits w ∧ WaitOk s w := by
  by_cases hw : ph = .walk
  · subst hw; exact .inl (walkStep_ok (AtWalk.of_inv h hb))
  · by_cases hsc : ph = .scan
    · subst hsc; exact scanStep_ok (Point.of_inv h hb (by decide))
    · exact tokenStep_ok (Point.of_inv h hb hw) hw hsc

end Sys2Proof.Machine
end

