-- ==== Sys2Proof/Laws/Run.lean ====
section
/-! SUPPORT. A command in progress run to its response (R230): the step bound always suffices, so the run goes step by step, and a
property of runs is proved by one induction. -/

namespace Sys2Proof.Machine

theorem stepBound_eq (s : State) : stepBound s = commandMeasure s + 1 := by
  unfold stepBound commandMeasure walkMeasure; omega

theorem runToResponse_idle {s : State} (h : s.ctl = .idle) (n : Nat) : runToResponse n s = .next s := by
  cases n with
  | zero => rfl
  | succ n => unfold runToResponse; rw [h]

theorem runToResponse_succ {s : State} {job : Job} {ph : Phase} (h : s.ctl = .busy job ph) (n : Nat) :
    runToResponse (n + 1) s = match commandStep s with
      | .waits s1 => .next s1
      | .ran (.next s1) => runToResponse n s1
      | .ran (.fault f) => .fault f
      | .ran (.refused r) => .refused r := by
  rw [runToResponse, h] <;> rfl

/-- Any fuel above the measure gives the same run. -/
theorem runToResponse_enough (n : Nat) : ∀ (m : Nat) (s : State), Inv s → commandMeasure s < n → commandMeasure s < m →
    runToResponse n s = runToResponse m s := by
  induction n with
  | zero => intro m s _ h; omega
  | succ n ih =>
    intro m s hi h1 h2
    cases hc : s.ctl with
    | idle => rw [runToResponse_idle hc, runToResponse_idle hc]
    | busy job ph =>
      obtain ⟨m, rfl⟩ : ∃ k, m = k + 1 := ⟨m - 1, by omega⟩
      rw [runToResponse_succ hc, runToResponse_succ hc]
      rcases commandStep_cases hi hc with ⟨o, ho, t, rfl, hit, -, -, -, hm⟩ | ⟨w, ho, -⟩
      · rw [ho]
        show runToResponse n t = runToResponse m t
        rcases hm with hm | hm
        · rw [runToResponse_idle hm, runToResponse_idle hm]
        · exact ih m t hit (by omega) (by omega)
      · rw [ho]

theorem runCommand_idle {s : State} (h : s.ctl = .idle) : runCommand s = .next s := runToResponse_idle h _

/-- A command that waits for its source stays at its control point. -/
theorem runCommand_wait {s w : State} {job : Job} {ph : Phase} (hb : s.ctl = .busy job ph) (h : commandStep s = .waits w) :
    runCommand s = .next w := by
  unfold runCommand stepBound
  rw [runToResponse_succ hb, h]

/-- A command runs by its first step and then by the run of what that leaves. -/
theorem runCommand_step {s t : State} {job : Job} {ph : Phase} (hi : Inv s) (hb : s.ctl = .busy job ph)
    (h : commandStep s = .ran (.next t)) : runCommand s = runCommand t := by
  have hs : runCommand s = runToResponse (commandMeasure s) t := by
    unfold runCommand
    rw [stepBound_eq, runToResponse_succ hb, h]
  rcases commandStep_cases hi hb with ⟨o, ho, t', rfl, hit, -, -, -, hm⟩ | ⟨w, ho, -⟩
  · rw [h] at ho
    obtain rfl : t = t' := by simpa using ho
    rcases hm with hm | hm
    · rw [hs, runCommand_idle hm, runToResponse_idle hm]
    · rw [hs]
      unfold runCommand
      rw [stepBound_eq]
      exact runToResponse_enough _ _ t hit hm (by omega)
  · rw [h] at ho; cases ho

/-- Induction over the run of a command: a property holds of a run that is over, of a run that waits, and of a run if it holds of the
run after its first step. -/
theorem runCommand_induct {P : State → Outcome → Prop} (idle : ∀ s, Inv s → s.ctl = .idle → P s (.next s))
    (wait : ∀ s job ph w, Inv s → s.ctl = .busy job ph → commandStep s = .waits w → WaitOk s w → P s (.next w))
    (step : ∀ s job ph t, Inv s → s.ctl = .busy job ph → commandStep s = .ran (.next t) → Inv t → Kept s t →
      (∃ k, Consumed s.rd t.rd k) → P t (runCommand t) → P s (runCommand s)) :
    ∀ s, Inv s → P s (runCommand s) := by
  suffices h : ∀ n s, Inv s → commandMeasure s < n → P s (runCommand s) from fun s hi => h _ s hi (Nat.lt_succ_self _)
  intro n
  induction n with
  | zero => intro s _ h; omega
  | succ n ih =>
    intro s hi hn
    cases hc : s.ctl with
    | idle => rw [runCommand_idle hc]; exact idle s hi hc
    | busy job ph =>
      rcases commandStep_cases hi hc with ⟨o, ho, t, rfl, hit, hk, he, -, hm⟩ | ⟨w, ho, he⟩
      · refine step s job ph t hi hc ho hit hk he ?_
        rcases hm with hm | hm
        · rw [runCommand_idle hm]; exact idle t hit hm
        · exact ih t hit (by omega)
      · rw [runCommand_wait hc ho]; exact wait s job ph w hi hc ho he

end Sys2Proof.Machine
end

