-- ==== Sys2Proof/Laws/Frame.lean ====
section
/-! SUPPORT. What no step of a command changes but a scan and a first error: `REPORTED` (R141) and `ERR` (R24, R275), in every state. -/

namespace Sys2Proof.Machine

/-- `REPORTED` is kept, and so is an error once there is one. -/
structure RegKept (s t : State) : Prop where
  reported : t.reported = s.reported
  err : s.err ≠ 0 → t.err = s.err ∧ t.errDetail = s.errDetail

theorem RegKept.refl (s : State) : RegKept s s := ⟨rfl, fun _ => ⟨rfl, rfl⟩⟩

theorem RegKept.of {s t : State} (h1 : t.reported = s.reported) (h2 : t.err = s.err) (h3 : t.errDetail = s.errDetail) :
    RegKept s t := ⟨h1, fun _ => ⟨h2, h3⟩⟩

theorem RegKept.trans {a b c : State} (h : RegKept a b) (k : RegKept b c) : RegKept a c :=
  ⟨k.reported.trans h.reported, fun he => by
    have h1 := h.err he
    have h2 := k.err (by rw [h1.1]; exact he)
    exact ⟨h2.1.trans h1.1, h2.2.trans h1.2⟩⟩

theorem regKept_raise (e : ErrKind) (d : Nat) (s : State) : RegKept s (raiseError e d s) := by
  refine ⟨by simp, fun he => ?_⟩
  simp only [raiseError_err, raiseError_errDetail, recordError]
  split <;> simp

/-- Every state a piece of a command can go on with is a frame of `s`. -/
def Flow.Keeps (s : State) : Flow → Prop
  | .go t | .raise _ _ t => RegKept s t
  | .fault _ => True

theorem Flow.Keeps.settle {s t : State} {f : Flow} (h : f.Keeps s) (e : f.settle = .next t) : RegKept s t := by
  cases f with
  | go u => cases e; exact h
  | raise e d u => cases e; exact RegKept.trans h (regKept_raise _ _ _)
  | fault f => cases e

theorem Flow.Keeps.andThen {s : State} {f : Flow} {k : State → Flow} (h : f.Keeps s) (hk : ∀ t, RegKept s t → (k t).Keeps s) :
    (f.andThen k).Keeps s := by
  cases f with
  | go u => exact hk u h
  | raise e d u => exact h
  | fault f => trivial

theorem lookup_keeps {α : Type} {s : State} (l : List α) (i : Nat) {k : α → Flow} (h : ∀ v, (k v).Keeps s) :
    (lookup l i k).Keeps s := by
  unfold lookup
  split
  · exact h _
  · trivial

theorem checkLength_keeps {s t : State} (h : RegKept s t) (job : Job) (g k c : Nat) : (checkLength job g k c t).Keeps s := by
  unfold checkLength
  split
  · exact h
  · exact ⟨h.reported, h.err⟩

theorem selectorValue_regKept {v : Nat} {s t : State} (h : selectorValue v s = .next t) : RegKept s t := by
  unfold selectorValue at h
  split at h
  · refine Flow.Keeps.settle ?_ h
    split
    · exact RegKept.of rfl rfl rfl
    · simp only
      split
      · exact RegKept.of rfl rfl rfl
      · split
        · trivial
        · exact RegKept.of rfl rfl rfl
  · cases h

theorem finishLengths_keeps {s t : State} (h : RegKept s t) (job : Job) : (finishLengths job t).Keeps s := by
  unfold finishLengths
  simp only
  split
  · exact ⟨h.reported, h.err⟩
  · exact ⟨h.reported, h.err⟩

theorem runDigit_regKept {m : Nat} {s t : State} (h : runDigit m s = .next t) : RegKept s t := by
  unfold runDigit at h
  split at h
  · cases h; exact RegKept.of rfl rfl rfl
  · cases h

theorem endRun_keeps {s : State} (r : Bool) : (endRun r s).Keeps s := by
  unfold endRun flush appendBytes
  split
  · split
    · exact RegKept.of rfl rfl rfl
    · exact lookup_keeps _ _ fun _ => lookup_keeps _ _ fun _ => lookup_keeps _ _ fun _ => RegKept.of rfl rfl rfl
  · exact RegKept.of rfl rfl rfl

theorem mtfSymbol_keeps {s t : State} (h : RegKept s t) (m : Nat) : (mtfSymbol m t).Keeps s := by
  unfold mtfSymbol appendBytes
  split
  · trivial
  · simp only
    split
    · exact ⟨h.reported, h.err⟩
    · exact lookup_keeps _ _ fun _ => lookup_keeps _ _ fun _ => ⟨h.reported, h.err⟩

theorem ibwtSetup_keeps {s t : State} (h : RegKept s t) : (ibwtSetup t).Keeps s := by
  unfold ibwtSetup
  split
  · trivial
  · simp only
    split
    · exact ⟨h.reported, h.err⟩
    · exact lookup_keeps _ _ fun _ => ⟨h.reported, h.err⟩

/-- A token's meaning keeps `REPORTED`, but for the marker that ends a scan, and keeps an error. -/
theorem runToken_regKept {i : Instr} {s t : State} (h : runToken i s = .next t) (hs : ∀ job, s.ctl ≠ .busy job .scan) :
    RegKept s t := by
  cases i with
  | initContinuous | initByblock | readByte | readInto | getReported | adjustReported | close | reserved => cases h
  | selectorMtf0 | selectorMtf1 | selectorMtf2 | selectorMtf3 | selectorMtf4 | selectorMtf5 => exact selectorValue_regKept h
  | runA | runB => exact runDigit_regKept h
  | streamHeader d =>
    change execStreamHeader d s = .next t at h
    unfold execStreamHeader at h
    split at h
    · refine Flow.Keeps.settle ?_ h
      split <;> exact RegKept.of rfl rfl rfl
    · cases h
  | blockMark =>
    change execBlockMark s = .next t at h
    unfold execBlockMark at h
    split at h
    · cases h; exact RegKept.of rfl rfl rfl
    · exact absurd (by assumption) (hs _)
    · cases h
  | eosMark c =>
    change execEosMark c s = .next t at h
    unfold execEosMark at h
    split at h
    · refine Flow.Keeps.settle ?_ h
      simp only
      split <;> exact RegKept.of rfl rfl rfl
    · cases h
  | blockHeader c r p =>
    change execBlockHeader c r p s = .next t at h
    unfold execBlockHeader at h
    split at h
    · cases h; exact RegKept.of rfl rfl rfl
    · cases h
  | symbolMap u ws =>
    change execSymbolMap u ws s = .next t at h
    unfold execSymbolMap at h
    split at h
    · refine Flow.Keeps.settle ?_ h
      simp only
      split <;> exact RegKept.of rfl rfl rfl
    · cases h
  | tableCounts g n =>
    change execTableCounts g n s = .next t at h
    unfold execTableCounts at h
    split at h
    · refine Flow.Keeps.settle ?_ h
      simp only
      split
      · exact RegKept.of rfl rfl rfl
      · split <;> exact RegKept.of rfl rfl rfl
    · cases h
  | selectorMtfBad =>
    change execSelectorMtfBad s = .next t at h
    unfold execSelectorMtfBad at h
    split at h
    · cases h; exact regKept_raise _ _ s
    · cases h
  | codeLenStart l =>
    change execCodeLenStart l s = .next t at h
    unfold execCodeLenStart at h
    split at h
    · refine Flow.Keeps.settle (checkLength_keeps (s := s) ?_ _ _ _ _) h
      exact RegKept.of rfl rfl rfl
    · cases h
  | codeLenInc =>
    change execCodeLenInc s = .next t at h
    unfold execCodeLenInc at h
    split at h
    · refine Flow.Keeps.settle (checkLength_keeps (s := s) ?_ _ _ _ _) h
      exact RegKept.of rfl rfl rfl
    · cases h
  | codeLenDec =>
    change execCodeLenDec s = .next t at h
    unfold execCodeLenDec at h
    split at h
    · refine Flow.Keeps.settle (checkLength_keeps (s := s) ?_ _ _ _ _) h
      exact RegKept.of rfl rfl rfl
    · cases h
  | codeLenEnd =>
    change execCodeLenEnd s = .next t at h
    unfold execCodeLenEnd at h
    split at h
    · refine Flow.Keeps.settle (lookup_keeps _ _ fun row => ?_) h
      simp only
      split
      · refine checkLength_keeps (s := s) ?_ _ _ _ _
        exact RegKept.of rfl rfl rfl
      · split
        · exact RegKept.of rfl rfl rfl
        · refine finishLengths_keeps (s := s) ?_ _
          exact RegKept.of rfl rfl rfl
    · cases h
  | mtf m =>
    change execMtf m s = .next t at h
    unfold execMtf at h
    split at h
    · split at h
      · refine Flow.Keeps.settle ((endRun_keeps _).andThen fun u hu => (mtfSymbol_keeps hu m).andThen fun v hv => ?_) h
        exact ⟨hv.reported, hv.err⟩
      · cases h
    · cases h
  | eob =>
    change execEob s = .next t at h
    unfold execEob at h
    split at h
    · refine Flow.Keeps.settle ((endRun_keeps _).andThen fun u hu => (ibwtSetup_keeps hu).andThen fun v hv => ?_) h
      exact ⟨hv.reported, hv.err⟩
    · cases h
  | rle1Unit c z =>
    change execRle1Unit c z s = .next t at h
    unfold execRle1Unit at h
    split at h
    · split at h
      · cases h; exact RegKept.of rfl rfl rfl
      · cases h
    · cases h

/-- Every state the reading of a token can go on with is a frame of `s`, at the same control point. -/
def Fetched.Keeps (s : State) : Fetched → Prop
  | .instr _ t | .raised _ _ t | .wait t => RegKept s t ∧ t.ctl = s.ctl
  | .undefined => True

theorem Fetched.Keeps.of {s s' : State} {f : Fetched} (h : f.Keeps s') (hs : RegKept s s') (hc : s'.ctl = s.ctl) : f.Keeps s := by
  cases f with
  | instr i t => exact ⟨hs.trans h.1, h.2.trans hc⟩
  | raised e d t => exact ⟨hs.trans h.1, h.2.trans hc⟩
  | wait t => exact ⟨hs.trans h.1, h.2.trans hc⟩
  | undefined => trivial

theorem runParse_keeps (p : Parse) : ∀ s : State, (runParse p s).Keeps s := by
  induction p with
  | done i => intro s; exact ⟨RegKept.of rfl rfl rfl, rfl⟩
  | reject e d => intro s; exact ⟨RegKept.of rfl rfl rfl, rfl⟩
  | nothing => intro s; trivial
  | read n e d k ih =>
    intro s
    simp only [runParse]
    split
    · exact (ih _ _).of (RegKept.of rfl rfl rfl) rfl
    · exact ⟨RegKept.of rfl rfl rfl, rfl⟩
    · exact ⟨RegKept.of rfl rfl rfl, rfl⟩
  | write w k ih =>
    intro s
    cases w <;> exact (ih _).of (RegKept.of rfl rfl rfl) rfl

theorem fetchToken_keeps (ph : Phase) (s : State) : (fetchToken ph s).Keeps s := by
  unfold fetchToken
  have h := runParse_keeps (resume (phaseParse s ph) s.rd.part) s
  generalize runParse (resume (phaseParse s ph) s.rd.part) s = f at h
  cases f with
  | instr i t =>
    have hc : RegKept t (countSymbol ph t) ∧ (countSymbol ph t).ctl = t.ctl := by
      unfold countSymbol
      split <;> exact ⟨RegKept.of rfl rfl rfl, rfl⟩
    exact ⟨h.1.trans hc.1, hc.2.trans h.2⟩
  | raised e d t => exact h
  | wait t => exact h
  | undefined => trivial

theorem yield_keeps {s t : State} (h : RegKept s t) (job : Job) (r : StepResult) : (yield job r t).Keeps s := by
  have same : ∀ u : State, u.reported = t.reported → u.err = t.err → u.errDetail = t.errDetail → RegKept s u :=
    fun u h1 h2 h3 => ⟨h1.trans h.reported, fun he => ⟨h2.trans (h.err he).1, h3.trans (h.err he).2⟩⟩
  unfold yield
  split
  · exact same _ rfl rfl rfl
  · exact same _ rfl rfl rfl
  · exact same _ rfl rfl rfl
  · unfold outWrite
    split
    · trivial
    · rename_i hw
      split at hw
      · cases hw
        split
        · exact same _ rfl rfl rfl
        · exact same _ rfl rfl rfl
      · cases hw
  · exact same _ rfl rfl rfl
  · split
    · exact same _ rfl rfl rfl
    · exact same _ rfl rfl rfl
  · trivial

theorem stepA_keeps (s : State) (job : Job) (b : StreamState) : (stepA job b s).Keeps s := by
  unfold stepA endOfBlock
  split
  · simp only
    split <;> exact RegKept.of rfl rfl rfl
  · split
    · trivial
    · refine yield_keeps ?_ _ _
      exact RegKept.of rfl rfl rfl

theorem stepC_keeps (s : State) (job : Job) (a : StreamState) : (stepC job a s).Keeps s := by
  unfold stepC
  split
  · refine yield_keeps ?_ _ _
    exact RegKept.of rfl rfl rfl
  · exact RegKept.of rfl rfl rfl

theorem nextOfB_keeps (s : State) (a : StreamState) :
    (∀ f, nextOfB a s = .inner f → f.Keeps s) ∧ ∀ i u, nextOfB a s = .instr i u → RegKept s u ∧ u.ctl = s.ctl := by
  unfold nextOfB
  split
  · rename_i f hf
    refine ⟨fun g hg => ?_, fun i u h => (nomatch h)⟩
    cases hg
    unfold stepB at hf
    split at hf
    · cases hf; exact RegKept.of rfl rfl rfl
    · simp only at hf
      split at hf
      · cases hf; exact RegKept.of rfl rfl rfl
      · split at hf
        · cases hf; exact RegKept.of rfl rfl rfl
        · split at hf
          · cases hf; trivial
          · cases hf
  · rename_i c z u hu
    refine ⟨fun g hg => (nomatch hg), fun i v h => ?_⟩
    cases h
    unfold stepB at hu
    split at hu
    · cases hu
    · simp only at hu
      split at hu
      · cases hu
      · split at hu
        · cases hu
        · split at hu
          · cases hu
          · cases hu; exact ⟨RegKept.of rfl rfl rfl, rfl⟩

/-- What a command does next keeps `REPORTED`, but for a scan, and keeps an error. -/
theorem nextStep_keeps {s : State} (hs : ∀ job, s.ctl ≠ .busy job .scan) :
    (∀ f, nextStep s = .inner f → f.Keeps s) ∧ ∀ i u, nextStep s = .instr i u → RegKept s u ∧ u.ctl = s.ctl := by
  unfold nextStep
  split
  · exact ⟨fun f h => by cases h; exact RegKept.refl s, fun i u h => (nomatch h)⟩
  · unfold nextOfWalk
    split
    · exact ⟨fun f h => by cases h; exact yield_keeps (RegKept.refl s) _ _, fun i u h => (nomatch h)⟩
    · exact ⟨fun f h => by cases h; exact yield_keeps (RegKept.refl s) _ _, fun i u h => (nomatch h)⟩
    · exact ⟨fun f h => by cases h; exact RegKept.of rfl rfl rfl, fun i u h => (nomatch h)⟩
    · exact ⟨fun f h => by cases h; exact stepA_keeps _ _ _, fun i u h => (nomatch h)⟩
    · exact ⟨fun f h => by cases h; exact stepA_keeps _ _ _, fun i u h => (nomatch h)⟩
    · exact nextOfB_keeps s _
    · exact nextOfB_keeps s _
    · exact ⟨fun f h => by cases h; exact stepC_keeps _ _ _, fun i u h => (nomatch h)⟩
    · exact ⟨fun f h => by cases h; exact stepC_keeps _ _ _, fun i u h => (nomatch h)⟩
  · exact absurd (by assumption) (hs _)
  · rename_i ph _ _ hc
    have h := fetchToken_keeps ph s
    split
    · rename_i i u he
      rw [he] at h
      exact ⟨fun f h => (nomatch h), fun i u hu => by cases hu; exact h⟩
    · rename_i e d u he
      rw [he] at h
      exact ⟨fun f hf => by cases hf; exact h.1, fun i u h => (nomatch h)⟩
    · exact ⟨fun f h => (nomatch h), fun i u h => (nomatch h)⟩
    · exact ⟨fun f h => by cases h; trivial, fun i u h => (nomatch h)⟩

/-- A command that waits keeps `REPORTED`, an error, and its control point. -/
theorem nextStep_wait_keeps {s w : State} (h : nextStep s = .wait w) : RegKept s w ∧ w.ctl = s.ctl := by
  unfold nextStep at h
  split at h
  · cases h
  · unfold nextOfWalk nextOfB at h
    repeat' split at h
    all_goals cases h
  · unfold nextOfScan at h
    split at h
    · cases h
    · cases h
    · cases h; exact ⟨RegKept.of rfl rfl rfl, rfl⟩
  · rename_i ph _ _ _
    have hk := fetchToken_keeps ph s
    split at h
    · cases h
    · cases h
    · rename_i u he
      rw [he] at hk
      cases h
      exact hk
    · cases h

/-- One step of a command keeps `REPORTED`, but for a scan, and keeps an error. -/
theorem commandStep_regKept {s t : State} (h : commandStep s = .ran (.next t)) (hs : ∀ job, s.ctl ≠ .busy job .scan) :
    RegKept s t := by
  obtain ⟨h1, h2⟩ := nextStep_keeps hs
  unfold commandStep at h
  split at h
  · rename_i i u hu
    obtain ⟨k, hc⟩ := h2 _ _ hu
    simp only [Turn.ran.injEq] at h
    exact k.trans (runToken_regKept h (by rw [hc]; exact hs))
  · rename_i f hf
    simp only [Turn.ran.injEq] at h
    exact (h1 _ hf).settle h
  · cases h

end Sys2Proof.Machine
end

