-- ==== Sys2Proof/Laws/Expect.lean ====
section
/-! SUPPORT. A control point's parse is the decoder's (R99 to R106), and the errors each control point can raise (R111, R272, R277). -/

namespace Sys2Proof.Machine

/-- With the invariant, the parse of a control point is that of what the decoder expects there. -/
theorem phaseParse_eq {s : State} {job : Job} {ph : Phase} {x : Expect} (h : PhaseOk s job ph) (hx : expectOf s ph = some x) :
    phaseParse s ph = parseOf x := by
  cases ph with
  | scan => cases hx
  | walk => cases hx
  | symbols r =>
    obtain ⟨-, -, -, -, p5, p6, -⟩ := h
    simp only [expectOf] at hx
    split at hx
    · cases hx
    · rename_i t ht
      cases hl : s.tab.lens[t]? with
      | none => rw [hl] at hx; cases hx
      | some lens =>
        rw [hl] at hx
        obtain rfl : Expect.symbol lens s.blk.nInUse = x := by simpa using hx
        have hg : ¬ s.blk.symCount / Config.gSize ≥ s.blk.nSelectors := by
          have := (List.getElem?_eq_some_iff.mp ht).1
          rw [p5.1] at this
          omega
        have hlt : t < s.tab.tables.length := by
          rw [buildTables_length _ _ p6.2.2]
          exact (List.getElem?_eq_some_iff.mp hl).1
        have hget := List.getElem?_eq_getElem hlt
        obtain ⟨lens', hl', hb⟩ := buildTables_get _ _ _ _ p6.2.2 hget
        rw [hl] at hl'
        obtain rfl : lens = lens' := by simpa using hl'
        simp only [phaseParse, symbolParse, if_neg hg, ht, hget, parseOf, hb]
  | _ => cases hx; rfl

/-- The errors a control point can raise by what it reads (R272). -/
def PhaseErr : Phase → ErrKind → Nat → Prop
  | .header, e, d => e = .badStreamHeader ∧ (d = 1 ∨ d = 2)
  | .marker, e, d => (e = .badBlockHeader ∨ e = .unexpectedEndOfStream) ∧ d = 0
  | .symbols _, e, d => (e = .tableMalformed ∧ (d = 7 ∨ d = 8)) ∨ (e = .unexpectedEndOfStream ∧ d = 0)
  | _, e, d => e = .unexpectedEndOfStream ∧ d = 0

/-- Every error a parse can end in has a property. -/
def errorsIn (P : ErrKind → Nat → Prop) : Parse → Prop
  | .done _ | .nothing => True
  | .reject e d => P e d
  | .read _ e d k => P e d ∧ ∀ v, errorsIn P (k v)
  | .write _ k => errorsIn P k

theorem errorsIn_bytes {P : ErrKind → Nat → Prop} (h0 : P .unexpectedEndOfStream 0) (m v : Nat) (k : Nat → Parse)
    (h : ∀ v, errorsIn P (k v)) : errorsIn P (Parse.bytes m v k) := by
  induction m generalizing v with
  | zero => exact h v
  | succ m ih => exact ⟨h0, fun b => ih _⟩

theorem errorsIn_mapWords {P : ErrKind → Nat → Prop} (h0 : P .unexpectedEndOfStream 0) (u : BitVec 16) (is : List Nat)
    (ws : List (BitVec 16)) (l : List Bool) : errorsIn P (parseMapWords u is ws l) := by
  induction is generalizing ws l with
  | nil => trivial
  | cons i is ih => exact ⟨h0, fun v => ih _ _⟩

theorem errorsIn_selector {P : ErrKind → Nat → Prop} (h0 : P .unexpectedEndOfStream 0) (g v : Nat) :
    errorsIn P (parseSelector g v) := by
  induction g generalizing v with
  | zero => trivial
  | succ g ih =>
    refine ⟨h0, fun b => ?_⟩
    show errorsIn P (if _ then _ else _)
    split
    · exact ih _
    · trivial

theorem errorsIn_symbolAt {P : ErrKind → Nat → Prop} (t : HuffTable) (n zn zvec : Nat) : errorsIn P (symbolAt t n zn zvec) := by
  unfold symbolAt
  split
  · trivial
  · split <;> trivial

theorem errorsIn_symbolFrom {P : ErrKind → Nat → Prop} (h0 : P .unexpectedEndOfStream 0) (h7 : P .tableMalformed 7) (t : HuffTable)
    (n left zn zvec : Nat) : errorsIn P (parseSymbolFrom t n left zn zvec) := by
  induction left generalizing zn zvec with
  | zero =>
    unfold parseSymbolFrom
    split
    · trivial
    · split
      · exact h7
      · exact errorsIn_symbolAt ..
  | succ left ih =>
    unfold parseSymbolFrom
    split
    · trivial
    · split
      · exact ⟨h0, fun b => ih _ _⟩
      · exact errorsIn_symbolAt ..

theorem errorsIn_phase (s : State) (ph : Phase) : errorsIn (PhaseErr ph) (phaseParse s ph) := by
  have h0 : ∀ ph, ph ≠ .header → PhaseErr ph .unexpectedEndOfStream 0 := by
    intro ph h
    cases ph <;> first | exact absurd rfl h | simp [PhaseErr]
  cases ph with
  | scan => trivial
  | walk => trivial
  | header =>
    refine ⟨⟨rfl, .inl rfl⟩, fun v => ?_⟩
    show errorsIn _ (if _ then _ else _)
    split
    · exact ⟨rfl, .inl rfl⟩
    · exact ⟨⟨rfl, .inr rfl⟩, fun _ => trivial⟩
  | marker =>
    refine errorsIn_bytes (h0 _ (by decide)) _ _ _ fun m => ?_
    split
    · exact errorsIn_bytes (h0 _ (by decide)) _ _ _ fun _ => trivial
    · split
      · trivial
      · exact ⟨.inl rfl, rfl⟩
  | blockHeader =>
    exact errorsIn_bytes (h0 _ (by decide)) _ _ _ fun c => ⟨h0 _ (by decide), fun r => ⟨h0 _ (by decide), fun p => trivial⟩⟩
  | symbolMap => exact ⟨h0 _ (by decide), fun v => errorsIn_mapWords (h0 _ (by decide)) _ _ _ _⟩
  | tableCounts =>
    refine ⟨h0 _ (by decide), fun g => ?_⟩
    show errorsIn _ (if _ then _ else _)
    split
    · exact ⟨h0 _ (by decide), fun _ => trivial⟩
    · trivial
  | selector i => exact errorsIn_selector (h0 _ (by simp)) _ _
  | codeLenStart t => exact ⟨h0 _ (by simp), fun _ => trivial⟩
  | codeLen t k c =>
    refine ⟨h0 _ (by simp), fun b => ?_⟩
    show errorsIn _ (if _ then _ else _)
    split
    · trivial
    · refine ⟨h0 _ (by simp), fun c => ?_⟩
      show errorsIn _ (if _ then _ else _)
      split <;> trivial
  | symbols r =>
    simp only [phaseParse, symbolParse]
    split
    · exact .inl ⟨rfl, .inr rfl⟩
    · split
      · trivial
      · split
        · trivial
        · have h7 : PhaseErr (.symbols r) .tableMalformed 7 := Or.inl ⟨rfl, Or.inl rfl⟩
          exact ⟨h0 _ (by simp), fun z => errorsIn_symbolFrom (h0 _ (by simp)) h7 _ _ _ _ _⟩

/-- The error a run of a parse raises is one of the parse's. -/
theorem runParse_error {P : ErrKind → Nat → Prop} (p : Parse) : errorsIn P p → ∀ (s : State) (e : ErrKind) (d : Nat) (t : State),
    runParse p s = .raised e d t → P e d := by
  induction p with
  | done i => intro _ s e d t h; cases h
  | reject e d => intro hp s e' d' t h; cases h; exact hp
  | nothing => intro _ s e d t h; cases h
  | read n e d k ih =>
    intro hp s e' d' t h
    simp only [runParse] at h
    split at h
    · exact ih _ (hp.2 _) _ _ _ _ h
    · cases h; exact hp.1
    · cases h
  | write w k ih => intro hp s e d t h; exact ih hp _ _ _ _ h

theorem errorsIn_resume {P : ErrKind → Nat → Prop} (p : Parse) : ∀ bs : List Bool, errorsIn P p → errorsIn P (resume p bs) := by
  induction p with
  | done i => intro _ h; exact h
  | reject e d => intro _ h; exact h
  | nothing => intro _ h; exact h
  | read n e d k ih =>
    intro bs h
    by_cases hn : n ≤ bs.length
    · rw [resume_read hn]; exact ih _ _ (h.2 _)
    · rw [resume_short hn]; exact h
  | write w k ih => intro bs h; exact ih bs h

/-- Every error the reading of a token raises is one of its control point's. -/
theorem fetchToken_error {s t : State} {ph : Phase} {e : ErrKind} {d : Nat} (h : fetchToken ph s = .raised e d t) :
    PhaseErr ph e d := by
  unfold fetchToken at h
  split at h
  · cases h
  · rename_i e' d' u hu
    cases h
    exact runParse_error _ (errorsIn_resume _ _ (errorsIn_phase s ph)) _ _ _ _ hu
  · cases h
  · cases h

end Sys2Proof.Machine
end

