-- ==== Sys2Proof/Laws/PerInstr.lean ====
section
/-! SUPPORT. The per-instruction family `Encodable`: every well-formed instruction has an encoding, as a command word (R95) or where
the decoder expects its token (R98 to R109). One lemma for each constructor of `Instr`. -/

namespace Sys2Proof.Laws.Encodable

open Sys2Proof.Machine

/-- A well-formed instruction has a command word, or bits where the grammar lets it stand. -/
def Statement (i : Instr) : Prop :=
  i.wellFormed = true → (encodeCmd i).isSome = true ∨ ∃ x, expectOk x ∧ (encodeBits x i).isSome = true

theorem initContinuous : Statement .initContinuous := fun _ => .inl rfl
theorem initByblock : Statement .initByblock := fun _ => .inl rfl
theorem readByte : Statement .readByte := fun _ => .inl rfl
theorem readInto : Statement .readInto := fun _ => .inl rfl
theorem getReported : Statement .getReported := fun _ => .inl rfl
theorem adjustReported : Statement .adjustReported := fun _ => .inl rfl
theorem close : Statement .close := fun _ => .inl rfl
theorem reserved (w : Word) : Statement (.reserved w) := fun _ => .inl rfl
theorem streamHeader (d : Byte) : Statement (.streamHeader d) := fun _ => .inr ⟨.header, trivial, rfl⟩
theorem blockMark : Statement .blockMark := fun _ => .inr ⟨.marker, trivial, rfl⟩
theorem eosMark (c : Word) : Statement (.eosMark c) := fun _ => .inr ⟨.marker, trivial, rfl⟩
theorem blockHeader (c : Word) (r : Bool) (p : BitVec 24) : Statement (.blockHeader c r p) :=
  fun _ => .inr ⟨.blockHeader, trivial, rfl⟩
theorem symbolMap (u : BitVec 16) (ws : List (BitVec 16)) : Statement (.symbolMap u ws) := fun _ => .inr ⟨.symbolMap, trivial, rfl⟩
theorem tableCounts (g : BitVec 3) (n : BitVec 15) : Statement (.tableCounts g n) := by
  intro h
  refine .inr ⟨.tableCounts, trivial, ?_⟩
  show (if legalGroups g.toNat then some (bitsMsb 3 g.toNat ++ bitsMsb 15 n.toNat)
    else if n = 0 then some (bitsMsb 3 g.toNat) else none).isSome = true
  simp only [Instr.wellFormed, Bool.or_eq_true, decide_eq_true_eq] at h
  by_cases hg : legalGroups g.toNat = true
  · rw [if_pos hg]; rfl
  · rw [if_neg hg]
    rcases h with h | h
    · exact absurd h hg
    · rw [if_pos h]; rfl
theorem selectorMtf0 : Statement .selectorMtf0 := fun _ => .inr ⟨.selector 6, Nat.le_refl 6, rfl⟩
theorem selectorMtf1 : Statement .selectorMtf1 := fun _ => .inr ⟨.selector 6, Nat.le_refl 6, rfl⟩
theorem selectorMtf2 : Statement .selectorMtf2 := fun _ => .inr ⟨.selector 6, Nat.le_refl 6, rfl⟩
theorem selectorMtf3 : Statement .selectorMtf3 := fun _ => .inr ⟨.selector 6, Nat.le_refl 6, rfl⟩
theorem selectorMtf4 : Statement .selectorMtf4 := fun _ => .inr ⟨.selector 6, Nat.le_refl 6, rfl⟩
theorem selectorMtf5 : Statement .selectorMtf5 := fun _ => .inr ⟨.selector 6, Nat.le_refl 6, rfl⟩
theorem selectorMtfBad : Statement .selectorMtfBad := fun _ => .inr ⟨.selector 6, Nat.le_refl 6, rfl⟩
theorem codeLenStart (l : BitVec 5) : Statement (.codeLenStart l) := fun _ => .inr ⟨.codeLenStart, trivial, rfl⟩
theorem codeLenEnd : Statement .codeLenEnd := fun _ => .inr ⟨.codeLen, trivial, rfl⟩
theorem codeLenInc : Statement .codeLenInc := fun _ => .inr ⟨.codeLen, trivial, rfl⟩
theorem codeLenDec : Statement .codeLenDec := fun _ => .inr ⟨.codeLen, trivial, rfl⟩

/-- The alphabet of a block that uses all 256 byte values, every length 9 (R37, R154). -/
theorem flat_ok : expectOk (.symbol (List.replicate 258 9) 256) := by
  refine ⟨List.length_replicate, by decide, by decide, fun l hl => ?_, by decide +kernel⟩
  rw [List.eq_of_mem_replicate hl]
  decide

theorem flat_encodes (s : Nat) (h : s < 258) : (encodeSym (List.replicate 258 9) s).isSome = true := by
  have : (List.replicate 258 9)[s]? = some 9 := by rw [List.getElem?_replicate, if_pos h]
  simp only [encodeSym, codeword, this, Option.isSome_some]

theorem runA : Statement .runA := fun _ => .inr ⟨_, flat_ok, flat_encodes 0 (by decide)⟩
theorem runB : Statement .runB := fun _ => .inr ⟨_, flat_ok, flat_encodes 1 (by decide)⟩
theorem mtf (m : Nat) : Statement (.mtf m) := by
  intro h
  refine .inr ⟨_, flat_ok, ?_⟩
  have h' : (2 ≤ m && m ≤ 256) = true := h
  show (if 2 ≤ m && m ≤ 256 then encodeSym (List.replicate 258 9) m else none).isSome = true
  rw [if_pos h']
  simp only [Bool.and_eq_true, decide_eq_true_eq] at h'
  exact flat_encodes m (by omega)
theorem eob : Statement .eob := fun _ => .inr ⟨_, flat_ok, flat_encodes 257 (by decide)⟩
theorem rle1Unit (c z : Byte) : Statement (.rle1Unit c z) := fun _ => .inr ⟨.rle1Unit, trivial, rfl⟩

end Sys2Proof.Laws.Encodable
end

