-- ==== Sys2Proof/Laws/Steps.lean ====
section
/-! SUPPORT. One equation for each way a step of the machine or of the walk goes (R208 to R210, R235 to R240), so that no later proof
unfolds a step. -/

namespace Sys2Proof.Machine

/-! ## The cycle -/

theorem step_busy {s : State} {job : Job} {ph : Phase} (h : s.ctl = .busy job ph) :
    step s = match nextStep s with
      | .instr i s1 => exec i s1
      | .inner f => f.settle
      | .wait s1 => hostStep s1 := by
  simp only [step, cycle, h] <;> rfl

theorem step_idle {s : State} (h : s.ctl = .idle) : step s = hostStep s := by
  simp only [step, cycle, h]

theorem nextStep_walk {s : State} {job : Job} (h : s.ctl = .busy job .walk) : nextStep s = nextOfWalk job s := by
  unfold nextStep; rw [h]

theorem nextStep_scan {s : State} {job : Job} (h : s.ctl = .busy job .scan) : nextStep s = nextOfScan job s := by
  unfold nextStep; rw [h]

theorem nextStep_token {s : State} {job : Job} {ph : Phase} (h : s.ctl = .busy job ph) (hw : ph ≠ .walk) (hsc : ph ≠ .scan) :
    nextStep s = match fetchToken ph s with
      | .instr i s1 => .instr i s1
      | .raised e d s1 => .inner (.raise e d s1)
      | .wait s1 => .wait s1
      | .undefined => .inner (.fault .unspecifiedRead) := by
  unfold nextStep
  rw [h]
  cases ph <;> first | exact absurd rfl hw | exact absurd rfl hsc | rfl

/-- A token that runs is the instruction `exec` runs. -/
theorem exec_of_runToken {i : Instr} {s t : State} (h : runToken i s = .next t) : exec i s = .next t := by
  cases i <;> first | exact h | cases h

/-- A step of a command in progress that runs is the step of the machine; one that waits gives way to the host. -/
theorem step_of_ran {s t : State} {job : Job} {ph : Phase} (hb : s.ctl = .busy job ph) (h : commandStep s = .ran (.next t)) :
    step s = .next t := by
  cases hn : nextStep s with
  | instr i s1 => rw [step_busy hb, hn]; rw [commandStep, hn] at h; exact exec_of_runToken (Turn.ran.inj h)
  | inner f => rw [step_busy hb, hn]; rw [commandStep, hn] at h; exact Turn.ran.inj h
  | wait s1 => rw [commandStep, hn] at h; cases h

theorem step_of_waits {s w : State} {job : Job} {ph : Phase} (hb : s.ctl = .busy job ph) (h : commandStep s = .waits w) :
    step s = hostStep w := by
  cases hn : nextStep s with
  | instr i s1 => rw [commandStep, hn] at h; cases h
  | inner f => rw [commandStep, hn] at h; cases h
  | wait s1 => rw [step_busy hb, hn]; rw [commandStep, hn] at h; exact congrArg hostStep (Turn.waits.inj h)

/-- Everything a step of the machine does while a command is in progress, with the invariant. -/
theorem step_cases {s : State} {job : Job} {ph : Phase} (hi : Inv s) (hb : s.ctl = .busy job ph) :
    (∃ t, step s = .next t ∧ commandStep s = .ran (.next t) ∧ CommandOk s (.next t)) ∨
      ∃ w, step s = hostStep w ∧ commandStep s = .waits w ∧ WaitOk s w := by
  rcases commandStep_cases hi hb with ⟨o, ho, hk⟩ | ⟨w, ho, hk⟩
  · obtain ⟨t, rfl, h⟩ := hk
    exact .inl ⟨t, step_of_ran hb ho, ho, t, rfl, h⟩
  · exact .inr ⟨w, step_of_waits hb ho, ho, hk⟩

/-! ## The walk -/

theorem nextOfWalk_eof {s : State} (job : Job) (h : s.state = .eof) :
    nextOfWalk job s = .inner (yield job .endOfStream s) := by
  unfold nextOfWalk; rw [h]

theorem nextOfWalk_noProcess {s : State} (job : Job) (h : s.state = .noProcess) :
    nextOfWalk job s = .inner (yield job .endOfBlock s) := by
  unfold nextOfWalk; rw [h]

theorem nextOfWalk_startBlock {s : State} (job : Job) (h : s.state = .startBlock) :
    nextOfWalk job s = .inner (.go { s with ctl := .busy job (if s.mode = .continuous then .marker else .blockHeader) }) := by
  unfold nextOfWalk; rw [h]

theorem nextOfWalk_randA {s : State} (job : Job) (h : s.state = .randA) :
    nextOfWalk job s = .inner (stepA job .randB s) := by
  unfold nextOfWalk; rw [h]

theorem nextOfWalk_norandA {s : State} (job : Job) (h : s.state = .norandA) :
    nextOfWalk job s = .inner (stepA job .norandB s) := by
  unfold nextOfWalk; rw [h]

theorem nextOfWalk_randB {s : State} (job : Job) (h : s.state = .randB) :
    nextOfWalk job s = nextOfB .randA s := by
  unfold nextOfWalk; rw [h]

theorem nextOfWalk_norandB {s : State} (job : Job) (h : s.state = .norandB) :
    nextOfWalk job s = nextOfB .norandA s := by
  unfold nextOfWalk; rw [h]

theorem nextOfWalk_randC {s : State} (job : Job) (h : s.state = .randC) :
    nextOfWalk job s = .inner (stepC job .randA s) := by
  unfold nextOfWalk; rw [h]

theorem nextOfWalk_norandC {s : State} (job : Job) (h : s.state = .norandC) :
    nextOfWalk job s = .inner (stepC job .norandA s) := by
  unfold nextOfWalk; rw [h]

theorem stepB_new {s : State} (a : StreamState) (h : s.cur.ch2 ≠ s.cur.chPrev) :
    stepB a s = .flow (.go { s with cur := { s.cur with count := 1 }, state := a }) := by
  unfold stepB; rw [if_pos h]

theorem stepB_count {s : State} (a : StreamState) (h : s.cur.ch2 = s.cur.chPrev) (hc : s.cur.count + 1 < 4) :
    stepB a s = .flow (.go { s with cur := { s.cur with count := s.cur.count + 1 }, state := a }) := by
  unfold stepB; rw [if_neg (not_not.mpr h)]; exact if_pos hc

theorem stepB_end {s : State} (a : StreamState) (h : s.cur.ch2 = s.cur.chPrev) (hc : s.cur.count = 3)
    (hi : (s.cur.i2 : Int) > s.blk.last) :
    stepB a s = .flow (.raise .streamCorrupted 2 { s with cur := { s.cur with count := 4 } }) := by
  unfold stepB; rw [if_neg (not_not.mpr h), hc]; exact (if_neg (show ¬ 3 + 1 < 4 by decide)).trans (if_pos hi)

theorem stepB_unit {s : State} (a : StreamState) {z : Byte} {c : Cursor} (h : s.cur.ch2 = s.cur.chPrev) (hc : s.cur.count = 3)
    (hi : (s.cur.i2 : Int) ≤ s.blk.last) (ht : take { s with cur := { s.cur with count := 4 } } = some (z, c)) :
    stepB a s = .unit (s.cur.ch2.truncate 8) z { s with cur := c } := by
  unfold stepB; rw [if_neg (not_not.mpr h), hc]
  refine (if_neg (show ¬ 3 + 1 < 4 by decide)).trans ((if_neg (show ¬ (s.cur.i2 : Int) > s.blk.last by omega)).trans ?_)
  show (match take { s with cur := { s.cur with count := 4 } } with
    | none => StepB.flow (.fault .walkIndex)
    | some (z, c) => .unit (s.cur.ch2.truncate 8) z { s with cur := c }) = _
  rw [ht]

theorem stepA_end {s : State} (job : Job) (b : StreamState) (h : (s.cur.i2 : Int) > s.blk.last) : stepA job b s = endOfBlock s := by
  unfold stepA; rw [if_pos h]

theorem stepA_byte {s : State} (job : Job) (b : StreamState) {v : Byte} {c : Cursor} (h : (s.cur.i2 : Int) ≤ s.blk.last)
    (ht : take s = some (v, c)) :
    stepA job b s = yield job (.byte v) { s with
      cur := { c with chPrev := s.cur.ch2, ch2 := v.zeroExtend 9, blockCrc := crcUpdate s.cur.blockCrc v }, state := b } := by
  unfold stepA; rw [if_neg (by omega), ht]

theorem stepC_byte {s : State} (job : Job) (a : StreamState) (h : s.cur.j2 < s.cur.z.toNat) :
    stepC job a s = yield job (.byte (s.cur.ch2.truncate 8)) { s with
      cur := { s.cur with j2 := s.cur.j2 + 1, blockCrc := crcUpdate s.cur.blockCrc (s.cur.ch2.truncate 8) } } := by
  unfold stepC; rw [if_pos h]

theorem stepC_end {s : State} (job : Job) (a : StreamState) (h : ¬ s.cur.j2 < s.cur.z.toNat) :
    stepC job a s = .go { s with cur := { s.cur with count := 0 }, state := a } := by
  unfold stepC; rw [if_neg h]

/-- Taking a byte moves the cursor's walk and derandomiser only (R205, R206). -/
theorem take_frame {s : State} {v : Byte} {c : Cursor} (h : take s = some (v, c)) :
    c = { s.cur with tPos := c.tPos, i2 := s.cur.i2 + 1, rnToGo := c.rnToGo, rtPos := c.rtPos } := by
  unfold take at h
  split at h
  · simp only at h
    split at h
    · unfold derand at h
      simp only at h
      split at h
      · split at h
        · cases h
        · cases h; rfl
      · cases h; rfl
    · cases h; rfl
  · cases h

/-! ## Commands -/

/-- A command whose first step answers has answered, in every state. -/
theorem runCommand_once {s t : State} {job : Job} {ph : Phase} (h : s.ctl = .busy job ph) (hc : commandStep s = .ran (.next t))
    (ht : t.ctl = .idle) : runCommand s = .next t := by
  unfold runCommand stepBound
  rw [runToResponse_succ h, hc]
  exact runToResponse_idle ht _

theorem commandStep_walk {s : State} {job : Job} {f : Flow} (h : s.ctl = .busy job .walk) (hf : nextOfWalk job s = .inner f) :
    commandStep s = .ran f.settle := by
  simp only [commandStep, nextStep_walk h, hf]

theorem execReadByte_open {s : State} (h : s.ctl = .idle) (ho : s.closed = false) :
    execReadByte s = runCommand { s with ctl := .busy .readByte .walk } := by
  simp only [execReadByte, whenIdle, h, whenOpen, ho]; rfl

theorem execReadInto_open {s : State} (h : s.ctl = .idle) (ho : s.closed = false) (hc : readIntoCheck s = none)
    (hl : 0 < lenOperand s) : execReadInto s =
      runCommand { s with ctl := .busy (.readInto (offOperand s).toNat (lenOperand s).toNat 0) .walk } := by
  simp only [execReadInto, whenIdle, h, whenOpen, ho, hc]
  rw [if_neg (by simp), if_neg (by omega)]

/-- What `readIntoCheck` lets through (R231). -/
theorem readIntoCheck_none {s : State} (h : readIntoCheck s = none) :
    0 ≤ offOperand s ∧ 0 ≤ lenOperand s ∧ offOperand s + lenOperand s ≤ s.outCap := by
  unfold readIntoCheck at h
  split at h
  · cases h
  · split at h
    · cases h
    · rename_i h1 h2
      simp only [Bool.or_eq_true, decide_eq_true_eq, not_or] at h1
      omega

/-! ## A command as a whole -/

/-- INIT starts from a state with the invariant (R232). -/
theorem inv_beginInit {s : State} (hi : Inv s) (m : Mode) (ph : Phase) (hph : ph = .header ∨ ph = .scan) :
    Inv (beginInit m ph s) := by
  obtain ⟨h1, h2, -, -⟩ := hi
  have hl : (beginInit m ph s).rd.live = 0 := by simp only [beginInit, initReader]; split <;> rfl
  have hp : (beginInit m ph s).rd.part = [] := by simp only [beginInit, initReader]; split <;> rfl
  refine inv_busy (job := .init) (ph := ph) ⟨h1, h2, rfl, by show 1 ≤ 9; omega, by show 9 ≤ 9; omega, by rw [hl]; omega,
    hp, by show 0 ≤ 8; omega⟩ rfl trivial ?_ (fun _ => ⟨by rw [hl]; omega, rfl⟩)
  rcases hph with rfl | rfl
  · rfl
  · exact .inl rfl

/-- A read starts from a state with the invariant (R242, R243). -/
theorem inv_beginRead {s : State} (hi : Inv s) (ho : s.closed = false) (hc : s.ctl = .idle) (job : Job) (hj : JobOk s job)
    (hn : job ≠ .init) : Inv { s with ctl := .busy job .walk } := by
  refine inv_busy ((hi.core ho (.inl hc)).congr rfl rfl rfl rfl rfl rfl rfl) rfl (hj.congr rfl) ⟨hn, hi.idle ho hc⟩ fun h => ?_
  rw [reading_walk rfl] at h
  exact hi.canRead ho (.inl hc) h

/-- A new instance starts at the first bit of its source (R232). -/
theorem initReader_start (s : State) :
    bitsAhead (initReader s) = bitsOfBytes (initReader s).src ∧ (initReader s).live = 0 ∧ (initReader s).raw = 0 ∧
      (initReader s).part = [] := by
  unfold initReader; split <;> simp [bitsAhead, bitsMsb]

/-- A command in progress gives a next state; with a source that ends it has responded there (R254, R308). -/
theorem runCommand_answers (s : State) : Inv s → ∃ t, runCommand s = .next t ∧ Inv t ∧ Kept s t ∧
    (∃ k, Consumed s.rd t.rd k) ∧ (s.rd.srcEnds = true → t.ctl = .idle) := by
  refine runCommand_induct (P := fun s o => ∃ t, o = .next t ∧ Inv t ∧ Kept s t ∧ (∃ k, Consumed s.rd t.rd k) ∧
    (s.rd.srcEnds = true → t.ctl = .idle)) ?_ ?_ ?_ s
  · intro s hi hc; exact ⟨s, rfl, hi, Kept.refl s, ⟨0, Consumed.refl _⟩, fun _ => hc⟩
  · intro s job ph w hi hb hcs hw; exact ⟨w, rfl, hw.1, hw.2.1, hw.2.2.2.2.2, fun h => by rw [hw.2.2.2.1] at h; cases h⟩
  · rintro s job ph t hi hb hcs hit hk ⟨k, hc⟩ ⟨u, h1, h2, h3, ⟨k2, h4⟩, h5⟩
    exact ⟨u, (runCommand_step hi hb hcs).trans h1, h2, hk.trans h3, ⟨_, hc.trans h4⟩, fun h => h5 (by rw [hc.ends]; exact h)⟩

end Sys2Proof.Machine
end

