-- ==== Sys2Proof/Tests/Slice0.lean ====
section
/-! SUPPORT. Tests. Every expected value is taken from spec/: the worked tables of spec/95_test_vectors.md, named by their section, or
the rule cited. The last part gives, for each statement of Certificates/Slice0/Obligations.lean that has hypotheses, states and
operands that meet them. -/

namespace Sys2Proof.Tests

open Sys2Proof.Machine

set_option Elab.async false

/-! ## Helpers -/

/-- A one-bit and a zero-bit, to write codes out. -/
abbrev I : Bool := true
@[inherit_doc I] abbrev O : Bool := false

/-- The state after an outcome. -/
def after (o : Outcome) : Option State :=
  match o with
  | .next s => some s
  | .fault _ | .refused _ => none

/-- An open idle instance of block size 9 in the stream state `st`, two bytes read, the bytes `src` ahead. -/
def opened (st : StreamState) (m : Mode) (src : List Byte) : State :=
  { State.reset with
    closed := false, mode := m, state := st, blockSize100k := 9
    rd := { buf := 0, live := 0, raw := 2, src := src, srcEnds := true, part := [] } }

/-- A command in progress at a control point, at the start of a block. -/
def busyAt (job : Job) (ph : Phase) (src : List Byte) : State := { opened .startBlock .continuous src with ctl := .busy job ph }

/-- A host's attached source, before INIT. -/
def attachedTo (src : List Byte) : State := { State.reset with attached := some ⟨src, true⟩ }

/-- The walk of the block `c a a b` of section 2.8, in the stream state `st`. -/
def walking (st : StreamState) : State :=
  { opened st .continuous [] with
    blk := { BlockRegs.reset with last := 3, storedBlockCrc := 0x2A895820 }
    tab := { Tables.empty with ll8 := [0x63, 0x61, 0x61, 0x62], tt := [1, 2, 3, 0] }
    cur := startCursor 2 }

/-- The symbol loop of the block `a b c` of section 2.4. -/
def inSymbols (r : Bool) : State :=
  { busyAt .readByte (.symbols r) [] with
    blk := { BlockRegs.reset with nInUse := 3, alphaSize := 5, nGroups := 2, nSelectors := 1, last := -1 }
    tab := { Tables.empty with
      inUse := markInUse (List.replicate 256 false) 6 0x7000, seqToUnseq := [0x61, 0x62, 0x63], selectorMtf := [0]
      selector := [0], pos := [0, 1], lens := [[2, 2, 2, 3, 3], [2, 2, 2, 3, 3]]
      tables := (buildTables [[2, 2, 2, 3, 3], [2, 2, 2, 3, 3]]).1
      yy := List.range 256, unzftab := List.replicate 256 0 } }

/-- The same loop after the four symbols of section 2.4 (`LL8 = c a a b`). -/
def inSymbolsEnd (p : BitVec 24) : State :=
  { inSymbols false with
    blk := { (inSymbols false).blk with last := 3, origPtr := p, symCount := 4 }
    tab := { (inSymbols false).tab with
      yy := [1, 0, 2] ++ (List.range 256).drop 3, ll8 := [0x63, 0x61, 0x61, 0x62]
      unzftab := ((List.replicate 256 0).set 0x61 2 |>.set 0x62 1).set 0x63 1 } }

/-! ## Well-formedness: terms the check refuses -/

theorem test_wf_reserved_listed_word : (Instr.reserved 0x11).wellFormed = false := by decide
theorem test_wf_symbolMap_word_missing : (Instr.symbolMap 0x8001 [0x4000]).wellFormed = false := by decide
theorem test_wf_symbolMap_word_extra : (Instr.symbolMap 0 [0]).wellFormed = false := by decide
theorem test_wf_mtf_low : (Instr.mtf 1).wellFormed = false := by decide
theorem test_wf_mtf_high : (Instr.mtf 257).wellFormed = false := by decide
theorem test_wf_tableCounts_cut : (Instr.tableCounts 7 1).wellFormed = false := by decide

/-! ## Decoding: a word written out for each constructor (R95, R98 to R109) -/

theorem test_decode_commands :
    [0x01, 0x11, 0x02, 0x03, 0x04, 0x05, 0x06].map decodeCmd =
      [.initContinuous, .initByblock, .readByte, .readInto, .getReported, .adjustReported, .close] := by decide

/-- Section 2.10. -/
theorem test_decode_reserved :
    [0x00, 0x07, 0x0F, 0x12, 0x21, 0x80000002].map decodeCmd =
      [.reserved 0x00, .reserved 0x07, .reserved 0x0F, .reserved 0x12, .reserved 0x21, .reserved 0x80000002] := by decide

theorem test_decode_streamHeader :
    decodeBits .header [O, I, I, O, I, O, O, O, O, O, I, I, I, O, O, I] = .ok (.streamHeader 0x39) [] := by decide

theorem test_decode_header_not_h : decodeBytes .header [0x42, 0x5A] = .rejected .badStreamHeader 1 := by decide

theorem test_decode_blockMark :
    decodeBits .marker [O, O, I, I, O, O, O, I, O, I, O, O, O, O, O, I, O, I, O, I, I, O, O, I, O, O, I, O, O, I, I, O, O, I, O, I,
      O, O, I, I, O, I, O, I, I, O, O, I] = .ok .blockMark [] := by decide +kernel

theorem test_decode_eosMark :
    decodeBytes .marker [0x17, 0x72, 0x45, 0x38, 0x50, 0x90, 0x51, 0x88, 0xD0, 0x79] = .ok (.eosMark 0x5188D079) [] := by
  decide +kernel

/-- Scenario B (section 1.2), bits 64 to 127. -/
theorem test_decode_blockHeader :
    decodeBytes .blockHeader [0x51, 0x88, 0xD0, 0x79, 0x00, 0x00, 0x02, 0x55] =
      .ok (.blockHeader 0x5188D079 false 4) [I, O, I, O, I, O, I] := by decide +kernel

/-- Section 2.5: the byte `a`. -/
theorem test_decode_symbolMap :
    decodeBytes .symbolMap [0x02, 0x00, 0x40, 0x00] = .ok (.symbolMap 0x0200 [0x4000]) [] := by decide +kernel

theorem test_decode_tableCounts :
    decodeBits .tableCounts [O, I, O, O, O, O, O, O, O, O, O, O, O, O, O, O, O, I] = .ok (.tableCounts 2 1) [] := by decide

theorem test_decode_tableCounts_cut : decodeBits .tableCounts [I, I, I, O] = .ok (.tableCounts 7 0) [O] := by decide

theorem test_decode_selectors :
    [[O], [I, O], [I, I, O], [I, I, I, O], [I, I, I, I, O], [I, I, I, I, I, O], [I, I, I, I, I, I]].map (decodeBits (.selector 6)) =
      [.ok .selectorMtf0 [], .ok .selectorMtf1 [], .ok .selectorMtf2 [], .ok .selectorMtf3 [], .ok .selectorMtf4 [],
        .ok .selectorMtf5 [], .ok .selectorMtfBad []] := by decide

/-- Section 2.5: with two groups the second one-bit is the error. -/
theorem test_decode_selectorBad_two : decodeBits (.selector 2) [I, I, O] = .ok .selectorMtfBad [O] := by decide

/-- Section 2.5: the bits `00101 0 100 11110`. -/
theorem test_decode_codeLens :
    decodeBits .codeLenStart [O, O, I, O, I] = .ok (.codeLenStart 5) [] ∧ decodeBits .codeLen [O] = .ok .codeLenEnd [] ∧
      decodeBits .codeLen [I, O, O] = .ok .codeLenInc [O] ∧ decodeBits .codeLen [I, I, I, I, O] = .ok .codeLenDec [I, I, O] := by
  decide

/-- Section 2.3, the first row: `nInUse = 3`. -/
theorem test_decode_symbols :
    [[O, O], [O, I], [I, O], [I, I, O], [I, I, I]].map (decodeBits (.symbol [2, 2, 2, 3, 3] 3)) =
      [.ok .runA [], .ok .runB [], .ok (.mtf 2) [], .ok (.mtf 3) [], .ok .eob []] := by decide +kernel

/-- Section 2.3: an unassigned codeword. -/
theorem test_decode_unassigned : decodeBits (.symbol [2, 2, 2] 1) [I, I] = .rejected .tableMalformed 7 := by decide +kernel

theorem test_decode_rle1Unit :
    decodeBytes .rle1Unit [0x61, 0x61, 0x61, 0x61, 0x02] = .ok (.rle1Unit 0x61 2) [] ∧
      decodeBytes .rle1Unit [0x61, 0x61, 0x61, 0x62, 0x02] = .nothing := by decide +kernel

/-! ## Tables, selectors, runs, CRC (sections 2.3 to 2.8) -/

theorem test_table_gap :
    buildTable [1, 3, 3, 3, 3] = (⟨1, 3, [0, 1, 7], [0, 1, 3], [0, 1, 2, 3, 4]⟩, true) := by decide +kernel
theorem test_table_oversubscribed : (buildTable [1, 1, 2]).2 = false ∧ (buildTable (List.replicate 9 3)).2 = false := by decide +kernel
theorem test_codeword : codeword [1, 2, 3, 3] 2 = some (3, 6) := by decide
theorem test_decodeSelectors : decodeSelectors [1, 1, 0, 2] [0, 1, 2] = some ([1, 0, 0, 2], [2, 0, 1]) := by decide
theorem test_crc_a : crcFinal (crcUpdate crcInit 0x61) = 0x19939B6B := by decide +kernel
theorem test_fold : foldCrc 0x80000000 0 = 1 ∧ foldCrc 0xFFFFFFFF 0xFFFFFFFF = 0 := by decide
theorem test_readBits :
    readBits 7 { buf := 0xA5, live := 5, raw := 1, src := [0x0F, 0x3C], srcEnds := true, part := [] } =
      .got 20 { buf := 0xA50F, live := 6, raw := 2, src := [0x3C], srcEnds := true, part := [] } := by decide +kernel

/-! ## One step of each instruction -/

/-- Section 2.9. -/
theorem test_initContinuous :
    (after (exec .initContinuous (attachedTo [0x68, 0x31]))).map (fun s => (s.status, s.blockSize100k, s.rd.raw, s.closed)) =
      some (0, 1, 2, false) := by decide +kernel

theorem test_initContinuous_BZ :
    (after (exec .initContinuous (attachedTo [0x42, 0x5A, 0x68, 0x39]))).map (fun s => (s.status, s.rd.raw)) =
      some (0x12, 1) := by decide +kernel

/-- Section 2.2, `k = 9`. -/
theorem test_initByblock :
    (after (exec .initByblock (attachedTo [0x00, 0x18, 0xA0, 0xAC, 0x93, 0x29, 0xAC, 0xFF, 0xFF, 0x80]))).map
      (fun s => (s.result, s.reported, s.rd.raw, s.rd.live)) = some (0, 1, 8, 7) := by decide +kernel

/-- Section 2.2, a marker cut short. -/
theorem test_initByblock_none :
    (after (exec .initByblock (attachedTo [0x31, 0x41, 0x59, 0x26, 0x53]))).map (fun s => (s.status, s.reported, s.state)) =
      some (0, 5, .eof) := by decide +kernel

/-- Scenario A (section 1.1). -/
theorem test_readByte_empty_stream :
    (after (exec .readByte (opened .startBlock .continuous [0x17, 0x72, 0x45, 0x38, 0x50, 0x90, 0, 0, 0, 0]))).map
      (fun s => (s.status, s.result, s.state, s.rd.raw)) = some (0, -1, .eof, 12) := by decide +kernel

/-- Section 2.8, `ORIG_PTR = 1`: the first byte of `a b c a`. -/
theorem test_readByte_walk :
    (after (exec .readByte (walking .norandA))).map (fun s => (s.result, s.state, s.cur.tPos, s.cur.i2)) =
      some (0x61, .norandB, 3, 1) := by decide +kernel

/-- Section 2.10. -/
theorem test_readInto_checks :
    (after (exec .readInto { opened .eof .continuous [] with arg0 := 250, arg1 := 10 })).map (fun s => (s.status, s.err, s.errDetail)) =
      some (0x38, 8, 3) := by decide +kernel

/-- Section 2.8, `ORIG_PTR = 1`: `a b c a`. -/
theorem test_readInto_walk :
    (after (exec .readInto { walking .norandA with arg0 := 5, arg1 := 4 })).map (fun s => (s.result, s.out, crcFinal s.cur.blockCrc)) =
      some (4, [(5, 0x61), (6, 0x62), (7, 0x63), (8, 0x61)], 0x2A895820) := by decide +kernel

theorem test_getReported :
    (after (exec .getReported { opened .noProcess .byblock [] with reported := 39 })).map (fun s => (s.status, s.result, s.state)) =
      some (0, 39, .noProcess) := by decide

theorem test_adjustReported_wraps :
    (after (exec .adjustReported { opened .eof .byblock [] with reported := -1, arg0 := 0x80000000 })).map (·.reported) =
      some 0x7FFFFFFF := by decide

theorem test_close :
    (after (exec .close (opened .startBlock .byblock []))).map (fun s => (s.closed, s.status, s.result)) = some (true, 0, 0) := by
  decide

theorem test_reserved_open :
    (after (exec (.reserved 0x12) (opened .startBlock .byblock []))).map (fun s => (s.status, s.state, s.err, s.errDetail)) =
      some (0x18, .eof, 8, 1) := by decide

theorem test_reserved_closed : (after (exec (.reserved 0x07) State.reset)).map (fun s => (s.status, s.err)) = some (0x18, 0) := by
  decide

theorem test_streamHeader_colon :
    (after (exec (.streamHeader 0x3A) (busyAt .init .header []))).map (fun s => (s.status, s.ctl)) = some (0x22, .idle) := by decide

theorem test_blockMark_scan :
    (after (exec .blockMark { busyAt .init .scan [] with rd := { (opened .eof .byblock []).rd with live := 7, raw := 8 } })).map
      (fun s => (s.result, s.reported)) = some (0, 1) := by decide

theorem test_eosMark_mismatch :
    (after (exec (.eosMark 1) (busyAt .readByte .marker []))).map (fun s => (s.status, s.state)) = some (0x27, .eof) := by decide

theorem test_blockHeader :
    (after (exec (.blockHeader 0x5188D079 true 4) (busyAt .readByte .blockHeader []))).map
      (fun s => (s.blk.storedBlockCrc, s.blk.randomized, s.blk.origPtr)) = some (0x5188D079, true, 4) := by decide

theorem test_symbolMap :
    (after (exec (.symbolMap 0x0200 [0x4000]) (busyAt .readByte .symbolMap []))).map (fun s => (s.tab.seqToUnseq, s.blk.alphaSize)) =
      some ([0x61], 3) := by decide +kernel

theorem test_symbolMap_empty :
    (after (exec (.symbolMap 0 []) (busyAt .readByte .symbolMap []))).map (·.status) = some 0x14 := by decide +kernel

theorem test_tableCounts_groups :
    (after (exec (.tableCounts 7 0) (busyAt .readByte .tableCounts []))).map (·.status) = some 0x24 := by decide

theorem test_tableCounts_selectors :
    (after (exec (.tableCounts 6 18003) (busyAt .readByte .tableCounts []))).map (·.status) = some 0x34 := by decide

/-- A block of `g` groups and `n` selectors at its selector values, `vs` read. -/
def atSelector (g n : Nat) (vs : List Nat) : State :=
  { busyAt .readByte (.selector vs.length) [] with
    blk := { BlockRegs.reset with nGroups := g, nSelectors := n }, tab := { Tables.empty with selectorMtf := vs } }

/-- Section 2.5: with three groups, `[1, 1, 0, 2]` gives `[1, 0, 0, 2]`. -/
theorem test_selectorMtf0 : (after (exec .selectorMtf0 (atSelector 3 3 [1, 1]))).map (·.tab.selector) = some [1, 0, 0] := by decide
theorem test_selectorMtf1 : (after (exec .selectorMtf1 (atSelector 3 2 [1]))).map (·.tab.selector) = some [1, 0] := by decide
theorem test_selectorMtf2 :
    (after (exec .selectorMtf2 (atSelector 3 4 [1, 1, 0]))).map (fun s => (s.tab.selector, s.tab.pos)) =
      some ([1, 0, 0, 2], [2, 0, 1]) := by decide
theorem test_selectorMtf3 : (after (exec .selectorMtf3 (atSelector 3 1 []))).map (·.status) = some 0x44 := by decide
theorem test_selectorMtf4 : (after (exec .selectorMtf4 (atSelector 5 2 []))).map (·.ctl) = some (.busy .readByte (.selector 1)) := by
  decide
theorem test_selectorMtf5 : (after (exec .selectorMtf5 (atSelector 6 1 []))).map (·.tab.selector) = some [5] := by decide
theorem test_selectorMtfBad : (after (exec .selectorMtfBad (atSelector 2 1 []))).map (·.status) = some 0x44 := by decide

/-- A block of two groups and three symbols at a code length. -/
def atLength (ph : Phase) (lens : List (List Nat)) : State :=
  { busyAt .readByte ph [] with
    blk := { BlockRegs.reset with nGroups := 2, alphaSize := 3 }, tab := { Tables.empty with lens := lens } }

theorem test_codeLenStart_24 : (after (exec (.codeLenStart 24) (atLength (.codeLenStart 0) []))).map (·.status) = some 0x54 := by decide

theorem test_codeLenEnd_group :
    (after (exec .codeLenEnd (atLength (.codeLen 0 2 4) [[5, 6]]))).map (fun s => (s.tab.lens, s.ctl)) =
      some ([[5, 6, 4]], .busy .readByte (.codeLenStart 1)) := by decide

/-- Section 2.11: `[1, 1, 2]` is over-subscribed. -/
theorem test_codeLenEnd_tables :
    (after (exec .codeLenEnd (atLength (.codeLen 1 2 2) [[1, 1, 2], [1, 1]]))).map (·.status) = some 0x64 := by decide +kernel

theorem test_codeLenInc_23 : (after (exec .codeLenInc (atLength (.codeLen 0 0 23) [[]]))).map (·.status) = some 0x54 := by decide

theorem test_codeLenDec :
    (after (exec .codeLenDec (atLength (.codeLen 0 2 5) [[5, 6]]))).map (·.ctl) = some (.busy .readByte (.codeLen 0 2 4)) := by decide

/-- Section 2.4: `BA` is 4 and `AB` is 5. -/
theorem test_runA :
    (after (exec .runA { inSymbols true with blk := { (inSymbols true).blk with runAcc := 2, runW := 2 } })).map (·.blk.runAcc) =
      some 4 := by decide
theorem test_runB :
    (after (exec .runB { inSymbols true with blk := { (inSymbols true).blk with runAcc := 1, runW := 2 } })).map (·.blk.runAcc) =
      some 5 := by decide

/-- Section 2.4: the first symbol of the chain. -/
theorem test_mtf :
    (after (exec (.mtf 3) (inSymbols false))).map (fun s => (s.tab.yy.take 3, s.tab.ll8, s.blk.last)) =
      some ([2, 0, 1], [0x63], 0) := by decide +kernel

/-- Section 2.8, `ORIG_PTR = 1` and 4. -/
theorem test_eob :
    (after (exec .eob (inSymbolsEnd 1))).map (fun s => (s.tab.tt, s.cur.tPos, s.state)) = some ([1, 2, 3, 0], 2, .norandA) := by
  decide +kernel
theorem test_eob_origPtr : (after (exec .eob (inSymbolsEnd 4))).map (·.status) = some 0x16 := by decide +kernel

/-- A walk in which `n` bytes `a` have been counted. -/
def counted (n : Nat) : State :=
  { walking .norandB with
    ctl := .busy .readByte .walk, cur := { (walking .norandB).cur with count := n, ch2 := 0x61, chPrev := 0x61, i2 := 3, tPos := 0 } }

theorem test_rle1Unit :
    (after (exec (.rle1Unit 0x61 2) (counted 4))).map (fun s => (s.cur.z, s.cur.j2, s.state)) = some (2, 0, .norandC) := by decide

/-! ## A source that has not answered (U8), and reads before the response (R305) -/

/-- An INIT whose source has given `h` and nothing more yet. -/
def midHeader (src : List Byte) : State :=
  { State.reset with
    closed := false, blockSize100k := 9, ctl := .busy .init .header
    rd := { buf := 0x68, live := 0, raw := 1, src := src, srcEnds := false, part := [O, I, I, O, I, O, O, O] } }

/-- R73, R130: the answered byte stays counted while the command waits. -/
theorem test_wait_counts_raw :
    (after (exec .initContinuous { State.reset with attached := some ⟨[0x68], false⟩ })).map (fun s => (s.ctl, s.rd.raw, s.rd.part)) =
      some (.busy .init .header, 1, [O, I, I, O, I, O, O, O]) := by decide +kernel

/-- R233: and the header completes with the byte that comes later. -/
theorem test_wait_goes_on :
    (after (step (midHeader [0x39]))).map (fun s => (s.status, s.blockSize100k, s.rd.raw, s.ctl)) = some (0, 9, 2, .idle) := by
  decide +kernel

/-- A source says `EOF` after all (R233: the second byte is missing). -/
theorem test_wait_source_ends :
    (after (step { midHeader [] with script := [.endSource] })).map (fun s => (s.rd.srcEnds, s.rd.raw, s.ctl)) =
      some (true, 1, .busy .init .header) := by decide +kernel

/-- A scan of section 2.2, `k = 9`, that waits in the middle of the marker keeps its window. -/
def midScan (src : List Byte) : State :=
  { opened .eof .byblock src with
    ctl := .busy .init .scan
    rd := { buf := 0, live := 0, raw := 7, src := src, srcEnds := false, part := bitsMsb 48 0x18A0AC9329AC } }

theorem test_scan_goes_on :
    (after (step (midScan [0xFF]))).map (fun s => (s.result, s.reported, s.rd.raw, s.rd.live, s.rd.part)) =
      some (0, 1, 8, 7, []) := by decide +kernel

/-- U5, U6: a response or a byte of `OUT` read early is a fresh free value. -/
theorem test_early_reads_draw :
    (after (hostAct .readStatus (busyAt .init .header []))).map (·.draws) = some 1 ∧
      (after (hostAct (.readOut 3) (busyAt .readByte .marker []))).map (·.draws) = some 1 := by decide

/-! ## What the host asks of the model -/

theorem test_table_words :
    [decodeTableWord 32 0x11, decodeTableWord 16 0x6839, decodeTableWord 48 0x314159265359, decodeTableWord 8 0x06,
      decodeTableWord 8 0x02] =
      [some .initByblock, some (.streamHeader 0x39), some .blockMark, some .selectorMtf2, some .selectorMtf1] := by decide +kernel

theorem test_first_step_command : (after (step (State.reset.withFetchWord 32 0x01))).map (·.status) = some 0x12 := by decide +kernel

theorem test_first_step_token :
    (after (step (State.reset.withFetchWord 16 0x6839))).map (fun s => (s.blockSize100k, s.state)) = some (9, .startBlock) := by
  decide +kernel

/-! ## Witnesses: states and operands that meet the hypotheses of each statement -/

theorem params_ok {s : State} (h1 : s.outCap = 256) (h2 : s.rnums = Config.rnumsCandidate) : ParamsOk s := by
  have hr : Config.rnumsCandidate.length = 512 ∧ Config.rnumsCandidate.all (fun r => 1 ≤ r && r < 2 ^ 16) = true := by decide +kernel
  refine ⟨by rw [h1]; decide, by rw [h2]; exact hr.1, fun r h => ?_⟩
  rw [h2] at h
  simpa using List.all_eq_true.mp hr.2 r h

theorem core_ok {s : State} (h1 : s.outCap = 256) (h2 : s.rnums = Config.rnumsCandidate) (h3 : s.out = []) (h4 : s.closed = false)
    (h5 : s.blockSize100k = 9) (h6 : s.rd.live = 0) (h7 : s.rd.part = []) (h8 : s.err.toNat ≤ 8) : Core s :=
  ⟨params_ok h1 h2, by rw [OutOk, h3]; exact ⟨rfl, fun c h => by cases h⟩, h4, by omega, by omega, by omega, h7, h8⟩

theorem core_opened (st : StreamState) (m : Mode) (src : List Byte) : Core (opened st m src) :=
  core_ok rfl rfl rfl rfl rfl rfl rfl (Nat.zero_le 8)

theorem inv_reset : Inv State.reset :=
  ⟨params_ok rfl rfl, ⟨rfl, fun c h => by cases h⟩, fun _ => rfl, fun h => by cases h⟩

theorem inv_attached (src : List Byte) : Inv (attachedTo src) :=
  ⟨params_ok rfl rfl, ⟨rfl, fun c h => by cases h⟩, fun _ => rfl, fun h => by cases h⟩

theorem inv_startBlock (m : Mode) (src : List Byte) : Inv (opened .startBlock m src) :=
  inv_idle (core_opened _ _ _) rfl trivial fun _ => ⟨Nat.zero_le 7, rfl⟩

theorem inv_eof (m : Mode) (src : List Byte) : Inv (opened .eof m src) :=
  inv_idle (core_opened _ _ _) rfl trivial fun _ => ⟨Nat.zero_le 7, rfl⟩

theorem inv_noProcess (src : List Byte) : Inv (opened .noProcess .byblock src) :=
  inv_idle (core_opened _ _ _) rfl rfl fun _ => ⟨Nat.zero_le 7, rfl⟩

theorem inv_marker (src : List Byte) : Inv (busyAt .readByte .marker src) :=
  inv_busy (core_ok rfl rfl rfl rfl rfl rfl rfl (Nat.zero_le 8)) rfl trivial ⟨by decide, rfl, rfl⟩ fun _ => ⟨Nat.zero_le 7, rfl⟩

theorem inv_scan (src : List Byte) : Inv (busyAt .init .scan src) :=
  inv_busy (core_ok rfl rfl rfl rfl rfl rfl rfl (Nat.zero_le 8)) rfl trivial (.inl rfl) fun _ => ⟨Nat.zero_le 7, rfl⟩

theorem cap_nine {s : State} (h : s.blockSize100k = 9) : cap s = 900000 := by simp [cap, h, Config.baseBlockSize]

theorem walkOk_walking (st : StreamState) : WalkOk (walking st) :=
  ⟨rfl, by rw [cap_nine rfl]; show (4 : Int) ≤ 900000; omega, by show ([1, 2, 3, 0] : List Nat).Perm (List.range 4); decide, by show 2 < 4; omega,
    by show 0 ≤ 4; omega, by show 0 < 512; omega, by show 0 < 2 ^ 16; omega⟩

theorem ready_walking : Ready (walking .norandA) :=
  ⟨inv_idle (core_ok rfl rfl rfl rfl rfl rfl rfl (Nat.zero_le 8)) rfl ⟨rfl, walkOk_walking _, by decide⟩ fun _ => ⟨Nat.zero_le 7, rfl⟩,
    rfl, rfl, rfl⟩

theorem tables_built : buildTables (inSymbols false).tab.lens = ((inSymbols false).tab.tables, true) := by decide +kernel

theorem counts_end (p : BitVec 24) : (inSymbolsEnd p).tab.unzftab = counts (inSymbolsEnd p).tab.ll8 := by
  show ((List.replicate 256 0).set 0x61 2 |>.set 0x62 1).set 0x63 1 = counts [0x63, 0x61, 0x61, 0x62]
  decide +kernel

theorem inv_inSymbolsEnd (p : BitVec 24) : Inv (inSymbolsEnd p) := by
  have hm : (inSymbolsEnd p).tab.seqToUnseq = compact (inSymbolsEnd p).tab.inUse := by
    show ([0x61, 0x62, 0x63] : List Byte) = compact (markInUse (List.replicate 256 false) 6 0x7000)
    decide +kernel
  have hy : (inSymbolsEnd p).tab.yy.Perm (List.range 256) := by
    have hsplit : List.range 256 = [0, 1, 2] ++ (List.range 256).drop 3 := by decide +kernel
    show ([1, 0, 2] ++ (List.range 256).drop 3).Perm (List.range 256)
    conv => rhs; rw [hsplit]
    exact List.Perm.append_right _ (by decide)
  refine inv_busy (job := .readByte) (ph := .symbols false) (core_ok rfl rfl rfl rfl rfl rfl rfl (Nat.zero_le 8)) rfl trivial
    ⟨by decide, rfl, ⟨hm, rfl, by show 1 ≤ 3; omega, rfl⟩, ⟨by show 2 ≤ 2; omega, by show 2 ≤ 6; omega, by show 1 ≤ 1; omega,
      by show 1 ≤ 18002; omega⟩, ⟨rfl, ?_⟩, ⟨rfl, ?_, tables_built⟩, ⟨hy, ?_, by show 4 ≤ 50 * 1; omega,
      ⟨counts_end p, rfl, by rw [cap_nine rfl]; show (4 : Int) ≤ 900000; omega⟩⟩, fun h => by cases h⟩ fun _ => ⟨Nat.zero_le 7, rfl⟩
  · show ∀ g ∈ [0], g < 2
    decide
  · show ∀ row ∈ [[2, 2, 2, 3, 3], [2, 2, 2, 3, 3]], row.length = 5 ∧ ∀ l ∈ row, 1 ≤ l ∧ l ≤ 23
    decide
  · show ([1, 0, 2] : List Nat).Perm (List.range 3)
    decide

/-- `BLOCK_MARK`, and one byte before it (section 2.2). -/
def marked : List Byte := [0x31, 0x41, 0x59, 0x26, 0x53, 0x59]

theorem firstMark_zero : FirstMark (bitsOfBytes marked) 0 :=
  ⟨by show ((bitsOfBytes marked).drop 0).take 48 = bitsMsb 48 Config.blockMark; decide +kernel,
    fun p h => absurd h (Nat.not_lt_zero p)⟩

theorem firstMark_eight : FirstMark (bitsOfBytes (0x00 :: marked)) 8 := by
  have h : ((bitsOfBytes (0x00 :: marked)).drop 8).take 48 = bitsMsb 48 Config.blockMark ∧
      ∀ p : Fin 8, ((bitsOfBytes (0x00 :: marked)).drop p.1).take 48 ≠ bitsMsb 48 Config.blockMark := by decide +kernel
  exact ⟨h.1, fun p hp => h.2 ⟨p, hp⟩⟩

theorem noMark_nil (q : Nat) : ¬ MarkAt [] q := by
  intro h
  have h2 : ([] : List Bool) = bitsMsb 48 Config.blockMark := by simpa [MarkAt, markBits] using h
  exact absurd h2 (by decide +kernel)

theorem ahead_opened (st : StreamState) (m : Mode) (src : List Byte) : bitsAhead (opened st m src).rd = bitsOfBytes src := rfl

/-- The walk of `c a a b` with `n` bytes counted and `i` taken, the last one `a` and the one before it `p`. -/
def byteTaken (st : StreamState) (n i : Nat) (p : BitVec 9) : State :=
  { walking st with cur := { (walking st).cur with count := n, ch2 := 0x61, chPrev := p, i2 := i, tPos := 0 } }

theorem walkOk_byteTaken {st : StreamState} {n i : Nat} {p : BitVec 9} (h : i ≤ 4) : WalkOk (byteTaken st n i p) :=
  ⟨rfl, by rw [cap_nine rfl]; show (4 : Int) ≤ 900000; omega, by show ([1, 2, 3, 0] : List Nat).Perm (List.range 4); decide,
    by show 0 < 4; omega, h, by show 0 < 512; omega, by show 0 < 2 ^ 16; omega⟩

theorem inv_byteTaken {st : StreamState} {n i : Nat} {p : BitVec 9} (hs : StateOk (byteTaken st n i p)) : Inv (byteTaken st n i p) :=
  inv_idle (core_ok rfl rfl rfl rfl rfl rfl rfl (Nat.zero_le 8)) rfl hs fun _ => ⟨Nat.zero_le 7, rfl⟩

theorem inv_byteTaken_A {n i : Nat} {p : BitVec 9} (hn : n ≤ 3) (hi : i ≤ 4) : Inv (byteTaken .norandA n i p) :=
  inv_byteTaken ⟨rfl, walkOk_byteTaken hi, hn⟩

theorem inv_byteTaken_B {n i : Nat} {p : BitVec 9} (hn : n ≤ 3) (hi : i ≤ 4) : Inv (byteTaken .norandB n i p) :=
  inv_byteTaken ⟨rfl, walkOk_byteTaken hi, hn, by show (0x61 : BitVec 9).toNat ≤ 255; decide⟩

theorem inv_byteTaken_C {i : Nat} {p : BitVec 9} (hi : i ≤ 4) : Inv (byteTaken .norandC 4 i p) :=
  inv_byteTaken ⟨rfl, walkOk_byteTaken hi, rfl, by show (0x61 : BitVec 9).toNat ≤ 255; decide, Nat.zero_le _⟩

theorem witness_StepRunsCommandWord :
    { State.reset with script := [.writeCmd 0x12] }.ctl = .idle ∧
      { State.reset with script := [.writeCmd 0x12] }.script = .writeCmd 0x12 :: [] ∧ State.reset.script = [] ∧
      (∀ w, HostAct.endSource ≠ .writeCmd w) := ⟨rfl, rfl, rfl, fun w h => by cases h⟩

theorem witness_StepRunsToken :
    Inv (busyAt .readByte .marker marked) ∧ (busyAt .readByte .marker marked).ctl = .busy .readByte .marker ∧
      expectOf (busyAt .readByte .marker marked) .marker = some .marker ∧
      decodeBits .marker (bitsSince (busyAt .readByte .marker marked).rd) = .ok .blockMark [] :=
  ⟨inv_marker _, rfl, rfl, by decide +kernel⟩

theorem inv_midHeader (src : List Byte) : Inv (midHeader src) := by
  refine ⟨params_ok rfl rfl, ⟨rfl, fun c h => by cases h⟩, (fun h => by cases h), fun _ => ⟨?_, ?_, ⟨Nat.zero_le 47, ?_⟩, ⟨Nat.zero_le 8, ?_⟩,
    trivial, rfl⟩⟩
  · show 1 ≤ 9; omega
  · show 9 ≤ 9; omega
  · refine ⟨?_, .inl (Nat.zero_le 7)⟩
    show boundary parseHeader [O, I, I, O, I, O, O, O]
    exact .inr ⟨Nat.le_refl 8, .inl rfl⟩
  · intro h; exact absurd rfl h

/-- Inside a token: the header whose first byte has been read, and the second has come. -/
theorem witness_StepRunsToken_held :
    Inv (midHeader [0x39]) ∧ expectOf (midHeader [0x39]) .header = some .header ∧ (midHeader [0x39]).ctl = .busy .init .header ∧
      decodeBits .header (bitsSince (midHeader [0x39]).rd) = .ok (.streamHeader 0x39) [] :=
  ⟨inv_midHeader _, rfl, rfl, by decide +kernel⟩

theorem witness_StepRunsToken_symbol :
    Inv (inSymbolsEnd 1) ∧ (inSymbolsEnd 1).ctl = .busy .readByte (.symbols false) ∧
      expectOf (inSymbolsEnd 1) (.symbols false) = some (.symbol [2, 2, 2, 3, 3] 3) :=
  ⟨inv_inSymbolsEnd 1, rfl, rfl⟩

theorem witness_StepRunsMarkerAndUnit :
    (Inv (busyAt .init .scan marked) ∧ (busyAt .init .scan marked).ctl = .busy .init .scan ∧
      FirstMark (bitsSince (busyAt .init .scan marked).rd) 0) ∧
    ((counted 3).ctl = .busy .readByte .walk ∧ (counted 3).state = .norandB ∧ (counted 3).cur.ch2 = (counted 3).cur.chPrev ∧
      (counted 3).cur.count = 3 ∧ ((counted 3).cur.i2 : Int) ≤ (counted 3).blk.last ∧
      (take { counted 3 with cur := { (counted 3).cur with count := 4 } }).isSome = true) :=
  ⟨⟨inv_scan _, rfl, firstMark_zero⟩, rfl, rfl, rfl, rfl, by decide, by decide⟩

theorem witness_StepTokenErrors :
    ({ inSymbols false with blk := { (inSymbols false).blk with symCount := 50 } }.ctl = .busy .readByte (.symbols false) ∧
      { inSymbols false with blk := { (inSymbols false).blk with symCount := 50 } }.blk.nSelectors ≤ 50 / 50) ∧
    (Inv (busyAt .readByte .marker [0, 0, 0, 0, 0, 0]) ∧
      decodeBits .marker (bitsSince (busyAt .readByte .marker [0, 0, 0, 0, 0, 0]).rd) = .rejected .badBlockHeader 0) ∧
    (Inv (busyAt .readByte .marker [0x31]) ∧ (busyAt .readByte .marker [0x31]).rd.srcEnds = true ∧
      decodeBits .marker (bitsSince (busyAt .readByte .marker [0x31]).rd) = .short .unexpectedEndOfStream 0) :=
  ⟨⟨rfl, by decide⟩, ⟨inv_marker _, by decide +kernel⟩, inv_marker _, rfl, by decide +kernel⟩

/-- A source that has not answered. -/
def waiting : State :=
  { busyAt .readByte .marker [0x31] with rd := { (busyAt .readByte .marker [0x31]).rd with srcEnds := false } }

theorem witness_StepTokenErrors_wait :
    Inv waiting ∧ waiting.rd.srcEnds = false ∧
      decodeBits .marker (bitsSince waiting.rd) = .short .unexpectedEndOfStream 0 :=
  ⟨inv_busy (core_ok rfl rfl rfl rfl rfl rfl rfl (Nat.zero_le 8)) rfl trivial ⟨by decide, rfl, rfl⟩ fun _ => ⟨Nat.zero_le 7, rfl⟩, rfl,
    by decide +kernel⟩

/-- A source that has not answered inside a scan. -/
def waitingScan : State :=
  { busyAt .init .scan [] with rd := { (busyAt .init .scan []).rd with srcEnds := false } }

theorem witness_StepTokenErrors_scan :
    (Inv (busyAt .init .scan []) ∧ (busyAt .init .scan []).ctl = .busy .init .scan ∧
      (∀ q, ¬ MarkAt (bitsSince (busyAt .init .scan []).rd) q) ∧ (busyAt .init .scan []).rd.srcEnds = true) ∧
    (Inv waitingScan ∧ waitingScan.ctl = .busy .init .scan ∧ (∀ q, ¬ MarkAt (bitsSince waitingScan.rd) q) ∧
      waitingScan.rd.srcEnds = false) :=
  ⟨⟨inv_scan _, rfl, noMark_nil, rfl⟩,
    inv_busy (core_ok rfl rfl rfl rfl rfl rfl rfl (Nat.zero_le 8)) rfl trivial (.inl rfl) fun _ => ⟨Nat.zero_le 7, rfl⟩, rfl,
    noMark_nil, rfl⟩

/-- READ_BYTE and READ_INTO begun, an INIT without an attached source, a command in progress, and a pass of READ_BYTE that goes on. -/
theorem witness_CommandRunsPasses :
    ((walking .norandA).ctl = .idle ∧ (walking .norandA).closed = false ∧
      readIntoCheck { walking .norandA with arg0 := 252, arg1 := 4 } = none ∧
      0 < lenOperand { walking .norandA with arg0 := 252, arg1 := 4 }) ∧
    State.reset.attached = none ∧
    (Inv (busyAt .readByte .marker marked) ∧ (busyAt .readByte .marker marked).ctl = .busy .readByte .marker) ∧
    (Inv (byteTaken .norandB 0 0 256) ∧ (byteTaken .norandB 0 0 256).ctl = .idle ∧ (byteTaken .norandB 0 0 256).closed = false ∧
      (after (step { byteTaken .norandB 0 0 256 with ctl := .busy .readByte .walk })).map (·.ctl) = some (.busy .readByte .walk)) :=
  ⟨⟨rfl, rfl, by decide, by decide⟩, rfl, ⟨inv_marker _, rfl⟩, inv_byteTaken_B (by omega) (by omega), rfl, rfl, by decide⟩

theorem witness_CommandWords :
    (0x12 : Word) ∉ [(0x01 : Word), 0x11, 0x02, 0x03, 0x04, 0x05, 0x06] ∧
      Instr.wellFormed (.reserved 0x12) = true ∧ encodeCmd (.reserved 0x12) = some 0x12 := by decide

theorem witness_TokenRoundTrip :
    expectOk (.selector 6) ∧ Instr.wellFormed .selectorMtf5 = true ∧
      encodeBits (.selector 6) .selectorMtf5 = some [I, I, I, I, I, O] := ⟨Nat.le_refl 6, rfl, rfl⟩

theorem witness_DecodedTokenEncodes :
    expectOk (.symbol [2, 2, 2, 3, 3] 3) ∧ decodeBits (.symbol [2, 2, 2, 3, 3] 3) [I, I, O, O] = .ok (.mtf 3) [O] :=
  ⟨⟨rfl, by decide, by decide, by decide, by decide +kernel⟩, by decide +kernel⟩

theorem witness_HuffmanDecodes :
    ([2, 2, 2, 3, 3] : List Nat).length = 3 + 2 ∧ (∀ l ∈ [2, 2, 2, 3, 3], 1 ≤ l ∧ l ≤ 23) ∧ (buildTable [2, 2, 2, 3, 3]).2 = true ∧
      encodeSym [2, 2, 2, 3, 3] 0 = some [O, O] ∧ encodeSym [2, 2, 2, 3, 3] 4 = some [I, I, I] :=
  ⟨rfl, by decide, by decide +kernel, by decide, by decide⟩

theorem witness_KraftBound : ([1, 1] : List Nat) ≠ [] ∧ ∀ l ∈ [1, 1], 1 ≤ l ∧ l ≤ 23 := by decide

theorem witness_ReadBits :
    (48 ≤ bitsLeft (opened .startBlock .continuous marked).rd) ∧
      (bitsLeft (opened .startBlock .continuous []).rd < 1 ∧ (opened .startBlock .continuous []).rd.srcEnds = true) ∧
      (bitsLeft { waiting.rd with src := [] } < 1 ∧ { waiting.rd with src := [] }.srcEnds = false) := by decide

theorem witness_InitByblock :
    (Inv (attachedTo marked) ∧ (attachedTo marked).ctl = .idle ∧ (attachedTo marked).attached = some ⟨marked, true⟩ ∧
      FirstMark (bitsOfBytes marked) 0) ∧
    (Inv (attachedTo (0x00 :: marked)) ∧ FirstMark (bitsOfBytes (0x00 :: marked)) 8) ∧
    (Inv (attachedTo []) ∧ (attachedTo []).attached = some ⟨[], true⟩ ∧ ∀ q, ¬ MarkAt (bitsOfBytes []) q) :=
  ⟨⟨inv_attached _, rfl, rfl, firstMark_zero⟩, ⟨inv_attached _, firstMark_eight⟩, inv_attached _, rfl, noMark_nil⟩

/-- The clauses' sources of InitContinuous, at the ends of the digit's range; each is met by the attached source itself. -/
theorem witness_InitContinuous :
    (∀ src : List Byte, Inv (attachedTo src) ∧ (attachedTo src).ctl = .idle ∧ (attachedTo src).attached = some ⟨src, true⟩) ∧
    (0x31 ≤ (0x31 : Byte).toNat ∧ (0x39 : Byte).toNat ≤ 0x39) ∧ ((0x30 : Byte).toNat < 0x31 ∧ 0x39 < (0x3A : Byte).toNat) ∧
    (0x67 : Byte) ≠ 0x68 :=
  ⟨fun src => ⟨inv_attached src, rfl, rfl⟩, by decide, by decide, by decide⟩

theorem witness_idle_open_and_closed :
    ((opened .eof .byblock []).ctl = .idle ∧ (opened .eof .byblock []).closed = false) ∧
      (State.reset.ctl = .idle ∧ State.reset.closed = true) := ⟨⟨rfl, rfl⟩, rfl, rfl⟩

/-- Section 2.10: `READ_INTO -1, 4`, `250, 10` and `0x7FFFFFFF, 1`. -/
theorem witness_CommandChecks :
    ({ opened .eof .byblock [] with arg0 := 0xFFFFFFFF, arg1 := 4 }.arg0.toInt < 0) ∧
      (0 ≤ (247 : Word).toInt ∧ 0 ≤ (10 : Word).toInt ∧ (247 : Word).toInt + (10 : Word).toInt > (opened .eof .byblock []).outCap) ∧
      (0x7FFFFFFF : Word).toInt + (1 : Word).toInt > (opened .eof .byblock []).outCap := by decide

theorem witness_CommandWhileBusy :
    waiting.ctl = .busy .readByte .marker ∧ (encodeCmd .close).isSome = true := ⟨rfl, rfl⟩

theorem witness_ReadsAtEndOfStream :
    (opened .eof .continuous []).state = .eof ∧
      (readIntoCheck { opened .eof .continuous [] with arg0 := 246, arg1 := 10 } = none ∧ 0 < (10 : Word).toInt) ∧
      readIntoCheck { opened .eof .continuous [] with arg0 := 256, arg1 := 0 } = none := ⟨rfl, ⟨by decide, by decide⟩, by decide⟩

theorem witness_ReadByteYields :
    ((walking .norandA).ctl = .idle ∧ (walking .norandA).closed = false ∧ (walking .norandA).state = .norandA ∧
      ((walking .norandA).cur.i2 : Int) ≤ (walking .norandA).blk.last ∧ (take (walking .norandA)).isSome = true) ∧
    ({ walking .norandC with cur := { (walking .norandC).cur with z := 255, j2 := 254 } }.state = .norandC ∧ 254 < (255 : Byte).toNat) :=
  ⟨⟨rfl, rfl, rfl, by decide, by decide⟩, rfl, by decide⟩

/-- A byte unlike the one before it; the third equal one; the fourth with no length byte left, and with one. -/
theorem witness_ReadByteYields_B :
    (Inv (byteTaken .norandB 0 1 256) ∧ (byteTaken .norandB 0 1 256).ctl = .idle ∧ (byteTaken .norandB 0 1 256).closed = false ∧
      (byteTaken .norandB 0 1 256).cur.ch2 ≠ (byteTaken .norandB 0 1 256).cur.chPrev) ∧
    (Inv (byteTaken .norandB 2 3 0x61) ∧ (byteTaken .norandB 2 3 0x61).cur.ch2 = (byteTaken .norandB 2 3 0x61).cur.chPrev ∧
      (byteTaken .norandB 2 3 0x61).cur.count + 1 < 4) ∧
    (Inv (byteTaken .norandB 3 4 0x61) ∧ ((byteTaken .norandB 3 4 0x61).cur.i2 : Int) > (byteTaken .norandB 3 4 0x61).blk.last) ∧
    (Inv (byteTaken .norandB 3 3 0x61) ∧ (byteTaken .norandB 3 3 0x61).cur.count = 3 ∧
      ((byteTaken .norandB 3 3 0x61).cur.i2 : Int) ≤ (byteTaken .norandB 3 3 0x61).blk.last ∧
      (take { byteTaken .norandB 3 3 0x61 with cur := { (byteTaken .norandB 3 3 0x61).cur with count := 4 } }).isSome = true) :=
  ⟨⟨inv_byteTaken_B (by omega) (by omega), rfl, rfl, by decide⟩, ⟨inv_byteTaken_B (by omega) (by omega), rfl, by decide⟩,
    ⟨inv_byteTaken_B (by omega) (by omega), by decide⟩, inv_byteTaken_B (by omega) (by omega), rfl, by decide, by decide⟩

/-- A `*_C` without a copy left (`Z = 0`), and an exhausted `*_A` with each CRC. -/
theorem witness_ReadByteYields_ends :
    (Inv (byteTaken .norandC 4 4 0x61) ∧ (byteTaken .norandC 4 4 0x61).ctl = .idle ∧ (byteTaken .norandC 4 4 0x61).closed = false ∧
      ¬ (byteTaken .norandC 4 4 0x61).cur.j2 < (byteTaken .norandC 4 4 0x61).cur.z.toNat) ∧
    (Inv (byteTaken .norandA 3 4 0x61) ∧ ((byteTaken .norandA 3 4 0x61).cur.i2 : Int) > (byteTaken .norandA 3 4 0x61).blk.last ∧
      (byteTaken .norandA 3 4 0x61).cur.blockCrc ^^^ 0xFFFFFFFF ≠ (byteTaken .norandA 3 4 0x61).blk.storedBlockCrc) ∧
    ((0xD576A7DF : Word) ^^^ 0xFFFFFFFF = (byteTaken .norandA 3 4 0x61).blk.storedBlockCrc) :=
  ⟨⟨inv_byteTaken_C (by omega), rfl, rfl, by decide⟩, ⟨inv_byteTaken_A (by omega) (by omega), by decide, by decide⟩, by decide⟩

theorem rawOk_opened (st : StreamState) (m : Mode) {src : List Byte} (h : src.length < 2 ^ 63) : RawOk (opened st m src).rd := by
  constructor
  · show (2 : DWord).toNat + src.length < 2 ^ 64
    have : (2 : DWord).toNat = 2 := rfl
    omega
  · show 0 ≤ _; exact Nat.zero_le _

theorem witness_EndOfBlockAcknowledged :
    (Inv (opened .noProcess .byblock marked) ∧ (opened .noProcess .byblock marked).ctl = .idle ∧
      (opened .noProcess .byblock marked).closed = false ∧ FirstMark (bitsAhead (opened .noProcess .byblock marked).rd) 0 ∧
      RawOk (opened .noProcess .byblock marked).rd) ∧
    (Inv (opened .noProcess .byblock []) ∧ (∀ q, ¬ MarkAt (bitsAhead (opened .noProcess .byblock []).rd) q) ∧
      (opened .noProcess .byblock []).rd.srcEnds = true) :=
  ⟨⟨inv_noProcess _, rfl, rfl, firstMark_zero, rawOk_opened _ _ (by decide)⟩, inv_noProcess _, noMark_nil, rfl⟩

/-- `READ_INTO 252, 4` in the walk: the last byte it may store is `OUT[255]`. -/
theorem witness_ReadInto :
    Ready { walking .norandA with arg0 := 252, arg1 := 4 } ∧
      readIntoCheck { walking .norandA with arg0 := 252, arg1 := 4 } = none ∧
      0 < lenOperand { walking .norandA with arg0 := 252, arg1 := 4 } :=
  ⟨⟨inv_idle (core_ok rfl rfl rfl rfl rfl rfl rfl (Nat.zero_le 8)) rfl ⟨rfl, walkOk_walking .norandA, by decide⟩ fun _ => ⟨Nat.zero_le 7, rfl⟩,
    rfl, rfl, rfl⟩, by decide, by decide⟩

theorem witness_Reads : Ready (walking .norandA) ∧ (walking .norandA).mode = .continuous := ⟨ready_walking, rfl⟩

theorem witness_ContinuousKeepsReported :
    Inv State.reset ∧ (after (exec .initContinuous State.reset)).isSome = true := ⟨inv_reset, by decide +kernel⟩

theorem rawOk_walking : RawOk (walking .norandA).rd := rawOk_opened .norandA .continuous (by decide)

theorem witness_ReportedMonotone :
    (Inv (attachedTo marked) ∧ (attachedTo marked).ctl = .idle ∧ (initReader (attachedTo marked)).srcEnds = true ∧
      (initReader (attachedTo marked)).src.length < 2 ^ 64) ∧
    Ready (walking .norandA) ∧ PosOk (walking .norandA) :=
  ⟨⟨inv_attached _, rfl, rfl, by decide⟩, ready_walking, rawOk_walking, Nat.zero_le _, fun _ => Nat.zero_le _⟩

/-- A step of an INIT on a source of six bytes. -/
theorem witness_ReadsConsumeInOrder :
    (Ready (walking .norandA) ∧ RawOk (walking .norandA).rd) ∧
    (Inv (busyAt .init .scan marked) ∧ RawOk (busyAt .init .scan marked).rd ∧
      (initReader (busyAt .init .scan marked)).src.length < 2 ^ 64) :=
  ⟨⟨ready_walking, rawOk_walking⟩, inv_scan _, rawOk_opened .startBlock .continuous (by decide), by decide⟩

theorem witness_tokens_in_place :
    (busyAt .init .header []).ctl = .busy .init .header ∧ (busyAt .readByte .marker []).ctl = .busy .readByte .marker ∧
      ((busyAt .init .scan []).ctl = .busy .init .scan ∧ 48 + 0 ≤ 8 * 6) ∧
      (busyAt .readByte .blockHeader []).ctl = .busy .readByte .blockHeader ∧
      ((busyAt .readByte .symbolMap []).ctl = .busy .readByte .symbolMap ∧ (Instr.symbolMap 0x8001 [1, 2]).wellFormed = true) ∧
      (busyAt .readByte .tableCounts []).ctl = .busy .readByte .tableCounts :=
  ⟨rfl, rfl, ⟨rfl, by decide⟩, rfl, ⟨rfl, by decide⟩, rfl⟩

theorem witness_BlockStart (m : Mode) :
    { opened .startBlock m [] with ctl := .busy .readByte .walk }.ctl = .busy .readByte .walk ∧
      { opened .startBlock m [] with ctl := .busy .readByte .walk }.state = .startBlock ∧
      { opened .startBlock m [] with ctl := .busy .readByte .walk }.mode = m := ⟨rfl, rfl, rfl⟩

/-- The ends of the ranges of `nGroups` and `nSelectors`, in the clauses of TableCountsToken. -/
theorem witness_TableCountsToken :
    ((1 : BitVec 3).toNat < 2 ∧ 6 < (7 : BitVec 3).toNat) ∧ ((2 : BitVec 3).toNat ≤ 6 ∧ 2 ≤ (6 : BitVec 3).toNat) ∧
      ((0 : BitVec 15).toNat < 1 ∧ 18002 < (18003 : BitVec 15).toNat) ∧
      (1 ≤ (1 : BitVec 15).toNat ∧ (18002 : BitVec 15).toNat ≤ 18002) := by decide

theorem witness_SelectorTokens :
    (atSelector 2 1 []).ctl = .busy .readByte (.selector 0) ∧ (atSelector 2 1 []).blk.nGroups ≤ 2 ∧
      (1 < (atSelector 2 2 []).blk.nGroups ∧ 0 + 1 < (atSelector 2 2 []).blk.nSelectors) ∧
      (¬ 0 + 1 < (atSelector 2 1 []).blk.nSelectors ∧ ∀ w ∈ putEntry (atSelector 2 1 []).tab.selectorMtf 0 1, w < 2) := by decide

theorem witness_MoveToFront : ([3, 1, 2] : List Nat)[2]? = some 2 ∧ moveToFront [3, 1, 2] 2 = some (2, [2, 3, 1]) := by decide

theorem witness_CodeLengthTokens :
    (atLength (.codeLenStart 1) []).ctl = .busy .readByte (.codeLenStart 1) ∧
      (atLength (.codeLen 0 0 23) [[]]).ctl = .busy .readByte (.codeLen 0 0 23) ∧ (atLength (.codeLen 0 0 23) [[]]).tab.lens[0]? = some [] ∧
      (0 + 1 < (atLength (.codeLen 0 0 23) [[]]).blk.alphaSize) ∧
      (¬ 2 + 1 < (atLength (.codeLen 0 2 1) [[1, 1]]).blk.alphaSize ∧ 0 + 1 < (atLength (.codeLen 0 2 1) [[1, 1]]).blk.nGroups) ∧
      ¬ 1 + 1 < (atLength (.codeLen 1 2 1) [[1, 1, 1], [1, 1]]).blk.nGroups := by decide

theorem witness_RunDigits (b : Bool) : (inSymbols b).ctl = .busy .readByte (.symbols b) := rfl

/-- The capacity's edge: with one byte written, a run of 899999 fills the block and one of 900000 overruns it. -/
def runOf (n : Nat) : State :=
  { inSymbols true with
    blk := { (inSymbols true).blk with last := 0, runAcc := n }, tab := { (inSymbols true).tab with ll8 := [0x61] } }

theorem witness_RunFlush :
    (runOf 900000).ctl = .busy .readByte (.symbols true) ∧
      ((runOf 900000).blk.last + (runOf 900000).blk.runAcc ≥ ((runOf 900000).blockSize100k * 100000 : Nat)) ∧
      ((runOf 899999).blk.last + (runOf 899999).blk.runAcc < ((runOf 899999).blockSize100k * 100000 : Nat)) ∧
      (runOf 899999).tab.yy[0]? = some 0 ∧ (runOf 899999).tab.seqToUnseq[0]? = some 0x61 ∧
      (runOf 899999).tab.unzftab[(0x61 : Byte).toNat]? = some 0 := by decide +kernel

theorem witness_MtfToken :
    (inSymbols false).ctl = .busy .readByte (.symbols false) ∧ 3 ≤ (inSymbols false).blk.nInUse ∧
      (inSymbols false).tab.yy[3 - 1]? = some 2 ∧
      (inSymbols false).blk.last + 1 < ((inSymbols false).blockSize100k * 100000 : Nat) ∧
      (inSymbols false).tab.seqToUnseq[2]? = some 0x63 ∧ (inSymbols false).tab.unzftab[(0x63 : Byte).toNat]? = some 0 := by
  decide +kernel

/-- `ORIG_PTR = LAST` and `LAST + 1`. -/
theorem witness_EobToken :
    (Inv (inSymbolsEnd 3) ∧ (inSymbolsEnd 3).ctl = .busy .readByte (.symbols false) ∧
      ((inSymbolsEnd 3).blk.origPtr.toNat : Int) ≤ (inSymbolsEnd 3).blk.last) ∧
    (Inv (inSymbolsEnd 4) ∧ ((inSymbolsEnd 4).blk.origPtr.toNat : Int) > (inSymbolsEnd 4).blk.last) :=
  ⟨⟨inv_inSymbolsEnd 3, rfl, by decide⟩, inv_inSymbolsEnd 4, by decide⟩

theorem witness_Rle1UnitToken :
    (counted 4).ctl = .busy .readByte .walk ∧ (counted 4).state = .norandB ∧ (counted 4).cur.count = 4 ∧
      (counted 4).cur.ch2 = (0x61 : Byte).zeroExtend 9 := ⟨rfl, rfl, rfl, rfl⟩

theorem witness_CompareStep :
    ({ counted 1 with cur := { (counted 1).cur with chPrev := 256 } }.cur.ch2 ≠ 256) ∧ ((counted 2).cur.count + 1 < 4) ∧
      ({ counted 3 with cur := { (counted 3).cur with i2 := 4 } }.cur.i2 > (3 : Int)) ∧
      ((counted 3).cur.ch2.toNat ≤ 255 ∧ ((counted 3).cur.i2 : Int) ≤ (counted 3).blk.last ∧
        (take { counted 3 with cur := { (counted 3).cur with count := 4 } }).isSome = true) ∧
      ({ counted 4 with state := .norandC }.state = .norandC ∧ ¬ (counted 4).cur.j2 < (counted 4).cur.z.toNat) := by decide

/-- Section 2.7 and R205: not randomised; randomised at a reload (`RNUMS[0] = 619`), and with the count at 2; and under the invariant. -/
theorem witness_TakesByte :
    ((walking .norandA).tab.ll8[(walking .norandA).cur.tPos]? = some 0x61 ∧
      (walking .norandA).tab.tt[(walking .norandA).cur.tPos]? = some 3 ∧ (walking .norandA).blk.randomized = false) ∧
    ((walking .norandA).cur.rnToGo = 0 ∧ (walking .norandA).rnums[(walking .norandA).cur.rtPos]? = some 619) ∧
    ({ walking .norandA with cur := { (walking .norandA).cur with rnToGo := 2 } }.cur.rnToGo ≠ 0) ∧
    Inv (walking .norandA) ∧ (walking .norandA).closed = false ∧ (walking .norandA).ctl = .idle :=
  ⟨⟨by decide, by decide, rfl⟩, ⟨rfl, by decide +kernel⟩, by decide, ready_walking.1, rfl, rfl⟩

/-- The end of the block `c a a b`: the CRC of `a b c a` is stored, and then another. -/
def ended (crc : Word) : State :=
  { walking .norandA with
    ctl := .busy .readByte .walk, cur := { (walking .norandA).cur with i2 := 4, blockCrc := crc } }

theorem witness_EndOfBlockStep :
    ((ended 0).ctl = .busy .readByte .walk ∧ (ended 0).state = .norandA ∧ ((ended 0).cur.i2 : Int) > (ended 0).blk.last) ∧
      ((ended 0).cur.blockCrc ^^^ 0xFFFFFFFF ≠ (ended 0).blk.storedBlockCrc) ∧
      ((ended 0xD576A7DF).cur.blockCrc ^^^ 0xFFFFFFFF = (ended 0xD576A7DF).blk.storedBlockCrc) := by decide

theorem witness_DerandomiserPositions :
    Config.rnumsCandidate.length = 512 ∧ (∀ r ∈ Config.rnumsCandidate, 2 ≤ r) ∧ Cursor.reset.rnToGo = 0 ∧ Cursor.reset.rtPos = 0 ∧
      617 + 2 = reloadAt Config.rnumsCandidate (0 + 1) := by decide +kernel

theorem witness_MemoryCanonical :
    Memory.wf ([(0, 1), (5, 0x61)] : Memory) = true ∧ Memory.wf ([] : Memory) = true := by decide

theorem witness_PortAccess :
    State.reset.ctl = .idle ∧ waiting.ctl ≠ .idle ∧ waiting.rd.srcEnds = false ∧ State.reset.rd.srcEnds = true := by decide

/-- The ends of the range of a READ_INTO in progress, of `OUT_CAP`, and of what lies between. -/
theorem witness_OutputBufferHazard :
    inReadRange 10 (busyAt (.readInto 10 4 0) .walk []) = true ∧ inReadRange 13 (busyAt (.readInto 10 4 0) .walk []) = true ∧
      inReadRange 9 (busyAt (.readInto 10 4 0) .walk []) = false ∧ inReadRange 14 (busyAt (.readInto 10 4 0) .walk []) = false ∧
      (busyAt (.readInto 10 4 0) .walk []).outCap ≤ 256 ∧ 255 < (busyAt (.readInto 10 4 0) .walk []).outCap ∧
      (busyAt (.readInto 10 4 0) .walk []).ctl ≠ .idle ∧ (walking .norandA).ctl = .idle := by decide

theorem nextActOk_nil {s : State} (h : s.script = []) : NextActOk s := by
  intro a ha
  rw [h] at ha
  cases ha

theorem witness_steps_from_inv :
    Inv State.reset ∧ NextActOk State.reset ∧ StatusOk State.reset ∧ (after (step State.reset)).isSome = true :=
  ⟨inv_reset, nextActOk_nil rfl, ⟨by decide, by decide, fun _ => rfl⟩, rfl⟩

theorem witness_steps_from_inv_busy : Inv (inSymbolsEnd 1) ∧ NextActOk (inSymbolsEnd 1) :=
  ⟨inv_inSymbolsEnd 1, nextActOk_nil rfl⟩

theorem witness_CommandsAnswer :
    Inv (attachedTo marked) ∧ (attachedTo marked).ctl = .idle ∧ (encodeCmd .initByblock).isSome = true ∧
      (initReader (attachedTo marked)).srcEnds = true := ⟨inv_attached _, rfl, rfl, rfl⟩

/-- The state the refused `READ_INTO 250, 10` of program P7 leaves. -/
theorem witness_FirstErrorKept :
    Inv { opened .eof .continuous [] with err := 8, errDetail := 3 } ∧
      { opened .eof .continuous [] with err := 8, errDetail := 3 }.err ≠ 0 :=
  ⟨inv_idle (core_ok rfl rfl rfl rfl rfl rfl rfl (Nat.le_refl 8)) rfl trivial fun h => absurd rfl h, by decide⟩

end Sys2Proof.Tests
end

/-! ## The host's step

What the host can do in one step: an action that is not a command, or a command word, of which only those of INIT and CLOSE
change more than a command in progress does. -/

namespace Sys2Proof.Machine

/-- R94, R95: a command word is one of the seven commands, or reserved; never a token. -/
theorem decodeCmd_cases (w : Word) :
    decodeCmd w = .initContinuous ∨ decodeCmd w = .initByblock ∨ decodeCmd w = .readByte ∨ decodeCmd w = .readInto ∨
      decodeCmd w = .getReported ∨ decodeCmd w = .adjustReported ∨ decodeCmd w = .close ∨ decodeCmd w = .reserved w := by
  unfold decodeCmd
  split
  · simp
  · split <;> simp

theorem hostStep_nil {s : State} (h : s.script = []) : hostStep s = .next s := by
  unfold hostStep; rw [h]

theorem hostStep_writeCmd {s : State} {w : Word} {rest : List HostAct} (h : s.script = .writeCmd w :: rest) :
    hostStep s = exec (decodeCmd w) { s with cmd := w, script := rest } := by
  unfold hostStep; rw [h]

theorem hostStep_act {s : State} {a : HostAct} {rest : List HostAct} (h : s.script = a :: rest) (ha : ∀ w, a ≠ .writeCmd w) :
    hostStep s = hostAct a { s with script := rest } := by
  unfold hostStep
  rw [h]
  cases a with
  | writeCmd w => exact absurd rfl (ha w)
  | _ => rfl

/-- Everything a step of the host can do. -/
theorem hostStep_cases {s t : State} (h : hostStep s = .next t) :
    t = s ∨ (∃ w rest, s.script = .writeCmd w :: rest ∧ exec (decodeCmd w) { s with cmd := w, script := rest } = .next t) ∨
      ∃ a rest, s.script = a :: rest ∧ hostAct a { s with script := rest } = .next t := by
  cases hs : s.script with
  | nil => rw [hostStep_nil hs] at h; cases h; exact .inl rfl
  | cons a rest =>
    by_cases ha : ∃ w, a = .writeCmd w
    · obtain ⟨w, rfl⟩ := ha
      rw [hostStep_writeCmd hs] at h
      exact .inr (.inl ⟨w, rest, rfl, h⟩)
    · rw [hostStep_act hs (not_exists.mp ha)] at h
      exact .inr (.inr ⟨a, rest, rfl, h⟩)

/-! ### Commands -/

theorem whenIdle_next {s t : State} {k : State → Outcome} : whenIdle s k = .next t ↔ s.ctl = .idle ∧ k s = .next t := by
  unfold whenIdle
  cases s.ctl <;> simp

theorem whenOpen_next {s t : State} {k : State → Outcome} :
    whenOpen s k = .next t ↔
      (s.closed = true ∧ t = raiseError .invalidArgument 4 s) ∨ (s.closed = false ∧ k s = .next t) := by
  unfold whenOpen
  cases s.closed <;> simp [eq_comm]

theorem kept_ctl (s : State) (c : Ctl) : Kept s { s with ctl := c } :=
  ⟨rfl, rfl, rfl, rfl, rfl, rfl, rfl, rfl, rfl, rfl, rfl⟩

theorem runCommand_kept {s t : State} (hi : Inv s) (h : runCommand s = .next t) : Kept s t := by
  obtain ⟨u, hu, -, hk, -⟩ := runCommand_answers s hi
  rw [h] at hu
  cases hu
  exact hk

/-- R231, check 2: a refused command changes nothing of `Kept`, so only the open block is to be looked at. -/
theorem kept_of_whenOpen {s t : State} {k : State → Outcome} (h : whenOpen s k = .next t)
    (hk : s.closed = false → k s = .next t → Kept s t) : Kept s t := by
  rcases whenOpen_next.mp h with ⟨-, rfl⟩ | ⟨ho, h⟩
  · exact kept_raise (Kept.refl s) _ _
  · exact hk ho h

theorem execReadByte_kept {s t : State} (hi : Inv s) (h : execReadByte s = .next t) : Kept s t := by
  obtain ⟨hc, h⟩ := whenIdle_next.mp h
  refine kept_of_whenOpen h fun ho h => ?_
  exact (kept_ctl s _).trans (runCommand_kept (inv_beginRead hi ho hc .readByte trivial (by decide)) h)

/-- The job of a READ_INTO that passed the checks (R231) is in order. -/
theorem jobOk_readInto {s : State} (h : readIntoCheck s = none) (hl : lenOperand s ≠ 0) :
    JobOk s (.readInto (offOperand s).toNat (lenOperand s).toNat 0) := by
  obtain ⟨h1, h2, h3⟩ := readIntoCheck_none h
  exact ⟨by omega, by omega⟩

theorem execReadInto_kept {s t : State} (hi : Inv s) (h : execReadInto s = .next t) : Kept s t := by
  obtain ⟨hc, h⟩ := whenIdle_next.mp h
  refine kept_of_whenOpen h fun ho h => ?_
  split at h
  · cases h; exact kept_raise (Kept.refl s) _ _
  · rename_i hr
    split at h
    · cases h; exact kept_respond (Kept.refl s) _
    · rename_i hl
      exact (kept_ctl s _).trans (runCommand_kept (inv_beginRead hi ho hc _ (jobOk_readInto hr hl) (by simp)) h)

theorem execGetReported_kept {s t : State} (h : execGetReported s = .next t) : Kept s t := by
  obtain ⟨-, h⟩ := whenIdle_next.mp h
  refine kept_of_whenOpen h fun _ h => ?_
  cases h
  exact kept_respond (Kept.refl s) _

theorem execAdjustReported_kept {s t : State} (h : execAdjustReported s = .next t) : Kept s t := by
  obtain ⟨-, h⟩ := whenIdle_next.mp h
  refine kept_of_whenOpen h fun _ h => ?_
  cases h
  exact ⟨rfl, rfl, rfl, rfl, rfl, rfl, rfl, rfl, rfl, rfl, rfl⟩

theorem execReserved_kept {w : Word} {s t : State} (h : execReserved w s = .next t) : Kept s t := by
  obtain ⟨-, h⟩ := whenIdle_next.mp h
  cases h
  exact kept_raise (Kept.refl s) _ _

theorem execInitContinuous_kept {s t : State} (hi : Inv s) (h : execInitContinuous s = .next t) :
    Kept (beginInit .continuous .header s) t :=
  runCommand_kept (inv_beginInit hi _ _ (.inl rfl)) (whenIdle_next.mp h).2

theorem execInitByblock_kept {s t : State} (hi : Inv s) (h : execInitByblock s = .next t) :
    Kept (beginInit .byblock .scan s) t :=
  runCommand_kept (inv_beginInit hi _ _ (.inr rfl)) (whenIdle_next.mp h).2

theorem execClose_eq_of_next {s t : State} (h : execClose s = .next t) :
    t = respond 0 (if s.closed then s else closeInstance s) := by
  obtain ⟨-, h⟩ := whenIdle_next.mp h
  cases h
  rfl

/-- Everything a command word does to what `Kept` speaks of: only INIT and CLOSE change any of it. -/
theorem exec_decodeCmd_cases {w : Word} {s t : State} (hi : Inv s) (h : exec (decodeCmd w) s = .next t) :
    Kept s t ∨ (decodeCmd w = .initContinuous ∧ Kept (beginInit .continuous .header s) t) ∨
      (decodeCmd w = .initByblock ∧ Kept (beginInit .byblock .scan s) t) ∨
      (decodeCmd w = .close ∧ t = respond 0 (if s.closed then s else closeInstance s)) := by
  rcases decodeCmd_cases w with hw | hw | hw | hw | hw | hw | hw | hw <;> rw [hw] at h
  · exact .inr (.inl ⟨hw, execInitContinuous_kept hi h⟩)
  · exact .inr (.inr (.inl ⟨hw, execInitByblock_kept hi h⟩))
  · exact .inl (execReadByte_kept hi h)
  · exact .inl (execReadInto_kept hi h)
  · exact .inl (execGetReported_kept h)
  · exact .inl (execAdjustReported_kept h)
  · exact .inr (.inr (.inr ⟨hw, execClose_eq_of_next h⟩))
  · exact .inl (execReserved_kept (w := w) h)

/-- R305: every command word first asks that no command runs. -/
theorem exec_decodeCmd_whenIdle (w : Word) : ∃ k, ∀ s : State, exec (decodeCmd w) s = whenIdle s k := by
  rcases decodeCmd_cases w with hw | hw | hw | hw | hw | hw | hw | hw <;> rw [hw] <;> exact ⟨_, fun _ => rfl⟩

/-- R305, U4: no command word is run while a command is in progress. -/
theorem idle_of_exec_decodeCmd {w : Word} {s t : State} (h : exec (decodeCmd w) s = .next t) : s.ctl = .idle := by
  obtain ⟨k, hk⟩ := exec_decodeCmd_whenIdle w
  rw [hk] at h
  exact (whenIdle_next.mp h).1

/-- `Inv` does not speak of `CMD` and of the coming actions. -/
theorem Inv.writeCmd {s : State} (h : Inv s) (w : Word) (rest : List HostAct) : Inv { s with cmd := w, script := rest } := h

end Sys2Proof.Machine

/-! ## The writers of the control registers

R9, R21, R22: who writes the parameters, `CLOSED` and `MODE`. -/

namespace Sys2Proof.Machine

/-- The parameters, `CLOSED` and `MODE` are kept. -/
structure ControlKept (s t : State) : Prop where
  outCap : t.outCap = s.outCap
  rnums : t.rnums = s.rnums
  closed : t.closed = s.closed
  mode : t.mode = s.mode

theorem Kept.control {s t : State} (h : Kept s t) : ControlKept s t := ⟨h.outCap, h.rnums, h.closed, h.mode⟩

theorem ControlKept.refl (s : State) : ControlKept s s := ⟨rfl, rfl, rfl, rfl⟩

theorem ControlKept.trans {a b c : State} (h : ControlKept a b) (k : ControlKept b c) : ControlKept a c :=
  ⟨k.outCap.trans h.outCap, k.rnums.trans h.rnums, k.closed.trans h.closed, k.mode.trans h.mode⟩

theorem controlKept_script (s : State) (rest : List HostAct) : ControlKept s { s with script := rest } := ⟨rfl, rfl, rfl, rfl⟩

theorem hostReads_controlKept {n : Nat} (v : BitVec n) (s : State) : ControlKept s (hostReads v s) := by
  unfold hostReads
  split <;> exact ⟨rfl, rfl, rfl, rfl⟩

/-- An action of the host or the source that is not a command writes none of them. -/
theorem hostAct_controlKept {a : HostAct} {s t : State} (h : hostAct a s = .next t) : ControlKept s t := by
  cases a with
  | writeArg0 | writeArg1 | writeCmd | attach | endSource => cases h; exact ⟨rfl, rfl, rfl, rfl⟩
  | readStatus | readResult => cases h; exact hostReads_controlKept _ s
  | readOut o =>
    simp only [hostAct] at h
    split at h
    · cases h; exact hostReads_controlKept _ s
    · cases h
  | writeOut o v =>
    simp only [hostAct] at h
    split at h
    · cases h
    · split at h
      · rename_i hw
        cases h
        obtain ⟨-, rfl⟩ := outWrite_cases hw
        exact ⟨rfl, rfl, rfl, rfl⟩
      · cases h
  | deliver bytes =>
    simp only [hostAct] at h
    split at h
    · cases h
    · cases h; exact ⟨rfl, rfl, rfl, rfl⟩

/-- A step of the host that runs no command writes none of them. -/
theorem hostStep_control_cases {s t : State} (h : hostStep s = .next t) :
    ControlKept s t ∨
      ∃ w rest, s.script = .writeCmd w :: rest ∧ exec (decodeCmd w) { s with cmd := w, script := rest } = .next t := by
  rcases hostStep_cases h with rfl | hcmd | ⟨a, rest, -, ha⟩
  · exact .inl (ControlKept.refl _)
  · exact .inr hcmd
  · exact .inl ((controlKept_script s rest).trans (hostAct_controlKept ha))

/-- A step while a command is in progress writes none of them: the command does not, and where it waits no command word is run. -/
theorem step_controlKept_of_busy {s t : State} {job : Job} {ph : Phase} (hi : Inv s) (hb : s.ctl = .busy job ph)
    (h : step s = .next t) : ControlKept s t := by
  rcases step_cases hi hb with ⟨u, hu, -, v, hv, -, hk, -⟩ | ⟨w, hw, -, -, hk, hwc, -⟩
  · cases hv
    rw [h] at hu
    cases hu
    exact hk.control
  · rw [hw] at h
    rcases hostStep_control_cases h with hc | ⟨c, rest, -, hc⟩
    · exact hk.control.trans hc
    · have hidle := idle_of_exec_decodeCmd hc
      exact absurd (hidle.symm.trans (hwc.trans hb)) (by simp)

/-- Instruction `i` is INIT or CLOSE, and in `t` stand the `CLOSED` and the `MODE` it writes. CLOSE leaves `MODE` unspecified (R249). -/
def WritesControl (i : Instr) (t : State) : Prop :=
  (i = .initContinuous ∧ t.closed = false ∧ t.mode = .continuous) ∨
    (i = .initByblock ∧ t.closed = false ∧ t.mode = .byblock) ∨ (i = .close ∧ t.closed = true)

/-- What a command word writes of the four: nothing of the parameters, and `CLOSED` and `MODE` only if it is INIT or CLOSE. -/
theorem exec_decodeCmd_control {w : Word} {s t : State} (hi : Inv s) (h : exec (decodeCmd w) s = .next t) :
    t.outCap = s.outCap ∧ t.rnums = s.rnums ∧ ((t.closed = s.closed ∧ t.mode = s.mode) ∨ WritesControl (decodeCmd w) t) := by
  rcases exec_decodeCmd_cases hi h with hk | ⟨hw, hk⟩ | ⟨hw, hk⟩ | ⟨hw, rfl⟩
  · exact ⟨hk.outCap, hk.rnums, .inl ⟨hk.closed, hk.mode⟩⟩
  · exact ⟨hk.outCap, hk.rnums, .inr (.inl ⟨hw, hk.closed, hk.mode⟩)⟩
  · exact ⟨hk.outCap, hk.rnums, .inr (.inr (.inl ⟨hw, hk.closed, hk.mode⟩))⟩
  · by_cases hc : s.closed = true
    · rw [if_pos hc]; exact ⟨rfl, rfl, .inl ⟨rfl, rfl⟩⟩
    · rw [if_neg hc]; exact ⟨rfl, rfl, .inr (.inr (.inr ⟨hw, rfl⟩))⟩

/-- Settles O59: a step that runs no command word keeps the four, whether the machine is idle or busy; a command word writes
`CLOSED` and `MODE` only if it is INIT or CLOSE. -/
theorem modeAndClosedWriters : Obligations.ModeAndClosedWriters := by
  intro s t hi h
  cases hc : s.ctl with
  | busy job ph =>
    have hk := step_controlKept_of_busy hi hc h
    exact ⟨hk.outCap, hk.rnums, .inl ⟨hk.closed, hk.mode⟩⟩
  | idle =>
    rw [step_idle hc] at h
    rcases hostStep_control_cases h with hk | ⟨w, rest, hs, he⟩
    · exact ⟨hk.outCap, hk.rnums, .inl ⟨hk.closed, hk.mode⟩⟩
    · obtain ⟨ho, hr, hm⟩ := exec_decodeCmd_control (hi.writeCmd w rest) he
      exact ⟨ho, hr, hm.imp_right fun hw => ⟨w, rest, rfl, hs, hw⟩⟩

end Sys2Proof.Machine

/-! ## Reset

R54, R300: the state after hardware reset. -/

namespace Sys2Proof.Machine

/-- Settles O1: each value is the one `State.reset` gives, and with no coming action of the host the idle machine stays. -/
theorem resetState : Obligations.ResetState :=
  ⟨rfl, rfl, rfl, rfl, rfl, rfl, rfl, rfl, rfl, rfl, (step_idle rfl).trans (hostStep_nil rfl)⟩

/-- The parameters the model resets to are in the ranges of R9. -/
theorem paramsOk_reset : ParamsOk State.reset := by
  unfold ParamsOk
  decide +kernel

/-- Settles O2: the parameters are in range, `OUT` is empty, and of a closed block `Inv` asks no more but that it is idle. -/
theorem resetInvariant : Obligations.ResetInvariant :=
  ⟨paramsOk_reset, ⟨rfl, fun _ h => nomatch h⟩, fun _ => rfl, fun h => nomatch h⟩

end Sys2Proof.Machine

/-! ## What the host and the source write

One statement of everything an action of the host or the source other than a command can change (R62, R90, R302, R306), and what it
keeps: the invariant, and it happens where its duty is kept. -/

namespace Sys2Proof.Machine

/-- `s` with what the host and the source write taken from `u`: the port, the model's record of a read, `OUT`, the source. -/
def hostWrites (s u : State) : State :=
  { s with
    cmd := u.cmd, arg0 := u.arg0, arg1 := u.arg1, hostData := u.hostData, draws := u.draws, attached := u.attached
    out := u.out, rd := { s.rd with src := u.rd.src, srcEnds := u.rd.srcEnds } }

theorem hostReads_writes {n : Nat} (v : BitVec n) (s : State) :
    hostReads v s = hostWrites s (hostReads v s) ∧ (hostReads v s).out = s.out := by
  unfold hostReads
  split <;> exact ⟨rfl, rfl⟩

theorem outOk_memWrite {s : State} (h : OutOk s) {a : Nat} (ha : a < s.outCap) (v : Byte) :
    OutOk { s with out := memWrite s.out a v } := by
  refine ⟨wf_memWrite _ _ _ h.1, fun c hc => ?_⟩
  rcases mem_memWrite _ _ _ _ hc with hc | hc
  · exact hc ▸ ha
  · exact h.2 c hc

/-- Everything an action of the host or the source other than a command can do. -/
theorem hostAct_cases {a : HostAct} {s t : State} (h : hostAct a s = .next t) :
    t = hostWrites s t ∧ (t.out = s.out ∨ ∃ o v, o < s.outCap ∧ t.out = memWrite s.out o v) := by
  cases a with
  | writeArg0 | writeArg1 | writeCmd | attach | endSource => cases h; exact ⟨rfl, .inl rfl⟩
  | readStatus | readResult => cases h; exact (hostReads_writes _ s).imp_right .inl
  | readOut o =>
    simp only [hostAct] at h
    split at h
    · cases h; exact (hostReads_writes _ s).imp_right .inl
    · cases h
  | writeOut o v =>
    simp only [hostAct] at h
    split at h
    · cases h
    · split at h
      · rename_i hw
        cases h
        obtain ⟨ho, rfl⟩ := outWrite_cases hw
        exact ⟨rfl, .inr ⟨o, v, ho, rfl⟩⟩
      · cases h
  | deliver bytes =>
    simp only [hostAct] at h
    split at h
    · cases h
    · cases h; exact ⟨rfl, .inl rfl⟩

/-- Of what the host and the source write, `Inv` speaks of `OUT` only. -/
theorem inv_hostWrites {s u : State} (h : Inv s) (ho : OutOk (hostWrites s u)) : Inv (hostWrites s u) := by
  obtain ⟨hp, -, hc, hopen⟩ := h
  exact ⟨hp, ho, hc, hopen⟩

theorem hostAct_inv {a : HostAct} {s t : State} (hi : Inv s) (h : hostAct a s = .next t) : Inv t := by
  obtain ⟨ht, hout⟩ := hostAct_cases h
  rw [ht]
  refine inv_hostWrites hi ?_
  change Memory.wf t.out = true ∧ ∀ c ∈ t.out, c.1 < s.outCap
  rcases hout with hout | ⟨o, v, ho, hout⟩ <;> rw [hout]
  · exact hi.2.1
  · exact outOk_memWrite hi.2.1 ho v

/-- An action that keeps its duty happens. -/
theorem hostAct_next {a : HostAct} {s : State} (h : HostDuty s a) : ∃ t, hostAct a s = .next t := by
  cases a with
  | writeArg0 | writeArg1 | writeCmd | readStatus | readResult | attach | endSource => exact ⟨_, rfl⟩
  | readOut o => exact ⟨_, if_pos h⟩
  | writeOut o v =>
    obtain ⟨ho, hr⟩ := h
    refine ⟨{ s with out := memWrite s.out o v }, ?_⟩
    simp [hostAct, hr, outWrite, ho]
  | deliver bytes =>
    change s.rd.srcEnds = false at h
    exact ⟨_, if_neg (by simp [h])⟩

/-- A duty asks only for what a wait keeps: the control point, `OUT_CAP` and whether the source has ended. -/
theorem HostDuty.congr {s t : State} {a : HostAct} (h : HostDuty s a) (hc : t.ctl = s.ctl) (ho : t.outCap = s.outCap)
    (he : t.rd.srcEnds = s.rd.srcEnds) : HostDuty t a := by
  cases a with
  | writeArg0 | writeArg1 | readStatus | readResult | attach | endSource => trivial
  | writeCmd w => exact hc.trans h
  | readOut o => exact h.trans_eq ho.symm
  | deliver bytes => exact he.trans h
  | writeOut o v =>
    obtain ⟨h1, h2⟩ := h
    refine ⟨h1.trans_eq ho.symm, ?_⟩
    rw [inReadRange, hc]
    exact h2

end Sys2Proof.Machine

/-! ## Commands as a whole

What each command word does from a state with the invariant: it gives a next state with the invariant, and, unless it is CLOSE, it
reads the source in order and keeps the first error of the block it runs on (R24, R230, R231). -/

namespace Sys2Proof.Machine

/-- An error, once there is one, is kept with its detail (R275). -/
def ErrKept (s t : State) : Prop := s.err ≠ 0 → t.err = s.err ∧ t.errDetail = s.errDetail

theorem ErrKept.refl (s : State) : ErrKept s s := fun _ => ⟨rfl, rfl⟩

theorem ErrKept.trans {a b c : State} (h : ErrKept a b) (k : ErrKept b c) : ErrKept a c := by
  intro ha
  obtain ⟨h1, h2⟩ := h ha
  obtain ⟨k1, k2⟩ := k (h1 ▸ ha)
  exact ⟨k1.trans h1, k2.trans h2⟩

theorem RegKept.errKept {s t : State} (h : RegKept s t) : ErrKept s t := h.err

/-- A step of a command keeps the first error; in a scan there is none, by the invariant. -/
theorem commandStep_errKept {s t : State} {job : Job} {ph : Phase} (hi : Inv s) (hb : s.ctl = .busy job ph)
    (h : commandStep s = .ran (.next t)) : ErrKept s t := by
  by_cases hsc : ph = .scan
  · intro he
    subst hsc
    exact absurd (hi.err_zero (hi.busy hb).1 (reading_of_phase hb (by decide))) he
  · refine (commandStep_regKept h fun j hj => hsc ?_).errKept
    rw [hb] at hj
    exact (Ctl.busy.inj hj).2

theorem commandStep_waits_errKept {s w : State} (h : commandStep s = .waits w) : ErrKept s w := by
  unfold commandStep at h
  split at h
  · cases h
  · cases h
  · rename_i hn
    cases h
    exact (nextStep_wait_keeps hn).1.errKept

theorem runCommand_errKept {s t : State} (hi : Inv s) (h : runCommand s = .next t) : ErrKept s t := by
  refine runCommand_induct (P := fun s o => ∀ t, o = .next t → ErrKept s t) ?_ ?_ ?_ s hi t h
  · rintro s - - t ⟨⟩
    exact ErrKept.refl s
  · rintro s job ph w - - hw - t ⟨⟩
    exact commandStep_waits_errKept hw
  · rintro s job ph t hi hb hs - - - ih u hu
    exact (commandStep_errKept hi hb hs).trans (ih u (runCommand_step hi hb hs ▸ hu))

/-- What a command does with the block in `s`: it keeps the invariant, the port and the first error, it reads the source in
order, and it has answered where the source ends. -/
structure Answered (s t : State) : Prop where
  inv : Inv t
  kept : Kept s t
  err : ErrKept s t
  read : ∃ k, Consumed s.rd t.rd k
  idle : s.closed = true ∨ s.rd.srcEnds = true → t.ctl = .idle

theorem runCommand_answered {s : State} (hi : Inv s) (ho : s.closed = false) : ∃ t, runCommand s = .next t ∧ Answered s t := by
  obtain ⟨t, ht, hit, hk, hr, hidle⟩ := runCommand_answers s hi
  exact ⟨t, ht, hit, hk, runCommand_errKept hi ht, hr, fun h => hidle (h.resolve_left (by simp [ho]))⟩

/-- `Inv` of an idle state does not speak of the response, nor of `REPORTED`. -/
theorem Inv.respond {s : State} (h : Inv s) (hc : s.ctl = .idle) (v : DWord) (p : DWord) :
    Inv (respond v { s with reported := p }) := by
  have : Inv { s with ctl := .idle } := hc ▸ h
  exact this

theorem Inv.raise {s : State} (h : Inv s) (hc : s.ctl = .idle) (e : ErrKind) (d : Nat) : Inv (raiseError e d s) := by
  cases ho : s.closed with
  | false => exact inv_raise (h.core ho (.inl hc)) e d
  | true =>
    obtain ⟨hp, hout, -, -⟩ := h
    refine ⟨by simpa [ParamsOk] using hp, by simpa [OutOk] using hout, fun _ => by simp, fun h => ?_⟩
    simp [ho] at h

/-- A command that is refused raises its error and reads nothing. -/
theorem answered_raise {s : State} (hi : Inv s) (hc : s.ctl = .idle) (e : ErrKind) (d : Nat) : Answered s (raiseError e d s) :=
  ⟨hi.raise hc e d, kept_raise (Kept.refl s) e d, (regKept_raise e d s).errKept, ⟨0, by simpa using Consumed.refl s.rd⟩,
    fun _ => by simp⟩

/-- A command that answers at once reads nothing. -/
theorem answered_respond {s : State} (hi : Inv s) (hc : s.ctl = .idle) (v p : DWord) :
    Answered s (respond v { s with reported := p }) :=
  ⟨hi.respond hc v p, ⟨rfl, rfl, rfl, rfl, rfl, rfl, rfl, rfl, rfl, rfl, rfl⟩, ErrKept.refl s, ⟨0, Consumed.refl _⟩,
    fun _ => rfl⟩

/-- R231, check 2: a command that asks for an open block answers on every block if it does on an open one. -/
theorem whenOpen_answered {s : State} {k : State → Outcome} (hi : Inv s) (hc : s.ctl = .idle)
    (hk : s.closed = false → ∃ t, k s = .next t ∧ Answered s t) :
    ∃ t, whenIdle s (fun s => whenOpen s k) = .next t ∧ Answered s t := by
  simp only [whenIdle_next, whenOpen_next, hc, true_and]
  cases ho : s.closed with
  | true => exact ⟨_, .inl ⟨rfl, rfl⟩, answered_raise hi hc _ _⟩
  | false =>
    obtain ⟨t, ht, ha⟩ := hk ho
    exact ⟨t, .inr ⟨rfl, ht⟩, ha⟩

/-- A read that passed its checks runs its job (R242, R243). -/
theorem runRead_answered {s : State} (hi : Inv s) (hc : s.ctl = .idle) (ho : s.closed = false) {job : Job} (hj : JobOk s job)
    (hn : job ≠ .init) : ∃ t, runCommand { s with ctl := .busy job .walk } = .next t ∧ Answered s t := by
  obtain ⟨t, ht, ha⟩ := runCommand_answered (inv_beginRead hi ho hc job hj hn) ho
  exact ⟨t, ht, ha.inv, (kept_ctl s _).trans ha.kept, ha.err, ha.read, ha.idle⟩

theorem execReadByte_answered {s : State} (hi : Inv s) (hc : s.ctl = .idle) : ∃ t, execReadByte s = .next t ∧ Answered s t :=
  whenOpen_answered hi hc fun ho => runRead_answered hi hc ho trivial (by decide)

theorem execReadInto_answered {s : State} (hi : Inv s) (hc : s.ctl = .idle) : ∃ t, execReadInto s = .next t ∧ Answered s t := by
  refine whenOpen_answered hi hc fun ho => ?_
  split
  · exact ⟨_, rfl, answered_raise hi hc _ _⟩
  · rename_i hr
    split
    · exact ⟨_, rfl, answered_respond hi hc _ s.reported⟩
    · rename_i hl
      exact runRead_answered hi hc ho (jobOk_readInto hr hl) (by simp)

theorem execGetReported_answered {s : State} (hi : Inv s) (hc : s.ctl = .idle) :
    ∃ t, execGetReported s = .next t ∧ Answered s t :=
  whenOpen_answered hi hc fun _ => ⟨_, rfl, answered_respond hi hc s.reported s.reported⟩

theorem execAdjustReported_answered {s : State} (hi : Inv s) (hc : s.ctl = .idle) :
    ∃ t, execAdjustReported s = .next t ∧ Answered s t :=
  whenOpen_answered hi hc fun _ => ⟨_, rfl, answered_respond hi hc 0 _⟩

theorem execReserved_answered {s : State} (hi : Inv s) (hc : s.ctl = .idle) (w : Word) :
    ∃ t, execReserved w s = .next t ∧ Answered s t :=
  ⟨_, whenIdle_next.mpr ⟨hc, rfl⟩, answered_raise hi hc .invalidArgument 1⟩

theorem execInit_answered {s : State} (hi : Inv s) (hc : s.ctl = .idle) (m : Mode) {ph : Phase}
    (hph : ph = .header ∨ ph = .scan) :
    ∃ t, whenIdle s (fun s => runCommand (beginInit m ph s)) = .next t ∧ Answered (beginInit m ph s) t := by
  simp only [whenIdle_next, hc, true_and]
  exact runCommand_answered (inv_beginInit hi m ph hph) rfl

/-- CLOSE leaves a closed block, of which `Inv` says next to nothing (R249). -/
theorem execClose_closes {s : State} (hi : Inv s) (hc : s.ctl = .idle) :
    ∃ t, execClose s = .next t ∧ Inv t ∧ t.closed = true ∧ t.ctl = .idle := by
  obtain ⟨hp, hout, -, -⟩ := hi
  refine ⟨_, whenIdle_next.mpr ⟨hc, rfl⟩, ?_⟩
  have closed : ∀ u : State, ParamsOk u → OutOk u → u.closed = true → Inv (respond 0 u) := fun u h1 h2 h3 =>
    ⟨h1, h2, fun _ => rfl, fun h => absurd (h3.symm.trans h) (by decide)⟩
  split
  · exact ⟨closed s hp hout (by assumption), by assumption, rfl⟩
  · exact ⟨closed (closeInstance s) hp hout rfl, rfl, rfl⟩

/-- Everything a command word can do: it is answered by the block as it finds it, INIT by the block it opens, and CLOSE closes the
block. -/
def WordAnswered (w : Word) (s t : State) : Prop :=
  Answered s t ∨ (decodeCmd w = .initContinuous ∧ Answered (beginInit .continuous .header s) t) ∨
    (decodeCmd w = .initByblock ∧ Answered (beginInit .byblock .scan s) t) ∨
    (decodeCmd w = .close ∧ Inv t ∧ t.closed = true ∧ t.ctl = .idle)

theorem exec_decodeCmd_answered {s : State} (hi : Inv s) (hc : s.ctl = .idle) (w : Word) :
    ∃ t, exec (decodeCmd w) s = .next t ∧ WordAnswered w s t := by
  unfold WordAnswered
  rcases decodeCmd_cases w with hw | hw | hw | hw | hw | hw | hw | hw <;> rw [hw]
  · exact (execInit_answered hi hc .continuous (.inl rfl)).imp fun _ h => h.imp_right fun h => .inr (.inl ⟨rfl, h⟩)
  · exact (execInit_answered hi hc .byblock (.inr rfl)).imp fun _ h => h.imp_right fun h => .inr (.inr (.inl ⟨rfl, h⟩))
  · exact (execReadByte_answered hi hc).imp fun _ h => h.imp_right .inl
  · exact (execReadInto_answered hi hc).imp fun _ h => h.imp_right .inl
  · exact (execGetReported_answered hi hc).imp fun _ h => h.imp_right .inl
  · exact (execAdjustReported_answered hi hc).imp fun _ h => h.imp_right .inl
  · exact (execClose_closes hi hc).imp fun _ h => h.imp_right fun h => .inr (.inr (.inr ⟨rfl, h⟩))
  · exact (execReserved_answered hi hc w).imp fun _ h => h.imp_right .inl

theorem wordAnswered_of_next {w : Word} {s t : State} (hi : Inv s) (h : exec (decodeCmd w) s = .next t) : WordAnswered w s t := by
  obtain ⟨u, hu, ha⟩ := exec_decodeCmd_answered hi (idle_of_exec_decodeCmd h) w
  rw [h] at hu
  cases hu
  exact ha

theorem exec_decodeCmd_inv {w : Word} {s t : State} (hi : Inv s) (h : exec (decodeCmd w) s = .next t) : Inv t := by
  rcases wordAnswered_of_next hi h with ha | ⟨-, ha⟩ | ⟨-, ha⟩ | ⟨-, ha, -⟩
  · exact ha.inv
  · exact ha.inv
  · exact ha.inv
  · exact ha

end Sys2Proof.Machine

/-! ## Every step keeps the invariant, and none stops -/

namespace Sys2Proof.Machine

theorem hostStep_inv {s t : State} (hi : Inv s) (h : hostStep s = .next t) : Inv t := by
  rcases hostStep_cases h with rfl | ⟨w, rest, -, he⟩ | ⟨a, rest, -, ha⟩
  · exact hi
  · exact exec_decodeCmd_inv (hi.writeCmd w rest) he
  · exact hostAct_inv (s := { s with script := rest }) hi ha

/-- Everything a step can do while a command is in progress: the command goes on; or it waits, and the host or the source
acts, by no command word (R305). -/
theorem step_busy_cases {s t : State} {job : Job} {ph : Phase} (hi : Inv s) (hb : s.ctl = .busy job ph) (h : step s = .next t) :
    (Inv t ∧ ErrKept s t ∧ ∃ k, Consumed s.rd t.rd k) ∨
      ∃ w, WaitOk s w ∧ ErrKept s w ∧ (t = w ∨ ∃ a rest, hostAct a { w with script := rest } = .next t) := by
  rcases step_cases hi hb with ⟨u, hu, hcs, v, hv, hit, -, hr, -⟩ | ⟨w, hw, hcs, hwait⟩
  · cases hv
    rw [h] at hu
    cases hu
    exact .inl ⟨hit, commandStep_errKept hi hb hcs, hr⟩
  · refine .inr ⟨w, hwait, commandStep_waits_errKept hcs, ?_⟩
    rw [hw] at h
    rcases hostStep_cases h with rfl | ⟨c, rest, -, he⟩ | ⟨a, rest, -, ha⟩
    · exact .inl rfl
    · obtain ⟨-, -, hwc, -⟩ := hwait
      exact absurd ((idle_of_exec_decodeCmd he).symm.trans (hwc.trans hb)) (by simp)
    · exact .inr ⟨a, rest, ha⟩

/-- Settles O55: a step of a command keeps `Inv`, and so do the wait that gives way to the host, a command word and every other
action of the host or the source. -/
theorem stepKeepsInvariant : Obligations.StepKeepsInvariant := by
  intro s t hi h
  cases hc : s.ctl with
  | idle => exact hostStep_inv hi (step_idle hc ▸ h)
  | busy job ph =>
    rcases step_busy_cases hi hc h with ⟨hit, -⟩ | ⟨w, hwait, -, rfl | ⟨a, rest, ha⟩⟩
    · exact hit
    · exact hwait.1
    · exact hostAct_inv (s := { w with script := rest }) hwait.1 ha

/-- The host's step happens where its next action keeps its duty. -/
theorem hostStep_next {s : State} (hi : Inv s) (hd : NextActOk s) : ∃ t, hostStep s = .next t := by
  cases hs : s.script with
  | nil => exact ⟨s, hostStep_nil hs⟩
  | cons a rest =>
    have hda : HostDuty s a := hd a (by simp [hs])
    by_cases ha : ∃ w, a = .writeCmd w
    · obtain ⟨w, rfl⟩ := ha
      rw [hostStep_writeCmd hs]
      exact (exec_decodeCmd_answered (hi.writeCmd w rest) hda w).imp fun _ h => h.1
    · rw [hostStep_act hs (not_exists.mp ha)]
      exact hostAct_next (hda.congr rfl rfl rfl)

/-- A wait leaves the host's next action and its duty as they were. -/
theorem WaitOk.nextActOk {s w : State} (h : WaitOk s w) (hd : NextActOk s) : NextActOk w := by
  obtain ⟨-, hk, hc, -, -, k, hr⟩ := h
  intro a ha
  rw [hk.script] at ha
  exact (hd a ha).congr hc hk.outCap hr.ends

/-- Settles O56: a step that runs gives a next state (`step_cases`), and one that waits gives way to a host that keeps its duty. -/
theorem stepNeverStops : Obligations.StepNeverStops := by
  intro s hi hd
  cases hc : s.ctl with
  | idle => rw [SafeStep, step_idle hc]; exact hostStep_next hi hd
  | busy job ph =>
    rcases step_cases hi hc with ⟨t, ht, -⟩ | ⟨w, hw, -, hwait⟩
    · exact ⟨t, ht⟩
    · rw [SafeStep, hw]; exact hostStep_next hwait.1 (hwait.nextActOk hd)

end Sys2Proof.Machine

/-! ## The first error

R24, R275: only INIT and CLOSE write over an error. -/

namespace Sys2Proof.Machine

theorem hostAct_errKept {a : HostAct} {s t : State} (h : hostAct a s = .next t) : ErrKept s t := by
  obtain ⟨ht, -⟩ := hostAct_cases h
  rw [ht]
  exact ErrKept.refl s

/-- A command word keeps the first error, unless it is INIT or CLOSE. -/
theorem exec_decodeCmd_errKept {w : Word} {s t : State} (hi : Inv s) (h : exec (decodeCmd w) s = .next t) :
    ErrKept s t ∨ decodeCmd w ∈ [.initContinuous, .initByblock, .close] := by
  rcases wordAnswered_of_next hi h with ha | ⟨hw, -⟩ | ⟨hw, -⟩ | ⟨hw, -⟩
  · exact .inl ha.err
  all_goals exact .inr (by simp [hw])

/-- Settles O60: a step of a command keeps the first error, and so does every action of the host or the source but a command word of
INIT or CLOSE, which runs on an idle machine only. -/
theorem firstErrorKept : Obligations.FirstErrorKept := by
  intro s t hi he h
  cases hc : s.ctl with
  | idle =>
    rw [step_idle hc] at h
    rcases hostStep_cases h with rfl | ⟨w, rest, hs, hw⟩ | ⟨a, rest, -, ha⟩
    · exact .inl ⟨rfl, rfl⟩
    · rcases exec_decodeCmd_errKept (hi.writeCmd w rest) hw with hk | hmem
      · exact .inl (hk he)
      · exact .inr ⟨w, rest, rfl, hs, hmem⟩
    · exact .inl (hostAct_errKept (s := { s with script := rest }) ha he)
  | busy job ph =>
    rcases step_busy_cases hi hc h with ⟨-, hk, -⟩ | ⟨w, -, hk, rfl | ⟨a, rest, ha⟩⟩
    · exact .inl (hk he)
    · exact .inl (hk he)
    · exact .inl (hk.trans (hostAct_errKept (s := { w with script := rest }) ha) he)

end Sys2Proof.Machine

/-! ## The source is read in order

R27, R62, R73, R135, R144: what a read consumes, and that `RAW` counts without a wrap while the source is short enough (log 16). -/

namespace Sys2Proof.Machine

/-- The host and the source pull nothing; the source may only grow. -/
theorem hostAct_rawOk {a : HostAct} {s t : State} (h : hostAct a s = .next t) (hr : s.closed = false → RawOk s.rd)
    (ho : t.closed = false) (hlt : t.rd.raw.toNat + t.rd.src.length < 2 ^ 64) : RawOk t.rd := by
  obtain ⟨ht, -⟩ := hostAct_cases h
  rw [ht] at ho
  have hlive : t.rd.live ≤ 8 * t.rd.raw.toNat := by
    rw [ht]
    exact (hr ho).2
  exact ⟨hlt, hlive⟩

/-- A newly opened block has pulled nothing yet (R232). -/
theorem rawOk_initReader {s : State} (h : (initReader s).src.length < 2 ^ 64) : RawOk (initReader s) := by
  obtain ⟨-, hlive, hraw, -⟩ := initReader_start s
  refine ⟨?_, by rw [hlive]; exact Nat.zero_le _⟩
  rw [hraw]
  simpa using h

theorem Answered.rawOk {s t : State} (h : Answered s t) (hr : RawOk s.rd) : RawOk t.rd := by
  obtain ⟨k, hk⟩ := h.read
  exact (hk.pos hr).1

theorem exec_decodeCmd_rawOk {w : Word} {s t : State} (hi : Inv s) (h : exec (decodeCmd w) s = .next t)
    (hr : s.closed = false → RawOk s.rd) (hsrc : (initReader s).src.length < 2 ^ 64) (ho : t.closed = false) : RawOk t.rd := by
  rcases wordAnswered_of_next hi h with ha | ⟨-, ha⟩ | ⟨-, ha⟩ | ⟨-, -, hclosed, -⟩
  · exact ha.rawOk (hr (ha.kept.closed ▸ ho))
  · exact ha.rawOk (rawOk_initReader hsrc)
  · exact ha.rawOk (rawOk_initReader hsrc)
  · exact absurd (hclosed.symm.trans ho) (by decide)

/-- A step keeps `RawOk` of an open block, as long as the source stays shorter than `2^64` bytes (log 16). -/
theorem step_rawOk {s t : State} (hi : Inv s) (hr : s.closed = false → RawOk s.rd) (hsrc : (initReader s).src.length < 2 ^ 64)
    (h : step s = .next t) (ho : t.closed = false) (hlt : t.rd.raw.toNat + t.rd.src.length < 2 ^ 64) : RawOk t.rd := by
  cases hc : s.ctl with
  | idle =>
    rw [step_idle hc] at h
    rcases hostStep_cases h with rfl | ⟨w, rest, -, he⟩ | ⟨a, rest, -, ha⟩
    · exact hr ho
    · exact exec_decodeCmd_rawOk (hi.writeCmd w rest) he hr hsrc ho
    · exact hostAct_rawOk ha hr ho hlt
  | busy job ph =>
    have hrs := hr (hi.busy hc).1
    rcases step_busy_cases hi hc h with ⟨-, -, k, hk⟩ | ⟨w, ⟨-, -, -, -, -, k, hk⟩, -, rfl | ⟨a, rest, ha⟩⟩
    · exact (hk.pos hrs).1
    · exact (hk.pos hrs).1
    · exact hostAct_rawOk ha (fun _ => (hk.pos hrs).1) ho hlt

/-- A READ_BYTE or a READ_INTO of a ready block answers. -/
theorem Ready.read_answered {s : State} {i : Instr} (h : Ready s) (hr : i = .readByte ∨ i = .readInto) :
    ∃ t, exec i s = .next t ∧ Answered s t := by
  obtain ⟨hi, hc, -, -⟩ := h
  rcases hr with rfl | rfl
  · exact execReadByte_answered hi hc
  · exact execReadInto_answered hi hc

/-- Settles O28: the reads of a command add up to one `Consumed`, which says what is pulled and consumed, and by which `P`
advances; a step keeps `RawOk` (`step_rawOk`). -/
theorem readsConsumeInOrder : Obligations.ReadsConsumeInOrder := by
  refine ⟨fun s i h hr => ?_, fun s t hi hr hsrc hs ho hlt => step_rawOk hi hr hsrc hs ho hlt⟩
  obtain ⟨t, ht, ha⟩ := h.read_answered hr
  obtain ⟨k, hk⟩ := ha.read
  obtain ⟨bytes, hsrc, hraw, hlive⟩ := hk.src
  exact ⟨t, bytes, k, ht, ha.idle (.inr h.2.2.2), hsrc, hraw, hk.ahead, hlive, fun hw => (hk.pos hw).2.1⟩

end Sys2Proof.Machine

/-! ## `OUT` as data

R64, R71: in canonical form a memory is determined by what it reads (log 12). -/

namespace Sys2Proof.Machine

theorem memRead_cons_self (x : Nat) (w : Byte) (m : Memory) : memRead ((x, w) :: m) x = w := if_pos rfl

theorem memRead_cons_ne {x a : Nat} (h : a ≠ x) (w : Byte) (m : Memory) : memRead ((x, w) :: m) a = memRead m a := if_neg h

/-- A canonical memory reads a byte other than 0 only from its lower bound on. -/
theorem le_of_memRead_ne_zero {m : Memory} {lo a : Nat} (h : memWfFrom lo m = true) (ha : memRead m a ≠ 0) : lo ≤ a :=
  Nat.le_of_not_lt fun hlt => ha (memRead_below m lo a h hlt)

/-- The first listed offset of a canonical memory is not below the lower bound of another one that reads alike. -/
theorem le_head_of_memRead_eq {m n : Memory} {lo hi x : Nat} {w : Byte} (hm : memWfFrom lo ((x, w) :: m) = true)
    (hn : memWfFrom hi n = true) (h : ∀ a, memRead ((x, w) :: m) a = memRead n a) : hi ≤ x := by
  obtain ⟨-, hw, -⟩ := memWfFrom_cons.mp hm
  refine le_of_memRead_ne_zero hn ?_
  rw [← h x, memRead_cons_self]
  exact hw

/-- No canonical memory with an entry reads as the empty one: its first byte is not 0. -/
theorem not_memRead_cons_eq_nil {m : Memory} {lo x : Nat} {w : Byte} (hm : memWfFrom lo ((x, w) :: m) = true) :
    ¬ ∀ a, memRead ((x, w) :: m) a = memRead [] a :=
  fun h => Nat.not_succ_le_self x (le_head_of_memRead_eq hm (hi := x + 1) rfl h)

/-- Two canonical memories that read alike are equal: their first offsets bound each other, so they agree, and so do the first
bytes; what is behind them reads alike too. -/
theorem eq_of_memRead_eq {m n : Memory} {lo : Nat} (hm : memWfFrom lo m = true) (hn : memWfFrom lo n = true)
    (h : ∀ a, memRead m a = memRead n a) : m = n := by
  induction m generalizing n lo with
  | nil =>
    cases n with
    | nil => rfl
    | cons d n => exact absurd (fun a => (h a).symm) (not_memRead_cons_eq_nil hn)
  | cons c m ih =>
    cases n with
    | nil => exact absurd h (not_memRead_cons_eq_nil hm)
    | cons d n =>
      obtain ⟨x, v⟩ := c
      obtain ⟨y, w⟩ := d
      obtain ⟨-, hv, hm'⟩ := memWfFrom_cons.mp hm
      obtain ⟨-, hw, hn'⟩ := memWfFrom_cons.mp hn
      have hyx : y ≤ x := le_head_of_memRead_eq hm (memWfFrom_cons.mpr ⟨le_rfl, hw, hn'⟩) h
      have hxy : x ≤ y := le_head_of_memRead_eq hn (memWfFrom_cons.mpr ⟨le_rfl, hv, hm'⟩) fun a => (h a).symm
      obtain rfl : x = y := Nat.le_antisymm hxy hyx
      obtain rfl : v = w := by simpa only [memRead_cons_self] using h x
      have htail : ∀ a, memRead m a = memRead n a := fun a => by
        by_cases ha : a = x
        · rw [memRead_below m _ a hm' (by omega), memRead_below n _ a hn' (by omega)]
        · simpa only [memRead_cons_ne ha] using h a
      rw [ih hm' hn' htail]

/-- Settles O52: by `eq_of_memRead_eq`, and the laws of a write. -/
theorem memoryCanonical : Obligations.MemoryCanonical := by
  refine ⟨fun m n hm hn h => eq_of_memRead_eq hm hn h, fun m a v hm => ⟨wf_memWrite m a v hm, ?_, fun b hb => ?_⟩⟩
  · rw [memRead_memWrite_wf m a a v hm, if_pos rfl]
  · rw [memRead_memWrite_wf m a b v hm, if_neg hb]

end Sys2Proof.Machine

/-! ## The host's accesses to `OUT`

R305, R306, U6: what the host's read and write of one byte do. -/

namespace Sys2Proof.Machine

theorem isBusy_eq_false {s : State} : isBusy s = false ↔ s.ctl = .idle := by
  rw [isBusy]
  cases s.ctl <;> simp

/-- A read when the block is idle gives the value that stands there. -/
theorem hostReads_idle {n : Nat} (v : BitVec n) {s : State} (h : s.ctl = .idle) :
    hostReads v s = { s with hostData := v.zeroExtend 64 } :=
  if_neg (ne_true_of_eq_false (isBusy_eq_false.mpr h))

/-- A read before the response gives some value of the width read (U5, U6), and counts a draw. -/
theorem hostReads_busy {n : Nat} (v : BitVec n) {s : State} (h : s.ctl ≠ .idle) :
    ∃ x : BitVec n, hostReads v s = { s with hostData := x.zeroExtend 64, draws := s.draws + 1 } :=
  ⟨_, if_pos (Bool.eq_true_of_not_eq_false (mt isBusy_eq_false.mp h))⟩

theorem hostAct_readOut_lt {s : State} {a : Nat} (h : a < s.outCap) :
    hostAct (.readOut a) s = .next (hostReads (memRead s.out a) s) := if_pos h

theorem hostAct_readOut_ge {s : State} {a : Nat} (h : s.outCap ≤ a) : hostAct (.readOut a) s = .fault .outAddress :=
  if_neg (Nat.not_lt.mpr h)

theorem outWrite_lt {s : State} {a : Nat} (h : a < s.outCap) (v : Byte) :
    outWrite a v s = some { s with out := memWrite s.out a v } := if_pos h

theorem outWrite_ge {s : State} {a : Nat} (h : s.outCap ≤ a) (v : Byte) : outWrite a v s = none :=
  if_neg (Nat.not_lt.mpr h)

/-- Outside the range of a READ_INTO in progress the host's write is the one the block itself would do. -/
theorem hostAct_writeOut_free {s : State} {a : Nat} (h : inReadRange a s = false) (v : Byte) :
    hostAct (.writeOut a v) s = (outWrite a v s).elim (.fault .outAddress) .next := by
  simp only [hostAct, h]
  cases outWrite a v s <;> rfl

/-- Settles O54: the read by whether the block is idle, the write by whether it is in the range of a READ_INTO; both by
`OUT_CAP`. -/
theorem outputBufferHazard : Obligations.OutputBufferHazard := by
  intro s a v
  refine ⟨hostAct_readOut_ge, fun ha hc => ?_, fun ha hc => ?_, fun hr => if_pos hr, fun hr ha => ?_, fun hr ha => ?_⟩
  · rw [hostAct_readOut_lt ha, hostReads_idle _ hc]
  · obtain ⟨x, hx⟩ := hostReads_busy (memRead s.out a) hc
    exact ⟨x, by rw [hostAct_readOut_lt ha, hx]⟩
  · rw [hostAct_writeOut_free hr, outWrite_ge ha]; rfl
  · rw [hostAct_writeOut_free hr, outWrite_lt ha]; rfl

end Sys2Proof.Machine

/-! ## Spellings

R98 to R109: the bits a parse reads as a token. A parse of bits ends in a token just where they begin with a spelling of it, so
the decoder and the encoder agree as soon as each expectation's parse spells what the encoder writes. -/

namespace Sys2Proof

/-- The parse reads just the bits `u`, as the token `i`. -/
def Spells (p : Parse) (u : List Bool) (i : Instr) : Prop := parseBits p u = .ok i []

/-- A field of `n` bits and what follows it. -/
theorem exists_field_iff {n : Nat} {u : List Bool} {P : Nat → List Bool → Prop} :
    (n ≤ u.length ∧ P (natOfBits (u.take n)) (u.drop n)) ↔
      ∃ (w : BitVec n) (r : List Bool), u = bitsMsb n w.toNat ++ r ∧ P w.toNat r := by
  constructor
  · rintro ⟨hn, h⟩
    have hlen : (u.take n).length = n := List.length_take_of_le hn
    have hlt := natOfBits_lt (u.take n)
    rw [hlen] at hlt
    refine ⟨⟨natOfBits (u.take n), hlt⟩, u.drop n, ?_, h⟩
    have hbits := bitsMsb_natOfBits (u.take n)
    rw [hlen] at hbits
    change u = bitsMsb n (natOfBits (u.take n)) ++ u.drop n
    rw [hbits, List.take_append_drop]
  · rintro ⟨w, r, rfl, h⟩
    have hlen : (bitsMsb n w.toNat).length = n := bitsMsb_length n _
    rw [List.take_left' hlen, List.drop_left' hlen, natOfBits_bitsMsb_of_lt w.isLt]
    exact ⟨by simp, h⟩

theorem parseBits_read_ok {n : Nat} {e : ErrKind} {d : Nat} {k : Nat → Parse} {bs rest : List Bool} {i : Instr} :
    parseBits (.read n e d k) bs = .ok i rest ↔
      ∃ (w : BitVec n) (r : List Bool), bs = bitsMsb n w.toNat ++ r ∧ parseBits (k w.toNat) r = .ok i rest := by
  rw [← exists_field_iff (P := fun v r => parseBits (k v) r = .ok i rest), parseBits]
  split <;> simp_all

/-- A token is read from bits that begin with its spelling, and from no others. -/
theorem parseBits_ok_iff (p : Parse) {bs rest : List Bool} {i : Instr} :
    parseBits p bs = .ok i rest ↔ ∃ u, bs = u ++ rest ∧ Spells p u i := by
  unfold Spells
  induction p generalizing bs with
  | done j => simp [parseBits, and_comm]
  | reject e d => simp [parseBits]
  | nothing => simp [parseBits]
  | write w k ih => exact ih
  | read n e d k ih =>
    simp only [parseBits_read_ok]
    constructor
    · rintro ⟨w, r, rfl, h⟩
      obtain ⟨u, rfl, hu⟩ := (ih _).mp h
      exact ⟨bitsMsb n w.toNat ++ u, (List.append_assoc ..).symm, w, u, rfl, hu⟩
    · rintro ⟨-, rfl, w, u, rfl, hu⟩
      exact ⟨w, u ++ rest, List.append_assoc .., (ih _).mpr ⟨u, rfl, hu⟩⟩

/-! ### Rules for the forms of a parse -/

@[simp] theorem spells_done {u : List Bool} {i j : Instr} : Spells (.done j) u i ↔ u = [] ∧ i = j := by
  simp [Spells, parseBits, and_comm, eq_comm]

@[simp] theorem not_spells_reject {e : ErrKind} {d : Nat} {u : List Bool} {i : Instr} : ¬ Spells (.reject e d) u i := by
  simp [Spells, parseBits]

@[simp] theorem not_spells_nothing {u : List Bool} {i : Instr} : ¬ Spells .nothing u i := by
  simp [Spells, parseBits]

@[simp] theorem spells_write {w : EarlyWrite} {k : Parse} {u : List Bool} {i : Instr} : Spells (.write w k) u i ↔ Spells k u i :=
  Iff.rfl

theorem spells_read {n : Nat} {e : ErrKind} {d : Nat} {k : Nat → Parse} {u : List Bool} {i : Instr} :
    Spells (.read n e d k) u i ↔ ∃ (w : BitVec n) (r : List Bool), u = bitsMsb n w.toNat ++ r ∧ Spells (k w.toNat) r i :=
  parseBits_read_ok

theorem spells_field {n : Nat} {k : Nat → Parse} {u : List Bool} {i : Instr} :
    Spells (.field n k) u i ↔ ∃ (w : BitVec n) (r : List Bool), u = bitsMsb n w.toNat ++ r ∧ Spells (k w.toNat) r i :=
  spells_read

theorem bitsMsb_one_toNat (b : Bool) : bitsMsb 1 b.toNat = [b] := by cases b <;> rfl

/-- A field of one bit. -/
theorem spells_bit {k : Nat → Parse} {u : List Bool} {i : Instr} :
    Spells (.field 1 k) u i ↔ ∃ (b : Bool) (r : List Bool), u = b :: r ∧ Spells (k b.toNat) r i := by
  rw [spells_field]
  constructor
  · rintro ⟨w, r, rfl, h⟩
    obtain ⟨b, hb⟩ : ∃ b : Bool, w.toNat = b.toNat := by
      have := w.isLt
      obtain h0 | h1 : w.toNat = 0 ∨ w.toNat = 1 := by omega
      · exact ⟨false, h0⟩
      · exact ⟨true, h1⟩
    rw [hb] at h ⊢
    exact ⟨b, r, by rw [bitsMsb_one_toNat]; rfl, h⟩
  · rintro ⟨b, r, rfl, h⟩
    refine ⟨BitVec.ofBool b, r, ?_, ?_⟩
    · rw [BitVec.toNat_ofBool, bitsMsb_one_toNat]; rfl
    · rw [BitVec.toNat_ofBool]; exact h

/-- `m` bytes spell one number of `8 m` bits (R134). -/
theorem spells_bytes {m n : Nat} (hn : n = 8 * m) {v : Nat} {k : Nat → Parse} {u : List Bool} {i : Instr} :
    Spells (.bytes m v k) u i ↔
      ∃ (w : BitVec n) (r : List Bool), u = bitsMsb n w.toNat ++ r ∧ Spells (k (v * 2 ^ n + w.toNat)) r i := by
  rw [← exists_field_iff (P := fun w r => Spells (k (v * 2 ^ n + w)) r i)]
  induction m generalizing n v u with
  | zero =>
    obtain rfl : n = 0 := hn
    simp [Parse.bytes, natOfBits]
  | succ m ih =>
    obtain rfl : n = 8 + 8 * m := by omega
    have hval : ∀ a b : Nat, (v * 256 + a) * 2 ^ (8 * m) + b = v * 2 ^ (8 + 8 * m) + (a * 2 ^ (8 * m) + b) := by
      intro a b; rw [Nat.pow_add]; ring
    have hlen : 8 + 8 * m ≤ u.length ↔ 8 ≤ u.length ∧ 8 * m ≤ u.length - 8 := by omega
    rw [Parse.bytes, spells_field, ← exists_field_iff (P := fun b r => Spells (.bytes m (v * 256 + b) k) r i), ih rfl, hval,
      List.length_drop, List.drop_drop, hlen, and_assoc, List.take_add, natOfBits_append]
    refine and_congr_right fun _ => and_congr_right fun hm => ?_
    rw [List.length_take_of_le (by rw [List.length_drop]; exact hm)]

theorem spells_ite {c : Prop} [Decidable c] {p q : Parse} {u : List Bool} {i : Instr} :
    Spells (if c then p else q) u i ↔ (c ∧ Spells p u i) ∨ (¬ c ∧ Spells q u i) := by
  split <;> simp_all

/-! ### Framing tokens -/

theorem spells_parseHeader {u : List Bool} {i : Instr} :
    Spells parseHeader u i ↔ ∃ d : Byte, u = bitsMsb 8 0x68 ++ bitsMsb 8 d.toNat ∧ i = .streamHeader d := by
  simp only [parseHeader, spells_read, spells_ite, not_spells_reject, spells_done]
  constructor
  · rintro ⟨h, -, rfl, ⟨-, hf⟩ | ⟨hh, d, -, rfl, rfl, rfl⟩⟩
    · exact hf.elim
    · exact ⟨d, by rw [not_not.mp hh, List.append_nil], by rw [BitVec.ofNat_toNat, BitVec.setWidth_eq]⟩
  · rintro ⟨d, rfl, rfl⟩
    exact ⟨0x68, _, rfl, .inr ⟨by decide, d, [], (List.append_nil _).symm, rfl, by simp⟩⟩

theorem spells_parseMarker {u : List Bool} {i : Instr} :
    Spells parseMarker u i ↔ (u = bitsMsb 48 Config.blockMark ∧ i = .blockMark) ∨
      ∃ c : Word, u = bitsMsb 48 Config.eosMark ++ bitsMsb 32 c.toNat ∧ i = .eosMark c := by
  simp only [parseMarker, spells_bytes (n := 48) (m := 6) rfl, spells_bytes (n := 32) (m := 4) rfl, spells_ite,
    not_spells_reject, spells_done, Nat.zero_mul, Nat.zero_add]
  constructor
  · rintro ⟨m, -, rfl, ⟨hm, c, -, rfl, rfl, rfl⟩ | ⟨-, ⟨hm, rfl, rfl⟩ | ⟨-, hf⟩⟩⟩
    · exact .inr ⟨c, by rw [hm, List.append_nil], by rw [BitVec.ofNat_toNat, BitVec.setWidth_eq]⟩
    · exact .inl ⟨by rw [hm, List.append_nil], rfl⟩
    · exact hf.elim
  · rintro (⟨rfl, rfl⟩ | ⟨c, rfl, rfl⟩)
    · exact ⟨BitVec.ofNat 48 Config.blockMark, [], by rw [List.append_nil]; rfl,
        .inr ⟨by decide, .inl ⟨rfl, rfl, rfl⟩⟩⟩
    · exact ⟨BitVec.ofNat 48 Config.eosMark, _, rfl, .inl ⟨rfl, c, [], (List.append_nil _).symm, rfl, by simp⟩⟩

theorem spells_parseBlockHeader {u : List Bool} {i : Instr} :
    Spells parseBlockHeader u i ↔ ∃ (c : Word) (r : Bool) (p : BitVec 24),
      u = bitsMsb 32 c.toNat ++ [r] ++ bitsMsb 24 p.toNat ∧ i = .blockHeader c r p := by
  simp only [parseBlockHeader, spells_bytes (n := 32) (m := 4) rfl, spells_bit, spells_field (n := 24), spells_write,
    spells_done, Nat.zero_mul, Nat.zero_add]
  constructor
  · rintro ⟨c, -, rfl, r, -, rfl, p, -, rfl, rfl, rfl⟩
    refine ⟨c, r, p, by simp, ?_⟩
    simp only [BitVec.ofNat_toNat, BitVec.setWidth_eq]
    cases r <;> rfl
  · rintro ⟨c, r, p, rfl, rfl⟩
    refine ⟨c, r :: bitsMsb 24 p.toNat, by simp, r, _, rfl, p, [], (List.append_nil _).symm, rfl, ?_⟩
    cases r <;> simp

/-! ### Tables -/

theorem spells_parseMapWords {m : BitVec 16} {is : List Nat} {ws : List (BitVec 16)} {l : List Bool} {u : List Bool} {i : Instr} :
    Spells (parseMapWords m is ws l) u i ↔ ∃ vs : List (BitVec 16), vs.length = is.length ∧
      u = vs.flatMap (fun w => bitsMsb 16 w.toNat) ∧ i = .symbolMap m (ws.reverse ++ vs) := by
  induction is generalizing ws l u with
  | nil => simp [parseMapWords]
  | cons j is ih =>
    simp only [parseMapWords, spells_field, spells_write, ih, BitVec.ofNat_toNat, BitVec.setWidth_eq]
    constructor
    · rintro ⟨w, -, rfl, vs, hl, rfl, rfl⟩
      exact ⟨w :: vs, by simp [hl], by simp, by simp⟩
    · rintro ⟨vs, hl, rfl, rfl⟩
      obtain ⟨w, vs, rfl⟩ := List.exists_cons_of_length_eq_add_one hl
      exact ⟨w, _, List.flatMap_cons, vs, by simpa using hl, rfl, by simp⟩

/-- The words that follow `inUse16`, counted from either end of the field (R102). -/
theorem length_setBits16 (m : BitVec 16) : (setBits16 m).length = bitCount16 m := by
  have hrev : (List.range 16).map (15 - ·) = (List.range 16).reverse := by decide
  unfold setBits16 bitCount16
  rw [← List.countP_eq_length_filter, ← List.countP_eq_length_filter, ← List.countP_reverse, ← hrev, List.countP_map]
  rfl

theorem spells_parseSymbolMap {u : List Bool} {i : Instr} :
    Spells parseSymbolMap u i ↔ ∃ (m : BitVec 16) (ws : List (BitVec 16)), ws.length = bitCount16 m ∧
      u = bitsMsb 16 m.toNat ++ ws.flatMap (fun w => bitsMsb 16 w.toNat) ∧ i = .symbolMap m ws := by
  simp only [parseSymbolMap, spells_write, spells_field, spells_parseMapWords, BitVec.ofNat_toNat, BitVec.setWidth_eq,
    length_setBits16, List.reverse_nil, List.nil_append]
  constructor
  · rintro ⟨m, -, rfl, ws, hl, rfl, rfl⟩
    exact ⟨m, ws, hl, rfl, rfl⟩
  · rintro ⟨m, ws, hl, rfl, rfl⟩
    exact ⟨m, _, rfl, ws, hl, rfl, rfl⟩

theorem spells_parseTableCounts {u : List Bool} {i : Instr} :
    Spells parseTableCounts u i ↔ ∃ g : BitVec 3,
      (legalGroups g.toNat = true ∧ ∃ n : BitVec 15, u = bitsMsb 3 g.toNat ++ bitsMsb 15 n.toNat ∧ i = .tableCounts g n) ∨
        (legalGroups g.toNat = false ∧ u = bitsMsb 3 g.toNat ∧ i = .tableCounts g 0) := by
  simp only [parseTableCounts, spells_field, spells_write, spells_ite, spells_done, BitVec.ofNat_toNat, BitVec.setWidth_eq,
    Bool.not_eq_true]
  constructor
  · rintro ⟨g, -, rfl, ⟨hg, n, -, rfl, rfl, rfl⟩ | ⟨hg, rfl, rfl⟩⟩
    · exact ⟨g, .inl ⟨hg, n, by simp, rfl⟩⟩
    · exact ⟨g, .inr ⟨hg, by simp, rfl⟩⟩
  · rintro ⟨g, ⟨hg, n, rfl, rfl⟩ | ⟨hg, rfl, rfl⟩⟩
    · exact ⟨g, _, rfl, .inl ⟨hg, n, [], (List.append_nil _).symm, rfl, rfl⟩⟩
    · exact ⟨g, [], (List.append_nil _).symm, .inr ⟨hg, rfl, rfl⟩⟩

theorem spells_parseSelector {left v : Nat} {u : List Bool} {i : Instr} :
    Spells (parseSelector left v) u i ↔ (∃ j < left, u = unary j ∧ i = selectorInstr (v + j)) ∨
      (u = List.replicate left true ∧ i = .selectorMtfBad) := by
  induction left generalizing v u with
  | zero => simp [parseSelector]
  | succ left ih =>
    have hv : ∀ j, v + 1 + j = v + (j + 1) := fun j => by omega
    simp only [parseSelector, spells_bit, spells_ite, spells_done, ih, hv]
    rw [Nat.exists_lt_succ_left]
    constructor
    · rintro ⟨b, r, rfl, ⟨hb, ⟨j, hj, rfl, rfl⟩ | ⟨rfl, rfl⟩⟩ | ⟨hb, rfl, rfl⟩⟩
      · obtain rfl : b = true := Bool.toNat_eq_one.mp hb
        exact .inl (.inr ⟨j, hj, rfl, rfl⟩)
      · obtain rfl : b = true := Bool.toNat_eq_one.mp hb
        exact .inr ⟨rfl, rfl⟩
      · obtain rfl : b = false := by simpa using hb
        exact .inl (.inl ⟨rfl, rfl⟩)
    · rintro ((⟨rfl, rfl⟩ | ⟨j, hj, rfl, rfl⟩) | ⟨rfl, rfl⟩)
      · exact ⟨false, [], rfl, .inr ⟨by decide, rfl, rfl⟩⟩
      · exact ⟨true, unary j, rfl, .inl ⟨rfl, .inl ⟨j, hj, rfl, rfl⟩⟩⟩
      · exact ⟨true, List.replicate left true, rfl, .inl ⟨rfl, .inr ⟨rfl, rfl⟩⟩⟩

theorem spells_parseCodeLenStart {u : List Bool} {i : Instr} :
    Spells parseCodeLenStart u i ↔ ∃ l : BitVec 5, u = bitsMsb 5 l.toNat ∧ i = .codeLenStart l := by
  simp [parseCodeLenStart, spells_field]

theorem spells_parseCodeLen {u : List Bool} {i : Instr} :
    Spells parseCodeLen u i ↔ (u = [false] ∧ i = .codeLenEnd) ∨ (u = [true, false] ∧ i = .codeLenInc) ∨
      (u = [true, true] ∧ i = .codeLenDec) := by
  simp only [parseCodeLen, spells_bit, spells_ite, spells_done, Bool.toNat_eq_zero, Bool.not_eq_false]
  constructor
  · rintro ⟨-, -, rfl, ⟨rfl, rfl, rfl⟩ | ⟨rfl, -, -, rfl, ⟨rfl, rfl, rfl⟩ | ⟨rfl, rfl, rfl⟩⟩⟩
    · exact .inl ⟨rfl, rfl⟩
    · exact .inr (.inl ⟨rfl, rfl⟩)
    · exact .inr (.inr ⟨rfl, rfl⟩)
  · rintro (⟨rfl, rfl⟩ | ⟨rfl, rfl⟩ | ⟨rfl, rfl⟩)
    · exact ⟨false, [], rfl, .inl ⟨rfl, rfl, rfl⟩⟩
    · exact ⟨true, [false], rfl, .inr ⟨rfl, false, [], rfl, .inl ⟨rfl, rfl, rfl⟩⟩⟩
    · exact ⟨true, [true], rfl, .inr ⟨rfl, true, [], rfl, .inr ⟨rfl, rfl, rfl⟩⟩⟩

theorem spells_parseRle1Unit {u : List Bool} {i : Instr} :
    Spells parseRle1Unit u i ↔ ∃ c z : Byte,
      u = bitsMsb 8 c.toNat ++ bitsMsb 8 c.toNat ++ bitsMsb 8 c.toNat ++ bitsMsb 8 c.toNat ++ bitsMsb 8 z.toNat ∧
      i = .rle1Unit c z := by
  simp only [parseRle1Unit, spells_field, spells_ite, spells_done, not_spells_nothing, BitVec.ofNat_toNat, BitVec.setWidth_eq,
    Bool.and_eq_true, decide_eq_true_eq]
  constructor
  · rintro ⟨a, -, rfl, b, -, rfl, c, -, rfl, d, -, rfl, z, -, rfl, ⟨⟨⟨hab, hbc⟩, hcd⟩, rfl, rfl⟩ | ⟨-, hf⟩⟩
    · exact ⟨a, z, by simp [← hab, ← hbc, ← hcd], rfl⟩
    · exact hf.elim
  · rintro ⟨c, z, rfl, rfl⟩
    exact ⟨c, _, by simp only [List.append_assoc], c, _, rfl, c, _, rfl, c, _, rfl, z, [], (List.append_nil _).symm,
      .inl ⟨⟨⟨rfl, rfl⟩, rfl⟩, rfl, rfl⟩⟩

end Sys2Proof

/-! ### Codewords

R150, R155: canonical codewords are in the order of their lengths, so a value read tells by the limit of its length whether it is a
whole codeword. -/

namespace Sys2Proof

/-- The place of a symbol among those of its length (R152). -/
theorem count_take_lt {lens : List Nat} {s L : Nat} (h : lens[s]? = some L) : (lens.take s).count L < lens.count L := by
  have hle := (List.take_sublist (s + 1) lens).count_le L
  rw [List.take_add_one, h, List.count_append] at hle
  simp only [Option.toList_some, List.count_singleton_self] at hle
  omega

theorem nodup_symbolsOfLen (lens : List Nat) (L : Nat) : (symbolsOfLen lens L).Nodup := List.nodup_range.filter _

/-- The `k`-th symbol of its length has `k` symbols of that length before it. -/
theorem count_take_of_symbolsOfLen {lens : List Nat} {s L k : Nat} (h : (symbolsOfLen lens L)[k]? = some s) :
    (lens.take s).count L = k := by
  obtain ⟨-, hs⟩ := mem_symbolsOfLen (List.mem_of_getElem? h)
  have hlt : (lens.take s).count L < (symbolsOfLen lens L).length := by
    rw [symbolsOfLen_length]; exact count_take_lt hs
  exact (List.getElem?_inj hlt (nodup_symbolsOfLen lens L)).mp ((symbolsOfLen_get hs).trans h.symm)

/-- R150: every longer codeword begins with a value above the codewords of length `L`. -/
theorem firstCode_add_count_le (lens : List Nat) (L d : Nat) :
    (firstCode lens L + lens.count L) * 2 ^ (d + 1) ≤ firstCode lens (L + (d + 1)) := by
  induction d with
  | zero => rw [firstCode]; omega
  | succ d ih =>
    rw [show L + (d + 1 + 1) = L + (d + 1) + 1 by omega, firstCode, Nat.pow_succ, ← Nat.mul_assoc]
    omega

theorem encodeSym_iff {lens : List Nat} {s : Nat} {u : List Bool} :
    encodeSym lens s = some u ↔
      ∃ L, lens[s]? = some L ∧ u = bitsMsb L (firstCode lens L + (lens.take s).count L) := by
  unfold encodeSym codeword
  cases lens[s]? <;> simp [eq_comm]

theorem TableSpec.bounds {lens : List Nat} {t : HuffTable} (ht : TableSpec lens t) {s L : Nat} (h : lens[s]? = some L) :
    minLenOf lens ≤ L ∧ L ≤ maxLenOf lens ∧ firstCode lens L + (lens.take s).count L < 2 ^ L := by
  have hmem := List.mem_of_getElem? h
  have hfit := ht.fits L (minLenOf_le hmem) (le_maxLenOf hmem)
  have hlt := count_take_lt h
  exact ⟨minLenOf_le hmem, le_maxLenOf hmem, by omega⟩

/-- The first `zn` bits of a codeword are the whole of it, or a value above the limit of `zn` (R153, R155). -/
theorem codeword_split {lens : List Nat} {L c zn zvec : Nat} {u : List Bool} (hc : c < 2 ^ L) (hfirst : firstCode lens L ≤ c)
    (hz : zvec < 2 ^ zn) (h : bitsMsb L c = bitsMsb zn zvec ++ u) :
    (u = [] ∧ L = zn ∧ c = zvec) ∨ (u ≠ [] ∧ firstCode lens zn + lens.count zn ≤ zvec) := by
  have hlen : L = zn + u.length := by simpa using congrArg List.length h
  subst hlen
  rw [bitsMsb_add] at h
  have htop := bitsMsb_inj (List.append_inj_left h (by simp))
  have hc' : c >>> u.length < 2 ^ zn := by
    rw [Nat.shiftRight_eq_div_pow]
    exact Nat.div_lt_of_lt_mul (by rwa [Nat.mul_comm, ← Nat.pow_add])
  rw [Nat.mod_eq_of_lt hc', Nat.mod_eq_of_lt hz] at htop
  cases u with
  | nil => exact .inl ⟨rfl, rfl, htop⟩
  | cons b u =>
    have hle := firstCode_add_count_le lens zn u.length
    refine .inr ⟨by simp, ?_⟩
    rw [← htop, Nat.shiftRight_eq_div_pow, Nat.le_div_iff_mul_le (by positivity)]
    exact hle.trans hfirst

/-- R155: a value in the range of its length is the codeword of one symbol, and no other codeword begins with it. -/
theorem spells_symbolAt {lens : List Nat} {t : HuffTable} (ht : TableSpec lens t) (n : Nat) {zn zvec : Nat}
    (h1 : minLenOf lens ≤ zn) (h2 : zn ≤ maxLenOf lens) (hlo : firstCode lens zn ≤ zvec) (hz : zvec < 2 ^ zn)
    (hhi : zvec < firstCode lens zn + lens.count zn) {u : List Bool} {i : Instr} :
    Spells (symbolAt t n zn zvec) u i ↔
      ∃ s, encodeSym lens s = some (bitsMsb zn zvec ++ u) ∧ i = symbolInstr n s := by
  obtain ⟨sym, hsym, hat⟩ := symbolAt_eq ht n zn (zvec - firstCode lens zn) h1 h2 (by omega)
  rw [Nat.add_sub_cancel' hlo] at hat
  rw [hat, spells_done]
  constructor
  · rintro ⟨rfl, rfl⟩
    obtain ⟨-, hlen⟩ := mem_symbolsOfLen (List.mem_of_getElem? hsym)
    refine ⟨sym, encodeSym_iff.mpr ⟨zn, hlen, ?_⟩, rfl⟩
    rw [count_take_of_symbolsOfLen hsym, Nat.add_sub_cancel' hlo, List.append_nil]
  · rintro ⟨s, hs, rfl⟩
    obtain ⟨L, hL, hbits⟩ := encodeSym_iff.mp hs
    obtain ⟨-, -, hc⟩ := ht.bounds hL
    rcases codeword_split hc (Nat.le_add_right _ _) hz hbits.symm with ⟨rfl, rfl, hv⟩ | ⟨-, hle⟩
    · have hget := symbolsOfLen_get hL
      rw [show (lens.take s).count L = zvec - firstCode lens L by omega, hsym] at hget
      exact ⟨rfl, by rw [Option.some.inj hget]⟩
    · omega

theorem bitsMsb_snoc (n v : Nat) (b : Bool) : bitsMsb (n + 1) (2 * v + b.toNat) = bitsMsb n v ++ [b] := by
  have hb : b.toNat < 2 := Bool.toNat_lt b
  rw [bitsMsb_add, Nat.shiftRight_eq_div_pow, Nat.pow_one, show (2 * v + b.toNat) / 2 = v by omega, ← bitsMsb_mod 1,
    show (2 * v + b.toNat) % 2 ^ 1 = b.toNat by omega, bitsMsb_one_toNat]

/-- A value above the limit of its length is no whole codeword. -/
theorem ne_nil_of_encodeSym {lens : List Nat} {t : HuffTable} (ht : TableSpec lens t) {s zn zvec : Nat} {u : List Bool}
    (hz : zvec < 2 ^ zn) (hhi : firstCode lens zn + lens.count zn ≤ zvec)
    (h : encodeSym lens s = some (bitsMsb zn zvec ++ u)) : u ≠ [] ∧ zn < maxLenOf lens := by
  obtain ⟨L, hL, hbits⟩ := encodeSym_iff.mp h
  obtain ⟨-, hmax, hc⟩ := ht.bounds hL
  have hrank := count_take_lt hL
  rcases codeword_split hc (Nat.le_add_right _ _) hz hbits.symm with ⟨rfl, rfl, hv⟩ | ⟨hu, -⟩
  · omega
  · have hlen : zn + u.length = L := by simpa using congrArg List.length hbits
    have := List.length_pos_iff.mpr hu
    exact ⟨hu, by omega⟩

theorem above_limit_iff (first cnt v : Nat) : (v : Int) > (first : Int) + cnt - 1 ↔ first + cnt ≤ v := by omega

/-- R155: from a value `zvec` of length `zn` on, `decodeSym` spells the rest of the codewords that begin with it. -/
theorem spells_parseSymbolFrom {lens : List Nat} {t : HuffTable} (ht : TableSpec lens t) (n : Nat) {left zn zvec : Nat}
    {u : List Bool} {i : Instr} (h1 : minLenOf lens ≤ zn) (h2 : zn + left = maxLenOf lens) (hlo : firstCode lens zn ≤ zvec)
    (hz : zvec < 2 ^ zn) :
    Spells (parseSymbolFrom t n left zn zvec) u i ↔
      ∃ s, encodeSym lens s = some (bitsMsb zn zvec ++ u) ∧ i = symbolInstr n s := by
  induction left generalizing zn zvec u with
  | zero =>
    simp only [parseSymbolFrom, ht.limit zn h1 (by omega), above_limit_iff]
    split
    · rename_i hhi
      simp only [not_spells_reject, false_iff]
      rintro ⟨s, hs, -⟩
      have := (ne_nil_of_encodeSym ht hz hhi hs).2
      omega
    · exact spells_symbolAt ht n h1 (by omega) hlo hz (by omega)
  | succ left ih =>
    simp only [parseSymbolFrom, ht.limit zn h1 (by omega), above_limit_iff]
    split
    · rename_i hhi
      have next : ∀ (b : Bool) (r : List Bool), Spells (parseSymbolFrom t n left (zn + 1) (2 * zvec + b.toNat)) r i ↔
          ∃ s, encodeSym lens s = some (bitsMsb zn zvec ++ b :: r) ∧ i = symbolInstr n s := by
        intro b r
        have hb := Bool.toNat_lt b
        rw [ih (zn := zn + 1) (by omega) (by omega) (by rw [firstCode]; omega) (by rw [Nat.pow_succ]; omega),
          bitsMsb_snoc, List.append_assoc, List.singleton_append]
      simp only [spells_bit, next]
      constructor
      · rintro ⟨b, r, rfl, h⟩
        exact h
      · rintro ⟨s, hs, rfl⟩
        obtain ⟨b, r, rfl⟩ := List.exists_cons_of_ne_nil (ne_nil_of_encodeSym ht hz hhi hs).1
        exact ⟨b, r, rfl, s, hs, rfl⟩
    · exact spells_symbolAt ht n h1 (by omega) hlo hz (by omega)

/-- R106, R155: `decodeSym` spells the codewords. -/
theorem spells_parseSymbol {lens : List Nat} {t : HuffTable} (ht : TableSpec lens t) (hne : lens ≠ []) (n : Nat) {u : List Bool}
    {i : Instr} : Spells (parseSymbol t n) u i ↔ ∃ s, encodeSym lens s = some u ∧ i = symbolInstr n s := by
  have hmm : minLenOf lens ≤ maxLenOf lens := le_maxLenOf (minLenOf_mem hne)
  have from_min : ∀ (w : BitVec (minLenOf lens)) (r : List Bool),
      Spells (parseSymbolFrom t n (maxLenOf lens - minLenOf lens) (minLenOf lens) w.toNat) r i ↔
        ∃ s, encodeSym lens s = some (bitsMsb (minLenOf lens) w.toNat ++ r) ∧ i = symbolInstr n s := fun w r =>
    spells_parseSymbolFrom ht n le_rfl (by omega) (by rw [firstCode_below le_rfl]; omega) w.isLt
  simp only [parseSymbol, ht.minLen, ht.maxLen, spells_field, from_min]
  constructor
  · rintro ⟨w, r, rfl, h⟩
    exact h
  · rintro ⟨s, hs, rfl⟩
    obtain ⟨L, hL, rfl⟩ := encodeSym_iff.mp hs
    obtain ⟨d, rfl⟩ := Nat.exists_eq_add_of_le (ht.bounds hL).1
    generalize firstCode lens _ + List.count _ (lens.take s) = c at hs ⊢
    have hu : bitsMsb (minLenOf lens + d) c =
        bitsMsb (minLenOf lens) (BitVec.ofNat (minLenOf lens) (c >>> d)).toNat ++ bitsMsb d c := by
      rw [bitsMsb_add, BitVec.toNat_ofNat, bitsMsb_mod]
    exact ⟨_, _, hu, s, hu ▸ hs, rfl⟩

end Sys2Proof

/-! ### The decoder and the encoder

Expectation by expectation, what the parse spells is what the encoder writes. -/

namespace Sys2Proof.Machine

/-- The parse of `x` spells just what the encoder writes for the well-formed tokens that can stand there. -/
def SpelledAs (x : Expect) : Prop := ∀ (u : List Bool) (i : Instr),
  Spells (parseOf x) u i ↔ i.wellFormed = true ∧ encodeBits x i = some u

theorem spelledAs_header : SpelledAs .header := by
  intro u i
  refine spells_parseHeader.trans ⟨?_, fun ⟨_, h⟩ => ?_⟩
  · rintro ⟨d, rfl, rfl⟩
    exact ⟨rfl, rfl⟩
  · cases i with
    | streamHeader d => exact ⟨d, (Option.some.inj h).symm, rfl⟩
    | _ => nomatch h

theorem spelledAs_marker : SpelledAs .marker := by
  intro u i
  refine spells_parseMarker.trans ⟨?_, fun ⟨_, h⟩ => ?_⟩
  · rintro (⟨rfl, rfl⟩ | ⟨c, rfl, rfl⟩) <;> exact ⟨rfl, rfl⟩
  · cases i with
    | blockMark => exact .inl ⟨(Option.some.inj h).symm, rfl⟩
    | eosMark c => exact .inr ⟨c, (Option.some.inj h).symm, rfl⟩
    | _ => nomatch h

theorem spelledAs_blockHeader : SpelledAs .blockHeader := by
  intro u i
  refine spells_parseBlockHeader.trans ⟨?_, fun ⟨_, h⟩ => ?_⟩
  · rintro ⟨c, r, p, rfl, rfl⟩
    exact ⟨rfl, rfl⟩
  · cases i with
    | blockHeader c r p => exact ⟨c, r, p, (Option.some.inj h).symm, rfl⟩
    | _ => nomatch h

theorem spelledAs_symbolMap : SpelledAs .symbolMap := by
  intro u i
  refine spells_parseSymbolMap.trans ⟨?_, fun ⟨hw, h⟩ => ?_⟩
  · rintro ⟨m, ws, hl, rfl, rfl⟩
    exact ⟨decide_eq_true hl, rfl⟩
  · cases i with
    | symbolMap m ws => exact ⟨m, ws, of_decide_eq_true hw, (Option.some.inj h).symm, rfl⟩
    | _ => nomatch h

theorem encodeBits_tableCounts_legal {g : BitVec 3} (hg : legalGroups g.toNat = true) (n : BitVec 15) :
    encodeBits .tableCounts (.tableCounts g n) = some (bitsMsb 3 g.toNat ++ bitsMsb 15 n.toNat) := if_pos hg

theorem encodeBits_tableCounts_malformed {g : BitVec 3} (hg : legalGroups g.toNat = false) (n : BitVec 15) :
    encodeBits .tableCounts (.tableCounts g n) = if n = 0 then some (bitsMsb 3 g.toNat) else none :=
  if_neg (Bool.eq_false_iff.mp hg)

theorem wellFormed_tableCounts {g : BitVec 3} {n : BitVec 15} :
    (Instr.tableCounts g n).wellFormed = true ↔ legalGroups g.toNat = true ∨ n = 0 := by
  simp [Instr.wellFormed, legalGroups]

theorem spelledAs_tableCounts : SpelledAs .tableCounts := by
  intro u i
  refine spells_parseTableCounts.trans ⟨?_, fun ⟨_, h⟩ => ?_⟩
  · rintro ⟨g, ⟨hg, n, rfl, rfl⟩ | ⟨hg, rfl, rfl⟩⟩
    · exact ⟨wellFormed_tableCounts.mpr (.inl hg), encodeBits_tableCounts_legal hg n⟩
    · exact ⟨wellFormed_tableCounts.mpr (.inr rfl), encodeBits_tableCounts_malformed hg 0⟩
  · cases i with
    | tableCounts g n =>
      cases hg : legalGroups g.toNat with
      | true =>
        rw [encodeBits_tableCounts_legal hg] at h
        exact ⟨g, .inl ⟨hg, n, (Option.some.inj h).symm, rfl⟩⟩
      | false =>
        rw [encodeBits_tableCounts_malformed hg, Option.ite_none_right_eq_some] at h
        obtain ⟨rfl, h⟩ := h
        exact ⟨g, .inr ⟨hg, (Option.some.inj h).symm, rfl⟩⟩
    | _ => nomatch h

/-- R104: a selector value below the number of groups is spelled in unary. -/
theorem encodeBits_selectorInstr {g v : Nat} (hv : v < g) (hg : g ≤ 6) :
    encodeBits (.selector g) (selectorInstr v) = some (unary v) := by
  match v, hv with
  | 0, hv | 1, hv | 2, hv | 3, hv | 4, hv | 5, hv => exact if_pos hv
  | v + 6, hv => omega

theorem wellFormed_selectorInstr (v : Nat) : (selectorInstr v).wellFormed = true := by
  match v with
  | 0 | 1 | 2 | 3 | 4 | 5 | _ + 6 => rfl

theorem spelledAs_selector {g : Nat} (hg : g ≤ 6) : SpelledAs (.selector g) := by
  have value : ∀ {v : Nat} {u : List Bool}, (if v < g then some (unary v) else none) = some u → v < g ∧ u = unary v := by
    intro v u h
    obtain ⟨hv, h⟩ := Option.ite_none_right_eq_some.mp h
    exact ⟨hv, (Option.some.inj h).symm⟩
  intro u i
  refine spells_parseSelector.trans ⟨?_, fun ⟨_, h⟩ => ?_⟩
  · rintro (⟨v, hv, rfl, rfl⟩ | ⟨rfl, rfl⟩)
    · rw [Nat.zero_add]
      exact ⟨wellFormed_selectorInstr v, encodeBits_selectorInstr hv hg⟩
    · exact ⟨rfl, rfl⟩
  · cases i with
    | selectorMtf0 => exact .inl ⟨0, (value h).1, (value h).2, rfl⟩
    | selectorMtf1 => exact .inl ⟨1, (value h).1, (value h).2, rfl⟩
    | selectorMtf2 => exact .inl ⟨2, (value h).1, (value h).2, rfl⟩
    | selectorMtf3 => exact .inl ⟨3, (value h).1, (value h).2, rfl⟩
    | selectorMtf4 => exact .inl ⟨4, (value h).1, (value h).2, rfl⟩
    | selectorMtf5 => exact .inl ⟨5, (value h).1, (value h).2, rfl⟩
    | selectorMtfBad => exact .inr ⟨(Option.some.inj h).symm, rfl⟩
    | _ => nomatch h

theorem spelledAs_codeLenStart : SpelledAs .codeLenStart := by
  intro u i
  refine spells_parseCodeLenStart.trans ⟨?_, fun ⟨_, h⟩ => ?_⟩
  · rintro ⟨l, rfl, rfl⟩
    exact ⟨rfl, rfl⟩
  · cases i with
    | codeLenStart l => exact ⟨l, (Option.some.inj h).symm, rfl⟩
    | _ => nomatch h

theorem spelledAs_codeLen : SpelledAs .codeLen := by
  intro u i
  refine spells_parseCodeLen.trans ⟨?_, fun ⟨_, h⟩ => ?_⟩
  · rintro (⟨rfl, rfl⟩ | ⟨rfl, rfl⟩ | ⟨rfl, rfl⟩) <;> exact ⟨rfl, rfl⟩
  · cases i with
    | codeLenEnd => exact .inl ⟨(Option.some.inj h).symm, rfl⟩
    | codeLenInc => exact .inr (.inl ⟨(Option.some.inj h).symm, rfl⟩)
    | codeLenDec => exact .inr (.inr ⟨(Option.some.inj h).symm, rfl⟩)
    | _ => nomatch h

theorem spelledAs_rle1Unit : SpelledAs .rle1Unit := by
  intro u i
  refine spells_parseRle1Unit.trans ⟨?_, fun ⟨_, h⟩ => ?_⟩
  · rintro ⟨c, z, rfl, rfl⟩
    exact ⟨rfl, rfl⟩
  · cases i with
    | rle1Unit c z => exact ⟨c, z, (Option.some.inj h).symm, rfl⟩
    | _ => nomatch h

/-! ### Symbols -/

theorem symbolInstr_mtf {n m : Nat} (h2 : 2 ≤ m) (hn : m ≤ n) : symbolInstr n m = .mtf m := by
  rw [symbolInstr, if_neg (by omega), if_neg (by omega), if_neg (by omega)]

theorem symbolInstr_eob {n : Nat} (hn : 1 ≤ n) : symbolInstr n (n + 1) = .eob := by
  rw [symbolInstr, if_neg (by omega), if_neg (by omega), if_pos rfl]

/-- R106: each symbol of the alphabet is encoded by its codeword. -/
theorem encodeBits_symbolInstr {lens : List Nat} {n s : Nat} (hn : 1 ≤ n) (hs : s < n + 2) :
    encodeBits (.symbol lens n) (symbolInstr n s) = encodeSym lens s := by
  obtain rfl | rfl | ⟨h2, hm⟩ | rfl : s = 0 ∨ s = 1 ∨ (2 ≤ s ∧ s ≤ n) ∨ s = n + 1 := by omega
  · rfl
  · rfl
  · rw [symbolInstr_mtf h2 hm]
    exact if_pos (by simp [h2, hm])
  · rw [symbolInstr_eob hn]
    rfl

theorem wellFormed_symbolInstr {n s : Nat} (hn : n ≤ 256) (hs : s < n + 2) : (symbolInstr n s).wellFormed = true := by
  rcases symbolInstr_fits n s hs with h | h | ⟨m, h2, hm, h⟩ | h <;> rw [h]
  · rfl
  · rfl
  · simp [Instr.wellFormed, h2, hm.trans hn]
  · rfl

theorem spelledAs_symbol {lens : List Nat} {n : Nat} (h : expectOk (.symbol lens n)) : SpelledAs (.symbol lens n) := by
  obtain ⟨hlen, hn1, hn, -, hok⟩ := h
  have hne : lens ≠ [] := by
    rintro rfl
    simp at hlen
  intro u i
  refine (spells_parseSymbol (buildTable_spec (Prod.ext rfl hok)) hne n).trans ⟨?_, fun ⟨_, h⟩ => ?_⟩
  · rintro ⟨s, hs, rfl⟩
    obtain ⟨L, hL, -⟩ := encodeSym_iff.mp hs
    have hlt : s < n + 2 := hlen ▸ (List.getElem?_eq_some_iff.mp hL).1
    exact ⟨wellFormed_symbolInstr hn hlt, (encodeBits_symbolInstr hn1 hlt).trans hs⟩
  · cases i with
    | runA => exact ⟨0, h, rfl⟩
    | runB => exact ⟨1, h, rfl⟩
    | mtf m =>
      obtain ⟨hm, h⟩ := Option.ite_none_right_eq_some.mp h
      simp only [Bool.and_eq_true, decide_eq_true_eq] at hm
      exact ⟨m, h, (symbolInstr_mtf hm.1 hm.2).symm⟩
    | eob => exact ⟨n + 1, h, (symbolInstr_eob hn1).symm⟩
    | _ => nomatch h

theorem spelledAs_of_expectOk {x : Expect} (h : expectOk x) : SpelledAs x := by
  cases x with
  | header => exact spelledAs_header
  | marker => exact spelledAs_marker
  | blockHeader => exact spelledAs_blockHeader
  | symbolMap => exact spelledAs_symbolMap
  | tableCounts => exact spelledAs_tableCounts
  | selector g => exact spelledAs_selector h
  | codeLenStart => exact spelledAs_codeLenStart
  | codeLen => exact spelledAs_codeLen
  | symbol lens n => exact spelledAs_symbol h
  | rle1Unit => exact spelledAs_rle1Unit

/-- Settles O10: the encoding of a token is what its parse spells (`spelledAs_of_expectOk`), and bits that begin with a spelling are
read as its token (`parseBits_ok_iff`). -/
theorem tokenRoundTrip : Obligations.TokenRoundTrip := by
  intro x i bs rest hx hw he
  exact (parseBits_ok_iff _).mpr ⟨bs, rfl, (spelledAs_of_expectOk hx bs i).mpr ⟨hw, he⟩⟩

/-- Settles O11: bits that are read as a token begin with a spelling of it, which is its encoding. -/
theorem decodedTokenEncodes : Obligations.DecodedTokenEncodes := by
  intro x i bs rest hx h
  obtain ⟨used, hbs, hs⟩ := (parseBits_ok_iff _).mp h
  obtain ⟨hw, he⟩ := (spelledAs_of_expectOk hx used i).mp hs
  exact ⟨hw, used, he, hbs⟩

end Sys2Proof.Machine

/-! ## Command words

R93, R95: which words are commands. -/

namespace Sys2Proof.Machine

/-- The words R95 lists. -/
def listedWords : List Word := [0x01, 0x11, 0x02, 0x03, 0x04, 0x05, 0x06]

/-- A word below 32 is in the list, or reserved: R95 leaves nothing of the 32 open. -/
theorem decodeCmd_low : ∀ k < 32, BitVec.ofNat 32 k ∉ listedWords →
    decodeCmd (BitVec.ofNat 32 k) = .reserved (BitVec.ofNat 32 k) := by
  decide

theorem toNat_lt_of_extractLsb'_eq_zero {w : Word} (h : w.extractLsb' 5 27 = 0) : w.toNat < 32 := by
  have hn : (w.extractLsb' 5 27).toNat = 0 := by rw [h]; rfl
  have hlt := w.isLt
  rw [BitVec.extractLsb'_toNat, Nat.shiftRight_eq_div_pow] at hn
  omega

/-- R93: a word that R95 does not list is reserved. -/
theorem decodeCmd_reserved {w : Word} (h : w ∉ listedWords) : decodeCmd w = .reserved w := by
  by_cases hw : w.extractLsb' 5 27 = 0
  · have hlow := decodeCmd_low w.toNat (toNat_lt_of_extractLsb'_eq_zero hw)
    rw [BitVec.ofNat_toNat, BitVec.setWidth_eq] at hlow
    exact hlow h
  · exact if_pos hw

theorem isReservedWord_iff {w : Word} : isReservedWord w = true ↔ w ∉ listedWords := by
  simp [isReservedWord, listedWords, and_assoc]

/-- The listed words are the encodings of the well-formed commands they decode to. -/
theorem encodeCmd_decodeCmd_listed : ∀ w ∈ listedWords,
    encodeCmd (decodeCmd w) = some w ∧ (decodeCmd w).wellFormed = true := by
  simp only [listedWords, List.forall_mem_cons]
  exact ⟨⟨rfl, rfl⟩, ⟨rfl, rfl⟩, ⟨rfl, rfl⟩, ⟨rfl, rfl⟩, ⟨rfl, rfl⟩, ⟨rfl, rfl⟩, ⟨rfl, rfl⟩,
    fun _ h => nomatch h⟩

theorem encodeCmd_decodeCmd (w : Word) : encodeCmd (decodeCmd w) = some w ∧ (decodeCmd w).wellFormed = true := by
  by_cases h : w ∈ listedWords
  · exact encodeCmd_decodeCmd_listed w h
  · rw [decodeCmd_reserved h]
    exact ⟨rfl, isReservedWord_iff.mpr h⟩

/-- No other well-formed instruction has the encoding of a command. -/
theorem decodeCmd_of_encodeCmd {i : Instr} {w : Word} (hi : i.wellFormed = true) (h : encodeCmd i = some w) : decodeCmd w = i := by
  cases i with
  | initContinuous | initByblock | readByte | readInto | getReported | adjustReported | close =>
    obtain rfl := Option.some.inj h
    rfl
  | reserved v =>
    obtain rfl : v = w := Option.some.inj h
    exact decodeCmd_reserved (isReservedWord_iff.mp hi)
  | _ => nomatch h

/-- Settles O9: the listed words by evaluation, and every other word is reserved and encodes itself. -/
theorem commandWords : Obligations.CommandWords :=
  ⟨rfl, rfl, rfl, rfl, rfl, rfl, rfl, fun _ h => decodeCmd_reserved h, encodeCmd_decodeCmd, fun _ _ => decodeCmd_of_encodeCmd⟩

end Sys2Proof.Machine

/-! ## Run lengths

R108, R186: the bijective base-2 numbers of a run, and the accumulator that saturates. -/

namespace Sys2Proof.Machine

theorem runLength_cons (b : Bool) (ds : List Bool) : runLength (b :: ds) = b.toNat + 1 + 2 * runLength ds := by
  cases b <;> rfl

/-- The digits of a run length: its parity gives the first digit, and so on with the rest. -/
theorem runLength_inj : ∀ {ds ds' : List Bool}, runLength ds = runLength ds' → ds = ds'
  | [], [], _ => rfl
  | [], b :: ds, h => by rw [runLength_cons, runLength] at h; omega
  | b :: ds, [], h => by rw [runLength_cons, runLength] at h; omega
  | b :: ds, b' :: ds', h => by
    rw [runLength_cons, runLength_cons] at h
    have hb := Bool.toNat_lt b
    have hb' := Bool.toNat_lt b'
    have inj : ∀ b b' : Bool, b.toNat = b'.toNat → b = b' := by decide
    obtain rfl := inj b b' (by omega)
    rw [runLength_inj (show runLength ds = runLength ds' by omega)]

theorem exists_runLength (n : Nat) : ∃ ds, runLength ds = n := by
  induction n using Nat.strongRecOn with
  | ind n ih =>
    obtain rfl | hpos := Nat.eq_zero_or_pos n
    · exact ⟨[], rfl⟩
    · obtain ⟨ds, hds⟩ := ih ((n - 1) / 2) (by omega)
      refine ⟨decide (n % 2 = 0) :: ds, ?_⟩
      rw [runLength_cons, hds]
      by_cases he : n % 2 = 0 <;> simp only [he, decide_true, decide_false, Bool.toNat_true, Bool.toNat_false] <;> omega

/-- `s` with a run in progress. -/
def withRun (job : Job) (acc w : Nat) (s : State) : State :=
  { s with blk := { s.blk with runAcc := acc, runW := w }, ctl := .busy job (.symbols true) }

/-- A run digit in the symbol loop (R186); the first one of a run starts from 0 with weight 1. -/
theorem exec_runInstr {s : State} {job : Job} {inRun : Bool} (h : s.ctl = .busy job (.symbols inRun)) (b : Bool) :
    exec (runInstr b) s = .next (withRun job
      (sat ((if inRun then s.blk.runAcc else 0) + (b.toNat + 1) * if inRun then s.blk.runW else 1))
      (sat (2 * if inRun then s.blk.runW else 1)) s) := by
  cases b <;> simp only [runInstr, exec, execRunA, execRunB, runDigit, h] <;> rfl

/-- Saturating first or last is the same, as every digit counts its weight at least once (R186). -/
theorem sat_digit (a w : Nat) (b : Bool) : sat (sat a + (b.toNat + 1) * sat w) = sat (a + (b.toNat + 1) * w) := by
  cases b <;> simp only [sat, Config.runSat, Bool.toNat_false, Bool.toNat_true] <;> omega

theorem sat_double (w : Nat) : sat (2 * sat w) = sat (2 * w) := by
  simp only [sat, Config.runSat]
  omega

/-- The digits of a run, one after another, from an accumulator that stands for `a` and a weight that stands for `w`. `f` runs a
digit in the state an outcome gives. -/
theorem foldl_runInstr {f : Outcome → Bool → Outcome} (hf : ∀ u d, f (.next u) d = exec (runInstr d) u) {job : Job}
    (ds : List Bool) {s : State} {a w : Nat} (hc : s.ctl = .busy job (.symbols true)) (ha : s.blk.runAcc = sat a)
    (hw : s.blk.runW = sat w) :
    ∃ t, ds.foldl f (.next s) = .next t ∧ t.ctl = .busy job (.symbols true) ∧ t.blk.runAcc = sat (a + w * runLength ds) ∧
      t = { s with blk := { s.blk with runAcc := t.blk.runAcc, runW := t.blk.runW }, ctl := t.ctl } := by
  induction ds generalizing s a w with
  | nil => exact ⟨s, rfl, hc, ha, rfl⟩
  | cons d ds ih =>
    have hsum : a + (d.toNat + 1) * w + 2 * w * runLength ds = a + w * runLength (d :: ds) := by
      rw [runLength_cons]; ring
    rw [List.foldl_cons, hf, exec_runInstr hc, if_pos rfl, if_pos rfl, ha, hw, sat_digit, sat_double]
    obtain ⟨t, ht, htc, hacc, heq⟩ := ih (s := withRun job (sat (a + (d.toNat + 1) * w)) (sat (2 * w)) s) rfl rfl rfl
    exact ⟨t, ht, htc, by rw [hacc, hsum], heq⟩

/-- Settles O42: a run length has a spelling (`exists_runLength`) and only one (`runLength_inj`); the first digit of a run starts from
0 with weight 1, and the others follow (`foldl_runInstr`). -/
theorem runLengthSpelling : Obligations.RunLengthSpelling := by
  refine ⟨fun n _ => ?_, fun b ds s job hc => ?_⟩
  · obtain ⟨ds, rfl⟩ := exists_runLength n
    exact ⟨ds, rfl, fun ds' h => runLength_inj h⟩
  · have hsum : 0 + (b.toNat + 1) * 1 + 2 * 1 * runLength ds = runLength (b :: ds) := by
      rw [runLength_cons]; omega
    rw [List.foldl_cons]
    change ∃ t, ds.foldl _ (exec (runInstr b) s) = _ ∧ _
    rw [exec_runInstr hc]
    have run := fun f hf => foldl_runInstr (f := f) hf ds
      (s := withRun job (sat (0 + (b.toNat + 1) * 1)) (sat (2 * 1)) s) rfl rfl rfl
    rw [hsum] at run
    exact run _ fun _ _ => rfl

end Sys2Proof.Machine

/-! ## Reading a token in a step

R99 to R111, R131, R184: the step of a command where it reads a token, in terms of what the decoder makes of the bits from the
token's start on. -/

namespace Sys2Proof.Machine

theorem ne_walk_of_expectOf {s : State} {ph : Phase} {x : Expect} (h : expectOf s ph = some x) : ph ≠ .walk := by
  rintro rfl
  cases h

theorem ne_scan_of_expectOf {s : State} {ph : Phase} {x : Expect} (h : expectOf s ph = some x) : ph ≠ .scan := by
  rintro rfl
  cases h

/-- The run of a control point's parse is one of what the decoder expects there. -/
theorem parseRun_of_expectOf {s : State} {job : Job} {ph : Phase} {x : Expect} (hi : Inv s) (hb : s.ctl = .busy job ph)
    (hx : expectOf s ph = some x) :
    ParseRun (parseOf x) s [] (bitsSince s.rd) (runParse (resume (phaseParse s ph) s.rd.part) s) := by
  have hpt := Point.of_inv hi hb (ne_walk_of_expectOf hx)
  rw [← phaseParse_eq hpt.phase hx]
  exact hpt.run (ne_walk_of_expectOf hx) (ne_scan_of_expectOf hx)

section

variable {s : State} {job : Job} {ph : Phase} (hb : s.ctl = .busy job ph) (hw : ph ≠ .walk) (hsc : ph ≠ .scan)

include hb hw hsc

/-- A token that has been read is run, after a symbol has been counted. -/
theorem step_of_runParse_instr {i : Instr} {t : State} (h : runParse (resume (phaseParse s ph) s.rd.part) s = .instr i t) :
    step s = exec i (countSymbol ph t) := by
  rw [step_busy hb, nextStep_token hb hw hsc, fetchToken, h]

/-- An error of what has been read is raised. -/
theorem step_of_runParse_raised {e : ErrKind} {d : Nat} {t : State}
    (h : runParse (resume (phaseParse s ph) s.rd.part) s = .raised e d t) : step s = .next (raiseError e d t) := by
  rw [step_busy hb, nextStep_token hb hw hsc, fetchToken, h]
  rfl

/-- A token that is not all there gives way to the host. -/
theorem step_of_runParse_wait {t : State} (h : runParse (resume (phaseParse s ph) s.rd.part) s = .wait t) :
    step s = hostStep t := by
  rw [step_busy hb, nextStep_token hb hw hsc, fetchToken, h]

end

/-- Settles O4: the run of the control point's parse agrees with the decoder (`ParseRun`), and the token it ends in is run. -/
theorem stepRunsToken : Obligations.StepRunsToken := by
  intro s job ph x i rest hi hb hx hd
  have hrun := parseRun_of_expectOf hi hb hx
  generalize hf : runParse (resume (phaseParse s ph) s.rd.part) s = f at hrun
  have hdec : parseBits (parseOf x) (bitsSince s.rd) = .ok i rest := hd
  cases hrun with
  | instr j t k bits used live part eq =>
    rw [bits] at hdec
    cases hdec
    obtain ⟨m, hm, -⟩ := used.pulled
    refine ⟨t.rd, m, ?_, rfl, hm, live, part⟩
    rw [step_of_runParse_instr hb (ne_walk_of_expectOf hx) (ne_scan_of_expectOf hx) hf, ← eq]
  | rejected _ _ _ _ bits | ended _ _ _ _ bits | waits _ _ _ _ _ bits | undefined bits =>
    rw [bits] at hdec
    cases hdec

/-- R184: where the selectors are used up no symbol is read. -/
theorem symbolParse_exhausted {s : State} (h : s.blk.nSelectors ≤ s.blk.symCount / 50) :
    symbolParse s = .reject .tableMalformed 8 := if_pos h

theorem step_symbols_exhausted {s : State} {job : Job} {b : Bool} (hb : s.ctl = .busy job (.symbols b))
    (h : s.blk.nSelectors ≤ s.blk.symCount / 50) :
    step s = .next (raiseError .tableMalformed 8 { s with rd := { s.rd with part := [] } }) := by
  refine step_of_runParse_raised hb (by simp) (by simp) ?_
  rw [phaseParse, symbolParse_exhausted h]
  rfl

section

variable {s : State} {job : Job} {ph : Phase} {x : Expect} {e : ErrKind} {d : Nat} (hi : Inv s) (hb : s.ctl = .busy job ph)
  (hx : expectOf s ph = some x)

include hi hb hx

/-- Bits that begin no token raise the error the rules name for them (R111, R273). -/
theorem step_of_rejected (hd : decodeBits x (bitsSince s.rd) = .rejected e d) : ∃ (r : BitReader) (m : Nat),
    step s = .next (raiseError e d { applyEarlies (earlyWrites (parseOf x) (bitsSince s.rd)) s with rd := r }) ∧
      PulledBytes m s.rd r := by
  have hrun := parseRun_of_expectOf hi hb hx
  generalize hf : runParse (resume (phaseParse s ph) s.rd.part) s = f at hrun
  have hdec : parseBits (parseOf x) (bitsSince s.rd) = .rejected e d := hd
  cases hrun with
  | rejected e' d' t k bits used live part eq =>
    rw [bits] at hdec
    cases hdec
    obtain ⟨m, hm, -⟩ := used.pulled
    exact ⟨t.rd, m, by rw [step_of_runParse_raised hb (ne_walk_of_expectOf hx) (ne_scan_of_expectOf hx) hf, ← eq], hm⟩
  | instr _ _ _ bits | ended _ _ _ _ bits | waits _ _ _ _ _ bits | undefined bits =>
    rw [bits] at hdec
    cases hdec

/-- A token cut short raises its error at the source's `EOF` (R130), and else gives way to the host with no bit lost (U8, log 9). -/
theorem step_of_short (hd : decodeBits x (bitsSince s.rd) = .short e d) : ∃ r : BitReader,
    PulledBytes s.rd.src.length s.rd r ∧
      ((s.rd.srcEnds = true ∧
          step s = .next (raiseError e d { applyEarlies (earlyWrites (parseOf x) (bitsSince s.rd)) s with rd := r })) ∨
        (s.rd.srcEnds = false ∧ bitsSince r = bitsSince s.rd ∧
          step s = hostStep { applyEarlies (earlyWrites (parseOf x) (bitsSince s.rd)) s with rd := r })) := by
  have hrun := parseRun_of_expectOf hi hb hx
  generalize hf : runParse (resume (phaseParse s ph) s.rd.part) s = f at hrun
  have hdec : parseBits (parseOf x) (bitsSince s.rd) = .short e d := hd
  cases hrun with
  | ended e' d' t k bits ends used src live part eq =>
    rw [bits] at hdec
    cases hdec
    refine ⟨t.rd, used.pulled_all src, .inl ⟨ends, ?_⟩⟩
    rw [step_of_runParse_raised hb (ne_walk_of_expectOf hx) (ne_scan_of_expectOf hx) hf, ← eq]
  | waits e' d' t k held bits ends used src live part all bound width eq =>
    rw [bits] at hdec
    cases hdec
    refine ⟨t.rd, used.pulled_all src, .inr ⟨ends, by rw [bitsSince, part]; exact all, ?_⟩⟩
    rw [step_of_runParse_wait hb (ne_walk_of_expectOf hx) (ne_scan_of_expectOf hx) hf, ← eq]
  | instr _ _ _ bits | rejected _ _ _ _ bits | undefined bits =>
    rw [bits] at hdec
    cases hdec

end

/-- R140: the end of a scan without a marker. -/
theorem finishScan_false (job : Job) (s : State) :
    finishScan job false s = { s with state := .eof, status := 0, result := if job = .init then 0 else -2, ctl := .idle } := by
  cases job <;> rfl

/-- A scan without a marker ends at `EOF`, or gives way to the host with the last 48 bits held (R137, R140, U8, log 9). -/
theorem step_of_scan_none {s : State} {job : Job} (hi : Inv s) (hb : s.ctl = .busy job .scan)
    (hm : ∀ q, ¬ MarkAt (bitsSince s.rd) q) : ∃ r : BitReader, PulledBytes s.rd.src.length s.rd r ∧
      ((s.rd.srcEnds = true ∧ step s = .next (finishScan job false { s with rd := r, reported := r.raw })) ∨
        (s.rd.srcEnds = false ∧ bitsSince r = (bitsSince s.rd).drop ((bitsSince s.rd).length - 48) ∧
          step s = hostStep { s with rd := r })) := by
  have hpt := Point.of_inv hi hb (by decide)
  rcases scanFor_none s.rd hpt.scanReader hm with ⟨r, k, hf, he, hc, hs, -⟩ | ⟨r, k, hf, he, hc, hs, -, hbits⟩
  · refine ⟨r, hc.pulled_all hs, .inl ⟨he, ?_⟩⟩
    rw [step_busy hb, nextStep_scan hb, nextOfScan, hf]
    rfl
  · refine ⟨r, hc.pulled_all hs, .inr ⟨he, hbits, ?_⟩⟩
    rw [step_busy hb, nextStep_scan hb, nextOfScan, hf]

/-- Settles O6: by how the reading of a token, or a scan, ends. -/
theorem stepTokenErrors : Obligations.StepTokenErrors := by
  refine ⟨fun s job b hb h => step_symbols_exhausted hb h, fun s job ph x e d hi hb hx => ⟨step_of_rejected hi hb hx, ?_, ?_⟩,
    fun s job hi hb hm => ?_⟩
  · intro hd he
    obtain ⟨r, hp, ⟨-, hs⟩ | ⟨he', -⟩⟩ := step_of_short hi hb hx hd
    · exact ⟨r, hs, hp⟩
    · exact absurd (he.symm.trans he') (by decide)
  · intro hd he
    obtain ⟨r, hp, ⟨he', -⟩ | ⟨-, hbits, hs⟩⟩ := step_of_short hi hb hx hd
    · exact absurd (he.symm.trans he') (by decide)
    · exact ⟨r, hs, hp, hbits⟩
  · obtain ⟨r, hp, ⟨he, hs⟩ | ⟨he, hbits, hs⟩⟩ := step_of_scan_none hi hb hm
    · refine ⟨fun _ => ⟨r, ?_, hp⟩, fun he' => absurd (he.symm.trans he') (by decide)⟩
      rw [hs, finishScan_false]
    · exact ⟨fun he' => absurd (he.symm.trans he') (by decide), fun _ => ⟨r, hs, hp, hbits⟩⟩

end Sys2Proof.Machine

/-! ## The idle machine and the port

R90, R302, R305: what the host's and the source's actions are, one by one. -/

namespace Sys2Proof.Machine

/-- Settles O3: the equations of the idle step and of the host's step. -/
theorem stepRunsCommandWord : Obligations.StepRunsCommandWord := by
  refine ⟨fun s w rest hc hs => (step_idle hc).trans (hostStep_writeCmd hs), fun s hc => step_idle hc,
    fun s hs => hostStep_nil hs, fun s a rest hs => ⟨?_, fun ha => hostStep_act hs ha⟩⟩
  rintro w rfl
  exact hostStep_writeCmd hs

theorem hostAct_deliver_open {s : State} (h : s.rd.srcEnds = false) (bytes : List Byte) :
    hostAct (.deliver bytes) s = .next { s with rd := { s.rd with src := s.rd.src ++ bytes } } :=
  if_neg (Bool.eq_false_iff.mp h)

theorem hostAct_deliver_ended {s : State} (h : s.rd.srcEnds = true) (bytes : List Byte) :
    hostAct (.deliver bytes) s = .refused .sourceBreaksDuty := if_pos h

/-- A response of 64 bits is read as it stands. -/
theorem zeroExtend_dword (v : DWord) : v.zeroExtend 64 = v := BitVec.setWidth_eq v

/-- Settles O53: the writes and the source's actions by evaluation, the reads by whether the block is idle. -/
theorem portAccess : Obligations.PortAccess := by
  refine ⟨fun s v => ⟨rfl, rfl, fun hc => ?_, fun hc => ?_, fun hc => ?_, fun hc => ?_⟩, fun s src bytes =>
    ⟨rfl, fun h => hostAct_deliver_open h bytes, fun h => hostAct_deliver_ended h bytes, rfl⟩⟩
  · exact congrArg _ (hostReads_idle s.status hc)
  · rw [← zeroExtend_dword s.result]
    exact congrArg _ (hostReads_idle s.result hc)
  · exact (hostReads_busy s.status hc).imp fun x hx => congrArg _ hx
  · refine (hostReads_busy s.result hc).imp fun x hx => ?_
    rw [← zeroExtend_dword x]
    exact congrArg _ hx

end Sys2Proof.Machine

/-! ## Rows of the opcode table

R95 to R105, R155, R233, R209: words of the table, and the two tokens that judge or keep one byte. -/

namespace Sys2Proof.Machine

/-- Settles O8: each word by evaluation. -/
theorem decodedWords : Obligations.DecodedWords :=
  ⟨rfl, rfl, rfl, rfl, rfl, rfl, rfl, rfl, rfl⟩

theorem execStreamHeader_digit {s : State} {d : Byte} (hc : s.ctl = .busy .init .header) (h1 : 0x31 ≤ d.toNat)
    (h2 : d.toNat ≤ 0x39) :
    execStreamHeader d s = .next (respond 0 { s with blockSize100k := d.toNat - 0x30, state := .startBlock }) := by
  have hd : ¬ (d.toNat < 0x31 || d.toNat > 0x39) = true := by simp; omega
  rw [execStreamHeader, hc]
  exact congrArg Flow.settle (if_neg hd)

theorem execStreamHeader_bad {s : State} {d : Byte} (hc : s.ctl = .busy .init .header) (h : d.toNat < 0x31 ∨ 0x39 < d.toNat) :
    execStreamHeader d s = .next (raiseError .badStreamHeader 2 s) := by
  have hd : (d.toNat < 0x31 || d.toNat > 0x39) = true := by simpa using h
  rw [execStreamHeader, hc]
  exact congrArg Flow.settle (if_pos hd)

/-- Settles O32: by the digit. -/
theorem streamHeaderToken : Obligations.StreamHeaderToken := fun _ _ hc =>
  ⟨execStreamHeader_digit hc, execStreamHeader_bad hc⟩

theorem execRle1Unit_of_tailState {s : State} {job : Job} {c : Byte} {st : StreamState} (hc : s.ctl = .busy job .walk)
    (ht : tailState s.state = some st) (hn : s.cur.count = 4) (h2 : s.cur.ch2 = c.zeroExtend 9) (z : Byte) :
    execRle1Unit c z s = .next { s with cur := { s.cur with z := z, j2 := 0 }, state := st } := by
  rw [execRle1Unit, hc, ht]
  exact if_pos (by simp [hn, h2])

/-- Settles O46: the unit stands after a `*_B` and leads to the `*_C` of its family. -/
theorem rle1UnitToken : Obligations.Rle1UnitToken := by
  intro s job c z st hc hst hn h2
  refine execRle1Unit_of_tailState hc ?_ hn h2 z
  rcases hst with ⟨h, rfl⟩ | ⟨h, rfl⟩ <;> rw [h] <;> rfl

end Sys2Proof.Machine

/-! ## The format of `STATUS`

R96, R271: `STATUS` is written by responses and errors only, and each of them writes it in its format. -/

namespace Sys2Proof.Machine

/-- The format of a status word (R96). -/
def FormatOk (w : Word) : Prop := w.toNat < 2 ^ 12 ∧ w.toNat % 16 ≤ 8 ∧ (w.toNat % 16 = 0 → w = statusOk)

theorem statusOk_iff {s : State} : StatusOk s ↔ FormatOk s.status := Iff.rfl

@[simp] theorem formatOk_statusOk : FormatOk statusOk := by
  unfold FormatOk
  decide

theorem errCode_pos (e : ErrKind) : 1 ≤ errCode e := by cases e <;> decide

/-- The code and the detail of a status word stand beside each other (R96). -/
theorem statusWord_toNat {d : Nat} (hd : d < 256) (e : ErrKind) : (statusWord e d).toNat = 16 * d + errCode e := by
  have he := errCode_le e
  rw [statusWord, BitVec.toNat_or, BitVec.toNat_shiftLeft, BitVec.toNat_ofNat, BitVec.toNat_ofNat,
    Nat.mod_eq_of_lt (show errCode e < 2 ^ 32 by omega), Nat.mod_eq_of_lt (show d < 2 ^ 32 by omega),
    Nat.mod_eq_of_lt (by rw [Nat.shiftLeft_eq]; omega), Nat.or_comm,
    ← Nat.shiftLeft_add_eq_or_of_lt (show errCode e < 2 ^ 4 by omega), Nat.shiftLeft_eq]
  omega

theorem formatOk_statusWord {d : Nat} (hd : d < 256) (e : ErrKind) : FormatOk (statusWord e d) := by
  have h1 := errCode_pos e
  have h8 := errCode_le e
  unfold FormatOk
  rw [statusWord_toNat hd e]
  exact ⟨by omega, by omega, fun h => absurd h (by omega)⟩

/-- A piece of a command that goes on has `STATUS` in its format, and raises no detail of more than 8 bits. -/
def Flow.Formatted : Flow → Prop
  | .go t => FormatOk t.status
  | .raise _ d _ => d < 256
  | .fault _ => True

@[simp] theorem formatted_go {t : State} : (Flow.go t).Formatted ↔ FormatOk t.status := Iff.rfl
@[simp] theorem formatted_raise {e : ErrKind} {d : Nat} {t : State} : (Flow.raise e d t).Formatted ↔ d < 256 := Iff.rfl
@[simp] theorem formatted_fault {f : Fault} : (Flow.fault f).Formatted := trivial

/-- A next state has `STATUS` in its format. -/
def NextFormatted (o : Outcome) : Prop := ∀ t, o = .next t → FormatOk t.status

@[simp] theorem nextFormatted_next {t : State} : NextFormatted (.next t) ↔ FormatOk t.status := by
  simp [NextFormatted]

@[simp] theorem nextFormatted_fault {f : Fault} : NextFormatted (.fault f) := by
  simp [NextFormatted]

theorem Flow.Formatted.settle {f : Flow} (h : f.Formatted) : NextFormatted f.settle := by
  cases f with
  | go t => exact nextFormatted_next.mpr h
  | raise e d t => exact nextFormatted_next.mpr (by rw [raiseError_status]; exact formatOk_statusWord h e)
  | fault f => exact nextFormatted_fault

theorem Flow.Formatted.andThen {f : Flow} {k : State → Flow} (h : f.Formatted)
    (hk : ∀ t : State, FormatOk t.status → (k t).Formatted) : (f.andThen k).Formatted := by
  cases f with
  | go t => exact hk t h
  | raise e d t => exact h
  | fault f => trivial

theorem lookup_formatted {α : Type} (l : List α) (i : Nat) {k : α → Flow} (h : ∀ v, (k v).Formatted) :
    (lookup l i k).Formatted := by
  unfold lookup
  split
  · exact h _
  · trivial

section

variable {s : State} (h : FormatOk s.status)

include h

/-! ### Tokens -/

theorem selectorValue_formatted (v : Nat) : NextFormatted (selectorValue v s) := by
  unfold selectorValue
  split
  · refine Flow.Formatted.settle ?_
    split
    · simp
    · dsimp only
      split
      · exact h
      · split
        · simp
        · exact h
  · simp

theorem checkLength_formatted (job : Job) (t k curr : Nat) : (checkLength job t k curr s).Formatted := by
  unfold checkLength
  split
  · simp
  · exact h

theorem finishLengths_formatted (job : Job) : (finishLengths job s).Formatted := by
  unfold finishLengths
  dsimp only
  split
  · exact h
  · simp

theorem runDigit_formatted (m : Nat) : NextFormatted (runDigit m s) := by
  unfold runDigit
  split
  · exact nextFormatted_next.mpr h
  · simp

theorem appendBytes_formatted (n : Nat) (c : Byte) : (appendBytes n c s).Formatted :=
  lookup_formatted _ _ fun _ => h

theorem endRun_formatted (inRun : Bool) : (endRun inRun s).Formatted := by
  unfold endRun flush
  split
  · split
    · simp
    · exact lookup_formatted _ _ fun _ => lookup_formatted _ _ fun _ => appendBytes_formatted h _ _
  · exact h

theorem mtfSymbol_formatted (m : Nat) : (mtfSymbol m s).Formatted := by
  unfold mtfSymbol
  split
  · simp
  · dsimp only
    split
    · simp
    · exact lookup_formatted _ _ fun _ => appendBytes_formatted (by exact h) _ _

theorem ibwtSetup_formatted : (ibwtSetup s).Formatted := by
  unfold ibwtSetup
  split
  · simp
  · dsimp only
    split
    · simp
    · exact lookup_formatted _ _ fun _ => h

/-- No token writes `STATUS` but by a response or an error. -/
theorem runToken_formatted (i : Instr) : NextFormatted (runToken i s) := by
  cases i with
  | initContinuous | initByblock | readByte | readInto | getReported | adjustReported | close | reserved =>
    exact nextFormatted_fault
  | selectorMtf0 | selectorMtf1 | selectorMtf2 | selectorMtf3 | selectorMtf4 | selectorMtf5 => exact selectorValue_formatted h _
  | runA | runB => exact runDigit_formatted h _
  | streamHeader d =>
    change NextFormatted (execStreamHeader d s)
    unfold execStreamHeader
    split
    · refine Flow.Formatted.settle ?_
      split <;> simp
    · simp
  | blockMark =>
    change NextFormatted (execBlockMark s)
    unfold execBlockMark
    split
    · exact nextFormatted_next.mpr h
    · simp [finishScan]
    · simp
  | eosMark c =>
    change NextFormatted (execEosMark c s)
    unfold execEosMark
    split
    · refine Flow.Formatted.settle ?_
      dsimp only
      split
      · simp
      · exact h
    · simp
  | blockHeader c r p =>
    change NextFormatted (execBlockHeader c r p s)
    unfold execBlockHeader
    split
    · exact nextFormatted_next.mpr h
    · simp
  | symbolMap u ws =>
    change NextFormatted (execSymbolMap u ws s)
    unfold execSymbolMap
    split
    · refine Flow.Formatted.settle ?_
      dsimp only
      split
      · simp
      · exact h
    · simp
  | tableCounts g n =>
    change NextFormatted (execTableCounts g n s)
    unfold execTableCounts
    split
    · refine Flow.Formatted.settle ?_
      dsimp only
      split
      · simp
      · split
        · simp
        · exact h
    · simp
  | selectorMtfBad =>
    change NextFormatted (execSelectorMtfBad s)
    unfold execSelectorMtfBad
    split
    · exact Flow.Formatted.settle (f := .raise .tableMalformed 4 s) (by simp)
    · simp
  | codeLenStart l =>
    change NextFormatted (execCodeLenStart l s)
    unfold execCodeLenStart
    split
    · exact (checkLength_formatted (by exact h) _ _ _ _).settle
    · simp
  | codeLenInc =>
    change NextFormatted (execCodeLenInc s)
    unfold execCodeLenInc
    split
    · exact (checkLength_formatted h _ _ _ _).settle
    · simp
  | codeLenDec =>
    change NextFormatted (execCodeLenDec s)
    unfold execCodeLenDec
    split
    · exact (checkLength_formatted h _ _ _ _).settle
    · simp
  | codeLenEnd =>
    change NextFormatted (execCodeLenEnd s)
    unfold execCodeLenEnd
    split
    · refine Flow.Formatted.settle (lookup_formatted _ _ fun row => ?_)
      dsimp only
      split
      · exact checkLength_formatted (by exact h) _ _ _ _
      · split
        · exact h
        · exact finishLengths_formatted (by exact h) _
    · simp
  | mtf m =>
    change NextFormatted (execMtf m s)
    unfold execMtf
    split
    · split
      · exact Flow.Formatted.settle <| (endRun_formatted h _).andThen fun _ h1 => (mtfSymbol_formatted h1 m).andThen fun _ h2 => h2
      · simp
    · simp
  | eob =>
    change NextFormatted (execEob s)
    unfold execEob
    split
    · exact Flow.Formatted.settle <| (endRun_formatted h _).andThen fun _ h1 => (ibwtSetup_formatted h1).andThen fun _ h2 => h2
    · simp
  | rle1Unit c z =>
    change NextFormatted (execRle1Unit c z s)
    unfold execRle1Unit
    split
    · split
      · exact nextFormatted_next.mpr h
      · simp
    · simp

/-! ### The walk -/

theorem yield_formatted (job : Job) (r : StepResult) : (yield job r s).Formatted := by
  unfold yield
  split
  · simp
  · simp
  · exact h
  · split
    · simp
    · rename_i hw
      obtain ⟨-, rfl⟩ := outWrite_cases hw
      split
      · exact h
      · simp
  · simp
  · split
    · simp
    · exact h
  · simp

theorem stepA_formatted (job : Job) (b : StreamState) : (stepA job b s).Formatted := by
  unfold stepA endOfBlock
  split
  · dsimp only
    split
    · simp
    · exact h
  · split
    · simp
    · exact yield_formatted (by exact h) _ _

theorem stepC_formatted (job : Job) (a : StreamState) : (stepC job a s).Formatted := by
  unfold stepC
  split
  · exact yield_formatted (by exact h) _ _
  · exact h

/-- A `*_B` step goes on with `STATUS` in its format. -/
def StepB.Formatted : StepB → Prop
  | .flow f => f.Formatted
  | .unit _ _ t => FormatOk t.status

theorem stepB_formatted (a : StreamState) : (stepB a s).Formatted := by
  unfold stepB
  split
  · exact h
  · dsimp only
    split
    · exact h
    · split
      · exact show 2 < 256 by decide
      · split
        · trivial
        · exact h

/-- What a command does next: an instruction or a wait with `STATUS` in its format, or an internal step that keeps it. -/
def Next.Formatted : Next → Prop
  | .instr _ t | .wait t => FormatOk t.status
  | .inner f => f.Formatted

theorem nextOfB_formatted (a : StreamState) : (nextOfB a s).Formatted := by
  have hB := stepB_formatted h a
  unfold nextOfB
  cases hb : stepB a s <;> rw [hb] at hB <;> exact hB

theorem nextOfWalk_formatted (job : Job) : (nextOfWalk job s).Formatted := by
  unfold nextOfWalk
  split
  · exact yield_formatted h _ _
  · exact yield_formatted h _ _
  · exact h
  · exact stepA_formatted h _ _
  · exact stepA_formatted h _ _
  · exact nextOfB_formatted h _
  · exact nextOfB_formatted h _
  · exact stepC_formatted h _ _
  · exact stepC_formatted h _ _

theorem nextOfScan_formatted (job : Job) : (nextOfScan job s).Formatted := by
  unfold nextOfScan
  split
  · exact h
  · simp [Next.Formatted, finishScan]
  · exact h

end

/-! ### Commands and the whole machine -/

theorem PhaseErr.lt {ph : Phase} {e : ErrKind} {d : Nat} (h : PhaseErr ph e d) : d < 256 := by
  cases ph <;> simp only [PhaseErr] at h <;> omega

theorem status_applyEarlies (ws : List EarlyWrite) (s : State) (r : BitReader) :
    ({ applyEarlies ws s with rd := r } : State).status = s.status := by
  obtain ⟨blk, tab, h⟩ := applyEarlies_frame ws s
  rw [h]

@[simp] theorem countSymbol_status (ph : Phase) (s : State) : (countSymbol ph s).status = s.status := by
  unfold countSymbol
  split <;> rfl

theorem fetchToken_instr {s t : State} {ph : Phase} {i : Instr} (h : fetchToken ph s = .instr i t) :
    ∃ u, runParse (resume (phaseParse s ph) s.rd.part) s = .instr i u ∧ t = countSymbol ph u := by
  unfold fetchToken at h
  split at h <;> cases h
  exact ⟨_, by assumption, rfl⟩

theorem fetchToken_wait {s t : State} {ph : Phase} (h : fetchToken ph s = .wait t) :
    runParse (resume (phaseParse s ph) s.rd.part) s = .wait t := by
  unfold fetchToken at h
  split at h <;> cases h
  assumption

/-- Reading a token writes no `STATUS`; its errors have details of 8 bits (R272). -/
theorem nextStep_token_formatted {s : State} {job : Job} {ph : Phase} (hi : Inv s) (hb : s.ctl = .busy job ph) (hw : ph ≠ .walk)
    (hsc : ph ≠ .scan) (h : FormatOk s.status) : (nextStep s).Formatted := by
  have hrun := (Point.of_inv hi hb hw).run hw hsc
  rw [nextStep_token hb hw hsc]
  cases hf : fetchToken ph s with
  | raised e d t => exact (fetchToken_error hf).lt
  | undefined => trivial
  | instr i t =>
    obtain ⟨u, hu, rfl⟩ := fetchToken_instr hf
    rw [hu] at hrun
    cases hrun with
    | instr _ _ _ _ _ _ _ eq =>
      change FormatOk (countSymbol ph u).status
      rw [countSymbol_status, eq, status_applyEarlies]
      exact h
  | wait t =>
    rw [fetchToken_wait hf] at hrun
    cases hrun with
    | waits _ _ _ _ _ _ _ _ _ _ _ _ _ _ eq =>
      change FormatOk t.status
      rw [eq, status_applyEarlies]
      exact h

theorem nextStep_formatted {s : State} {job : Job} {ph : Phase} (hi : Inv s) (hb : s.ctl = .busy job ph) (h : FormatOk s.status) :
    (nextStep s).Formatted := by
  by_cases hw : ph = .walk
  · subst hw
    rw [nextStep_walk hb]
    exact nextOfWalk_formatted h job
  · by_cases hsc : ph = .scan
    · subst hsc
      rw [nextStep_scan hb]
      exact nextOfScan_formatted h job
    · exact nextStep_token_formatted hi hb hw hsc h

/-- A step of a command leaves `STATUS` in its format, whether it runs or waits. -/
theorem commandStep_formatted {s : State} {job : Job} {ph : Phase} (hi : Inv s) (hb : s.ctl = .busy job ph) (h : FormatOk s.status) :
    (∀ o, commandStep s = .ran o → NextFormatted o) ∧ ∀ w, commandStep s = .waits w → FormatOk w.status := by
  have hn := nextStep_formatted hi hb h
  unfold commandStep
  cases hs : nextStep s <;> rw [hs] at hn
  case instr i t => exact ⟨fun o ho => Turn.ran.inj ho ▸ runToken_formatted hn i, (fun w hw => nomatch hw)⟩
  case inner f => exact ⟨fun o ho => Turn.ran.inj ho ▸ hn.settle, (fun w hw => nomatch hw)⟩
  case wait t => exact ⟨(fun o ho => nomatch ho), fun w hw => Turn.waits.inj hw ▸ hn⟩

theorem runCommand_formatted {s : State} (hi : Inv s) (h : FormatOk s.status) : NextFormatted (runCommand s) := by
  refine runCommand_induct (P := fun s o => FormatOk s.status → NextFormatted o) ?_ ?_ ?_ s hi h
  · exact fun s _ _ h => nextFormatted_next.mpr h
  · exact fun s job ph w hi hb hw _ h => nextFormatted_next.mpr ((commandStep_formatted hi hb h).2 w hw)
  · intro s job ph t hi hb hs _ _ _ ih h
    rw [runCommand_step hi hb hs]
    exact ih (nextFormatted_next.mp ((commandStep_formatted hi hb h).1 _ hs))

theorem raise_formatted (e : ErrKind) {d : Nat} (hd : d < 256) (s : State) : NextFormatted (.next (raiseError e d s)) :=
  Flow.Formatted.settle (f := .raise e d s) hd

theorem whenIdle_formatted {s : State} {k : State → Outcome} (hk : s.ctl = .idle → NextFormatted (k s)) :
    NextFormatted (whenIdle s k) := by
  unfold whenIdle
  split
  · exact hk (by assumption)
  · simp

theorem whenOpen_formatted {s : State} {k : State → Outcome} (hk : s.closed = false → NextFormatted (k s)) :
    NextFormatted (whenOpen s k) := by
  unfold whenOpen
  split
  · exact raise_formatted _ (by decide) s
  · exact hk (by simpa using ‹¬ s.closed = true›)

theorem readIntoCheck_lt {s : State} {d : Nat} (h : readIntoCheck s = some d) : d < 256 := by
  unfold readIntoCheck at h
  split at h
  · cases h
    decide
  · split at h <;> cases h
    decide

section

variable {s : State} (hi : Inv s) (h : FormatOk s.status)

theorem execGetReported_formatted : NextFormatted (execGetReported s) := by
  refine whenIdle_formatted fun _ => whenOpen_formatted fun _ => ?_
  simp

theorem execAdjustReported_formatted : NextFormatted (execAdjustReported s) := by
  refine whenIdle_formatted fun _ => whenOpen_formatted fun _ => ?_
  simp

theorem execClose_formatted : NextFormatted (execClose s) := by
  refine whenIdle_formatted fun _ => ?_
  simp

theorem execReserved_formatted (w : Word) : NextFormatted (execReserved w s) := by
  refine whenIdle_formatted fun _ => ?_
  exact raise_formatted _ (by decide) s

include hi h

theorem execInit_formatted (m : Mode) {ph : Phase} (hph : ph = .header ∨ ph = .scan) :
    NextFormatted (whenIdle s fun s => runCommand (beginInit m ph s)) :=
  whenIdle_formatted fun _ => runCommand_formatted (inv_beginInit hi m ph hph) h

theorem runRead_formatted (hc : s.ctl = .idle) (ho : s.closed = false) {job : Job} (hj : JobOk s job) (hn : job ≠ .init) :
    NextFormatted (runCommand { s with ctl := .busy job .walk }) :=
  runCommand_formatted (inv_beginRead hi ho hc job hj hn) h

theorem execReadByte_formatted : NextFormatted (execReadByte s) := by
  refine whenIdle_formatted fun hc => whenOpen_formatted fun ho => ?_
  exact runRead_formatted hi h hc ho trivial (by decide)

theorem execReadInto_formatted : NextFormatted (execReadInto s) := by
  refine whenIdle_formatted fun hc => whenOpen_formatted fun ho => ?_
  split
  · rename_i hr
    exact raise_formatted _ (readIntoCheck_lt hr) s
  · rename_i hr
    split
    · simp
    · rename_i hl
      exact runRead_formatted hi h hc ho (jobOk_readInto hr hl) (by simp)

/-- Every command word answers with `STATUS` in its format. -/
theorem exec_decodeCmd_formatted (w : Word) : NextFormatted (exec (decodeCmd w) s) := by
  rcases decodeCmd_cases w with hw | hw | hw | hw | hw | hw | hw | hw <;> rw [hw]
  · exact execInit_formatted hi h .continuous (.inl rfl)
  · exact execInit_formatted hi h .byblock (.inr rfl)
  · exact execReadByte_formatted hi h
  · exact execReadInto_formatted hi h
  · exact execGetReported_formatted
  · exact execAdjustReported_formatted
  · exact execClose_formatted
  · exact execReserved_formatted w

end

theorem hostAct_status {a : HostAct} {s t : State} (h : hostAct a s = .next t) : t.status = s.status := by
  obtain ⟨ht, -⟩ := hostAct_cases h
  rw [ht]
  rfl

theorem hostStep_formatted {s : State} (hi : Inv s) (h : FormatOk s.status) : NextFormatted (hostStep s) := by
  intro t ht
  rcases hostStep_cases ht with rfl | ⟨w, rest, -, he⟩ | ⟨a, rest, -, ha⟩
  · exact h
  · exact exec_decodeCmd_formatted (hi.writeCmd w rest) h w t he
  · rw [hostAct_status ha]
    exact h

theorem step_formatted {s : State} (hi : Inv s) (h : FormatOk s.status) : NextFormatted (step s) := by
  cases hc : s.ctl with
  | idle =>
    rw [step_idle hc]
    exact hostStep_formatted hi h
  | busy job ph =>
    obtain ⟨hran, hwaits⟩ := commandStep_formatted hi hc h
    rcases step_cases hi hc with ⟨t, hs, ho, -⟩ | ⟨w, hs, ho, hw⟩ <;> rw [hs]
    · exact hran _ ho
    · exact hostStep_formatted hw.1 (hwaits w ho)

/-- Settles O58: after reset `STATUS` is 0, and every step leaves it in its format (`step_formatted`). -/
theorem statusFormat : Obligations.StatusFormat :=
  ⟨statusOk_iff.mpr formatOk_statusOk, fun _ t hi h hs => step_formatted hi h t hs⟩

end Sys2Proof.Machine

/-! ## The bit reader and the scan

R130 to R140, R62, R209: `readBits` by whether the bits it asks for are there, and the two instructions the machine finds by a scan
and by the walk. -/

namespace Sys2Proof.Machine

/-- A read of bits that are there pulls the whole bytes it lacks (R131). -/
theorem readBits_of_le {n : Nat} {r : BitReader} (hn : n ≤ 48) (h : n ≤ bitsLeft r) : ∃ r' : BitReader,
    readBits n r = .got (natOfBits ((bitsAhead r).take n)) r' ∧ PulledBytes ((n - r.live + 7) / 8) r r' ∧
      r'.live + n = r.live + 8 * ((n - r.live + 7) / 8) ∧ (r.live ≤ 7 → r'.live ≤ 7) ∧
      bitsAhead r' = (bitsAhead r).drop n := by
  obtain ⟨r', hr, hc, hl⟩ := readBits_got n r hn h
  obtain ⟨m, hm, hlive⟩ := hc.pulled
  obtain rfl : m = (n - r.live + 7) / 8 := by omega
  exact ⟨r', hr, hm, hlive, by omega, hc.ahead⟩

/-- A read of more bits than are left pulls the whole source and consumes nothing, at `EOF` and on a wait (R73, R130, U8). -/
theorem readBits_of_lt {n : Nat} {r : BitReader} (hn : n ≤ 48) (h : bitsLeft r < n) : ∃ r' : BitReader,
    readBits n r = (if r.srcEnds then .eof r' else .wait r') ∧ PulledBytes r.src.length r r' ∧ bitsAhead r' = bitsAhead r := by
  rcases readBits_cases n r hn with ⟨r', -, hle, -⟩ | ⟨r', hr, hp, hs, he, -⟩ | ⟨r', hr, hp, hs, he, -⟩
  · omega
  all_goals exact ⟨r', by rw [hr, he]; rfl, hp.consumed.pulled_all hs, hp.ahead⟩

/-- Settles O14: by whether the bits asked for are left. -/
theorem readBits_spec : Obligations.ReadBits := by
  intro n r _ hn
  refine ⟨readBits_of_le hn, fun h he => ?_, fun h he => ?_⟩
  all_goals simpa [he] using readBits_of_lt hn h

/-- A scan with a marker ahead runs BLOCK_MARK just after the first one (R137, R138). -/
theorem step_of_scan_found {s : State} {job : Job} {q : Nat} (hi : Inv s) (hb : s.ctl = .busy job .scan)
    (hq : FirstMark (bitsSince s.rd) q) : ∃ (r : BitReader) (m : Nat), step s = exec .blockMark { s with rd := r } ∧
      bitsAhead r = (bitsSince s.rd).drop (q + 48) ∧ PulledBytes m s.rd r ∧ r.live ≤ 7 ∧ r.part = [] := by
  obtain ⟨r, k, hf, hc, -, hbits, hlive, hpart⟩ := scanFor_found s.rd (Point.of_inv hi hb (by decide)).scanReader q hq
  obtain ⟨m, hm, -⟩ := hc.pulled
  exact ⟨r, m, by rw [step_busy hb, nextStep_scan hb, nextOfScan, hf], hbits, hm, hlive, hpart⟩

/-- The fourth equal byte of the walk, with a length byte left, runs RLE1_UNIT (R209, log 17). -/
theorem step_of_walk_unit {s : State} {job : Job} {z : Byte} {c : Cursor} (hb : s.ctl = .busy job .walk)
    (hst : s.state = .randB ∨ s.state = .norandB) (h : s.cur.ch2 = s.cur.chPrev) (hc : s.cur.count = 3)
    (hi : (s.cur.i2 : Int) ≤ s.blk.last) (ht : take { s with cur := { s.cur with count := 4 } } = some (z, c)) :
    step s = exec (.rle1Unit (s.cur.ch2.truncate 8) z) { s with cur := c } := by
  rw [step_busy hb, nextStep_walk hb]
  rcases hst with hst | hst
  · rw [nextOfWalk_randB job hst, nextOfB, stepB_unit .randA h hc hi ht]
  · rw [nextOfWalk_norandB job hst, nextOfB, stepB_unit .norandA h hc hi ht]

/-- Settles O5: by `scanFor_found`, and by `stepB_unit`. -/
theorem stepRunsMarkerAndUnit : Obligations.StepRunsMarkerAndUnit :=
  ⟨fun _ _ _ hi hb hq => step_of_scan_found hi hb hq, fun _ _ _ _ hb hst h hc hi ht => step_of_walk_unit hb hst h hc hi ht⟩

end Sys2Proof.Machine

/-! ## A scan and what leads to it

R141, R143, R245: a scan is begun by INIT.BYBLOCK, and by a read that acknowledges the end of a block, which happens in BYBLOCK mode
only; no token leads to one. -/

namespace Sys2Proof.Machine

/-- The command in progress, if there is one, does not scan. -/
def ScanFree (s : State) : Prop := ∀ job, s.ctl ≠ .busy job .scan

theorem scanFree_of_idle {s : State} (h : s.ctl = .idle) : ScanFree s := by simp [ScanFree, h]

theorem scanFree_of_busy {s : State} {job : Job} {ph : Phase} (h : s.ctl = .busy job ph) (hph : ph ≠ .scan) : ScanFree s := by
  simp [ScanFree, h, hph]

/-- A piece of a command that goes on does not go on to a scan. -/
def Flow.ScanFree : Flow → Prop
  | .go t => Machine.ScanFree t
  | .raise _ _ _ | .fault _ => True

@[simp] theorem scanFree_go {t : State} : (Flow.go t).ScanFree ↔ ScanFree t := Iff.rfl
@[simp] theorem scanFree_raise (e : ErrKind) (d : Nat) (t : State) : (Flow.raise e d t).ScanFree := trivial
@[simp] theorem scanFree_fault (f : Fault) : (Flow.fault f).ScanFree := trivial

/-- A next state is not in a scan. -/
def NextScanFree (o : Outcome) : Prop := ∀ t, o = .next t → ScanFree t

@[simp] theorem nextScanFree_next {t : State} : NextScanFree (.next t) ↔ ScanFree t := by simp [NextScanFree]
@[simp] theorem nextScanFree_fault (f : Fault) : NextScanFree (.fault f) := by simp [NextScanFree]

theorem Flow.ScanFree.settle {f : Flow} (h : f.ScanFree) : NextScanFree f.settle := by
  cases f with
  | go t => exact nextScanFree_next.mpr h
  | raise e d t => exact nextScanFree_next.mpr (scanFree_of_idle (raiseError_ctl e d t))
  | fault f => exact nextScanFree_fault f

/-- Only the last piece sets the control point. -/
theorem scanFree_andThen {f : Flow} {k : State → Flow} (hk : ∀ t, (k t).ScanFree) : (f.andThen k).ScanFree := by
  cases f with
  | go t => exact hk t
  | raise | fault => trivial

theorem scanFree_lookup {α : Type} (l : List α) (i : Nat) {k : α → Flow} (hk : ∀ v, (k v).ScanFree) :
    (lookup l i k).ScanFree := by
  unfold lookup
  split
  · exact hk _
  · trivial

/-! ### Tokens -/

theorem selectorValue_scanFree (v : Nat) (s : State) : NextScanFree (selectorValue v s) := by
  unfold selectorValue
  split
  · refine Flow.ScanFree.settle ?_
    split
    · simp
    · dsimp only
      split
      · exact scanFree_of_busy rfl (by simp)
      · split
        · simp
        · exact scanFree_of_busy rfl (by simp)
  · simp

theorem checkLength_scanFree (job : Job) (t k curr : Nat) (s : State) : (checkLength job t k curr s).ScanFree := by
  unfold checkLength
  split
  · simp
  · exact scanFree_of_busy rfl (by simp)

theorem finishLengths_scanFree (job : Job) (s : State) : (finishLengths job s).ScanFree := by
  unfold finishLengths
  dsimp only
  split
  · exact scanFree_of_busy rfl (by simp)
  · simp

theorem runDigit_scanFree (m : Nat) (s : State) : NextScanFree (runDigit m s) := by
  unfold runDigit
  split
  · exact nextScanFree_next.mpr (scanFree_of_busy rfl (by simp))
  · simp

/-- No token leads to a scan. -/
theorem runToken_scanFree (i : Instr) (s : State) : NextScanFree (runToken i s) := by
  cases i with
  | initContinuous | initByblock | readByte | readInto | getReported | adjustReported | close | reserved =>
    exact nextScanFree_fault _
  | selectorMtf0 | selectorMtf1 | selectorMtf2 | selectorMtf3 | selectorMtf4 | selectorMtf5 => exact selectorValue_scanFree _ s
  | runA | runB => exact runDigit_scanFree _ s
  | streamHeader d =>
    simp only [runToken, execStreamHeader]
    split
    · refine Flow.ScanFree.settle ?_
      split
      · simp
      · exact scanFree_of_idle rfl
    · simp
  | blockMark =>
    simp only [runToken, execBlockMark]
    split
    · exact nextScanFree_next.mpr (scanFree_of_busy rfl (by simp))
    · exact nextScanFree_next.mpr (scanFree_of_idle rfl)
    · simp
  | eosMark c =>
    simp only [runToken, execEosMark]
    split
    · refine Flow.ScanFree.settle ?_
      split
      · simp
      · exact scanFree_of_busy rfl (by simp)
    · simp
  | blockHeader c r p =>
    simp only [runToken, execBlockHeader]
    split
    · exact nextScanFree_next.mpr (scanFree_of_busy rfl (by simp))
    · simp
  | symbolMap u ws =>
    simp only [runToken, execSymbolMap]
    split
    · refine Flow.ScanFree.settle ?_
      split
      · simp
      · exact scanFree_of_busy rfl (by simp)
    · simp
  | tableCounts g n =>
    simp only [runToken, execTableCounts]
    split
    · refine Flow.ScanFree.settle ?_
      split
      · simp
      · split
        · simp
        · exact scanFree_of_busy rfl (by simp)
    · simp
  | selectorMtfBad =>
    simp only [runToken, execSelectorMtfBad]
    split
    · exact nextScanFree_next.mpr (scanFree_of_idle (raiseError_ctl ..))
    · simp
  | codeLenStart l =>
    simp only [runToken, execCodeLenStart]
    split
    · exact (checkLength_scanFree ..).settle
    · simp
  | codeLenInc | codeLenDec =>
    simp only [runToken, execCodeLenInc, execCodeLenDec]
    split
    · exact (checkLength_scanFree ..).settle
    · simp
  | codeLenEnd =>
    simp only [runToken, execCodeLenEnd]
    split
    · refine (scanFree_lookup _ _ fun row => ?_).settle
      split
      · exact checkLength_scanFree ..
      · split
        · exact scanFree_of_busy rfl (by simp)
        · exact finishLengths_scanFree ..
    · simp
  | mtf m =>
    simp only [runToken, execMtf]
    split
    · split
      · refine (scanFree_andThen fun t => scanFree_andThen fun u => ?_).settle
        exact scanFree_of_busy rfl (by simp)
      · simp
    · simp
  | eob =>
    simp only [runToken, execEob]
    split
    · refine (scanFree_andThen fun t => scanFree_andThen fun u => ?_).settle
      exact scanFree_of_busy rfl (by simp)
    · simp
  | rle1Unit c z =>
    simp only [runToken, execRle1Unit]
    split
    · rename_i hc _
      split
      · exact nextScanFree_next.mpr (scanFree_of_busy hc (by simp))
      · simp
    · simp

/-! ### The walk -/

/-- A byte and the end of the stream do not lead a read to a scan. -/
theorem yield_scanFree {r : StepResult} (hr : r ≠ .endOfBlock) (job : Job) (s : State) : (yield job r s).ScanFree := by
  unfold yield
  split
  · exact scanFree_of_idle rfl
  · exact scanFree_of_idle rfl
  · exact absurd rfl hr
  · split
    · simp
    · split
      · exact scanFree_of_busy rfl (by simp)
      · exact scanFree_of_idle rfl
  · exact scanFree_of_idle rfl
  · exact absurd rfl hr
  · simp

section

variable {s : State} (h : ScanFree s)

include h

theorem stepA_scanFree (job : Job) (b : StreamState) : (stepA job b s).ScanFree := by
  unfold stepA endOfBlock
  split
  · dsimp only
    split
    · simp
    · exact h
  · split
    · simp
    · exact yield_scanFree (by simp) _ _

theorem stepC_scanFree (job : Job) (a : StreamState) : (stepC job a s).ScanFree := by
  unfold stepC
  split
  · exact yield_scanFree (by simp) _ _
  · exact h

theorem stepB_scanFree {a : StreamState} {f : Flow} (hf : stepB a s = .flow f) : f.ScanFree := by
  unfold stepB at hf
  split at hf
  · cases hf; exact h
  · dsimp only at hf
    split at hf
    · cases hf; exact h
    · split at hf
      · cases hf; trivial
      · split at hf <;> cases hf
        trivial

theorem nextOfB_scanFree {a : StreamState} {f : Flow} (hf : nextOfB a s = .inner f) : f.ScanFree := by
  unfold nextOfB at hf
  split at hf <;> cases hf
  exact stepB_scanFree h (by assumption)

/-- Only at the end of a block does a pass of the step loop lead to a scan (R245). -/
theorem nextOfWalk_scanFree {job : Job} {f : Flow} (hf : nextOfWalk job s = .inner f) (hst : s.state ≠ .noProcess) :
    f.ScanFree := by
  unfold nextOfWalk at hf
  split at hf
  · cases hf; exact yield_scanFree (by simp) _ _
  · exact absurd (by assumption) hst
  · cases hf
    refine scanFree_of_busy rfl ?_
    split <;> simp
  · cases hf; exact stepA_scanFree h _ _
  · cases hf; exact stepA_scanFree h _ _
  · exact nextOfB_scanFree h hf
  · exact nextOfB_scanFree h hf
  · cases hf; exact stepC_scanFree h _ _
  · cases hf; exact stepC_scanFree h _ _

end

/-! ### Commands in CONTINUOUS mode -/

/-- In CONTINUOUS mode the step loop never stands at the end of a block (R238, R241). -/
theorem Inv.ne_noProcess {s : State} {job : Job} (hi : Inv s) (hb : s.ctl = .busy job .walk) (hm : s.mode = .continuous) :
    s.state ≠ .noProcess := by
  intro hst
  obtain ⟨-, hs⟩ := (hi.busy hb).2.2
  rw [StateOk, hst] at hs
  exact absurd (hm.symm.trans hs) (by decide)

/-- In CONTINUOUS mode a command that does not scan goes on without a scan. -/
theorem commandStep_scanFree {s t : State} {job : Job} {ph : Phase} (hi : Inv s) (hb : s.ctl = .busy job ph)
    (hm : s.mode = .continuous) (h : ScanFree s) (hs : commandStep s = .ran (.next t)) : ScanFree t := by
  have hsc : ph ≠ .scan := by rintro rfl; exact h job hb
  unfold commandStep at hs
  cases hn : nextStep s with
  | instr i u => rw [hn] at hs; exact runToken_scanFree i u t (Turn.ran.inj hs)
  | wait u => rw [hn] at hs; cases hs
  | inner f =>
    rw [hn] at hs
    refine Flow.ScanFree.settle ?_ t (Turn.ran.inj hs)
    by_cases hw : ph = .walk
    · subst hw
      exact nextOfWalk_scanFree h (nextStep_walk hb ▸ hn) (hi.ne_noProcess hb hm)
    · rw [nextStep_token hb hw hsc] at hn
      split at hn <;> cases hn <;> trivial

theorem commandStep_waits_regKept {s w : State} (h : commandStep s = .waits w) : RegKept s w := by
  unfold commandStep at h
  split at h
  · cases h
  · cases h
  · rename_i hn
    cases h
    exact (nextStep_wait_keeps hn).1

/-- In CONTINUOUS mode a command that does not begin with a scan keeps `REPORTED` (R141, R143). -/
theorem runCommand_reported {s t : State} (hi : Inv s) (hm : s.mode = .continuous) (h : ScanFree s)
    (ht : runCommand s = .next t) : t.reported = s.reported := by
  refine runCommand_induct (P := fun s o => s.mode = .continuous → ScanFree s → ∀ t, o = .next t → t.reported = s.reported)
    ?_ ?_ ?_ s hi hm h t ht
  · rintro s - - - - t ⟨⟩
    rfl
  · rintro s job ph w - - hw - - - t ⟨⟩
    exact (commandStep_waits_regKept hw).reported
  · intro s job ph t hi hb hs _ hk _ ih hm h u hu
    have hrest := ih (hk.mode.trans hm) (commandStep_scanFree hi hb hm h hs) u (runCommand_step hi hb hs ▸ hu)
    exact hrest.trans (commandStep_regKept hs h).reported

/-- What a read of a ready block does: a READ_INTO may be refused or ask for nothing, and every other read runs its job. -/
theorem Ready.read_cases {s : State} {i : Instr} (h : Ready s) (hr : i = .readByte ∨ i = .readInto) :
    (∃ d, exec i s = .next (raiseError .invalidArgument d s)) ∨ exec i s = .next (respond 0 s) ∨
      ∃ job, Inv { s with ctl := .busy job .walk } ∧ exec i s = runCommand { s with ctl := .busy job .walk } := by
  obtain ⟨hi, hc, ho, -⟩ := h
  rcases hr with rfl | rfl
  · exact .inr (.inr ⟨.readByte, inv_beginRead hi ho hc _ trivial (by decide), execReadByte_open hc ho⟩)
  · cases hr : readIntoCheck s with
    | some d => exact .inl ⟨d, by simp [exec, execReadInto, whenIdle, whenOpen, hc, ho, hr]⟩
    | none =>
      by_cases hl : lenOperand s = 0
      · exact .inr (.inl (by simp [exec, execReadInto, whenIdle, whenOpen, hc, ho, hr, hl]))
      · have hpos : 0 < lenOperand s := by have := readIntoCheck_none hr; omega
        exact .inr (.inr ⟨_, inv_beginRead hi ho hc _ (jobOk_readInto hr hl) (by simp), execReadInto_open hc ho hr hpos⟩)

/-- Settles O29: INIT.CONTINUOUS and the reads in its mode run no scan (`runCommand_reported`). -/
theorem continuousKeepsReported : Obligations.ContinuousKeepsReported := by
  refine ⟨fun s t hi h => ?_, fun s i h hm hr => ?_⟩
  · obtain ⟨-, h⟩ := whenIdle_next.mp (show execInitContinuous s = .next t from h)
    exact runCommand_reported (inv_beginInit hi _ _ (.inl rfl)) rfl (scanFree_of_busy rfl (by decide)) h
  · obtain ⟨t, ht, -⟩ := h.read_answered hr
    refine ⟨t, ht, ?_⟩
    rcases h.read_cases hr with ⟨d, he⟩ | he | ⟨job, hj, he⟩ <;> rw [he] at ht
    · cases ht; exact raiseError_reported ..
    · cases ht; rfl
    · exact runCommand_reported (s := { s with ctl := .busy job .walk }) hj hm (scanFree_of_busy rfl (by decide)) ht

end Sys2Proof.Machine

/-! ## The reported position

R135, R139, R140, R142: `REPORTED` is where the last scan ended, never ahead of the next bit while the stream may be read, and every
scan ends behind where it began. -/

namespace Sys2Proof.Machine

theorem Consumed.raw_le {r r' : BitReader} {k : Nat} (h : Consumed r r' k) (hw : RawOk r) : r.raw.toNat ≤ r'.raw.toNat := by
  obtain ⟨-, -, hsum⟩ := h.pos hw
  obtain ⟨bs, hsrc, -⟩ := h.src
  rw [hsrc, List.length_append] at hsum
  omega

/-- R139 in terms of `P`: the byte in which the 48 bits before the next one begin. -/
theorem markerByte_toNat {r : BitReader} (hw : RawOk r) (h : 48 ≤ bitPos r) : (markerByte r).toNat = (bitPos r - 48) / 8 := by
  obtain ⟨hsrc, hlive⟩ := hw
  unfold bitPos at h ⊢
  have hceil : ceilDiv (48 + r.live) 8 ≤ r.raw.toNat := by unfold ceilDiv; omega
  have hlt := r.raw.isLt
  have hof : (BitVec.ofNat 64 (ceilDiv (48 + r.live) 8)).toNat = ceilDiv (48 + r.live) 8 :=
    (BitVec.toNat_ofNat ..).trans (Nat.mod_eq_of_lt (by omega))
  rw [markerByte, BitVec.toNat_sub_of_le (BitVec.le_def.mpr (by omega)), hof, ceilDiv]
  omega

theorem reading_idle {s : State} (h : s.ctl = .idle) : Reading s ↔ s.state ≠ .eof := by simp [Reading, h]

/-- A stream that has ended is not read again: the command in progress answers. -/
theorem commandStep_of_not_reading {s : State} {job : Job} {ph : Phase} (hi : Inv s) (hb : s.ctl = .busy job ph)
    (h : ¬ Reading s) : ∃ t, commandStep s = .ran (.next t) ∧ ¬ Reading t := by
  obtain rfl : ph = .walk := not_not.mp fun hw => h (reading_of_phase hb hw)
  have hst : s.state = .eof := not_not.mp fun hst => h ((reading_walk hb).mpr hst)
  obtain ⟨hj, -⟩ := (hi.busy hb).2.2
  have hanswer : ∀ v, ¬ Reading (respond v s) := fun v hr => (reading_idle rfl).mp hr hst
  rw [commandStep_walk hb (nextOfWalk_eof job hst)]
  cases job with
  | init => exact absurd rfl hj
  | readByte => exact ⟨_, rfl, hanswer _⟩
  | readInto off len k => exact ⟨_, rfl, hanswer _⟩

theorem Reading.of_ran {s t : State} {job : Job} {ph : Phase} (h : Reading t) (hi : Inv s) (hb : s.ctl = .busy job ph)
    (hs : commandStep s = .ran (.next t)) : Reading s := by
  by_contra hn
  obtain ⟨u, hu, hnu⟩ := commandStep_of_not_reading hi hb hn
  rw [hs] at hu
  cases hu
  exact hnu h

theorem reading_of_waits {s w : State} {job : Job} {ph : Phase} (hi : Inv s) (hb : s.ctl = .busy job ph)
    (hs : commandStep s = .waits w) : Reading s := by
  by_contra hn
  obtain ⟨u, hu, -⟩ := commandStep_of_not_reading hi hb hn
  rw [hs] at hu
  cases hu

/-- From `s` to `t` the position invariant is kept and `REPORTED` is not lowered. -/
structure PosKept (s t : State) : Prop where
  pos : PosOk t
  le : s.reported.toNat ≤ t.reported.toNat

theorem PosKept.trans {a b c : State} (h : PosKept a b) (k : PosKept b c) : PosKept a c := ⟨k.pos, h.le.trans k.le⟩

/-- Reading bits keeps the position invariant. -/
theorem PosOk.of_consumed {s t : State} {k : Nat} (h : PosOk s) (hc : Consumed s.rd t.rd k) (hr : t.reported = s.reported)
    (hread : Reading t → Reading s) : PosKept s t := by
  obtain ⟨hw, hle, hpos⟩ := h
  obtain ⟨hw', hpos', -⟩ := hc.pos hw
  refine ⟨⟨hw', hr ▸ hle.trans (hc.raw_le hw), fun h => ?_⟩, hr ▸ le_rfl⟩
  have := hpos (hread h)
  rw [hr]
  omega

/-- A scan that has found its marker. -/
theorem PosOk.of_scan_found {s : State} {r : BitReader} {k : Nat} (h : PosOk s) (hread : Reading s) (hc : Consumed s.rd r k)
    (hk : 48 ≤ k) (job : Job) : PosKept s (finishScan job true { s with rd := r, reported := markerByte r }) := by
  obtain ⟨hw, -, hpos⟩ := h
  obtain ⟨hw', hpos', -⟩ := hc.pos hw
  have hbefore := hpos hread
  have hbyte := markerByte_toNat hw' (by omega)
  have hraw : bitPos r ≤ 8 * r.raw.toNat := Nat.sub_le ..
  refine ⟨⟨hw', ?_, fun _ => ?_⟩, ?_⟩
  · change (markerByte r).toNat ≤ r.raw.toNat
    omega
  · change 8 * (markerByte r).toNat ≤ bitPos r
    omega
  · change s.reported.toNat ≤ (markerByte r).toNat
    omega

/-- A scan that has come to the end of the source. -/
theorem PosOk.of_scan_eof {s : State} {r : BitReader} {k : Nat} (h : PosOk s) (hc : Consumed s.rd r k) (job : Job) :
    PosKept s (finishScan job false { s with rd := r, reported := r.raw }) := by
  obtain ⟨hw, hle, -⟩ := h
  exact ⟨⟨(hc.pos hw).1, le_rfl, fun hr => absurd rfl ((reading_idle rfl).mp hr)⟩, hle.trans (hc.raw_le hw)⟩

section

variable {s : State} {job : Job} {r : BitReader} (hb : s.ctl = .busy job .scan)

include hb

theorem commandStep_scan_found (h : scanFor s.rd = .found r) :
    commandStep s = .ran (.next (finishScan job true { s with rd := r, reported := markerByte r })) := by
  simp only [commandStep, nextStep_scan hb, nextOfScan, h, runToken, execBlockMark, hb]

theorem commandStep_scan_eof (h : scanFor s.rd = .eof r) :
    commandStep s = .ran (.next (finishScan job false { s with rd := r, reported := r.raw })) := by
  simp only [commandStep, nextStep_scan hb, nextOfScan, h, Flow.settle]

theorem commandStep_scan_wait (h : scanFor s.rd = .wait r) :
    commandStep s = .waits { s with rd := r } := by
  simp only [commandStep, nextStep_scan hb, nextOfScan, h]

end

/-- A scan that begins where no bits are held keeps the position invariant. -/
theorem scanStep_pos {s t : State} {job : Job} (hi : Inv s) (hb : s.ctl = .busy job .scan) (hp : s.rd.part = []) (h : PosOk s)
    (hs : commandStep s = .ran (.next t)) : PosKept s t := by
  rcases scanFor_cases s.rd (Point.of_inv hi hb (by decide)).scanReader with
    ⟨r, k, hf, hc, hk, -⟩ | ⟨r, k, hf, -, hc, -⟩ | ⟨r, k, hf, -⟩
  · rw [commandStep_scan_found hb hf] at hs
    cases hs
    rw [hp, List.length_nil] at hk
    exact h.of_scan_found (reading_of_phase hb (by decide)) hc hk job
  · rw [commandStep_scan_eof hb hf] at hs
    cases hs
    exact h.of_scan_eof hc job
  · rw [commandStep_scan_wait hb hf] at hs
    cases hs

/-- A step of a command keeps the position invariant: a scan moves `REPORTED` forward, every other step leaves it. -/
theorem commandStep_pos {s t : State} {job : Job} {ph : Phase} (hi : Inv s) (hb : s.ctl = .busy job ph) (hp : s.rd.part = [])
    (h : PosOk s) (hs : commandStep s = .ran (.next t)) : PosKept s t ∧ t.rd.part = [] := by
  rcases commandStep_cases hi hb with ⟨o, ho, u, rfl, -, -, ⟨k, hk⟩, hpart, -⟩ | ⟨w, hw, -⟩
  · rw [hs] at ho
    cases ho
    refine ⟨?_, hpart⟩
    by_cases hsc : ph = .scan
    · subst hsc
      exact scanStep_pos hi hb hp h hs
    · refine h.of_consumed hk (commandStep_regKept hs ?_).reported fun hr => hr.of_ran hi hb hs
      simp [hb, hsc]
  · rw [hs] at hw
    cases hw

theorem runCommand_pos {s t : State} (hi : Inv s) (hp : s.rd.part = []) (h : PosOk s) (ht : runCommand s = .next t) :
    PosKept s t := by
  refine runCommand_induct (P := fun s o => s.rd.part = [] → PosOk s → ∀ t, o = .next t → PosKept s t)
    ?_ ?_ ?_ s hi hp h t ht
  · rintro s - - - h t ⟨⟩
    exact ⟨h, le_rfl⟩
  · rintro s job ph w hi hb hw ⟨-, -, -, -, -, k, hk⟩ - h t ⟨⟩
    exact h.of_consumed hk (commandStep_waits_regKept hw).reported fun _ => reading_of_waits hi hb hw
  · intro s job ph t hi hb hs _ _ _ ih hp h u hu
    obtain ⟨hstep, hpart⟩ := commandStep_pos hi hb hp h hs
    exact hstep.trans (ih hpart hstep.pos u (runCommand_step hi hb hs ▸ hu))

/-- A newly opened block has reported nothing and read nothing (R232). -/
theorem posOk_beginInit {s : State} (h : (initReader s).src.length < 2 ^ 64) (m : Mode) (ph : Phase) : PosOk (beginInit m ph s) :=
  ⟨rawOk_initReader h, Nat.zero_le _, fun _ => Nat.zero_le _⟩

theorem PosOk.raise {s : State} (h : PosOk s) (ho : s.closed = false) (e : ErrKind) (d : Nat) : PosKept s (raiseError e d s) := by
  refine h.of_consumed (k := 0) (by rw [raiseError_rd]; exact Consumed.refl _) (raiseError_reported ..) fun hr => ?_
  rw [reading_idle (raiseError_ctl ..), raiseError_state] at hr
  exact absurd (recordError_state ho) hr

/-- A read of a ready block keeps the position invariant. -/
theorem Ready.read_pos {s t : State} {i : Instr} (h : Ready s) (hp : PosOk s) (hr : i = .readByte ∨ i = .readInto)
    (ht : exec i s = .next t) : PosKept s t := by
  have hcases := h.read_cases hr
  obtain ⟨hi, hc, ho, -⟩ := h
  rcases hcases with ⟨d, he⟩ | he | ⟨job, hj, he⟩ <;> rw [he] at ht
  · cases ht
    exact hp.raise ho ..
  · cases ht
    exact hp.of_consumed (t := respond 0 s) (Consumed.refl _) rfl fun hread =>
      (reading_idle hc).mpr ((reading_idle (respond_ctl 0 s)).mp hread)
  · have hstart := hp.of_consumed (t := { s with ctl := .busy job .walk }) (Consumed.refl _) rfl fun hread =>
      (reading_idle hc).mpr ((reading_walk (s := { s with ctl := .busy job .walk }) rfl).mp hread)
    exact hstart.trans (runCommand_pos hj (hi.between ho (.inl hc)).1 hstart.pos ht)

/-- Settles O30: a run of steps keeps `PosOk` and lowers no `REPORTED` (`runCommand_pos`), from the start of INIT.BYBLOCK and of a
read. -/
theorem reportedMonotone : Obligations.ReportedMonotone := by
  refine ⟨fun s hi hc _ hsrc => ?_, fun s i h hp hr => ?_⟩
  · obtain ⟨t, ht, -⟩ := execInit_answered hi hc .byblock (.inr rfl)
    have hrun := (whenIdle_next.mp ht).2
    obtain ⟨-, -, -, hpart⟩ := initReader_start s
    exact ⟨t, ht, (runCommand_pos (inv_beginInit hi _ _ (.inr rfl)) hpart (posOk_beginInit hsrc ..) hrun).pos⟩
  · obtain ⟨t, ht, -⟩ := h.read_answered hr
    obtain ⟨hpos, hle⟩ := h.read_pos hp hr ht
    exact ⟨t, ht, hpos, hle⟩

end Sys2Proof.Machine

/-! ## Huffman codes

R150 to R157: the codewords are decoded to their symbols, none begins with another, and the check of R154 is Kraft's inequality. -/

namespace Sys2Proof

/-! ### Decoding a codeword -/

/-- The symbol a row stands for where `nInUse` bytes are in use (R106). -/
def symbolOf (nInUse : Nat) : Instr → Nat
  | .runB => 1
  | .eob => nInUse + 1
  | .mtf m => m
  | _ => 0

theorem symbolOf_symbolInstr (n s : Nat) : symbolOf n (symbolInstr n s) = s := by
  unfold symbolInstr
  split_ifs with h0 h1 hn
  · exact h0.symm
  · exact h1.symm
  · exact hn.symm
  · rfl

theorem symbolInstr_injective (n : Nat) : Function.Injective (symbolInstr n) :=
  Function.LeftInverse.injective (symbolOf_symbolInstr n)

theorem encodeSym_of_len {lens : List Nat} {s L : Nat} (h : lens[s]? = some L) :
    ∃ bits, encodeSym lens s = some bits ∧ bits.length = L :=
  ⟨_, encodeSym_iff.mpr ⟨L, h, rfl⟩, bitsMsb_length ..⟩

theorem ne_nil_of_encodeSym_eq_some {lens : List Nat} {s : Nat} {bits : List Bool} (h : encodeSym lens s = some bits) :
    lens ≠ [] := by
  obtain ⟨L, hL, -⟩ := encodeSym_iff.mp h
  rintro rfl
  simp at hL

/-- R157: `decodeSym` gives the symbol whose codeword stands first in the bits, and consumes just the codeword. -/
theorem parseSymbol_encodeSym {lens : List Nat} {t : HuffTable} (ht : TableSpec lens t) (n : Nat) {s : Nat} {bits : List Bool}
    (h : encodeSym lens s = some bits) (rest : List Bool) :
    parseBits (parseSymbol t n) (bits ++ rest) = .ok (symbolInstr n s) rest :=
  (parseBits_ok_iff _).mpr
    ⟨bits, rfl, (spells_parseSymbol ht (ne_nil_of_encodeSym_eq_some h) n).mpr ⟨s, h, rfl⟩⟩

/-- R157: bits that begin with two codewords would be decoded to the symbols of both. -/
theorem eq_of_encodeSym_isPrefix {lens : List Nat} {t : HuffTable} (ht : TableSpec lens t) {s s' : Nat} {bits bits' : List Bool}
    (h : encodeSym lens s = some bits) (h' : encodeSym lens s' = some bits') (hp : bits <+: bits') : s = s' := by
  obtain ⟨rest, rfl⟩ := hp
  have hs := parseSymbol_encodeSym ht 0 h rest
  have hs' := parseSymbol_encodeSym ht 0 h' []
  rw [List.append_nil, hs, Decoded.ok.injEq] at hs'
  exact symbolInstr_injective 0 hs'.1

/-! ### The check of the lengths -/

/-- R154: the loop passes when no length is over-subscribed. -/
theorem limitRows_ok_iff (lens : List Nat) (n L pidx : Nat) :
    (limitRows lens n L (firstCode lens L) pidx).2 = true ↔
      ∀ j < n, firstCode lens (L + j) + lens.count (L + j) ≤ 2 ^ (L + j) := by
  induction n generalizing L pidx with
  | zero => simp [limitRows]
  | succ n ih =>
    have hrest := ih (L + 1) (pidx + lens.count L)
    simp only [firstCode, Nat.add_right_comm L 1] at hrest
    rw [limitRows, Nat.forall_lt_succ_left]
    split_ifs with hc
    · simp [hc]
    · simp only [hrest]
      exact (and_iff_right (Nat.le_of_not_lt hc)).symm

/-- R154: the lengths pass when no length from the least to the greatest is over-subscribed. -/
theorem buildTable_ok_iff (lens : List Nat) : (buildTable lens).2 = true ↔
    ∀ L, minLenOf lens ≤ L → L ≤ maxLenOf lens → firstCode lens L + lens.count L ≤ 2 ^ L := by
  have hrows := limitRows_ok_iff lens (maxLenOf lens + 1 - minLenOf lens) (minLenOf lens) 0
  rw [firstCode_below le_rfl] at hrows
  refine hrows.trans ⟨fun h L h1 h2 => ?_, fun h j hj => h _ (by omega) (by omega)⟩
  have hj := h (L - minLenOf lens) (by omega)
  rwa [Nat.add_sub_cancel' h1] at hj

theorem maxLenOf_le {lens : List Nat} {m : Nat} (h : ∀ l ∈ lens, l ≤ m) : maxLenOf lens ≤ m :=
  List.foldlRecOn lens max (motive := (· ≤ m)) (Nat.zero_le m) fun _ hb l hl => max_le hb (h l hl)

/-- The first codeword of length `L` lies just above the part of the code space that the shorter codewords take. -/
theorem firstCode_scaled (lens : List Nat) {L m : Nat} (h : L ≤ m) :
    firstCode lens L * 2 ^ (m - L) = ∑ l ∈ Finset.range L, lens.count l * 2 ^ (m - l) := by
  induction L with
  | zero => simp [firstCode]
  | succ L ih =>
    rw [Finset.sum_range_succ, ← ih (by omega), firstCode, show m - L = m - (L + 1) + 1 by omega, Nat.pow_succ]
    ring

/-- The Kraft sum of the lengths up to `L`, scaled by `2 ^ m` (R154). -/
def kraftUpTo (lens : List Nat) (m L : Nat) : Nat := ∑ l ∈ Finset.range (L + 1), lens.count l * 2 ^ (m - l)

theorem kraftUpTo_mono (lens : List Nat) (m : Nat) {L L' : Nat} (h : L ≤ L') : kraftUpTo lens m L ≤ kraftUpTo lens m L' :=
  Finset.sum_le_sum_of_subset (Finset.range_subset_range.mpr (by omega))

theorem kraftUpTo_maxLenOf (lens : List Nat) (m : Nat) :
    kraftUpTo lens m (maxLenOf lens) = (lens.map fun l => 2 ^ (m - l)).sum := by
  rw [Finset.sum_list_map_count]
  refine (Finset.sum_subset (fun l hl => ?_) fun l _ hl => ?_).symm
  · have := le_maxLenOf (List.mem_toFinset.mp hl)
    exact Finset.mem_range.mpr (by omega)
  · rw [List.count_eq_zero.mpr fun hm => hl (List.mem_toFinset.mpr hm), Nat.zero_mul]

/-- Length `L` is not over-subscribed just when the lengths up to `L` have a Kraft sum of at most 1. -/
theorem length_fits_iff (lens : List Nat) {L m : Nat} (h : L ≤ m) :
    firstCode lens L + lens.count L ≤ 2 ^ L ↔ kraftUpTo lens m L ≤ 2 ^ m := by
  rw [kraftUpTo, Finset.sum_range_succ, ← firstCode_scaled lens h, ← Nat.add_mul, ← pow_mul_pow_sub 2 h]
  exact (Nat.mul_le_mul_right_iff (by positivity)).symm

/-- R154: the lengths pass just when their Kraft sum, here scaled by `2 ^ m`, is at most 1. -/
theorem buildTable_ok_iff_kraft {lens : List Nat} {m : Nat} (hne : lens ≠ []) (h : ∀ l ∈ lens, l ≤ m) :
    (buildTable lens).2 = true ↔ (lens.map fun l => 2 ^ (m - l)).sum ≤ 2 ^ m := by
  have hmax : maxLenOf lens ≤ m := maxLenOf_le h
  have hmm : minLenOf lens ≤ maxLenOf lens := le_maxLenOf (minLenOf_mem hne)
  rw [buildTable_ok_iff, ← kraftUpTo_maxLenOf]
  constructor
  · intro hfit
    exact (length_fits_iff lens hmax).mp (hfit _ hmm le_rfl)
  · intro hsum L _ hL
    exact (length_fits_iff lens (hL.trans hmax)).mpr ((kraftUpTo_mono lens m hL).trans hsum)

end Sys2Proof

namespace Sys2Proof.Machine

/-- Settles O12: `decodeSym` spells the codewords (`parseSymbol_encodeSym`), a row tells its symbol, and a codeword that began with
another would be decoded to two symbols. -/
theorem huffmanDecodes : Obligations.HuffmanDecodes := by
  intro lens n _ _ _ hok
  have ht : TableSpec lens (buildTable lens).1 := buildTable_spec (Prod.ext rfl hok)
  refine ⟨fun s L hs => ?_, fun _ _ _ _ h => symbolInstr_injective n h, fun _ _ _ _ hne h h' hp =>
    hne (eq_of_encodeSym_isPrefix ht h h' hp)⟩
  obtain ⟨bits, hbits, hlen⟩ := encodeSym_of_len hs
  exact ⟨bits, hbits, hlen, parseSymbol_encodeSym ht n hbits⟩

/-- Settles O13: the check at a length bounds the Kraft sum of the lengths up to it (`length_fits_iff`), and at the greatest length
that is the whole sum. -/
theorem kraftBound : Obligations.KraftBound := fun _ hne h =>
  buildTable_ok_iff_kraft hne fun l hl => (h l hl).2

end Sys2Proof.Machine

/-! ## The symbol map

R174 to R176: which bits of a symbol map mark a byte as in use, and the list of the bytes in use. -/

namespace Sys2Proof.Machine

/-- A filtered range lists a number at the place that counts the numbers below it. -/
theorem getElem?_filter_range_iff {q : Nat → Bool} {n p i : Nat} :
    ((List.range n).filter q)[p]? = some i ↔ (i < n ∧ q i = true) ∧ p = ((List.range i).filter q).length := by
  have rank : i < n → q i = true → ((List.range n).filter q)[((List.range i).filter q).length]? = some i := fun hi hq => by
    obtain ⟨m, rfl⟩ := Nat.exists_eq_add_of_lt hi
    rw [Nat.add_right_comm, List.range_add, List.range_succ]
    simp [hq]
  refine ⟨fun h => ?_, fun ⟨⟨hi, hq⟩, hp⟩ => hp ▸ rank hi hq⟩
  have hmem := List.mem_filter.mp (List.mem_of_getElem? h)
  have hi := List.mem_range.mp hmem.1
  have hp := (List.getElem?_eq_some_iff.mp h).1
  exact ⟨⟨hi, hmem.2⟩, (List.getElem?_inj hp (List.nodup_range.filter q)).mp (h.trans (rank hi hmem.2).symm)⟩

/-- R102: the word of group `i` is the one at the place that counts the groups present before it. -/
theorem mem_zip_setBits16 {u : BitVec 16} {ws : List (BitVec 16)} {i : Nat} {w : BitVec 16} :
    (i, w) ∈ (setBits16 u).zip ws ↔ (i < 16 ∧ u.getLsbD (15 - i) = true) ∧
      ws[((List.range i).filter fun k => u.getLsbD (15 - k)).length]? = some w := by
  simp only [List.mem_iff_getElem?, List.getElem?_zip_eq_some, setBits16, getElem?_filter_range_iff]
  constructor
  · rintro ⟨p, ⟨h, rfl⟩, hw⟩
    exact ⟨h, hw⟩
  · rintro ⟨h, hw⟩
    exact ⟨_, ⟨h, rfl⟩, hw⟩

/-- Setting entries chosen by a test, one after another: an entry is true if it was, or if it was chosen. -/
theorem foldl_set_true {q : Nat → Bool} {f : Nat → Nat} {k : Nat} (js : List Nat) {l : List Bool} (hk : k < l.length) :
    (js.foldl (fun l j => if q j then l.set (f j) true else l) l)[k]? = some true ↔
      l[k]? = some true ∨ ∃ j ∈ js, q j = true ∧ f j = k := by
  induction js generalizing l with
  | nil => simp
  | cons j js ih =>
    rw [List.foldl_cons]
    by_cases hq : q j = true
    · rw [if_pos hq, ih (by simpa using hk), List.getElem?_set]
      by_cases hf : f j = k <;> simp [hq, hf, hk]
    · rw [if_neg hq, ih hk]
      simp [hq]

theorem foldl_set_length {q : Nat → Bool} {f : Nat → Nat} (js : List Nat) (l : List Bool) :
    (js.foldl (fun l j => if q j then l.set (f j) true else l) l).length = l.length := by
  induction js generalizing l with
  | nil => rfl
  | cons j js ih => rw [List.foldl_cons, ih]; split <;> simp

@[simp] theorem markInUse_length (l : List Bool) (i : Nat) (w : BitVec 16) : (markInUse l i w).length = l.length :=
  foldl_set_length (q := fun j => w.getLsbD (15 - j)) _ _

/-- R174: the word of group `i` marks byte `16 i + j` if its bit `j` in stream order is set. -/
theorem getElem?_markInUse {l : List Bool} {k : Nat} (hk : k < l.length) (i : Nat) (w : BitVec 16) :
    (markInUse l i w)[k]? = some true ↔ l[k]? = some true ∨ ∃ j < 16, w.getLsbD (15 - j) = true ∧ 16 * i + j = k := by
  rw [markInUse, foldl_set_true (q := fun j => w.getLsbD (15 - j)) (List.range 16) hk]
  simp only [List.mem_range]

theorem foldl_markInUse_length (iws : List (Nat × BitVec 16)) (l : List Bool) :
    (iws.foldl (fun l iw => markInUse l iw.1 iw.2) l).length = l.length := by
  induction iws generalizing l with
  | nil => rfl
  | cons iw iws ih => rw [List.foldl_cons, ih, markInUse_length]

/-- The words of a map, one after another: a byte is in use if it was, or if the word of its group marks it. -/
theorem getElem?_foldl_markInUse {i j : Nat} (hj : j < 16) (iws : List (Nat × BitVec 16)) {l : List Bool}
    (hk : 16 * i + j < l.length) :
    (iws.foldl (fun l iw => markInUse l iw.1 iw.2) l)[16 * i + j]? = some true ↔
      l[16 * i + j]? = some true ∨ ∃ w, (i, w) ∈ iws ∧ w.getLsbD (15 - j) = true := by
  induction iws generalizing l with
  | nil => simp
  | cons iw iws ih =>
    obtain ⟨i', w'⟩ := iw
    have hmark : (∃ j' < 16, w'.getLsbD (15 - j') = true ∧ 16 * i' + j' = 16 * i + j) ↔
        i = i' ∧ w'.getLsbD (15 - j) = true := by
      constructor
      · rintro ⟨j', hj', hw, he⟩
        obtain ⟨rfl, rfl⟩ : i = i' ∧ j = j' := by omega
        exact ⟨rfl, hw⟩
      · rintro ⟨rfl, hw⟩
        exact ⟨j, hj, hw, rfl⟩
    rw [List.foldl_cons, ih (by simpa using hk), getElem?_markInUse hk, hmark, or_assoc]
    simp only [List.mem_cons, Prod.mk.injEq, or_and_right, exists_or, and_assoc, exists_and_left, exists_eq_left]

theorem inUseOf_length (u : BitVec 16) (ws : List (BitVec 16)) : (inUseOf u ws).length = 256 := by
  rw [inUseOf, foldl_markInUse_length, List.length_replicate]

/-- R174: which bytes a whole map marks as in use. -/
theorem getElem?_inUseOf (u : BitVec 16) (ws : List (BitVec 16)) {i j : Nat} (hi : i < 16) (hj : j < 16) :
    (inUseOf u ws)[16 * i + j]? = some true ↔ u.getLsbD (15 - i) = true ∧
      ∃ w, ws[((List.range i).filter fun k => u.getLsbD (15 - k)).length]? = some w ∧ w.getLsbD (15 - j) = true := by
  have hk : 16 * i + j < 256 := by omega
  rw [inUseOf, getElem?_foldl_markInUse hj _ (by rwa [List.length_replicate]), List.getElem?_replicate_of_lt hk]
  simp only [mem_zip_setBits16, hi, true_and, and_assoc, exists_and_left, Option.some.injEq, Bool.false_eq_true, false_or]

/-- R175: a byte is in the list if it is in use. -/
theorem mem_compact {l : List Bool} {c : Byte} : c ∈ compact l ↔ l[c.toNat]? = some true := by
  simp only [compact, List.mem_map, List.mem_filter, List.mem_range, decide_eq_true_eq]
  constructor
  · rintro ⟨k, ⟨hk, hl⟩, rfl⟩
    rwa [BitVec.toNat_ofNat, Nat.mod_eq_of_lt hk]
  · exact fun hl => ⟨c.toNat, ⟨c.isLt, hl⟩, BitVec.ofNat_toNat ..⟩

/-- R175: the list is in increasing order. -/
theorem compact_pairwise (l : List Bool) : (compact l).Pairwise fun a b => a.toNat < b.toNat := by
  refine List.pairwise_map.mpr ((List.pairwise_lt_range.filter _).imp_of_mem fun {a b} ha hb hab => ?_)
  have ha := List.mem_range.mp (List.mem_filter.mp ha).1
  have hb := List.mem_range.mp (List.mem_filter.mp hb).1
  rwa [BitVec.toNat_ofNat, BitVec.toNat_ofNat, Nat.mod_eq_of_lt ha, Nat.mod_eq_of_lt hb]

/-- R176: what SYMBOL_MAP does with the map it stands for. -/
theorem execSymbolMap_eq {s : State} {job : Job} (hc : s.ctl = .busy job .symbolMap) (u : BitVec 16) (ws : List (BitVec 16)) :
    execSymbolMap u ws s = .next (if compact (inUseOf u ws) = [] then
        raiseError .tableMalformed 1 { s with
          tab := { s.tab with inUse := inUseOf u ws, seqToUnseq := compact (inUseOf u ws) }, blk := { s.blk with nInUse := 0 } }
      else { s with
        tab := { s.tab with inUse := inUseOf u ws, seqToUnseq := compact (inUseOf u ws) }
        blk := { s.blk with
          nInUse := (compact (inUseOf u ws)).length, alphaSize := (compact (inUseOf u ws)).length + 2 }
        ctl := .busy job .tableCounts }) := by
  rw [execSymbolMap, hc]
  by_cases h : compact (inUseOf u ws) = []
  · simp only [h, if_true, List.length_nil, Flow.settle]
  · simp only [h, if_false, List.length_eq_zero_iff, Flow.settle]

/-- Settles O36: the map is `inUseOf`, by the words of its groups (`getElem?_inUseOf`), and the list is `compact` of it. -/
theorem symbolMapToken : Obligations.SymbolMapToken := fun _ _ u ws hc _ =>
  ⟨inUseOf u ws, compact (inUseOf u ws), execSymbolMap_eq hc u ws, inUseOf_length u ws,
    fun _ _ => getElem?_inUseOf u ws, compact_pairwise _, fun _ => mem_compact⟩

end Sys2Proof.Machine

/-! ## The block's tables

R105, R171 to R183: the block header, the counts, the selectors and the code lengths, by what their operands are. -/

namespace Sys2Proof.Machine

/-- Settles O35: by the meaning of the token where the decoder is at it. -/
theorem blockHeaderToken : Obligations.BlockHeaderToken := by
  intro s job c r p hc
  change execBlockHeader c r p s = _
  rw [execBlockHeader, hc]

/-! ### The counts -/

theorem legalGroups_iff {g : Nat} : legalGroups g = true ↔ 2 ≤ g ∧ g ≤ 6 := by
  simp [legalGroups]

theorem execTableCounts_badGroups {s : State} {job : Job} {g : BitVec 3} (hc : s.ctl = .busy job .tableCounts)
    (hg : g.toNat < 2 ∨ 6 < g.toNat) (n : BitVec 15) :
    execTableCounts g n s = .next (raiseError .tableMalformed 2 { s with blk := { s.blk with nGroups := g.toNat } }) := by
  have hl : legalGroups g.toNat = false := Bool.eq_false_iff.mpr (mt legalGroups_iff.mp (by omega))
  rw [execTableCounts, hc]
  exact congrArg Flow.settle (if_pos (by rw [hl]; rfl))

/-- R178: `nSelectors`, once `nGroups` is legal. -/
theorem execTableCounts_legal {s : State} {job : Job} {g : BitVec 3} (hc : s.ctl = .busy job .tableCounts)
    (h2 : 2 ≤ g.toNat) (h6 : g.toNat ≤ 6) (n : BitVec 15) :
    execTableCounts g n s = .next (if n.toNat < 1 ∨ 18002 < n.toNat then
        raiseError .tableMalformed 3 { s with blk := { s.blk with nGroups := g.toNat, nSelectors := n.toNat } }
      else { s with
        blk := { s.blk with nGroups := g.toNat, nSelectors := n.toNat }, tab := { s.tab with selectorMtf := [] }
        ctl := .busy job (.selector 0) }) := by
  rw [execTableCounts, hc]
  refine (congrArg Flow.settle (if_neg (by simp [legalGroups_iff.mpr ⟨h2, h6⟩]))).trans ?_
  by_cases hn : n.toNat < 1 ∨ 18002 < n.toNat
  · rw [if_pos hn, if_pos (by simpa [Config.maxSelectors] using hn)]; rfl
  · rw [if_neg hn, if_neg (by simpa [Config.maxSelectors] using hn)]; rfl

/-- Settles O37: by whether `nGroups` is legal, and then `nSelectors`. -/
theorem tableCountsToken : Obligations.TableCountsToken := by
  intro s job g n hc
  refine ⟨fun hg => execTableCounts_badGroups hc hg n, fun h2 h6 hn => ?_, fun h2 h6 h1 hm => ?_⟩
  · exact (execTableCounts_legal hc h2 h6 n).trans (by rw [if_pos hn])
  · exact (execTableCounts_legal hc h2 h6 n).trans (by rw [if_neg (by omega)])

/-! ### The selectors -/

/-- R180, R188: entry by entry, what `moveToFront` does to a list. -/
theorem getElem?_cons_eraseIdx {α : Type} (l : List α) (v : Nat) (x : α) :
    (∀ k, 1 ≤ k → k ≤ v → (x :: l.eraseIdx v)[k]? = l[k - 1]?) ∧ ∀ k, v < k → (x :: l.eraseIdx v)[k]? = l[k]? := by
  constructor
  · rintro (_ | k) h1 hk
    · omega
    · rw [List.getElem?_cons_succ, List.getElem?_eraseIdx_of_lt (by omega), Nat.add_sub_cancel]
  · rintro (_ | k) hk
    · omega
    · rw [List.getElem?_cons_succ, List.getElem?_eraseIdx_of_ge (by omega)]

theorem moveToFront_some {α : Type} {l : List α} {v : Nat} {x : α} (h : l[v]? = some x) :
    moveToFront l v = some (x, x :: l.eraseIdx v) := by
  rw [moveToFront, h]

theorem decodeSelectors_cons {l l' sel last vs : List Nat} {v x : Nat} (h : moveToFront l v = some (x, l'))
    (hs : decodeSelectors vs l' = some (sel, last)) : decodeSelectors (v :: vs) l = some (x :: sel, last) := by
  simp only [decodeSelectors, h, hs]

/-- Settles O39: the moved list is the entry before the list without it (`getElem?_cons_eraseIdx`). -/
theorem moveToFront_spec : Obligations.MoveToFront := by
  refine ⟨fun l v x h => ?_, fun _ => rfl, fun _ _ _ _ _ _ _ => decodeSelectors_cons⟩
  obtain ⟨hmoved, hkept⟩ := getElem?_cons_eraseIdx l v x
  exact ⟨x :: l.eraseIdx v, moveToFront_some h, (moveToFront_perm h).length_eq, rfl, hmoved, hkept⟩

/-- R104: the row of a selector value runs `selectorValue` of it. -/
theorem exec_selectorMtf {v : Nat} {i : Instr}
    (h : (v, i) ∈ [(0, Instr.selectorMtf0), (1, .selectorMtf1), (2, .selectorMtf2), (3, .selectorMtf3), (4, .selectorMtf4),
      (5, .selectorMtf5)]) (s : State) : exec i s = selectorValue v s := by
  simp only [List.mem_cons, Prod.mk.injEq, List.not_mem_nil, or_false] at h
  rcases h with ⟨rfl, rfl⟩ | ⟨rfl, rfl⟩ | ⟨rfl, rfl⟩ | ⟨rfl, rfl⟩ | ⟨rfl, rfl⟩ | ⟨rfl, rfl⟩ <;> rfl

section

variable {s : State} {job : Job} {k v : Nat} (hc : s.ctl = .busy job (.selector k))

include hc

theorem execSelectorMtfBad_at : execSelectorMtfBad s = .next (raiseError .tableMalformed 4 s) := by
  rw [execSelectorMtfBad, hc]

theorem selectorValue_ge (hv : s.blk.nGroups ≤ v) : selectorValue v s = .next (raiseError .tableMalformed 4 s) := by
  rw [selectorValue, hc]
  exact congrArg Flow.settle (if_pos hv)

theorem selectorValue_more (hv : v < s.blk.nGroups) (hk : k + 1 < s.blk.nSelectors) :
    selectorValue v s = .next { s with
      tab := { s.tab with selectorMtf := putEntry s.tab.selectorMtf k v }, ctl := .busy job (.selector (k + 1)) } := by
  rw [selectorValue, hc]
  exact congrArg Flow.settle ((if_neg (Nat.not_le.mpr hv)).trans (if_pos hk))

theorem selectorValue_last {sel pos : List Nat} (hv : v < s.blk.nGroups) (hk : ¬ k + 1 < s.blk.nSelectors)
    (hd : decodeSelectors (putEntry s.tab.selectorMtf k v) (List.range s.blk.nGroups) = some (sel, pos)) :
    selectorValue v s = .next { s with
      tab := { s.tab with selectorMtf := putEntry s.tab.selectorMtf k v, selector := sel, pos := pos, lens := [] }
      ctl := .busy job (.codeLenStart 0) } := by
  rw [selectorValue, hc]
  refine (congrArg Flow.settle ((if_neg (Nat.not_le.mpr hv)).trans (if_neg hk))).trans ?_
  rw [hd]
  rfl

end

/-- Settles O38: by whether the value is in range and the last one; values in range can be decoded (`decodeSelectors_cases`). -/
theorem selectorTokens : Obligations.SelectorTokens := by
  intro s job k v i hc hi
  rw [exec_selectorMtf hi]
  refine ⟨execSelectorMtfBad_at hc, selectorValue_ge hc, selectorValue_more hc, fun hv hk hall => ?_⟩
  obtain ⟨sel, pos, hd, hlen, hlt, -⟩ := decodeSelectors_cases s.blk.nGroups _ _ (.refl _) hall
  exact ⟨sel, pos, hd, hlen, hlt, selectorValue_last hc hv hk hd⟩

/-! ### The code lengths -/

/-- R181: a length is checked where it is formed. -/
theorem settle_checkLength (job : Job) (t k curr : Nat) (s : State) :
    (checkLength job t k curr s).settle = .next (if 1 ≤ curr ∧ curr ≤ 23 then { s with ctl := .busy job (.codeLen t k curr) }
      else raiseError .tableMalformed 5 s) := by
  unfold checkLength
  by_cases h : 1 ≤ curr ∧ curr ≤ 23
  · rw [if_pos h, if_neg (by simpa [Config.maxCodeLen, Nat.one_le_iff_ne_zero] using h)]; rfl
  · rw [if_neg h, if_pos (by simp [Config.maxCodeLen]; omega)]; rfl

/-- R182, R183: the tables are built, and the symbol loop is set up. -/
theorem settle_finishLengths (job : Job) (s : State) :
    (finishLengths job s).settle = .next (if (buildTables s.tab.lens).2 then { s with
          tab := { s.tab with
            tables := (buildTables s.tab.lens).1, yy := List.range 256, unzftab := List.replicate 256 0, ll8 := [] }
          blk := { s.blk with symCount := 0, last := -1 }
          ctl := .busy job (.symbols false) }
        else raiseError .tableMalformed 6 { s with tab := { s.tab with tables := (buildTables s.tab.lens).1 } }) := by
  by_cases h : (buildTables s.tab.lens).2 = true
  · rw [if_pos h]; exact congrArg Flow.settle (if_pos h)
  · rw [if_neg h]; exact congrArg Flow.settle (if_neg h)

theorem execCodeLenStart_at {s : State} {job : Job} {t : Nat} (hc : s.ctl = .busy job (.codeLenStart t)) (l : BitVec 5) :
    execCodeLenStart l s =
      (checkLength job t 0 l.toNat { s with tab := { s.tab with lens := putEntry s.tab.lens t [] } }).settle := by
  rw [execCodeLenStart, hc]

section

variable {s : State} {job : Job} {t k c : Nat} (hc : s.ctl = .busy job (.codeLen t k c))

include hc

theorem execCodeLenInc_at : execCodeLenInc s = (checkLength job t k (c + 1) s).settle := by
  rw [execCodeLenInc, hc]

theorem execCodeLenDec_at : execCodeLenDec s = (checkLength job t k (c - 1) s).settle := by
  rw [execCodeLenDec, hc]

/-- R181, R182: the length of symbol `k` is stored, and the next symbol, the next group or the tables follow. -/
theorem execCodeLenEnd_at {row : List Nat} (hrow : s.tab.lens[t]? = some row) :
    execCodeLenEnd s = Flow.settle (
      if k + 1 < s.blk.alphaSize then
        checkLength job t (k + 1) c { s with tab := { s.tab with lens := putEntry s.tab.lens t (putEntry row k c) } }
      else if t + 1 < s.blk.nGroups then
        .go { s with
          tab := { s.tab with lens := putEntry s.tab.lens t (putEntry row k c) }, ctl := .busy job (.codeLenStart (t + 1)) }
      else finishLengths job { s with tab := { s.tab with lens := putEntry s.tab.lens t (putEntry row k c) } }) := by
  rw [execCodeLenEnd, hc]
  exact congrArg Flow.settle (lookup_some hrow _)

end

/-- Settles O40: each token forms a length, which is checked (`settle_checkLength`), or stores one; then the next symbol, the next
group or the tables follow (`execCodeLenEnd_at`). -/
theorem codeLengthTokens : Obligations.CodeLengthTokens := by
  refine ⟨fun s job t l hc => (execCodeLenStart_at hc l).trans (settle_checkLength ..), fun s job t k c hc h1 h23 =>
    ⟨?_, ?_, fun row lens hrow hlens => ?_⟩⟩
  · refine (execCodeLenInc_at hc).trans ((settle_checkLength ..).trans ?_)
    simp only [Nat.le_add_left, true_and]
  · refine (execCodeLenDec_at hc).trans ((settle_checkLength ..).trans ?_)
    simp only [(Nat.sub_le c 1).trans h23, and_true]
  · subst hlens
    have hend := execCodeLenEnd_at hc hrow
    refine ⟨fun hk => hend.trans ?_, fun hk ht => hend.trans ?_, fun hk ht => hend.trans ?_⟩
    · rw [if_pos hk, settle_checkLength, if_pos ⟨h1, h23⟩]
    · rw [if_neg hk, if_pos ht]; rfl
    · rw [if_neg hk, if_neg ht, settle_finishLengths]

end Sys2Proof.Machine

/-! ## The symbols of a block

R185 to R188: the run digits, the flush of a run by the symbol that ends it, and MTF. -/

namespace Sys2Proof.Machine

/-- Settles O41: the digit counts its weight once or twice (`exec_runInstr`). -/
theorem runDigits : Obligations.RunDigits := by
  refine fun s job b => ⟨fun hc => ?_, fun hc => ?_⟩
  · rw [exec_runInstr hc]
    cases b <;> rfl
  · have hdigit : (b.toNat + 1) * s.blk.runW = if b then 2 * s.blk.runW else s.blk.runW := by
      cases b
      · exact Nat.one_mul _
      · rfl
    rw [exec_runInstr hc, if_pos rfl, if_pos rfl, hdigit]
    rfl

/-! ### MTF -/

/-- R188: an MTF symbol where the block is full; the list has been moved. -/
theorem mtfSymbol_overrun {s : State} {m tmp : Nat} (hm : s.tab.yy[m - 1]? = some tmp) (hl : s.blk.last + 1 ≥ cap s) :
    mtfSymbol m s = .raise .blockOverrun 1 { s with tab := { s.tab with yy := tmp :: s.tab.yy.eraseIdx (m - 1) } } := by
  rw [mtfSymbol, moveToFront_some hm]
  exact if_pos hl

/-- R188: an MTF symbol where the block has room. -/
theorem mtfSymbol_go {s : State} {m tmp n : Nat} {c : Byte} (hm : s.tab.yy[m - 1]? = some tmp) (hl : s.blk.last + 1 < cap s)
    (hs : s.tab.seqToUnseq[tmp]? = some c) (hn : s.tab.unzftab[c.toNat]? = some n) :
    mtfSymbol m s = .go { s with
      tab := { s.tab with
        yy := tmp :: s.tab.yy.eraseIdx (m - 1), ll8 := s.tab.ll8 ++ [c], unzftab := s.tab.unzftab.set c.toNat (n + 1) }
      blk := { s.blk with last := s.blk.last + 1 } } := by
  rw [mtfSymbol, moveToFront_some hm]
  exact (if_neg (Int.not_le.mpr hl)).trans ((lookup_some hs _).trans (appendBytes_go hn))

/-! ### The symbol that ends a run -/

/-- The symbols other than the run digits (R185). -/
def EndsRun (nInUse : Nat) (i : Instr) : Prop := i = .eob ∨ ∃ m, 2 ≤ m ∧ m ≤ nInUse ∧ i = .mtf m

/-- What such a symbol does once no run is in progress. -/
def symbolFlow : Instr → State → Flow
  | .mtf m => mtfSymbol m
  | _ => ibwtSetup

/-- Where the command goes on after such a symbol. -/
def phaseAfter : Instr → Phase
  | .mtf _ => .symbols false
  | _ => .walk

/-- The state with the command at `c`. -/
def State.goOn (c : Ctl) (s : State) : State := { s with ctl := c }

@[simp] theorem State.goOn_tab (c : Ctl) (s : State) : (s.goOn c).tab = s.tab := rfl
@[simp] theorem State.goOn_blk (c : Ctl) (s : State) : (s.goOn c).blk = s.blk := rfl
@[simp] theorem cap_goOn (c : Ctl) (s : State) : cap (s.goOn c) = cap s := rfl

/-- R185: a symbol other than a run digit first ends the run, then does its own work. -/
theorem exec_endsRun {s : State} {job : Job} {inRun : Bool} {i : Instr} (hc : s.ctl = .busy job (.symbols inRun))
    (hi : EndsRun s.blk.nInUse i) :
    exec i s = Flow.settle ((endRun inRun s).andThen fun s1 => (symbolFlow i s1).andThen fun s2 =>
      .go (s2.goOn (.busy job (phaseAfter i)))) := by
  rcases hi with rfl | ⟨m, h2, hm, rfl⟩
  · change execEob s = _
    rw [execEob, hc]
    rfl
  · change execMtf m s = _
    rw [execMtf, hc]
    exact if_pos (by simp [h2, hm])

/-- Settles O44: with no run to end, by whether the block is full. -/
theorem mtfToken : Obligations.MtfToken := by
  intro s job m tmp hc h2 hm htmp
  have hexec : exec (.mtf m) s = Flow.settle ((mtfSymbol m s).andThen fun t => .go (t.goOn s.ctl)) :=
    hc ▸ exec_endsRun hc (.inr ⟨m, h2, hm, rfl⟩)
  refine ⟨fun hl => ?_, fun c n hl hs hn => ?_⟩
  · rw [hexec, mtfSymbol_overrun htmp hl]; rfl
  · rw [hexec, mtfSymbol_go htmp hl hs hn]; rfl

/-! ### The flush of a run

A flush leaves the control point inside the run. The work of the symbol that follows does not look at it, and what an error
reports is the same at every place of one command. -/

theorem flush_overrun {s : State} (h : s.blk.last + s.blk.runAcc ≥ cap s) : flush s = .raise .blockOverrun 2 s := if_pos h

/-- `s` after a flush that appended and counted the run's copies of `c`, of which there were `n` before (R187). -/
def flushed (c : Byte) (n : Nat) (s : State) : State :=
  { s with
    tab := { s.tab with
      ll8 := s.tab.ll8 ++ List.replicate s.blk.runAcc c, unzftab := s.tab.unzftab.set c.toNat (n + s.blk.runAcc) }
    blk := { s.blk with last := s.blk.last + s.blk.runAcc } }

theorem flush_go {s : State} {y n : Nat} {c : Byte} (h : s.blk.last + s.blk.runAcc < cap s) (hy : s.tab.yy[0]? = some y)
    (hs : s.tab.seqToUnseq[y]? = some c) (hn : s.tab.unzftab[c.toNat]? = some n) : flush s = .go (flushed c n s) :=
  (if_neg (Int.not_le.mpr h)).trans ((lookup_some hy _).trans ((lookup_some hs _).trans (appendBytes_go hn)))

/-- A piece of a command with the control point of its state set to `c`. -/
def Flow.goOn (c : Ctl) : Flow → Flow
  | .go s => .go (s.goOn c)
  | .raise e d s => .raise e d (s.goOn c)
  | .fault f => .fault f

theorem lookup_goOn {α : Type} {c : Ctl} {k k' : α → Flow} (h : ∀ v, k' v = (k v).goOn c) (l : List α) (i : Nat) :
    lookup l i k' = (lookup l i k).goOn c := by
  unfold lookup
  cases l[i]? with
  | none => rfl
  | some v => exact h v

theorem ite_goOn {p : Prop} [Decidable p] {c : Ctl} {f f' g g' : Flow} (hf : f' = f.goOn c) (hg : g' = g.goOn c) :
    (if p then f' else g') = (if p then f else g).goOn c := by
  rw [hf, hg, apply_ite (Flow.goOn c)]

theorem appendBytes_goOn (c : Ctl) (n : Nat) (v : Byte) (s : State) :
    appendBytes n v (s.goOn c) = (appendBytes n v s).goOn c := by
  refine lookup_goOn (fun m => ?_) _ _
  rfl

theorem mtfSymbol_goOn (c : Ctl) (m : Nat) (s : State) : mtfSymbol m (s.goOn c) = (mtfSymbol m s).goOn c := by
  rw [mtfSymbol, mtfSymbol, State.goOn_tab]
  cases moveToFront s.tab.yy (m - 1) with
  | none => rfl
  | some p =>
    refine ite_goOn ?_ (lookup_goOn (fun v => ?_) _ _)
    · rfl
    · exact appendBytes_goOn c 1 v { s with tab := { s.tab with yy := p.2 } }

theorem ibwtSetup_goOn (c : Ctl) (s : State) : ibwtSetup (s.goOn c) = (ibwtSetup s).goOn c := by
  rw [ibwtSetup, ibwtSetup, State.goOn_tab]
  cases fillTT s.tab.ll8 0 (prefixSums 0 s.tab.unzftab) (List.replicate s.tab.ll8.length 0) with
  | none => rfl
  | some p =>
    refine ite_goOn ?_ (lookup_goOn (fun t => ?_) _ _)
    · rfl
    · rfl

/-- The work of a symbol does not look at the control point. -/
theorem symbolFlow_goOn (c : Ctl) (i : Instr) (s : State) : symbolFlow i (s.goOn c) = (symbolFlow i s).goOn c := by
  cases i with
  | mtf m => exact mtfSymbol_goOn c m s
  | _ => exact ibwtSetup_goOn c s

theorem recordError_goOn (c : Ctl) (e : ErrKind) (d : Nat) (s : State) :
    recordError e d (s.goOn c) = (recordError e d s).goOn c := by
  rw [recordError, recordError, apply_ite (State.goOn c)]
  rfl

/-- R274: an error reports the same at every place of one command. -/
theorem raiseError_goOn (job : Job) (p q : Phase) (e : ErrKind) (d : Nat) (s : State) :
    raiseError e d (s.goOn (.busy job p)) = raiseError e d (s.goOn (.busy job q)) := by
  rw [raiseError, raiseError, recordError_goOn, recordError_goOn]
  cases job <;> rfl

/-- A piece that the command leaves for `c` comes to the same from every place of the command. -/
theorem settle_goOn (job : Job) (p q : Phase) (c : Ctl) (f : Flow) :
    ((f.goOn (.busy job p)).andThen fun s => .go (s.goOn c)).settle =
      ((f.goOn (.busy job q)).andThen fun s => .go (s.goOn c)).settle := by
  cases f with
  | go s => rfl
  | raise e d s => exact congrArg Host.Outcome.next (raiseError_goOn job p q e d s)
  | fault f => rfl

/-- Settles O43: the run overruns the block, or it is flushed, and the symbol's own work goes on from there (`settle_goOn`). -/
theorem runFlush : Obligations.RunFlush := by
  intro s job i hc hi
  refine ⟨fun hl => ?_, fun y n c hl hy hs hn => ?_⟩ <;> rw [exec_endsRun hc hi]
  · rw [show endRun true s = _ from flush_overrun hl]; rfl
  · have hflush : endRun true s = .go ((flushed c n s).goOn (.busy job (.symbols true))) :=
      hc ▸ flush_go hl hy hs hn
    have hnoRun := exec_endsRun (s := (flushed c n s).goOn (.busy job (.symbols false))) rfl hi
    rw [hflush]
    refine Eq.trans ?_ hnoRun.symm
    change Flow.settle ((symbolFlow i _).andThen _) = Flow.settle ((symbolFlow i _).andThen _)
    rw [symbolFlow_goOn, symbolFlow_goOn]
    exact settle_goOn ..

end Sys2Proof.Machine

/-! ## The derandomiser and the byte taken

R205 to R207, R110: what one byte does to the derandomiser, what `take` gives, and where the derandomiser toggles in the long
run. -/

namespace Sys2Proof.Machine

/-! ### One byte -/

theorem derand_reload {rnums : List Nat} {c : Cursor} {r : Nat} (h : c.rnToGo = 0) (hr : rnums[c.rtPos]? = some r) (v : Byte) :
    derand rnums v c =
      some (if r - 1 = 1 then v ^^^ 1 else v, { c with rnToGo := r - 1, rtPos := (c.rtPos + 1) % 512 }) := by
  rw [derand, if_pos h, hr]

theorem derand_countdown {c : Cursor} (h : c.rnToGo ≠ 0) (rnums : List Nat) (v : Byte) :
    derand rnums v c = some (if c.rnToGo - 1 = 1 then v ^^^ 1 else v, { c with rnToGo := c.rnToGo - 1 }) :=
  if_neg h

/-- R207: the new count alone says whether the byte is toggled. -/
theorem derand_toggled {rnums : List Nat} {v w : Byte} {c c' : Cursor} (h : derand rnums v c = some (w, c')) :
    w = if c'.rnToGo = 1 then v ^^^ 1 else v := by
  by_cases h0 : c.rnToGo = 0
  · cases hr : rnums[c.rtPos]? with
    | none => rw [derand, if_pos h0, hr] at h; cases h
    | some r => rw [derand_reload h0 hr] at h; cases h; rfl
  · rw [derand_countdown h0] at h; cases h; rfl

section
variable {s : State} {v : Byte} {p : Nat} (hv : s.tab.ll8[s.cur.tPos]? = some v) (hp : s.tab.tt[s.cur.tPos]? = some p)
include hv hp

theorem take_plain (hr : s.blk.randomized = false) : take s = some (v, { s.cur with tPos := p, i2 := s.cur.i2 + 1 }) := by
  simp [take, hv, hp, hr]

theorem take_randomized (hr : s.blk.randomized = true) :
    take s = derand s.rnums v { s.cur with tPos := p, i2 := s.cur.i2 + 1 } := by
  simp [take, hv, hp, hr]

end

/-- The byte taken is the one at the walk position, up to the toggle of a randomised block (R205, R207). -/
theorem ll8_of_take {s : State} {v : Byte} {c : Cursor} (h : take s = some (v, c)) :
    s.tab.ll8[s.cur.tPos]? = some (if s.blk.randomized ∧ c.rnToGo = 1 then v ^^^ 1 else v) := by
  cases hv : s.tab.ll8[s.cur.tPos]? with
  | none => simp [take, hv] at h
  | some u =>
    cases hp : s.tab.tt[s.cur.tPos]? with
    | none => simp [take, hv, hp] at h
    | some p =>
      cases hr : s.blk.randomized with
      | false => rw [take_plain hv hp hr] at h; cases h; simp
      | true =>
        rw [take_randomized hv hp hr] at h
        rw [derand_toggled h]
        by_cases h1 : c.rnToGo = 1 <;> simp [h1]

/-- In every state of the walk its invariant holds. -/
theorem StateOk.walkOk {s : State} (h : StateOk s) (hst : s.state ∈ [.randA, .randB, .randC, .norandA, .norandB, .norandC]) :
    WalkOk s := by
  simp only [List.mem_cons, List.not_mem_nil, or_false] at hst
  rcases hst with hst | hst | hst | hst | hst | hst <;>
  · rw [StateOk, hst] at h
    obtain ⟨-, hw, -⟩ := h
    exact hw

theorem Inv.stateOk {s : State} (hi : Inv s) (ho : s.closed = false) (hc : s.ctl = .idle ∨ ∃ job, s.ctl = .busy job .walk) :
    StateOk s := by
  rcases hc with hc | ⟨job, hc⟩
  · exact hi.idle ho hc
  · obtain ⟨-, -, -, h⟩ := hi.busy hc
    exact h

/-- Settles O48: by the cases of `take` and of the derandomiser, and by `take_ok`. -/
theorem takesByte : Obligations.TakesByte := by
  have count_one : ∀ n : Nat, n - 1 = 1 ↔ n = 2 := fun _ => Nat.pred_eq_succ_iff
  refine ⟨fun s v p hv hp => ⟨take_plain hv hp, fun hr r h0 hrn => ?_, fun hr h0 => ?_⟩, fun s hi ho hc hst => ?_⟩
  · rw [take_randomized hv hp hr, derand_reload (c := { s.cur with tPos := p, i2 := s.cur.i2 + 1 }) h0 hrn]
    simp only [count_one]
  · rw [take_randomized hv hp hr, derand_countdown (c := { s.cur with tPos := p, i2 := s.cur.i2 + 1 }) h0]
    simp only [count_one]
  · obtain ⟨v, _, _, _, ht, -⟩ := take_ok (hi.core ho hc).params ((hi.stateOk ho hc).walkOk hst)
    exact ⟨v, _, ht, ll8_of_take ht⟩

/-! ### The positions toggled -/

/-- The derandomiser after `n` bytes and `m` reloads: the count runs out where the next reload is due, and all reloads so far were
at earlier bytes. -/
structure DerandAt (rnums : List Nat) (n m : Nat) (c : Cursor) : Prop where
  rtPos : c.rtPos = m % 512
  due : c.rnToGo + n = reloadAt rnums m
  past : ∀ k < m, reloadAt rnums k < n

section
variable {rnums : List Nat} (hl : rnums.length = 512) (h2 : ∀ r ∈ rnums, 2 ≤ r)
include hl

theorem getElem?_reload (m : Nat) : rnums[m % 512]? = some (rnums.getD (m % 512) 0) := by
  have hm : m % 512 < rnums.length := by rw [hl]; exact Nat.mod_lt m (by decide)
  rw [List.getD_eq_getElem _ _ hm, List.getElem?_eq_getElem hm]

include h2

theorem two_le_reload (m : Nat) : 2 ≤ rnums.getD (m % 512) 0 :=
  h2 _ (List.mem_of_getElem? (getElem?_reload hl m))

/-- Reloads are at least two bytes apart. -/
theorem reloadAt_add_two_le {k m : Nat} (h : k < m) : reloadAt rnums k + 2 ≤ reloadAt rnums m := by
  induction m, h using Nat.le_induction with
  | base => exact Nat.add_le_add_left (two_le_reload hl h2 k) _
  | succ m _ ih => exact ih.trans (Nat.le_add_right _ _)

/-- R206: one byte, which either reloads the derandomiser or counts it down. -/
theorem DerandAt.step {n m : Nat} {c : Cursor} (h : DerandAt rnums n m c) : ∃ m' c', DerandAt rnums (n + 1) m' c' ∧
    ∀ v, derand rnums v c = some (if c'.rnToGo = 1 then v ^^^ 1 else v, c') := by
  obtain ⟨hpos, hdue, hpast⟩ := h
  by_cases h0 : c.rnToGo = 0
  · have hr : rnums[c.rtPos]? = some (rnums.getD (m % 512) 0) := by rw [hpos]; exact getElem?_reload hl m
    refine ⟨m + 1, { c with rnToGo := rnums.getD (m % 512) 0 - 1, rtPos := (c.rtPos + 1) % 512 }, ⟨?_, ?_, ?_⟩,
      derand_reload h0 hr⟩
    · simp only [hpos]; omega
    · have := two_le_reload hl h2 m
      simp only [reloadAt]; omega
    · intro k hk
      rcases Nat.lt_succ_iff_lt_or_eq.mp hk with hk | rfl
      · exact (hpast k hk).trans (Nat.lt_succ_self n)
      · omega
  · refine ⟨m, { c with rnToGo := c.rnToGo - 1 }, ⟨hpos, ?_, fun k hk => (hpast k hk).trans (Nat.lt_succ_self n)⟩,
      derand_countdown h0 rnums⟩
    simp only; omega

/-- Just after a byte the count is 1 where the next reload is two bytes from that byte, and no other reload is. -/
theorem DerandAt.rnToGo_eq_one_iff {p m : Nat} {c : Cursor} (h : DerandAt rnums (p + 1) m c) :
    c.rnToGo = 1 ↔ ∃ k, p + 2 = reloadAt rnums (k + 1) := by
  obtain ⟨-, hdue, hpast⟩ := h
  constructor
  · intro h1
    cases m with
    | zero => simp only [reloadAt] at hdue; omega
    | succ k => exact ⟨k, by omega⟩
  · rintro ⟨k, hk⟩
    rcases Nat.lt_trichotomy (k + 1) m with hlt | rfl | hgt
    · have := hpast _ hlt; omega
    · omega
    · have := reloadAt_add_two_le hl h2 hgt; omega

/-- The derandomiser after any number of bytes. -/
theorem derandAfter_derandAt {c : Cursor} (hc : DerandAt rnums 0 0 c) (n : Nat) :
    ∃ m c', derandAfter rnums c n = some c' ∧ DerandAt rnums n m c' := by
  induction n with
  | zero => exact ⟨0, c, rfl, hc⟩
  | succ n ih =>
    obtain ⟨m, c', hc', hd⟩ := ih
    obtain ⟨m', c'', hd', hv⟩ := hd.step hl h2
    exact ⟨m', c'', by simp [derandAfter, hc', hv], hd'⟩

end

/-- Settles O50: the derandomiser is followed from byte to byte (`derandAfter_derandAt`), and the count it then has says which byte
is toggled. -/
theorem derandomiserPositions : Obligations.DerandomiserPositions := by
  intro rnums c hl h2 h0 hpos p
  have hstart : DerandAt rnums 0 0 c := ⟨hpos, h0, fun k hk => absurd hk (Nat.not_lt_zero k)⟩
  obtain ⟨m, c1, hc1, hd1⟩ := derandAfter_derandAt hl h2 hstart p
  obtain ⟨m', c2, hd2, hv⟩ := hd1.step hl h2
  refine ⟨c1, c2, hc1, by simp [derandAfter, hc1, hv], fun v => ⟨fun h => ?_, fun h => ?_⟩⟩
  · rw [hv, if_pos ((hd2.rnToGo_eq_one_iff hl h2).mpr h)]
  · rw [hv, if_neg fun h1 => not_exists.mpr h ((hd2.rnToGo_eq_one_iff hl h2).mp h1)]

end Sys2Proof.Machine

/-! ## The steps of the walk

R208 to R214, R238: what a step `*_B`, a `*_C` and an exhausted `*_A` do, as steps of a command in progress. A step of the machine
and READ_BYTE both follow from them. -/

namespace Sys2Proof.Machine

/-! ### The CRC and the end of a block -/

/-- Settles O51, by evaluation. -/
theorem crcCheckValue : Obligations.CrcCheckValue := ⟨by decide, by decide +kernel⟩

theorem foldCrc_eq_rotateLeft (x y : Word) : foldCrc x y = x.rotateLeft 1 ^^^ y := rfl

theorem endOfBlock_mismatch {s : State} (h : s.cur.blockCrc ^^^ 0xFFFFFFFF ≠ s.blk.storedBlockCrc) :
    endOfBlock s = .raise .crcMismatch 1 s := if_pos h

theorem endOfBlock_match {s : State} (h : s.cur.blockCrc ^^^ 0xFFFFFFFF = s.blk.storedBlockCrc) :
    endOfBlock s = .go { s with
      combinedCrc := s.combinedCrc.rotateLeft 1 ^^^ s.blk.storedBlockCrc
      state := if s.mode = .continuous then .startBlock else .noProcess } := by
  rw [← h, ← foldCrc_eq_rotateLeft]
  exact if_neg (not_not.mpr h)

theorem nextOfWalk_exhausted {s : State} (job : Job) (hst : s.state = .randA ∨ s.state = .norandA)
    (hi : (s.cur.i2 : Int) > s.blk.last) : nextOfWalk job s = .inner (endOfBlock s) := by
  rcases hst with hst | hst
  · rw [nextOfWalk_randA job hst, stepA_end _ _ hi]
  · rw [nextOfWalk_norandA job hst, stepA_end _ _ hi]

section
variable {s : State} {job : Job} (hc : s.ctl = .busy job .walk) (hst : s.state = .randA ∨ s.state = .norandA)
  (hi : (s.cur.i2 : Int) > s.blk.last)
include hc hst hi

theorem commandStep_exhausted_mismatch (h : s.cur.blockCrc ^^^ 0xFFFFFFFF ≠ s.blk.storedBlockCrc) :
    commandStep s = .ran (.next (raiseError .crcMismatch 1 s)) := by
  rw [commandStep_walk hc (nextOfWalk_exhausted job hst hi), endOfBlock_mismatch h]; rfl

theorem commandStep_exhausted_match (h : s.cur.blockCrc ^^^ 0xFFFFFFFF = s.blk.storedBlockCrc) :
    commandStep s = .ran (.next { s with
      combinedCrc := s.combinedCrc.rotateLeft 1 ^^^ s.blk.storedBlockCrc
      state := if s.mode = .continuous then .startBlock else .noProcess }) := by
  rw [commandStep_walk hc (nextOfWalk_exhausted job hst hi), endOfBlock_match h]; rfl

end

/-- Settles O49: by `commandStep_exhausted_mismatch` and `commandStep_exhausted_match`; the worked folds by evaluation. -/
theorem endOfBlockStep : Obligations.EndOfBlockStep :=
  ⟨fun _ _ hc hst hi => ⟨fun h => step_of_ran hc (commandStep_exhausted_mismatch hc hst hi h),
    fun h => step_of_ran hc (commandStep_exhausted_match hc hst hi h)⟩, by decide, by decide⟩

/-! ### The steps `*_B` and `*_C` -/

/-- The state `b` is the `*_B` of a family of the walk, `a` and `c` are its `*_A` and its `*_C`. -/
def BFamily (b a c : StreamState) : Prop :=
  b = .randB ∧ a = .randA ∧ c = .randC ∨ b = .norandB ∧ a = .norandA ∧ c = .norandC

section
variable {s : State} {a st : StreamState} (hst : BFamily s.state a st)
include hst

theorem BFamily.nextOfWalk (job : Job) : nextOfWalk job s = nextOfB a s := by
  rcases hst with ⟨hb, rfl, -⟩ | ⟨hb, rfl, -⟩
  · exact nextOfWalk_randB job hb
  · exact nextOfWalk_norandB job hb

theorem BFamily.tailState : tailState s.state = some st := by
  rcases hst with ⟨hb, -, rfl⟩ | ⟨hb, -, rfl⟩ <;> rw [hb] <;> rfl

/-- In a state `*_B` the byte before is a byte (R48). -/
theorem BFamily.ch2_le (h : StateOk s) : s.cur.ch2.toNat ≤ 255 := by
  rcases hst with ⟨hb, -⟩ | ⟨hb, -⟩ <;>
  · rw [StateOk, hb] at h
    obtain ⟨-, -, -, hle⟩ := h
    exact hle

variable {job : Job} (hc : s.ctl = .busy job .walk)
include hc

theorem commandStep_of_stepB {f : Flow} (h : stepB a s = .flow f) : commandStep s = .ran f.settle :=
  commandStep_walk hc (by rw [hst.nextOfWalk, nextOfB, h])

theorem commandStep_compare_new (h : s.cur.ch2 ≠ s.cur.chPrev) :
    commandStep s = .ran (.next { s with cur := { s.cur with count := 1 }, state := a }) :=
  commandStep_of_stepB hst hc (stepB_new a h)

theorem commandStep_compare_count (h : s.cur.ch2 = s.cur.chPrev) (hn : s.cur.count + 1 < 4) :
    commandStep s = .ran (.next { s with cur := { s.cur with count := s.cur.count + 1 }, state := a }) :=
  commandStep_of_stepB hst hc (stepB_count a h hn)

theorem commandStep_compare_end (h : s.cur.ch2 = s.cur.chPrev) (hn : s.cur.count = 3) (hi : (s.cur.i2 : Int) > s.blk.last) :
    commandStep s = .ran (.next (raiseError .streamCorrupted 2 { s with cur := { s.cur with count := 4 } })) :=
  commandStep_of_stepB hst hc (stepB_end a h hn hi)

theorem commandStep_compare_unit {z : Byte} {c : Cursor} (h : s.cur.ch2 = s.cur.chPrev) (hle : s.cur.ch2.toNat ≤ 255)
    (hn : s.cur.count = 3) (hi : (s.cur.i2 : Int) ≤ s.blk.last)
    (ht : take { s with cur := { s.cur with count := 4 } } = some (z, c)) :
    commandStep s = .ran (.next { s with cur := { c with z := z, j2 := 0 }, state := st }) := by
  have hcount : c.count = 4 := by rw [take_frame ht]
  have hch2 : c.ch2 = (s.cur.ch2.truncate 8 : Byte).zeroExtend 9 := by
    have : c.ch2 = s.cur.ch2 := by rw [take_frame ht]
    rw [this]
    bv_omega
  rw [commandStep, nextStep_walk hc, hst.nextOfWalk, nextOfB, stepB_unit a h hn hi ht]
  exact congrArg Turn.ran
    (execRle1Unit_of_tailState (s := { s with cur := c }) hc hst.tailState hcount hch2 z)

end

theorem commandStep_copies_end {s : State} {job : Job} {a : StreamState} (hc : s.ctl = .busy job .walk)
    (hst : s.state = .randC ∧ a = .randA ∨ s.state = .norandC ∧ a = .norandA) (h : ¬ s.cur.j2 < s.cur.z.toNat) :
    commandStep s = .ran (.next { s with cur := { s.cur with count := 0 }, state := a }) := by
  rcases hst with ⟨hst, rfl⟩ | ⟨hst, rfl⟩
  · rw [commandStep_walk hc (nextOfWalk_randC job hst), stepC_end job _ h]; rfl
  · rw [commandStep_walk hc (nextOfWalk_norandC job hst), stepC_end job _ h]; rfl

/-- Settles O47: each way the comparison goes is a step of the command. -/
theorem compareStep : Obligations.CompareStep :=
  ⟨fun _ _ _ _ hc hst => ⟨fun h => step_of_ran hc (commandStep_compare_new hst hc h),
      fun h hn => step_of_ran hc (commandStep_compare_count hst hc h hn),
      fun h hn hi => step_of_ran hc (commandStep_compare_end hst hc h hn hi),
      fun _ _ h hle hn hi ht => step_of_ran hc (commandStep_compare_unit hst hc h hle hn hi ht)⟩,
    fun _ _ _ hc hst h => step_of_ran hc (commandStep_copies_end hc hst h)⟩

/-! ### The bytes the walk yields -/

theorem nextOfWalk_takes {s : State} (job : Job) {v : Byte} {c : Cursor} {b : StreamState}
    (hst : s.state = .randA ∧ b = .randB ∨ s.state = .norandA ∧ b = .norandB) (hi : (s.cur.i2 : Int) ≤ s.blk.last)
    (ht : take s = some (v, c)) : nextOfWalk job s = .inner (yield job (.byte v) { s with
      cur := { c with chPrev := s.cur.ch2, ch2 := v.zeroExtend 9, blockCrc := crcUpdate s.cur.blockCrc v }
      state := b }) := by
  rcases hst with ⟨hst, rfl⟩ | ⟨hst, rfl⟩
  · rw [nextOfWalk_randA job hst, stepA_byte job _ hi ht]
  · rw [nextOfWalk_norandA job hst, stepA_byte job _ hi ht]

theorem nextOfWalk_copies {s : State} (job : Job) (hst : s.state = .randC ∨ s.state = .norandC) (h : s.cur.j2 < s.cur.z.toNat) :
    nextOfWalk job s = .inner (yield job (.byte (s.cur.ch2.truncate 8)) { s with
      cur := { s.cur with j2 := s.cur.j2 + 1, blockCrc := crcUpdate s.cur.blockCrc (s.cur.ch2.truncate 8) } }) := by
  rcases hst with hst | hst
  · rw [nextOfWalk_randC job hst, stepC_byte job _ h]
  · rw [nextOfWalk_norandC job hst, stepC_byte job _ h]

/-! ### READ_BYTE -/

/-- Where READ_BYTE stands in the walk. -/
def readByteWalk : Ctl := .busy .readByte .walk

section
variable {s t : State} (hc : s.ctl = .idle) (ho : s.closed = false)
include hc ho

/-- A first step that answers is READ_BYTE's answer. -/
theorem exec_readByte_of_answer (h : commandStep (s.goOn readByteWalk) = .ran (.next t)) (ht : t.ctl = .idle) :
    exec .readByte s = .next t :=
  (execReadByte_open hc ho).trans (runCommand_once rfl h ht)

/-- A byte the walk yields is the answer (R242). -/
theorem exec_readByte_of_yield {v : Byte} (h : nextOfWalk .readByte (s.goOn readByteWalk) = .inner (yield .readByte (.byte v) t)) :
    exec .readByte s = .next (respond (v.zeroExtend 64) t) :=
  exec_readByte_of_answer hc ho (commandStep_walk rfl h) rfl

/-- An error is READ_BYTE's answer, with the result 0 of a command that stored nothing (R274). -/
theorem exec_readByte_of_raise {e : ErrKind} {d : Nat} (ht : t.ctl = .idle)
    (h : commandStep (s.goOn readByteWalk) = .ran (.next (raiseError e d (t.goOn readByteWalk)))) :
    exec .readByte s = .next (raiseError e d t) := by
  rw [exec_readByte_of_answer hc ho h (by simp), raiseError, recordError_goOn, raiseError]
  simp [failedResult, State.goOn, readByteWalk, ht]

/-- A first step that goes on in the walk leaves what READ_BYTE still has to do (R230, R235). -/
theorem exec_readByte_of_walk (hi : Inv s) (ht : t.ctl = .idle) (hto : t.closed = false)
    (h : commandStep (s.goOn readByteWalk) = .ran (.next (t.goOn readByteWalk))) : exec .readByte s = exec .readByte t :=
  calc exec .readByte s = runCommand (s.goOn readByteWalk) := execReadByte_open hc ho
    _ = runCommand (t.goOn readByteWalk) := runCommand_step (inv_beginRead hi ho hc .readByte trivial (by decide)) rfl h
    _ = exec .readByte t := (execReadByte_open ht hto).symm

theorem exec_readByte_takes {v : Byte} {c : Cursor} {b : StreamState}
    (hst : s.state = .randA ∧ b = .randB ∨ s.state = .norandA ∧ b = .norandB) (hi : (s.cur.i2 : Int) ≤ s.blk.last)
    (ht : take s = some (v, c)) : exec .readByte s = .next { s with
      cur := { c with chPrev := s.cur.ch2, ch2 := v.zeroExtend 9, blockCrc := crcUpdate s.cur.blockCrc v }
      state := b, status := 0, result := v.zeroExtend 64 } := by
  rw [exec_readByte_of_yield hc ho (nextOfWalk_takes (s := s.goOn readByteWalk) .readByte hst hi ht), respond, ← hc]
  rfl

theorem exec_readByte_copies (hst : s.state = .randC ∨ s.state = .norandC) (h : s.cur.j2 < s.cur.z.toNat) :
    exec .readByte s = .next { s with
      cur := { s.cur with j2 := s.cur.j2 + 1, blockCrc := crcUpdate s.cur.blockCrc (s.cur.ch2.truncate 8) }
      status := 0, result := (s.cur.ch2.truncate 8 : Byte).zeroExtend 64 } := by
  rw [exec_readByte_of_yield hc ho (nextOfWalk_copies (s := s.goOn readByteWalk) .readByte hst h), respond, ← hc]
  rfl

end

/-- Settles O23: READ_BYTE starts in the walk; its first step yields a byte, raises an error, or goes on in the walk. -/
theorem readByteYields : Obligations.ReadByteYields := by
  refine ⟨fun s hc ho => ⟨fun v c b => exec_readByte_takes hc ho, exec_readByte_copies hc ho⟩,
    fun s a st hinv hc ho hst => ?_, fun s a hinv hc ho hst h => ?_,
    fun s hinv hc ho hst hi => ⟨fun h => ?_, fun h => ?_⟩⟩
  · have hfam : BFamily (s.goOn readByteWalk).state a st := hst
    refine ⟨fun h => ?_, fun h hn => ?_, fun h hn hi => ?_, fun z c h hn hi ht => ?_⟩
    · exact exec_readByte_of_walk hc ho hinv hc ho (commandStep_compare_new hfam rfl h)
    · exact exec_readByte_of_walk hc ho hinv hc ho (commandStep_compare_count hfam rfl h hn)
    · exact exec_readByte_of_raise hc ho hc (commandStep_compare_end hfam rfl h hn hi)
    · have hle := hfam.ch2_le (hinv.idle ho hc)
      exact exec_readByte_of_walk hc ho hinv hc ho (commandStep_compare_unit hfam rfl h hle hn hi ht)
  · exact exec_readByte_of_walk hc ho hinv hc ho (commandStep_copies_end (s := s.goOn readByteWalk) rfl hst h)
  · exact exec_readByte_of_raise hc ho hc (commandStep_exhausted_mismatch (s := s.goOn readByteWalk) rfl hst hi h)
  · exact exec_readByte_of_walk hc ho hinv hc ho (commandStep_exhausted_match (s := s.goOn readByteWalk) rfl hst hi h)

end Sys2Proof.Machine

/-! ## The end of the symbols

R200 to R204: EOB sorts the indices of the block by byte and starts the walk. -/

namespace Sys2Proof.Machine

/-- R201: slots are in the order of the bytes, and for one byte in the order of the indices. -/
theorem order_of_slot_lt {l : List Byte} {i j : Nat} {c d : Byte} (hi : l[i]? = some c) (hj : l[j]? = some d)
    (h : slot l i < slot l j) : c.toNat < d.toNat ∨ c = d ∧ i < j := by
  rcases Nat.lt_trichotomy c.toNat d.toNat with hcd | hcd | hcd
  · exact .inl hcd
  · obtain rfl : c = d := BitVec.eq_of_toNat_eq hcd
    refine .inr ⟨rfl, Nat.lt_of_not_le fun hle => ?_⟩
    have := (List.take_sublist_take_left (l := l) hle).count_le c
    rw [slot_eq hi, slot_eq hj] at h
    omega
  · have := slot_lt_next hj
    have := below_mono l (show d.toNat + 1 ≤ c.toNat from hcd)
    rw [slot_eq hi] at h
    omega

/-- A table in which every index has its slot holds each index in its slot only. -/
theorem slot_of_getElem? {l : List Byte} {tt : List Nat} (hperm : tt.Perm (List.range l.length))
    (hs : ∀ j < l.length, tt[slot l j]? = some j) {p j : Nat} (h : tt[p]? = some j) : slot l j = p := by
  have hj : j < l.length := List.mem_range.mp (hperm.mem_iff.mp (List.mem_of_getElem? h))
  have hnodup : tt.Nodup := hperm.nodup_iff.mpr List.nodup_range
  exact (List.getElem?_inj (List.getElem?_eq_some_iff.mp (hs j hj)).1 hnodup).mp ((hs j hj).trans h.symm)

/-- R201: the transition table is sorted by byte, and for one byte by index. -/
theorem sorted_of_slots {l : List Byte} {tt : List Nat} (hperm : tt.Perm (List.range l.length))
    (hs : ∀ j < l.length, tt[slot l j]? = some j) {j k a b : Nat} (hjk : j < k) (ha : tt[j]? = some a) (hb : tt[k]? = some b) :
    (l.getD a 0).toNat < (l.getD b 0).toNat ∨ (l.getD a 0 = l.getD b 0 ∧ a < b) := by
  have hget : ∀ {p i}, tt[p]? = some i → l[i]? = some (l.getD i 0) := fun {p i} h => by
    have hi : i < l.length := List.mem_range.mp (hperm.mem_iff.mp (List.mem_of_getElem? h))
    rw [List.getD_eq_getElem _ _ hi, List.getElem?_eq_getElem hi]
  refine order_of_slot_lt (hget ha) (hget hb) ?_
  rwa [slot_of_getElem? hperm hs ha, slot_of_getElem? hperm hs hb]

section
variable {s : State} {cf tt : List Nat}
  (hf : fillTT s.tab.ll8 0 (prefixSums 0 s.tab.unzftab) (List.replicate s.tab.ll8.length 0) = some (cf, tt))
include hf

/-- R202: an origin beyond the block; the tables have been filled. -/
theorem ibwtSetup_badOrigin (h : (s.blk.origPtr.toNat : Int) > s.blk.last) :
    ibwtSetup s = .raise .streamCorrupted 1 { s with tab := { s.tab with cftab := cf, tt := tt } } := by
  rw [ibwtSetup, hf]
  exact if_pos h

/-- R203, R204: the walk starts. -/
theorem ibwtSetup_go {tp : Nat} (h : (s.blk.origPtr.toNat : Int) ≤ s.blk.last) (ht : tt[s.blk.origPtr.toNat]? = some tp) :
    ibwtSetup s = .go { s with
      tab := { s.tab with cftab := cf, tt := tt }
      cur := startCursor tp
      state := if s.blk.randomized then .randA else .norandA } := by
  rw [ibwtSetup, hf]
  exact (if_neg (Int.not_lt.mpr h)).trans (lookup_some ht _)

end

/-- Settles O45: the counts of the invariant fill the table (`fillTT_counts`), which is then sorted (`sorted_of_slots`). -/
theorem eobToken : Obligations.EobToken := by
  intro s job hi hc
  obtain ⟨-, -, -, -, -, -, -, -, ⟨-, -, -, hcounts, hlast, -⟩, -⟩ := hi.busy hc
  obtain ⟨cf, tt, hfill, hlen, -, hs⟩ := fillTT_counts s.tab.ll8
  have hperm := perm_of_slots hlen hs
  rw [← hcounts] at hfill
  have hexec : exec .eob s = Flow.settle ((ibwtSetup s).andThen fun t => .go (t.goOn (.busy job .walk))) :=
    exec_endsRun hc (.inl rfl)
  refine ⟨cf, tt, hperm, fun j k a b => sorted_of_slots hperm hs, fun ho => ?_, fun ho => ?_⟩
  · rw [hexec, ibwtSetup_badOrigin hfill ho]; rfl
  · have hlt : s.blk.origPtr.toNat < tt.length := by omega
    have htp := List.getElem?_eq_getElem hlt
    exact ⟨_, htp, by rw [hexec, ibwtSetup_go hfill ho htp]; rfl⟩

end Sys2Proof.Machine

/-! ## Every command answers

R230, R254, R308: with a source that ends a command given to an idle block is answered, and it is the steps of the machine it
takes. -/

namespace Sys2Proof.Machine

theorem whenIdle_eq {s : State} (h : s.ctl = .idle) (k : State → Outcome) : whenIdle s k = k s := by
  rw [whenIdle, h]

theorem execInitContinuous_idle {s : State} (hc : s.ctl = .idle) :
    execInitContinuous s = runCommand (beginInit .continuous .header s) := whenIdle_eq hc _

theorem execInitByblock_idle {s : State} (hc : s.ctl = .idle) :
    execInitByblock s = runCommand (beginInit .byblock .scan s) := whenIdle_eq hc _

theorem execReserved_idle {s : State} (hc : s.ctl = .idle) (w : Word) :
    execReserved w s = .next (raiseError .invalidArgument 1 s) := whenIdle_eq hc _

/-- A command that asks for an open block (R231) has answered if it answers on one. -/
theorem idle_of_whenOpen {s t : State} {k : State → Outcome} (h : whenIdle s (fun s => whenOpen s k) = .next t)
    (hk : ∀ u, k s = .next u → u.ctl = .idle) : t.ctl = .idle := by
  rcases whenOpen_next.mp (whenIdle_next.mp h).2 with ⟨-, rfl⟩ | ⟨-, h⟩
  · exact raiseError_ctl ..
  · exact hk t h

/-- Settles O57: INIT and the reads have answered where their source ends (`Answered`); the other commands read nothing. -/
theorem commandsAnswer : Obligations.CommandsAnswer := by
  intro s i hi hc he hinit hread
  cases i with
  | initContinuous =>
    obtain ⟨t, ht, ha⟩ := execInit_answered hi hc .continuous (.inl rfl)
    exact ⟨t, ht, ha.idle (.inr (hinit (.inl rfl))), ha.inv⟩
  | initByblock =>
    obtain ⟨t, ht, ha⟩ := execInit_answered hi hc .byblock (.inr rfl)
    exact ⟨t, ht, ha.idle (.inr (hinit (.inr rfl))), ha.inv⟩
  | readByte =>
    obtain ⟨t, ht, ha⟩ := execReadByte_answered hi hc
    exact ⟨t, ht, ha.idle (hread (.inl rfl)), ha.inv⟩
  | readInto =>
    obtain ⟨t, ht, ha⟩ := execReadInto_answered hi hc
    exact ⟨t, ht, ha.idle (hread (.inr rfl)), ha.inv⟩
  | getReported =>
    obtain ⟨t, ht, ha⟩ := execGetReported_answered hi hc
    exact ⟨t, ht, idle_of_whenOpen ht (by rintro u ⟨⟩; rfl), ha.inv⟩
  | adjustReported =>
    obtain ⟨t, ht, ha⟩ := execAdjustReported_answered hi hc
    exact ⟨t, ht, idle_of_whenOpen ht (by rintro u ⟨⟩; rfl), ha.inv⟩
  | close =>
    obtain ⟨t, ht, hit, -, hct⟩ := execClose_closes hi hc
    exact ⟨t, ht, hct, hit⟩
  | reserved w =>
    exact ⟨_, execReserved_idle hc w, raiseError_ctl .., hi.raise hc ..⟩
  | _ => nomatch he

/-- R62, log 8: an INIT without a newly attached source starts on what is left of the one before. -/
theorem beginInit_attach {s : State} (h : s.attached = none) (m : Mode) (ph : Phase) :
    beginInit m ph s = beginInit m ph { s with attached := some { bytes := s.rd.src, ends := s.rd.srcEnds } } := by
  have hr : initReader s = initReader { s with attached := some { bytes := s.rd.src, ends := s.rd.srcEnds } } := by
    rw [initReader, h]
    rfl
  rw [beginInit, hr]
  rfl

theorem execInit_attach {s : State} {i : Instr} (h : s.attached = none) (hi : i = .initContinuous ∨ i = .initByblock) :
    exec i s = exec i { s with attached := some { bytes := s.rd.src, ends := s.rd.srcEnds } } := by
  rcases hi with rfl | rfl
  · simp only [exec, execInitContinuous, whenIdle, beginInit_attach h]
  · simp only [exec, execInitByblock, whenIdle, beginInit_attach h]

/-- A pass of READ_BYTE that goes on leads to a state from which READ_BYTE answers the same: the walk never waits. -/
theorem exec_readByte_of_step {s u : State} (hi : Inv s) (hc : s.ctl = .idle) (ho : s.closed = false)
    (hs : step (s.goOn readByteWalk) = .next u) (hu : u.ctl = readByteWalk) :
    exec .readByte s = exec .readByte (u.goOn .idle) := by
  have hw : Inv (s.goOn readByteWalk) := inv_beginRead hi ho hc .readByte trivial (by decide)
  obtain ⟨o, hstep, t, rfl, -, hk, -⟩ := walkStep_ok (AtWalk.of_inv hw rfl)
  have ht := step_of_ran rfl hstep
  rw [hs] at ht
  cases ht
  refine exec_readByte_of_walk hc ho hi rfl (hk.closed.trans ho) ?_
  rw [hstep, State.goOn, State.goOn, ← hu]

/-- Settles O7: the equations of what a command starts from, and the run of a command by its next step (`runCommand_step`,
`runCommand_wait`). -/
theorem commandRunsPasses : Obligations.CommandRunsPasses := by
  refine ⟨fun s hc => ⟨execInitContinuous_idle hc, execInitByblock_idle hc, execReadByte_open hc, execReadInto_open hc,
    runCommand_idle hc⟩, fun s i ha h => ?_, fun u job ph hi hb => ?_,
    fun s u hi hc ho hs hu => exec_readByte_of_step hi hc ho hs hu⟩
  · exact execInit_attach ha h
  · rcases step_cases hi hb with ⟨t, hs, hcs, v, hv, hit, -⟩ | ⟨w, hs, hcs, -, -, hwc, he, hsrc, -⟩
    · cases hv
      exact .inl ⟨t, hs, hit, runCommand_step hi hb hcs⟩
    · exact .inr ⟨w, he, hs, runCommand_wait hb hcs, hwc, hsrc⟩

end Sys2Proof.Machine

/-! ## The command checks and the commands that read nothing

R231, R247 to R249, R274, R275: what a command word does at once. -/

namespace Sys2Proof.Machine

/-- R274: outside a READ_INTO a command that fails has the result 0. -/
theorem failedResult_idle {s : State} (h : s.ctl = .idle) : failedResult s = 0 := by
  rw [failedResult, h]

/-- R231, R275: a command refused on a closed block changes the response only. -/
theorem raiseError_refused {s : State} {d : Nat} (hc : s.ctl = .idle) (ho : s.closed = true) (hd : d = 1 ∨ d = 4) :
    raiseError .invalidArgument d s = { s with status := statusWord .invalidArgument d, result := 0 } := by
  have hrec : recordError .invalidArgument d s = s := if_pos (by simpa [ho] using hd)
  rw [raiseError, failedResult_idle hc, hrec, ← hc]

/-- R275: an error on an open block ends the stream, and the first error is kept. -/
theorem raiseError_open {s : State} (hc : s.ctl = .idle) (ho : s.closed = false) (e : ErrKind) (d : Nat) :
    raiseError e d s = { s with
      status := statusWord e d, result := 0, state := .eof
      err := if s.err = 0 then BitVec.ofNat 4 (errCode e) else s.err
      errDetail := if s.err = 0 then BitVec.ofNat 8 d else s.errDetail } := by
  rw [raiseError, failedResult_idle hc, recordError, if_neg (by simp [ho]), ← hc]

theorem respond_idle {s : State} (hc : s.ctl = .idle) (v : DWord) : respond v s = { s with status := 0, result := v } := by
  rw [respond, ← hc]
  rfl

section
variable {s : State} (hc : s.ctl = .idle)
include hc

/-- R231, check 2: a command that asks for an open block is refused on a closed one. -/
theorem whenOpen_closed (ho : s.closed = true) (k : State → Outcome) :
    whenIdle s (fun s => whenOpen s k) = .next { s with status := 0x48, result := 0 } := by
  rw [whenIdle_eq hc, whenOpen, if_pos ho, raiseError_refused hc ho (.inr rfl)]
  rfl

theorem whenOpen_open (ho : s.closed = false) (k : State → Outcome) : whenIdle s (fun s => whenOpen s k) = k s := by
  rw [whenIdle_eq hc, whenOpen, if_neg (by simp [ho])]

/-- R231, checks 3 and 4: the operands of READ_INTO are refused. -/
theorem execReadInto_refused {d : Nat} (ho : s.closed = false) (h : readIntoCheck s = some d) :
    execReadInto s = .next (raiseError .invalidArgument d s) := by
  rw [execReadInto, whenOpen_open hc ho, h]

theorem execReadInto_zero (ho : s.closed = false) (h : readIntoCheck s = none) (hl : lenOperand s = 0) :
    execReadInto s = .next (respond 0 s) := by
  rw [execReadInto, whenOpen_open hc ho, h]
  exact if_pos hl

end

theorem readIntoCheck_negative {s : State} (h : s.arg0.toInt < 0 ∨ s.arg1.toInt < 0) : readIntoCheck s = some 2 :=
  if_pos (by rw [Bool.or_eq_true, decide_eq_true_iff, decide_eq_true_iff]; exact h)

theorem readIntoCheck_beyond {s : State} (h0 : 0 ≤ s.arg0.toInt) (h1 : 0 ≤ s.arg1.toInt)
    (h : s.arg0.toInt + s.arg1.toInt > s.outCap) : readIntoCheck s = some 3 :=
  (if_neg (by
    rw [Bool.or_eq_true, decide_eq_true_iff, decide_eq_true_iff, not_or, Int.not_lt, Int.not_lt]
    exact ⟨h0, h1⟩)).trans (if_pos h)

/-- Settles O20: each check where the ones before it pass, and what its error changes (`raiseError_refused`, `raiseError_open`). -/
theorem commandChecks : Obligations.CommandChecks := by
  intro s hc
  refine ⟨fun w ho => ?_, fun w ho => ?_, fun i hi ho => ?_, fun ho h => ?_, fun ho h0 h1 h => ?_⟩
  · exact (execReserved_idle hc w).trans (congrArg _ (raiseError_refused hc ho (.inl rfl)))
  · exact (execReserved_idle hc w).trans (congrArg _ (raiseError_open hc ho ..))
  · simp only [List.mem_cons, List.not_mem_nil, or_false] at hi
    rcases hi with rfl | rfl | rfl | rfl <;> exact whenOpen_closed hc ho _
  · exact (execReadInto_refused hc ho (readIntoCheck_negative h)).trans (congrArg _ (raiseError_open hc ho ..))
  · exact (execReadInto_refused hc ho (readIntoCheck_beyond h0 h1 h)).trans (congrArg _ (raiseError_open hc ho ..))

/-- Settles O17: on an open block by the response, on a closed one by check 2. -/
theorem getReported : Obligations.GetReported := fun s hc =>
  ⟨fun ho => (whenOpen_open hc ho _).trans (congrArg _ (respond_idle hc s.reported)), fun ho => whenOpen_closed hc ho _⟩

/-- Settles O18: on an open block by the response, on a closed one by check 2. -/
theorem adjustReported : Obligations.AdjustReported := fun s hc =>
  ⟨fun ho => (whenOpen_open hc ho _).trans (congrArg _ (respond_idle
      (s := { s with reported := s.reported + BitVec.ofNat 64 (adjustOperand s) }) hc 0)),
    fun ho => whenOpen_closed hc ho _⟩

/-- Settles O19: `closeInstance` keeps the port, the parameters and `OUT`, and a closed block is left as it is. -/
theorem closeCommand : Obligations.CloseCommand := by
  refine fun s hc => ⟨fun ho => ?_, fun ho => ⟨respond 0 (closeInstance s), ?_, rfl, rfl, rfl, rfl, rfl, rfl, rfl, rfl, rfl,
    rfl, rfl, rfl, rfl⟩⟩
  · change execClose s = _
    rw [execClose, whenIdle_eq hc, if_pos ho, respond_idle hc]
  · change execClose s = _
    rw [execClose, whenIdle_eq hc, if_neg (by simp [ho])]

/-- At `EOF` the walk answers END_OF_STREAM (R240); of a READ_INTO, where no byte has been stored. -/
theorem runCommand_eof {s : State} {job : Job} (hc : s.ctl = .idle) (hst : s.state = .eof)
    (hj : job = .readByte ∨ ∃ off len, job = .readInto off len 0) :
    runCommand { s with ctl := .busy job .walk } = .next { s with status := 0, result := -1 } := by
  have hanswer : (yield job .endOfStream { s with ctl := .busy job .walk }).settle =
      .next { s with status := 0, result := -1 } := by
    rcases hj with rfl | ⟨off, len, rfl⟩ <;> exact congrArg Host.Outcome.next (respond_idle hc (-1))
  have hstep := commandStep_walk (s := { s with ctl := .busy job .walk }) rfl (nextOfWalk_eof job hst)
  rw [hanswer] at hstep
  exact runCommand_once rfl hstep hc

/-- Settles O22: the first pass of the step loop answers at `EOF`; length 0 is answered before it. -/
theorem readsAtEndOfStream : Obligations.ReadsAtEndOfStream := by
  refine fun s hc ho => ⟨fun hst => ?_, fun hst hr hl => ?_, fun hr hl => ?_⟩
  · exact (execReadByte_open hc ho).trans (runCommand_eof hc hst (.inl rfl))
  · exact (execReadInto_open hc ho hr hl).trans (runCommand_eof hc hst (.inr ⟨_, _, rfl⟩))
  · have hzero : lenOperand s = 0 := by
      rw [lenOperand, hl]
      rfl
    exact (execReadInto_zero hc ho hr hzero).trans (congrArg _ (respond_idle hc 0))

end Sys2Proof.Machine

/-! ## Block starts and markers

R139, R234 to R237: what a command does at a block start, and what a marker does at one and in a scan. -/

namespace Sys2Proof.Machine

/-- R139 where `RAW` counts `n` bytes: the byte in which the 48 bits before the next one begin. -/
theorem markerByte_of_count {r : BitReader} {n : Nat} (hr : r.raw = BitVec.ofNat 64 n) (h : 48 + r.live ≤ 8 * n) :
    markerByte r = BitVec.ofNat 64 ((8 * n - r.live - 48) / 8) := by
  obtain ⟨m, hm⟩ : ∃ m, n = m + ceilDiv (48 + r.live) 8 := ⟨n - ceilDiv (48 + r.live) 8, by unfold ceilDiv; omega⟩
  have hbyte : (8 * n - r.live - 48) / 8 = m := by unfold ceilDiv at hm; omega
  rw [markerByte, hr, hbyte]
  conv_lhs => rw [hm, BitVec.ofNat_add, BitVec.add_sub_cancel]

theorem markerByte_of_bitPos {r : BitReader} (h : 48 ≤ bitPos r) : markerByte r = BitVec.ofNat 64 ((bitPos r - 48) / 8) := by
  unfold bitPos at h ⊢
  exact markerByte_of_count (by rw [BitVec.ofNat_toNat, BitVec.setWidth_eq]) (by omega)

/-- R234, R245: the end of a scan at a marker. -/
theorem finishScan_true (job : Job) (s : State) :
    finishScan job true s = { s with state := .startBlock, status := 0, result := if job = .init then 0 else -2, ctl := .idle } := by
  cases job <;> rfl

theorem execBlockMark_marker {s : State} {job : Job} (hc : s.ctl = .busy job .marker) :
    execBlockMark s = .next { s with ctl := .busy job .blockHeader } := by
  rw [execBlockMark, hc]

theorem execBlockMark_scan {s : State} {job : Job} (hc : s.ctl = .busy job .scan) :
    execBlockMark s = .next (finishScan job true { s with reported := markerByte s.rd }) := by
  rw [execBlockMark, hc]

theorem execEosMark_at {s : State} {job : Job} (hc : s.ctl = .busy job .marker) (c : Word) :
    execEosMark c s = .next (if c = s.combinedCrc then { s with state := .eof, ctl := .busy job .walk }
      else raiseError .crcMismatch 2 { s with state := .eof }) := by
  rw [execEosMark, hc]
  by_cases h : c = s.combinedCrc
  · rw [if_pos h]; exact congrArg Flow.settle (if_neg (not_not.mpr h))
  · rw [if_neg h]; exact congrArg Flow.settle (if_pos h)

/-- Settles O33: the meanings of the two markers where the decoder is at one, and the byte a marker begins in
(`markerByte_of_bitPos`). -/
theorem markerTokens : Obligations.MarkerTokens := by
  refine fun s job => ⟨execBlockMark_marker, fun hc h => ?_, fun c hc => execEosMark_at hc c⟩
  have hpos : 48 ≤ bitPos s.rd := by unfold bitPos; omega
  rw [← markerByte_of_bitPos hpos]
  exact (execBlockMark_scan hc).trans (congrArg _ (finishScan_true job _))

/-- Settles O34: the pass of the step loop at a block start, by the mode. -/
theorem blockStart : Obligations.BlockStart := by
  intro s job hc hst
  have hstep : step s =
      .next { s with ctl := .busy job (if s.mode = .continuous then .marker else .blockHeader) } :=
    step_of_ran hc (commandStep_walk hc (nextOfWalk_startBlock job hst))
  refine ⟨fun hm => ?_, fun hm => ?_⟩
  · rw [hstep, if_pos hm]
  · rw [hstep, if_neg (by simp [hm])]

end Sys2Proof.Machine

/-! ## The end of a block acknowledged

R138 to R140, R245: a read at NO_PROCESS answers END_OF_BLOCK, after a scan. -/

namespace Sys2Proof.Machine

/-- A read that has stored no byte: only such a one acknowledges the end of a block (R245). -/
def Fresh (job : Job) : Prop := job = .readByte ∨ ∃ off len, job = .readInto off len 0

theorem Fresh.ne_init {job : Job} (h : Fresh job) : job ≠ .init := by
  rcases h with rfl | ⟨off, len, rfl⟩ <;> simp

/-- At the end of a block the step loop leads a fresh read to the scan (R245). -/
theorem commandStep_noProcess {s : State} {job : Job} (hb : s.ctl = .busy job .walk) (hst : s.state = .noProcess) (hj : Fresh job) :
    commandStep s = .ran (.next { s with ctl := .busy job .scan }) := by
  rw [commandStep_walk hb (nextOfWalk_noProcess job hst)]
  rcases hj with rfl | ⟨off, len, rfl⟩ <;> rfl

section
variable {s : State} {job : Job} (hi : Inv s) (hc : s.ctl = .idle) (ho : s.closed = false) (hst : s.state = .noProcess)
  (hj : Fresh job) (hjob : JobOk s job) {r : BitReader}
include hi hc ho hst hj hjob

theorem runCommand_noProcess :
    runCommand { s with ctl := .busy job .walk } = runCommand { s with ctl := .busy job .scan } :=
  runCommand_step (inv_beginRead hi ho hc job hjob hj.ne_init) rfl
    (commandStep_noProcess (s := { s with ctl := .busy job .walk }) rfl hst hj)

theorem runCommand_noProcess_found (h : scanFor s.rd = .found r) : runCommand { s with ctl := .busy job .walk } = .next { s with
    status := 0, result := -2, state := .startBlock, rd := r, reported := markerByte r } := by
  have hstep := commandStep_scan_found (s := { s with ctl := .busy job .scan }) rfl h
  rw [runCommand_noProcess hi hc ho hst hj hjob, runCommand_once rfl hstep (by rw [finishScan_true]), finishScan_true,
    if_neg hj.ne_init, ← hc]

theorem runCommand_noProcess_eof (h : scanFor s.rd = .eof r) : runCommand { s with ctl := .busy job .walk } = .next { s with
    status := 0, result := -2, state := .eof, rd := r, reported := r.raw } := by
  have hstep := commandStep_scan_eof (s := { s with ctl := .busy job .scan }) rfl h
  rw [runCommand_noProcess hi hc ho hst hj hjob, runCommand_once rfl hstep (by rw [finishScan_false]), finishScan_false,
    if_neg hj.ne_init, ← hc]

end

/-- A read that passes its checks is the run of a fresh job. -/
theorem exec_read_fresh {s : State} {i : Instr} (hc : s.ctl = .idle) (ho : s.closed = false)
    (h : i = .readByte ∨ (i = .readInto ∧ readIntoCheck s = none ∧ 0 < s.arg1.toInt)) :
    ∃ job, Fresh job ∧ JobOk s job ∧ exec i s = runCommand { s with ctl := .busy job .walk } := by
  rcases h with rfl | ⟨rfl, hr, hl⟩
  · exact ⟨.readByte, .inl rfl, trivial, execReadByte_open hc ho⟩
  · exact ⟨_, .inr ⟨_, _, rfl⟩, jobOk_readInto hr (ne_of_gt hl), execReadInto_open hc ho hr hl⟩

/-- Nothing is held at the end of a block, so the scan begins at the next bit. -/
theorem scanReader_noProcess {s : State} (hi : Inv s) (hc : s.ctl = .idle) (ho : s.closed = false) (hst : s.state = .noProcess) :
    ScanReader s.rd ∧ bitsSince s.rd = bitsAhead s.rd ∧ s.rd.part = [] := by
  obtain ⟨hp, hl⟩ := hi.between ho (.inl hc)
  have hlive := hl (by rw [hst]; decide)
  exact ⟨⟨by omega, .inl hp⟩, by rw [bitsSince, hp]; rfl, hp⟩

/-- Settles O24: the scan finds the first marker (`scanFor_found`) or the end of the source (`scanFor_none`). -/
theorem endOfBlockAcknowledged : Obligations.EndOfBlockAcknowledged := by
  intro s i hi hc ho hst h
  obtain ⟨job, hj, hjob, hexec⟩ := exec_read_fresh hc ho h
  obtain ⟨hscan, hbits, hp⟩ := scanReader_noProcess hi hc ho hst
  rw [hexec, ← hbits]
  refine ⟨fun q hq => ?_, fun hm he => ?_⟩
  · obtain ⟨r, k, hf, hcons, hk, hahead, hlive, -⟩ := scanFor_found s.rd hscan q hq
    refine ⟨r, runCommand_noProcess_found hi hc ho hst hj hjob hf, fun hraw => ?_, hlive, hahead⟩
    obtain ⟨-, hpos, -⟩ := hcons.pos hraw
    rw [hp, List.length_nil, Nat.add_zero] at hk
    refine ⟨?_, by omega⟩
    rw [markerByte_of_bitPos (by omega), show bitPos r - 48 = bitPos s.rd + q by omega]
  · rcases scanFor_none s.rd hscan hm with ⟨r, k, hf, -, hcons, hsrc, -⟩ | ⟨r, k, -, he', -⟩
    · exact ⟨r, runCommand_noProcess_eof hi hc ho hst hj hjob hf, hcons.pulled_all hsrc⟩
    · exact absurd (he.symm.trans he') (by decide)

end Sys2Proof.Machine

/-! ## INIT.BYBLOCK

R138 to R140, R232, R234, R302: the block is opened at the first marker of the attached source. -/

namespace Sys2Proof.Machine

theorem initReader_attached {s : State} {src : Source} (h : s.attached = some src) :
    initReader s = { s.rd with live := 0, raw := 0, src := src.bytes, srcEnds := src.ends, part := [] } := by
  rw [initReader, h]

/-- What has been read of a source from its start on: `n` whole bytes, of which `k` bits are consumed (R27, R73). -/
theorem count_of_consumed {s : State} {r : BitReader} {k : Nat} (h : Consumed (initReader s) r k) : ∃ n,
    r.raw = BitVec.ofNat 64 n ∧ r.live + k = 8 * n ∧ r.src = (initReader s).src.drop n ∧ n + r.src.length = (initReader s).src.length := by
  obtain ⟨-, hlive, hraw, -⟩ := initReader_start s
  obtain ⟨bytes, hsrc, hr, hl⟩ := h.src
  refine ⟨bytes.length, by rw [hr, hraw]; exact BitVec.zero_add _, by omega, by rw [hsrc, List.drop_left], by rw [hsrc, List.length_append]⟩

/-- Settles O15: INIT scans from the first bit of the source, and its first marker ends in byte `(q + 55) / 8`. -/
theorem initByblock : Obligations.InitByblock := by
  intro s src hi hc hsrc
  have hrun : exec .initByblock s = runCommand (beginInit .byblock .scan s) := execInitByblock_idle hc
  have hrd := initReader_attached hsrc
  obtain ⟨hahead, hlive, -, hpart⟩ := initReader_start s
  have hscan : ScanReader (initReader s) := ⟨by omega, .inl hpart⟩
  have hbits : bitsSince (initReader s) = bitsOfBytes src.bytes := by rw [bitsSince, hpart, hahead, hrd]; rfl
  have hbytes : (initReader s).src = src.bytes := by rw [hrd]
  rw [hrun, ← hbits]
  refine ⟨fun q hq => ?_, fun hm he => ?_⟩
  · obtain ⟨r, k, hf, hcons, hk, hrest, hl7, -⟩ := scanFor_found _ hscan q hq
    obtain ⟨n, hraw, hcount, hdrop, -⟩ := count_of_consumed hcons
    rw [hpart, List.length_nil, Nat.add_zero] at hk
    have hn : n = (q + 55) / 8 := by omega
    have hmark : markerByte r = BitVec.ofNat 64 (q / 8) := by
      rw [markerByte_of_count hraw (by omega), show 8 * n - r.live - 48 = q by omega]
    rw [← hmark, ← hn, ← hbytes]
    refine ⟨_, runCommand_once rfl (commandStep_scan_found (s := beginInit .byblock .scan s) rfl hf) rfl, rfl, rfl, rfl, rfl, rfl, rfl,
      rfl, rfl, rfl, rfl, rfl, hraw, hdrop, ?_, hl7, hrest, rfl, rfl, rfl⟩
    exact hcons.ends.trans (by rw [hrd])
  · rcases scanFor_none _ hscan hm with ⟨r, k, hf, -, hcons, hnil, -⟩ | ⟨r, k, -, he', -⟩
    · obtain ⟨n, hraw, -, -, hlen⟩ := count_of_consumed hcons
      obtain rfl : n = src.bytes.length := by rw [hnil, hbytes] at hlen; simpa using hlen
      exact ⟨_, runCommand_once rfl (commandStep_scan_eof (s := beginInit .byblock .scan s) rfl hf) rfl, rfl, rfl, rfl, rfl, rfl, rfl,
        rfl, rfl, rfl, rfl, hraw, hraw, hnil, rfl, rfl, rfl⟩
    · rw [hrd] at he'
      exact absurd (he.symm.trans he') (by decide)

end Sys2Proof.Machine

/-! ## INIT.CONTINUOUS

R232, R233, R302: the stream header is read from the first byte of the attached source. -/

namespace Sys2Proof.Machine

/-- R133: the next byte, where none of its bits has been pulled. -/
theorem readBits_byte {r : BitReader} {b : Byte} {rest : List Byte} (hl : r.live = 0) (hs : r.src = b :: rest) :
    ∃ r', readBits 8 r = .got b.toNat r' ∧ r'.src = rest ∧ r'.raw = r.raw + 1 ∧ r'.live = 0 ∧ r'.srcEnds = r.srcEnds := by
  obtain ⟨r', hr, ⟨-, hsrc, hraw, hends⟩, hlive, -, -⟩ := readBits_of_le (n := 8) (r := r) (by omega)
    (by rw [bitsLeft, hs, List.length_cons]; omega)
  have hone : (8 - r.live + 7) / 8 = 1 := by rw [hl]
  rw [hone] at hsrc hraw hlive
  have hval : natOfBits ((bitsAhead r).take 8) = b.toNat := by
    have : bitsAhead r = bitsMsb 8 b.toNat ++ bitsOfBytes rest := by rw [bitsAhead, hl, hs, bitsOfBytes_cons]; rfl
    rw [this, List.take_left' (bitsMsb_length ..), natOfBits_bitsMsb_of_lt b.isLt]
  exact ⟨r', by rw [hr, hval], by rw [hsrc, hs]; rfl, hraw, by omega, hends⟩

/-- R130: `EOF` where nothing is left. -/
theorem readBits_eof {r : BitReader} (hl : r.live = 0) (hs : r.src = []) (he : r.srcEnds = true) : readBits 8 r = .eof r := by
  simp [readBits, fill, pull, hl, hs, he]

section
variable {s : State} (hl : s.rd.live = 0)
include hl

theorem runParse_header_ok {d : Byte} {rest : List Byte} (hs : s.rd.src = 0x68 :: d :: rest) :
    ∃ r, runParse parseHeader s = .instr (.streamHeader d) { s with rd := r } ∧ r.src = rest ∧ r.raw = s.rd.raw + 1 + 1 ∧
      r.live = 0 ∧ r.srcEnds = s.rd.srcEnds := by
  obtain ⟨r, hr, hsrc, hraw, hlive, hends⟩ := readBits_byte hl hs
  obtain ⟨r', hr', hsrc', hraw', hlive', hends'⟩ := readBits_byte (r := r.hold 8 (0x68 : Byte).toNat) hlive hsrc
  refine ⟨(r'.hold 8 d.toNat).release, ?_, hsrc', hraw'.trans (congrArg (· + 1) hraw), hlive', hends'.trans hends⟩
  have hd : BitVec.ofNat 8 d.toNat = d := by simp
  rw [parseHeader, runParse, hr]
  change runParse (.read 8 .badStreamHeader 2 _) _ = _
  rw [runParse, hr']
  change Fetched.instr (.streamHeader (BitVec.ofNat 8 d.toNat)) _ = _
  rw [hd]

theorem runParse_header_first {b : Byte} {rest : List Byte} (hs : s.rd.src = b :: rest) (hb : b ≠ 0x68) :
    ∃ r, runParse parseHeader s = .raised .badStreamHeader 1 { s with rd := r } ∧ r.src = rest ∧ r.raw = s.rd.raw + 1 := by
  obtain ⟨r, hr, hsrc, hraw, -, -⟩ := readBits_byte hl hs
  refine ⟨(r.hold 8 b.toNat).release, ?_, hsrc, hraw⟩
  have hne : b.toNat ≠ 0x68 := fun h => hb (BitVec.eq_of_toNat_eq h)
  rw [parseHeader, runParse, hr]
  simp only [if_pos hne, runParse]

theorem runParse_header_none (hs : s.rd.src = []) (he : s.rd.srcEnds = true) :
    runParse parseHeader s = .raised .badStreamHeader 1 { s with rd := s.rd.release } := by
  rw [parseHeader, runParse, readBits_eof hl hs he]

theorem runParse_header_short (hs : s.rd.src = [0x68]) (he : s.rd.srcEnds = true) :
    ∃ r, runParse parseHeader s = .raised .badStreamHeader 2 { s with rd := r } ∧ r.raw = s.rd.raw + 1 := by
  obtain ⟨r, hr, hsrc, hraw, hlive, hends⟩ := readBits_byte hl hs
  refine ⟨(r.hold 8 (0x68 : Byte).toNat).release, ?_, hraw⟩
  rw [parseHeader, runParse, hr]
  change runParse (.read 8 .badStreamHeader 2 _) _ = _
  rw [runParse, readBits_eof (r := r.hold 8 (0x68 : Byte).toNat) hlive hsrc (hends.trans he)]

end

section
variable {s t : State} {ph : Phase} (hp : s.rd.part = [])
include hp

/-- With nothing held a token is read from its first bit. -/
theorem fetchToken_start_instr {i : Instr} (h : runParse (phaseParse s ph) s = .instr i t) :
    fetchToken ph s = .instr i (countSymbol ph t) := by
  rw [fetchToken, hp, runParse_resume_nil, h]

theorem fetchToken_start_raised {e : ErrKind} {d : Nat} (h : runParse (phaseParse s ph) s = .raised e d t) :
    fetchToken ph s = .raised e d t := by
  rw [fetchToken, hp, runParse_resume_nil, h]

end

section
variable {s t : State} {job : Job} {ph : Phase} (hb : s.ctl = .busy job ph) (hw : ph ≠ .walk) (hsc : ph ≠ .scan)
include hb hw hsc

theorem commandStep_token_instr {i : Instr} (h : fetchToken ph s = .instr i t) : commandStep s = .ran (runToken i t) := by
  rw [commandStep, nextStep_token hb hw hsc, h]

theorem commandStep_token_raised {e : ErrKind} {d : Nat} (h : fetchToken ph s = .raised e d t) :
    commandStep s = .ran (.next (raiseError e d t)) := by
  rw [commandStep, nextStep_token hb hw hsc, h]
  rfl

end

/-- Where INIT.CONTINUOUS begins to read the stream header (R232, R233). -/
def headerStart (s : State) : State := beginInit .continuous .header s

section
variable {s : State} (hc : s.ctl = .idle)
include hc

theorem initContinuous_answers {t : State} (h : commandStep (headerStart s) = .ran (.next t)) (ht : t.ctl = .idle) :
    exec .initContinuous s = .next t :=
  (execInitContinuous_idle hc).trans (runCommand_once rfl h ht)

/-- R233, R275: a block whose header is wrong is open and at `EOF`, with BadStreamHeader as its error; its bit reader is the one
the header has been read with. -/
theorem initContinuous_fails {r : BitReader} {d : Nat} (P : BitReader → Prop) (hr : P r)
    (h : commandStep (headerStart s) = .ran (.next (raiseError .badStreamHeader d { headerStart s with rd := r }))) :
    ∃ t, exec .initContinuous s = .next t ∧ t.ctl = .idle ∧ t.closed = false ∧ t.state = .eof ∧
      t.status = statusWord .badStreamHeader d ∧ t.result = 0 ∧ t.err = 2 ∧ t.errDetail = BitVec.ofNat 8 d ∧ t.reported = 0 ∧
      P t.rd :=
  ⟨_, initContinuous_answers hc h (raiseError_ctl ..), raiseError_ctl .., rfl, rfl, raiseError_status .., rfl, rfl, rfl, rfl,
    by rwa [raiseError_rd]⟩

end

/-- Settles O16: by the first byte, and by the digit where there is one. -/
theorem initContinuous : Obligations.InitContinuous := by
  intro s src hi hc hsrc
  have hrd : (headerStart s).rd = _ := initReader_attached hsrc
  have hl : (headerStart s).rd.live = 0 := by rw [hrd]
  have hp : (headerStart s).rd.part = [] := by rw [hrd]
  have hraw : (headerStart s).rd.raw = 0 := by rw [hrd]
  have hends : (headerStart s).rd.srcEnds = src.ends := by rw [hrd]
  have hbytes : (headerStart s).rd.src = src.bytes := by rw [hrd]
  have hheader : ∀ {d t}, runParse parseHeader (headerStart s) = .instr (.streamHeader d) t →
      commandStep (headerStart s) = .ran (execStreamHeader d t) := fun h =>
    commandStep_token_instr rfl (by decide) (by decide) (fetchToken_start_instr (ph := .header) hp h)
  have hraised : ∀ {d t}, runParse parseHeader (headerStart s) = .raised .badStreamHeader d t →
      commandStep (headerStart s) = .ran (.next (raiseError .badStreamHeader d t)) := fun h =>
    commandStep_token_raised rfl (by decide) (by decide) (fetchToken_start_raised (ph := .header) hp h)
  rw [← hbytes, ← hends]
  refine ⟨fun d rest hs h1 h9 => ?_, fun d rest hs hd => ?_, fun b rest hs hb => ?_, fun hs he => ?_, fun hs he => ?_⟩
  · obtain ⟨r, hr, hrest, hcount, hlive, he⟩ := runParse_header_ok hl hs
    have hstep := hheader hr
    rw [execStreamHeader_digit rfl h1 h9] at hstep
    refine ⟨_, initContinuous_answers hc hstep rfl, rfl, rfl, rfl, rfl, rfl, rfl, rfl, rfl, rfl, rfl, rfl, ?_, hlive, hrest, he,
      rfl, rfl, rfl⟩
    exact hcount.trans (by rw [hraw]; rfl)
  · obtain ⟨r, hr, hrest, hcount, -⟩ := runParse_header_ok hl hs
    have hstep := hheader hr
    rw [execStreamHeader_bad rfl hd] at hstep
    exact initContinuous_fails hc (fun r => r.raw = 2 ∧ r.src = rest) ⟨hcount.trans (by rw [hraw]; rfl), hrest⟩ hstep
  · obtain ⟨r, hr, hrest, hcount⟩ := runParse_header_first hl hs hb
    exact initContinuous_fails hc (fun r => r.raw = 1 ∧ r.src = rest) ⟨hcount.trans (by rw [hraw]; rfl), hrest⟩ (hraised hr)
  · exact initContinuous_fails (r := (headerStart s).rd.release) hc (fun r => r.raw = 0) hraw (hraised (runParse_header_none hl hs he))
  · obtain ⟨r, hr, hcount⟩ := runParse_header_short hl hs he
    exact initContinuous_fails hc (fun r => r.raw = 1) (hcount.trans (by rw [hraw]; rfl)) (hraised hr)

end Sys2Proof.Machine

/-! ## A read in another guise

R242, R243, R246: a READ_INTO and a READ_BYTE take the same steps, whatever the response registers and `OUT` hold, but for what they
do with a byte and where the stream or the block ends. -/

namespace Sys2Proof.Machine

/-- What two reads at one place of the stream may differ in: the job, `OUT` and the response. -/
structure Guise where
  job : Job
  out : Memory
  status : Word
  result : DWord

/-- The control point with another job. -/
def Ctl.withJob (job : Job) : Ctl → Ctl
  | .idle => .idle
  | .busy _ ph => .busy job ph

/-- The state in the guise `g`. -/
def State.guised (g : Guise) (s : State) : State :=
  { s with out := g.out, status := g.status, result := g.result, ctl := s.ctl.withJob g.job }

/-- The guise of a state in a command `job`. -/
def State.ownGuise (job : Job) (s : State) : Guise := ⟨job, s.out, s.status, s.result⟩

/-- A piece of a command in the guise `g`. -/
def Flow.guised (g : Guise) : Flow → Flow
  | .go s => .go (s.guised g)
  | .raise e d s => .raise e d (s.guised g)
  | .fault f => .fault f

section
variable {s : State} {job : Job} {ph : Phase} (h : s.ctl = .busy job ph)
include h

theorem guised_ctl (g : Guise) : (s.guised g).ctl = .busy g.job ph := by
  rw [State.guised, h]
  rfl

theorem guised_own : s.guised (s.ownGuise job) = s := by
  change { s with ctl := s.ctl.withJob job } = s
  rw [h, Ctl.withJob, ← h]

end

/-- What a piece of a read that has not answered keeps: the job, which is not led to a scan, the error register and `CLOSED`. -/
structure OnJob (job : Job) (s u : State) : Prop where
  ctl : ∃ ph, ph ≠ .scan ∧ u.ctl = .busy job ph
  err : u.err = s.err
  closed : u.closed = s.closed
  outCap : u.outCap = s.outCap

theorem OnJob.trans {job : Job} {s u v : State} (h : OnJob job s u) (k : OnJob job u v) : OnJob job s v :=
  ⟨k.ctl, k.err.trans h.err, k.closed.trans h.closed, k.outCap.trans h.outCap⟩

/-- The errors that are none of a read's (R272): those of the checks and of INIT. -/
def ReadErr (e : ErrKind) : Prop := e ≠ .invalidArgument ∧ e ≠ .badStreamHeader

/-- A piece of a read goes on with the read, or raises one of its errors. -/
def Flow.OnJob (job : Job) (s : State) : Flow → Prop
  | .go u => Machine.OnJob job s u
  | .raise e _ u => ReadErr e ∧ Machine.OnJob job s u
  | .fault _ => True

/-- A piece of a read, run in every guise, comes to the same. -/
def Alike (job : Job) (s : State) (F : Guise → Flow) : Prop := ∃ f : Flow, f.OnJob job s ∧ ∀ g, F g = f.guised g

section
variable {job : Job} {s u : State}

theorem alike_go (s : State) {u : State} (h : OnJob job s u) : Alike job s fun g => .go (u.guised g) := ⟨.go u, h, fun _ => rfl⟩

theorem alike_raise (s : State) {u : State} {e : ErrKind} (he : ReadErr e) (h : OnJob job s u) (d : Nat) :
    Alike job s fun g => .raise e d (u.guised g) :=
  ⟨.raise e d u, ⟨he, h⟩, fun _ => rfl⟩

theorem alike_fault (f : Fault) : Alike job s fun _ => .fault f := ⟨.fault f, trivial, fun _ => rfl⟩

theorem alike_lookup {α : Type} {F : α → Guise → Flow} (h : ∀ v, Alike job s (F v)) (l : List α) (i : Nat) :
    Alike job s fun g => lookup l i fun v => F v g := by
  unfold lookup
  cases l[i]? with
  | none => exact alike_fault _
  | some v => exact h v

theorem alike_ite {p : Prop} {inst : Guise → Decidable p} {F G : Guise → Flow} (hF : Alike job s F) (hG : Alike job s G) :
    Alike job s fun g => @ite _ p (inst g) (F g) (G g) := by
  by_cases hp : p
  · simpa only [if_pos hp] using hF
  · simpa only [if_neg hp] using hG

/-- What is alike from `u` on is so from before `u`. -/
theorem Alike.of_onJob {F : Guise → Flow} (h : OnJob job s u) (hF : Alike job u F) : Alike job s F := by
  obtain ⟨f, hf, heq⟩ := hF
  refine ⟨f, ?_, heq⟩
  cases f with
  | go v => exact h.trans hf
  | raise e d v => exact hf.imp_right h.trans
  | fault => trivial

theorem alike_andThen {F : Guise → Flow} {k : Guise → State → Flow} (hF : Alike job s F)
    (hk : ∀ u, OnJob job s u → Alike job s fun g => k g (u.guised g)) : Alike job s fun g => (F g).andThen (k g) := by
  obtain ⟨f, hf, heq⟩ := hF
  simp only [heq]
  cases f with
  | go u => exact hk u hf
  | raise e d u => exact ⟨.raise e d u, hf, fun _ => rfl⟩
  | fault f => exact alike_fault f

end

/-! ### The pieces of a token -/

@[simp] theorem guised_tab (g : Guise) (s : State) : (s.guised g).tab = s.tab := rfl
@[simp] theorem guised_blk (g : Guise) (s : State) : (s.guised g).blk = s.blk := rfl
@[simp] theorem guised_combinedCrc (g : Guise) (s : State) : (s.guised g).combinedCrc = s.combinedCrc := rfl
@[simp] theorem cap_guised (g : Guise) (s : State) : cap (s.guised g) = cap s := rfl

section
variable {job : Job} {s : State} (h : ∃ ph, ph ≠ .scan ∧ s.ctl = .busy job ph)
include h

theorem appendBytes_alike (n : Nat) (c : Byte) : Alike job s fun g => appendBytes n c (s.guised g) := by
  refine alike_lookup (fun m => ?_) s.tab.unzftab c.toNat
  exact alike_go s (u := { s with
    tab := { s.tab with ll8 := s.tab.ll8 ++ List.replicate n c, unzftab := s.tab.unzftab.set c.toNat (m + n) }
    blk := { s.blk with last := s.blk.last + n } }) ⟨h, rfl, rfl, rfl⟩

theorem flush_alike : Alike job s fun g => flush (s.guised g) := by
  simp only [flush, guised_tab, guised_blk, cap_guised]
  refine alike_ite ?_ (alike_lookup (fun y => alike_lookup (fun c => appendBytes_alike h _ c) _ _) _ _)
  exact alike_raise s ⟨by decide, by decide⟩ ⟨h, rfl, rfl, rfl⟩ 2

theorem endRun_alike (inRun : Bool) : Alike job s fun g => endRun inRun (s.guised g) := by
  cases inRun with
  | false => exact alike_go s ⟨h, rfl, rfl, rfl⟩
  | true => exact flush_alike h

theorem mtfSymbol_alike (m : Nat) : Alike job s fun g => mtfSymbol m (s.guised g) := by
  simp only [mtfSymbol, guised_tab, guised_blk, cap_guised]
  cases moveToFront s.tab.yy (m - 1) with
  | none => exact alike_fault _
  | some p =>
    obtain ⟨tmp, yy⟩ := p
    have hu : OnJob job s { s with tab := { s.tab with yy := yy } } := ⟨h, rfl, rfl, rfl⟩
    refine alike_ite ?_ (alike_lookup (fun c => Alike.of_onJob hu ?_) _ _)
    · exact alike_raise s ⟨by decide, by decide⟩ hu 1
    · exact appendBytes_alike (s := { s with tab := { s.tab with yy := yy } }) h 1 c

theorem ibwtSetup_alike : Alike job s fun g => ibwtSetup (s.guised g) := by
  simp only [ibwtSetup, guised_tab, guised_blk]
  cases fillTT s.tab.ll8 0 (prefixSums 0 s.tab.unzftab) (List.replicate s.tab.ll8.length 0) with
  | none => exact alike_fault _
  | some p =>
    obtain ⟨cf, tt⟩ := p
    refine alike_ite ?_ (alike_lookup (fun t => ?_) _ _)
    · exact alike_raise s (e := .streamCorrupted) (u := { s with tab := { s.tab with cftab := cf, tt := tt } })
        ⟨by decide, by decide⟩ ⟨h, rfl, rfl, rfl⟩ 1
    · exact alike_go s (u := { s with
        tab := { s.tab with cftab := cf, tt := tt }, cur := startCursor t
        state := if s.blk.randomized then .randA else .norandA }) ⟨h, rfl, rfl, rfl⟩

/-- A symbol that ends a run: the flush, its own work, and the next control point. -/
theorem endsRun_alike (inRun : Bool) (i : Instr) : Alike job s fun g =>
    (endRun inRun (s.guised g)).andThen fun s1 => (symbolFlow i s1).andThen fun s2 =>
      .go (s2.goOn (.busy g.job (phaseAfter i))) := by
  refine alike_andThen (endRun_alike h inRun) fun u hu => alike_andThen (Alike.of_onJob hu ?_) fun v hv => ?_
  · cases i with
    | mtf m => exact mtfSymbol_alike hu.ctl m
    | _ => exact ibwtSetup_alike hu.ctl
  · exact alike_go s (u := v.goOn (.busy job (phaseAfter i)))
      ⟨⟨_, by cases i <;> nofun, rfl⟩, hv.err, hv.closed, hv.outCap⟩

end

/-! ### The tokens of a read -/

/-- The operation `op`, run in every guise, comes to the same. -/
def OpAlike (job : Job) (s : State) (op : State → Outcome) : Prop :=
  ∃ f : Flow, f.OnJob job s ∧ ∀ g, op (s.guised g) = (f.guised g).settle

theorem Alike.op {job : Job} {s : State} {op : State → Outcome} {F : Guise → Flow} (h : Alike job s F)
    (he : ∀ g, op (s.guised g) = (F g).settle) : OpAlike job s op := by
  obtain ⟨f, hf, heq⟩ := h
  exact ⟨f, hf, fun g => by rw [he, heq]⟩

section
variable {job : Job} {s : State} {ph : Phase} (hc : s.ctl = .busy job ph) (hph : ph ≠ .scan)
include hc hph

theorem onJob_self : OnJob job s s := ⟨⟨ph, hph, hc⟩, rfl, rfl, rfl⟩

end

section
variable {job : Job} {s u : State} (h : OnJob job s u)
include h

theorem checkLength_alike (t k curr : Nat) : Alike job s fun g => checkLength g.job t k curr (u.guised g) :=
  alike_ite (alike_raise s ⟨by decide, by decide⟩ h 5)
    (alike_go s (u := u.goOn (.busy job (.codeLen t k curr))) ⟨⟨_, by nofun, rfl⟩, h.err, h.closed, h.outCap⟩)

theorem finishLengths_alike : Alike job s fun g => finishLengths g.job (u.guised g) := by
  simp only [finishLengths, guised_tab]
  refine alike_ite ?_ ?_
  · exact alike_go s (u := (symbolSetup { u with tab := { u.tab with tables := (buildTables u.tab.lens).1 } }).goOn
      (.busy job (.symbols false))) ⟨⟨_, by nofun, rfl⟩, h.err, h.closed, h.outCap⟩
  · exact alike_raise s (e := .tableMalformed) (u := { u with tab := { u.tab with tables := (buildTables u.tab.lens).1 } })
      ⟨by decide, by decide⟩ ⟨h.ctl, h.err, h.closed, h.outCap⟩ 6

end

section
variable {job : Job} {s : State}

theorem blockMark_alike (hc : s.ctl = .busy job .marker) : OpAlike job s (runToken .blockMark) :=
  (alike_go s (u := s.goOn (.busy job .blockHeader)) ⟨⟨_, by nofun, rfl⟩, rfl, rfl, rfl⟩).op fun g => by
    rw [runToken, execBlockMark, guised_ctl hc]
    rfl

theorem eosMark_alike (hc : s.ctl = .busy job .marker) (c : Word) : OpAlike job s (runToken (.eosMark c)) := by
  refine Alike.op ?_ fun g => by rw [runToken, execEosMark, guised_ctl hc]
  simp only [guised_combinedCrc]
  refine alike_ite ?_ ?_
  · exact alike_raise s (e := .crcMismatch) (u := { s with state := .eof, ctl := .busy job .marker }) ⟨by decide, by decide⟩
      ⟨⟨_, by nofun, rfl⟩, rfl, rfl, rfl⟩ 2
  · exact alike_go s (u := { s with state := .eof, ctl := .busy job .walk }) ⟨⟨_, by nofun, rfl⟩, rfl, rfl, rfl⟩

theorem blockHeader_alike (hc : s.ctl = .busy job .blockHeader) (c : Word) (r : Bool) (p : BitVec 24) :
    OpAlike job s (runToken (.blockHeader c r p)) :=
  (alike_go s (u := { s with
    blk := { s.blk with storedBlockCrc := c, randomized := r, origPtr := p }
    ctl := .busy job .symbolMap }) ⟨⟨_, by nofun, rfl⟩, rfl, rfl, rfl⟩).op fun g => by
      rw [runToken, execBlockHeader, guised_ctl hc]
      rfl

theorem symbolMap_alike (hc : s.ctl = .busy job .symbolMap) (u : BitVec 16) (ws : List (BitVec 16)) :
    OpAlike job s (runToken (.symbolMap u ws)) := by
  refine Alike.op ?_ fun g => by rw [runToken, execSymbolMap, guised_ctl hc]
  refine alike_ite ?_ ?_
  · exact alike_raise s (e := .tableMalformed) (u := { s with
      tab := { s.tab with inUse := inUseOf u ws, seqToUnseq := compact (inUseOf u ws) }
      blk := { s.blk with nInUse := (compact (inUseOf u ws)).length }
      ctl := .busy job .symbolMap }) ⟨by decide, by decide⟩ ⟨⟨_, by nofun, rfl⟩, rfl, rfl, rfl⟩ 1
  · exact alike_go s (u := { s with
      tab := { s.tab with inUse := inUseOf u ws, seqToUnseq := compact (inUseOf u ws) }
      blk := { s.blk with nInUse := (compact (inUseOf u ws)).length, alphaSize := (compact (inUseOf u ws)).length + 2 }
      ctl := .busy job .tableCounts }) ⟨⟨_, by nofun, rfl⟩, rfl, rfl, rfl⟩

theorem tableCounts_alike (hc : s.ctl = .busy job .tableCounts) (g : BitVec 3) (n : BitVec 15) :
    OpAlike job s (runToken (.tableCounts g n)) := by
  refine Alike.op ?_ fun g' => by rw [runToken, execTableCounts, guised_ctl hc]
  refine alike_ite ?_ (alike_ite ?_ ?_)
  · exact alike_raise s (e := .tableMalformed)
      (u := { s with blk := { s.blk with nGroups := g.toNat }, ctl := .busy job .tableCounts })
      ⟨by decide, by decide⟩ ⟨⟨_, by nofun, rfl⟩, rfl, rfl, rfl⟩ 2
  · exact alike_raise s (e := .tableMalformed) (u := { s with
      blk := { s.blk with nGroups := g.toNat, nSelectors := n.toNat }, ctl := .busy job .tableCounts })
      ⟨by decide, by decide⟩ ⟨⟨_, by nofun, rfl⟩, rfl, rfl, rfl⟩ 3
  · exact alike_go s (u := { s with
      blk := { s.blk with nGroups := g.toNat, nSelectors := n.toNat }
      tab := { s.tab with selectorMtf := [] }
      ctl := .busy job (.selector 0) }) ⟨⟨_, by nofun, rfl⟩, rfl, rfl, rfl⟩

theorem selectorMtfBad_alike {i : Nat} (hc : s.ctl = .busy job (.selector i)) : OpAlike job s (runToken .selectorMtfBad) :=
  (alike_raise s (e := .tableMalformed) ⟨by decide, by decide⟩ (onJob_self hc (by nofun)) 4).op fun g => by
    rw [runToken, execSelectorMtfBad, guised_ctl hc]
    rfl

theorem selectorValue_alike {i : Nat} (hc : s.ctl = .busy job (.selector i)) (v : Nat) : OpAlike job s (selectorValue v) := by
  refine Alike.op ?_ fun g => by rw [selectorValue, guised_ctl hc]
  simp only [guised_tab, guised_blk]
  refine alike_ite (alike_raise s (e := .tableMalformed) ⟨by decide, by decide⟩ (onJob_self hc (by nofun)) 4) (alike_ite ?_ ?_)
  · exact alike_go s (u := { s with
      tab := { s.tab with selectorMtf := putEntry s.tab.selectorMtf i v }
      ctl := .busy job (.selector (i + 1)) }) ⟨⟨_, by nofun, rfl⟩, rfl, rfl, rfl⟩
  · cases decodeSelectors (putEntry s.tab.selectorMtf i v) (List.range s.blk.nGroups) with
    | none => exact alike_fault _
    | some p =>
      exact alike_go s (u := { s with
        tab := { s.tab with selectorMtf := putEntry s.tab.selectorMtf i v, selector := p.1, pos := p.2, lens := [] }
        ctl := .busy job (.codeLenStart 0) }) ⟨⟨_, by nofun, rfl⟩, rfl, rfl, rfl⟩

theorem codeLenStart_alike {t : Nat} (hc : s.ctl = .busy job (.codeLenStart t)) (l : BitVec 5) :
    OpAlike job s (runToken (.codeLenStart l)) := by
  have hu : OnJob job s { s with tab := { s.tab with lens := putEntry s.tab.lens t [] }, ctl := .busy job (.codeLenStart t) } :=
    ⟨⟨_, by nofun, rfl⟩, rfl, rfl, rfl⟩
  refine (checkLength_alike hu t 0 l.toNat).op fun g => ?_
  rw [runToken, execCodeLenStart, guised_ctl hc]
  rfl

theorem codeLenEnd_alike {t k curr : Nat} (hc : s.ctl = .busy job (.codeLen t k curr)) : OpAlike job s (runToken .codeLenEnd) := by
  refine Alike.op ?_ fun g => by rw [runToken, execCodeLenEnd, guised_ctl hc]
  simp only [guised_tab, guised_blk]
  refine alike_lookup (fun row => ?_) _ _
  have hu : OnJob job s { s with
      tab := { s.tab with lens := putEntry s.tab.lens t (putEntry row k curr) }, ctl := .busy job (.codeLen t k curr) } :=
    ⟨⟨_, by nofun, rfl⟩, rfl, rfl, rfl⟩
  refine alike_ite (checkLength_alike hu t (k + 1) curr) (alike_ite ?_ (finishLengths_alike hu))
  exact alike_go s (u := { s with
    tab := { s.tab with lens := putEntry s.tab.lens t (putEntry row k curr) }, ctl := .busy job (.codeLenStart (t + 1)) })
    ⟨⟨_, by nofun, rfl⟩, rfl, rfl, rfl⟩

theorem codeLenInc_alike {t k curr : Nat} (hc : s.ctl = .busy job (.codeLen t k curr)) : OpAlike job s (runToken .codeLenInc) :=
  (checkLength_alike (onJob_self hc (by nofun)) t k (curr + 1)).op fun g => by rw [runToken, execCodeLenInc, guised_ctl hc]

theorem codeLenDec_alike {t k curr : Nat} (hc : s.ctl = .busy job (.codeLen t k curr)) : OpAlike job s (runToken .codeLenDec) :=
  (checkLength_alike (onJob_self hc (by nofun)) t k (curr - 1)).op fun g => by rw [runToken, execCodeLenDec, guised_ctl hc]

theorem runDigit_alike {inRun : Bool} (hc : s.ctl = .busy job (.symbols inRun)) (mult : Nat) :
    OpAlike job s (runDigit mult) :=
  ⟨.go { s with
      blk := { s.blk with
        runAcc := sat ((if inRun then s.blk.runAcc else 0) + mult * (if inRun then s.blk.runW else 1))
        runW := sat (2 * (if inRun then s.blk.runW else 1)) }
      ctl := .busy job (.symbols true) }, ⟨⟨_, by nofun, rfl⟩, rfl, rfl, rfl⟩,
    fun g => by rw [runDigit, guised_ctl hc]; rfl⟩

theorem mtf_alike {inRun : Bool} (hc : s.ctl = .busy job (.symbols inRun)) (m : Nat) : OpAlike job s (runToken (.mtf m)) := by
  by_cases hm : (2 ≤ m && m ≤ s.blk.nInUse) = true
  · refine (endsRun_alike ⟨_, by nofun, hc⟩ inRun (.mtf m)).op fun g => ?_
    rw [runToken, execMtf, guised_ctl hc]
    exact if_pos hm
  · refine (alike_fault .tokenOutOfPlace).op fun g => ?_
    rw [runToken, execMtf, guised_ctl hc]
    exact if_neg hm

theorem eob_alike {inRun : Bool} (hc : s.ctl = .busy job (.symbols inRun)) : OpAlike job s (runToken .eob) :=
  (endsRun_alike ⟨_, by nofun, hc⟩ inRun .eob).op fun g => by
    rw [runToken, execEob, guised_ctl hc]
    rfl

/-- Every token that a read can read, in every guise. -/
theorem runToken_alike {ph : Phase} {i : Instr} (h : At s job ph) (f : Fits s i ph) (hn : job ≠ .init) :
    OpAlike job s (runToken i) := by
  have hc := h.ctl
  cases ph with
  | header => exact absurd h.phase hn
  | marker =>
    obtain rfl | ⟨c, rfl⟩ := f
    · exact blockMark_alike hc
    · exact eosMark_alike hc c
  | blockHeader =>
    obtain ⟨c, r, p, rfl⟩ := f
    exact blockHeader_alike hc c r p
  | symbolMap =>
    obtain ⟨u, ws, rfl⟩ := f
    exact symbolMap_alike hc u ws
  | tableCounts =>
    obtain ⟨g, n, rfl⟩ := f
    exact tableCounts_alike hc g n
  | selector k =>
    obtain ⟨v, rfl⟩ | rfl := f
    · match v with
      | 0 => exact selectorValue_alike hc 0
      | 1 => exact selectorValue_alike hc 1
      | 2 => exact selectorValue_alike hc 2
      | 3 => exact selectorValue_alike hc 3
      | 4 => exact selectorValue_alike hc 4
      | 5 => exact selectorValue_alike hc 5
      | _ + 6 => exact selectorMtfBad_alike hc
    · exact selectorMtfBad_alike hc
  | codeLenStart t =>
    obtain ⟨l, rfl⟩ := f
    exact codeLenStart_alike hc l
  | codeLen t k curr =>
    obtain rfl | rfl | rfl := f
    · exact codeLenEnd_alike hc
    · exact codeLenInc_alike hc
    · exact codeLenDec_alike hc
  | symbols inRun =>
    obtain rfl | rfl | ⟨m, -, -, rfl⟩ | rfl := f
    · exact runDigit_alike hc 1
    · exact runDigit_alike hc 2
    · exact mtf_alike hc m
    · exact eob_alike hc
  | scan => exact f.elim
  | walk => exact f.elim

end

end Sys2Proof.Machine

/-! ## The turns of a read

One step of a read in progress, in every guise at once. -/

namespace Sys2Proof.Machine

/-! ### The reading of a token -/

/-- What the reading of a token comes to, in the guise `g`. -/
def Fetched.guised (g : Guise) : Fetched → Fetched
  | .instr i s => .instr i (s.guised g)
  | .raised e d s => .raised e d (s.guised g)
  | .wait s => .wait (s.guised g)
  | .undefined => .undefined

theorem applyEarly_guised (w : EarlyWrite) (g : Guise) (s : State) : applyEarly w (s.guised g) = (applyEarly w s).guised g := by
  cases w <;> rfl

theorem runParse_guised (p : Parse) (g : Guise) (s : State) : runParse p (s.guised g) = (runParse p s).guised g := by
  induction p generalizing s with
  | done i => rfl
  | reject e d => rfl
  | nothing => rfl
  | read n e d k ih =>
    rw [runParse, runParse, show (s.guised g).rd = s.rd from rfl]
    cases readBits n s.rd with
    | got v r => exact ih v { s with rd := r.hold n v }
    | eof r => rfl
    | wait r => rfl
  | write w k ih => rw [runParse, runParse, applyEarly_guised, ih]

theorem phaseParse_guised (ph : Phase) (g : Guise) (s : State) : phaseParse (s.guised g) ph = phaseParse s ph := by
  cases ph <;> rfl

theorem countSymbol_guised (ph : Phase) (g : Guise) (s : State) : countSymbol ph (s.guised g) = (countSymbol ph s).guised g := by
  cases ph <;> rfl

theorem fetchToken_guised (ph : Phase) (g : Guise) (s : State) : fetchToken ph (s.guised g) = (fetchToken ph s).guised g := by
  rw [fetchToken, fetchToken, phaseParse_guised, show (s.guised g).rd = s.rd from rfl, runParse_guised]
  cases runParse (resume (phaseParse s ph) s.rd.part) s with
  | instr i t => exact congrArg (Fetched.instr i) (countSymbol_guised ph g t)
  | raised e d t => rfl
  | wait t => rfl
  | undefined => rfl

/-- An error in a token is raised where the error register is as it was. -/
theorem runParse_raised_err {p : Parse} {s t : State} {e : ErrKind} {d : Nat} (h : runParse p s = .raised e d t) :
    t.err = s.err := by
  induction p generalizing s with
  | done i => cases h
  | reject e d =>
    cases h
    rfl
  | nothing => cases h
  | read n e d k ih =>
    rw [runParse] at h
    cases hr : readBits n s.rd with
    | got v r =>
      rw [hr] at h
      exact ih v (s := { s with rd := r.hold n v }) h
    | eof r =>
      rw [hr] at h
      cases h
      rfl
    | wait r =>
      rw [hr] at h
      cases h
  | write w k ih => exact (ih h).trans (by cases w <;> rfl)

theorem fetchToken_raised_err {s t : State} {ph : Phase} {e : ErrKind} {d : Nat} (h : fetchToken ph s = .raised e d t) :
    t.err = s.err := by
  rw [fetchToken] at h
  cases hp : runParse (resume (phaseParse s ph) s.rd.part) s with
  | raised e' d' u =>
    rw [hp] at h
    cases h
    exact runParse_raised_err hp
  | _ =>
    rw [hp] at h
    cases h

/-! ### The step -/

/-- What a step of the read `job` comes to in `s`, in every guise. -/
inductive ReadTurn (job : Job) (s : State) : Prop
  /-- It goes on in `u`. -/
  | goes (u : State) (h : OnJob job s u) (step : ∀ g, commandStep (s.guised g) = .ran (.next (u.guised g)))
  /-- It raises an error of the reads in `u`. -/
  | raises (e : ErrKind) (d : Nat) (u : State) (h : OnJob job s u) (he : ReadErr e) (h0 : s.err = 0)
      (step : ∀ g, commandStep (s.guised g) = .ran (.next (raiseError e d (u.guised g))))
  /-- It yields the byte `v` in `u`. -/
  | yields (v : Byte) (u : State) (hu : u.closed = s.closed)
      (step : ∀ g, commandStep (s.guised g) = .ran (yield g.job (.byte v) (u.guised g)).settle)
  /-- The stream has ended. -/
  | ends (hc : s.ctl = .busy job .walk) (hst : s.state = .eof)
  /-- The block has ended. -/
  | blockEnds (hc : s.ctl = .busy job .walk) (hst : s.state = .noProcess)
  /-- A scan is over. -/
  | scanned (hc : s.ctl = .busy job .scan) (found : Bool) (u : State)
      (step : ∀ g, commandStep (s.guised g) = .ran (.next (finishScan g.job found (u.guised g))))

section
variable {s : State} {job : Job}

theorem readErr_of_phaseErr {ph : Phase} {e : ErrKind} {d : Nat} (h : PhaseErr ph e d) (hh : ph ≠ .header) : ReadErr e := by
  cases ph with
  | header => exact absurd rfl hh
  | marker => obtain ⟨rfl | rfl, -⟩ := h <;> exact ⟨by decide, by decide⟩
  | symbols r => obtain ⟨rfl, -⟩ | ⟨rfl, -⟩ := h <;> exact ⟨by decide, by decide⟩
  | _ =>
    obtain ⟨rfl, -⟩ := h
    exact ⟨by decide, by decide⟩

/-- A read at a control point that reads a token. -/
theorem readTurn_token {ph : Phase} (h : Point s job ph) (hw : ph ≠ .walk) (hsc : ph ≠ .scan) (hn : job ≠ .init)
    (he : s.rd.srcEnds = true) : ReadTurn job s := by
  have hctl := fun g => guised_ctl h.ctl g
  have keeps := fetchToken_keeps ph s
  rcases fetchToken_cases h hw hsc with ⟨i, t, hf, hat, hfit, hk, -⟩ | ⟨e, d, t, hf, -, hk, -⟩ |
      ⟨t, -, -, -, -, hends, -⟩
  · obtain ⟨f, hon, hrun⟩ := runToken_alike hat hfit hn
    have hst : OnJob job s t := ⟨⟨ph, hsc, hat.ctl⟩, hat.can.2.trans h.err.symm, hk.closed, hk.outCap⟩
    have hstep : ∀ g, commandStep (s.guised g) = .ran (f.guised g).settle := fun g => by
      rw [commandStep_token_instr (hctl g) hw hsc (by rw [fetchToken_guised, hf]; rfl), hrun]
    cases f with
    | go u => exact .goes u (hst.trans hon) hstep
    | raise e d u => exact .raises e d u (hst.trans hon.2) hon.1 h.err hstep
    | fault f =>
      obtain ⟨u, hu, -⟩ := runToken_ok hat hfit
      rw [← guised_own hat.ctl, hrun] at hu
      cases hu
  · rw [hf] at keeps
    have hh : ph ≠ .header := by
      rintro rfl
      exact hn h.phase
    have ht : OnJob job s t := ⟨⟨ph, hsc, keeps.2.trans h.ctl⟩, fetchToken_raised_err hf, hk.closed, hk.outCap⟩
    refine .raises e d t ht (readErr_of_phaseErr (fetchToken_error hf) hh)
      h.err fun g => commandStep_token_raised (hctl g) hw hsc (by rw [fetchToken_guised, hf]; rfl)
  · rw [he] at hends
    cases hends

/-- A scan of a read ends, in every guise. -/
theorem scanTurn (h : Point s job .scan) (he : s.rd.srcEnds = true) : ∃ (found : Bool) (u : State),
    ∀ g, commandStep (s.guised g) = .ran (.next (finishScan g.job found (u.guised g))) := by
  have hctl := fun g => guised_ctl h.ctl g
  rcases scanFor_cases s.rd h.scanReader with ⟨r, -, hf, -⟩ | ⟨r, -, hf, -⟩ | ⟨-, -, -, hends, -⟩
  · exact ⟨true, { s with rd := r, reported := markerByte r }, fun g => commandStep_scan_found (hctl g) hf⟩
  · exact ⟨false, { s with rd := r, reported := r.raw }, fun g => commandStep_scan_eof (hctl g) hf⟩
  · rw [he] at hends
    cases hends

/-- A read at the end of a block (R213, R214). -/
theorem readTurn_exhausted (hc : s.ctl = .busy job .walk) (hst : s.state = .randA ∨ s.state = .norandA)
    (hi : (s.cur.i2 : Int) > s.blk.last) (h0 : s.err = 0) : ReadTurn job s := by
  have hctl := fun g => guised_ctl hc g
  by_cases hcrc : s.cur.blockCrc ^^^ 0xFFFFFFFF = s.blk.storedBlockCrc
  · exact .goes { s with
      combinedCrc := s.combinedCrc.rotateLeft 1 ^^^ s.blk.storedBlockCrc
      state := if s.mode = .continuous then .startBlock else .noProcess } ⟨⟨_, by nofun, hc⟩, rfl, rfl, rfl⟩
      fun g => commandStep_exhausted_match (hctl g) hst hi hcrc
  · exact .raises .crcMismatch 1 s (onJob_self hc (by nofun)) ⟨by decide, by decide⟩ h0
      fun g => commandStep_exhausted_mismatch (hctl g) hst hi hcrc

/-- A read in a state `*_A` (R208). -/
theorem readTurn_stepA {b : StreamState} (hc : s.ctl = .busy job .walk) (hp : ParamsOk s) (h0 : s.err = 0)
    (hst : s.state = .randA ∧ b = .randB ∨ s.state = .norandA ∧ b = .norandB) (hw : WalkA s) : ReadTurn job s := by
  by_cases hi : (s.cur.i2 : Int) ≤ s.blk.last
  · obtain ⟨v, tp, rn, rt, ht, -⟩ := take_ok hp hw.1
    exact .yields v { s with
      cur := { s.cur with
        tPos := tp, i2 := s.cur.i2 + 1, rnToGo := rn, rtPos := rt, chPrev := s.cur.ch2, ch2 := v.zeroExtend 9
        blockCrc := crcUpdate s.cur.blockCrc v }
      state := b } rfl
      fun g => commandStep_walk (guised_ctl hc g) (nextOfWalk_takes (s := s.guised g) g.job hst hi ht)
  · exact readTurn_exhausted hc (hst.imp And.left And.left) (by omega) h0

/-- A read in a state `*_B` (R209). -/
theorem readTurn_stepB {a c : StreamState} (hc : s.ctl = .busy job .walk) (hp : ParamsOk s) (h0 : s.err = 0)
    (hst : BFamily s.state a c) (hw : WalkB s) : ReadTurn job s := by
  have hctl := fun g => guised_ctl hc g
  obtain ⟨hwalk, hcount, hle⟩ := hw
  by_cases hch : s.cur.ch2 = s.cur.chPrev
  · by_cases hn : s.cur.count + 1 < 4
    · exact .goes { s with cur := { s.cur with count := s.cur.count + 1 }, state := a } ⟨⟨_, by nofun, hc⟩, rfl, rfl, rfl⟩
        fun g => commandStep_compare_count hst (hctl g) hch hn
    · have h3 : s.cur.count = 3 := by omega
      by_cases hi : (s.cur.i2 : Int) ≤ s.blk.last
      · obtain ⟨z, tp, rn, rt, ht, -⟩ := take_ok (s := { s with cur := { s.cur with count := 4 } }) hp hwalk
        exact .goes { s with
          cur := { s.cur with tPos := tp, i2 := s.cur.i2 + 1, rnToGo := rn, rtPos := rt, count := 4, z := z, j2 := 0 }
          state := c } ⟨⟨_, by nofun, hc⟩, rfl, rfl, rfl⟩ fun g =>
            commandStep_compare_unit (s := s.guised g) hst (hctl g) hch hle h3 hi ht
      · exact .raises .streamCorrupted 2 { s with cur := { s.cur with count := 4 } } ⟨⟨_, by nofun, hc⟩, rfl, rfl, rfl⟩
          ⟨by decide, by decide⟩ h0 fun g => commandStep_compare_end hst (hctl g) hch h3 (Int.not_le.mp hi)
  · exact .goes { s with cur := { s.cur with count := 1 }, state := a } ⟨⟨_, by nofun, hc⟩, rfl, rfl, rfl⟩
      fun g => commandStep_compare_new hst (hctl g) hch

/-- A read in a state `*_C` (R210). -/
theorem readTurn_stepC {a : StreamState} (hc : s.ctl = .busy job .walk)
    (hst : s.state = .randC ∧ a = .randA ∨ s.state = .norandC ∧ a = .norandA) : ReadTurn job s := by
  by_cases hj : s.cur.j2 < s.cur.z.toNat
  · exact .yields (s.cur.ch2.truncate 8) { s with
      cur := { s.cur with j2 := s.cur.j2 + 1, blockCrc := crcUpdate s.cur.blockCrc (s.cur.ch2.truncate 8) } } rfl
      fun g => commandStep_walk (guised_ctl hc g) (nextOfWalk_copies (s := s.guised g) g.job (hst.imp And.left And.left) hj)
  · exact .goes { s with cur := { s.cur with count := 0 }, state := a } ⟨⟨_, by nofun, hc⟩, rfl, rfl, rfl⟩
      fun g => commandStep_copies_end (guised_ctl hc g) hst hj

/-- A read in the walk (R235). -/
theorem readTurn_walk (h : AtWalk s job) : ReadTurn job s := by
  have hc := h.ctl
  have hp := h.core.params
  have hstate := h.state
  have h0 : s.state ≠ .eof → s.err = 0 := fun hst => (h.can hst).2
  rw [StateOk] at hstate
  cases hst : s.state with
  | eof => exact .ends hc hst
  | noProcess => exact .blockEnds hc hst
  | startBlock =>
    refine .goes (s.goOn (.busy job (if s.mode = .continuous then .marker else .blockHeader)))
      ⟨⟨_, by split <;> nofun, rfl⟩, rfl, rfl, rfl⟩ fun g => ?_
    rw [commandStep_walk (guised_ctl hc g) (nextOfWalk_startBlock g.job hst)]
    rfl
  | randA => exact readTurn_stepA hc hp (h0 (by simp [hst])) (.inl ⟨hst, rfl⟩) (by rw [hst] at hstate; exact hstate.2)
  | norandA => exact readTurn_stepA hc hp (h0 (by simp [hst])) (.inr ⟨hst, rfl⟩) (by rw [hst] at hstate; exact hstate.2)
  | randB => exact readTurn_stepB hc hp (h0 (by simp [hst])) (.inl ⟨hst, rfl, rfl⟩) (by rw [hst] at hstate; exact hstate.2)
  | norandB => exact readTurn_stepB hc hp (h0 (by simp [hst])) (.inr ⟨hst, rfl, rfl⟩) (by rw [hst] at hstate; exact hstate.2)
  | randC => exact readTurn_stepC hc (.inl ⟨hst, rfl⟩)
  | norandC => exact readTurn_stepC hc (.inr ⟨hst, rfl⟩)

/-- Everything a step of a read can do where its source ends, in every guise. -/
theorem readTurn {ph : Phase} (hi : Inv s) (hb : s.ctl = .busy job ph) (hn : job ≠ .init) (he : s.rd.srcEnds = true) :
    ReadTurn job s := by
  by_cases hw : ph = .walk
  · subst hw
    exact readTurn_walk (AtWalk.of_inv hi hb)
  · have hpt := Point.of_inv hi hb hw
    by_cases hsc : ph = .scan
    · subst hsc
      obtain ⟨found, u, step⟩ := scanTurn hpt he
      exact .scanned hb found u step
    · exact readTurn_token hpt hw hsc hn he

end

end Sys2Proof.Machine

/-! ## READ_BYTE

R242, R274: READ_BYTE answers a byte, a sentinel or an error. -/

namespace Sys2Proof.Machine

theorem portKept_of_kept {s t : State} (h : Kept s t) : portKept s t :=
  ⟨h.cmd, h.arg0, h.arg1, h.closed, h.mode, h.outCap, h.rnums, h.attached, h.script, h.hostData, h.draws⟩

/-- An error of an open block that had none (R274, R275). -/
theorem raiseError_first {s : State} (ho : s.closed = false) (h0 : s.err = 0) (e : ErrKind) (d : Nat) :
    raiseError e d s = { s with
      status := statusWord e d, result := failedResult s, state := .eof, err := BitVec.ofNat 4 (errCode e)
      errDetail := BitVec.ofNat 8 d, ctl := .idle } := by
  simp [raiseError, recordError, ho, h0]

/-- An answer of READ_BYTE in the mode `m`. -/
def ByteAnswer (m : Mode) (t : State) : Prop :=
  (t.status = statusOk ∧ ((∃ v : Byte, t.result = v.zeroExtend 64) ∨ t.result = endOfStreamResult ∨
      (t.result = endOfBlockResult ∧ m = .byblock))) ∨
    (∃ e d, e ≠ ErrKind.invalidArgument ∧ e ≠ ErrKind.badStreamHeader ∧ t.status = statusWord e d ∧ t.result = 0 ∧
      t.state = .eof ∧ t.err = BitVec.ofNat 4 (errCode e) ∧ t.errDetail = BitVec.ofNat 8 d)

/-- In its own guise a turn of a read is its step. -/
theorem commandStep_own {s t : State} {job : Job} {ph : Phase} {o : Guise → Outcome} (hb : s.ctl = .busy job ph)
    (hs : commandStep s = .ran (.next t)) (step : ∀ g, commandStep (s.guised g) = .ran (o g)) : o (s.ownGuise job) = .next t := by
  have h := step (s.ownGuise job)
  rw [guised_own hb, hs] at h
  exact (Turn.ran.inj h).symm

/-- What a run of READ_BYTE comes to: it has answered and stored nothing. -/
def ByteRun (s : State) (o : Outcome) : Prop :=
  ∀ ph, s.ctl = .busy .readByte ph → s.rd.srcEnds = true → (s.mode = .continuous → ScanFree s) →
    ∃ t, o = .next t ∧ t.ctl = .idle ∧ t.out = s.out ∧ ByteAnswer s.mode t

theorem byteRun_now {s t : State} (hc : t.ctl = .idle) (ho : t.out = s.out) (ha : ByteAnswer s.mode t) :
    ByteRun s (runCommand t) := fun _ _ _ _ => ⟨t, runCommand_idle hc, hc, ho, ha⟩

theorem mode_byblock_of_ne {m : Mode} (h : m ≠ .continuous) : m = .byblock := by
  cases m with
  | continuous => exact absurd rfl h
  | byblock => rfl

theorem byteAnswer_raise {s : State} {ph : Phase} (hb : s.ctl = .busy .readByte ph) (ho : s.closed = false) (h0 : s.err = 0)
    {e : ErrKind} (he : ReadErr e) (d : Nat) (m : Mode) : ByteAnswer m (raiseError e d s) := by
  rw [raiseError_first ho h0, failedResult, hb]
  exact .inr ⟨e, d, he.1, he.2, rfl, rfl, rfl, rfl, rfl⟩

/-- A run of READ_BYTE goes by its first step and by what that leads to. -/
theorem ByteRun.step {s t : State} {job : Job} {ph : Phase} (hi : Inv s) (hb : s.ctl = .busy job ph)
    (hs : commandStep s = .ran (.next t)) (hk : Kept s t) {k : Nat} (hr : Consumed s.rd t.rd k)
    (ih : ByteRun t (runCommand t)) : ByteRun s (runCommand t) := by
  intro ph' hb' he hf
  obtain ⟨rfl, rfl⟩ : job = .readByte ∧ ph = ph' := by simpa [hb] using hb'
  have ho := (hi.busy hb).1
  suffices h : ByteRun s (runCommand t) from h ph hb he hf
  have hgo : ∀ {ph}, t.ctl = .busy .readByte ph → t.out = s.out → ByteRun s (runCommand t) := fun hb' hout _ hb he hf => by
    have hf' : t.mode = .continuous → ScanFree t := fun hm =>
      commandStep_scanFree hi hb (hk.mode ▸ hm) (hf (hk.mode ▸ hm)) hs
    simpa [hout, hk.mode] using ih _ hb' (hr.ends.trans he) hf'
  cases readTurn hi hb (by decide) he with
  | goes u h step =>
    cases commandStep_own hb hs (o := fun g => .next (u.guised g)) step
    obtain ⟨⟨ph', -, hu⟩, -⟩ := h
    exact hgo (guised_ctl hu _) rfl
  | raises e d u h hre h0 step =>
    cases commandStep_own hb hs (o := fun g => .next (raiseError e d (u.guised g))) step
    obtain ⟨⟨ph', -, hu⟩, herr, hcl, -⟩ := h
    exact byteRun_now (raiseError_ctl ..) (raiseError_out ..) (byteAnswer_raise (s := u.guised (s.ownGuise .readByte))
      (guised_ctl hu _) (hcl.trans ho) (herr.trans h0) hre d _)
  | yields v u hu step =>
    cases commandStep_own hb hs (o := fun g => (yield g.job (.byte v) (u.guised g)).settle) step
    exact byteRun_now rfl rfl (.inl ⟨rfl, .inl ⟨v, rfl⟩⟩)
  | ends hc hst =>
    rw [commandStep_walk hc (nextOfWalk_eof _ hst)] at hs
    cases hs
    exact byteRun_now rfl rfl (.inl ⟨rfl, .inr (.inl rfl)⟩)
  | blockEnds hc hst =>
    rw [commandStep_walk hc (nextOfWalk_noProcess _ hst)] at hs
    cases hs
    exact hgo rfl rfl
  | scanned hc found u step =>
    cases commandStep_own hb hs (o := fun g => .next (finishScan g.job found (u.guised g))) step
    have hm : s.mode = .byblock := mode_byblock_of_ne fun hm => hf hm _ hc
    exact byteRun_now rfl rfl (.inl ⟨rfl, .inr (.inr ⟨rfl, hm⟩)⟩)

/-- READ_BYTE in progress answers. -/
theorem runCommand_readByte (s : State) (hi : Inv s) : ByteRun s (runCommand s) := by
  refine runCommand_induct (fun s _ hc ph hb => ?_) (fun s job ph w _ _ _ hw ph' _ he => ?_)
    (fun s job ph t hi hb hs _ hk hr ih => ?_) s hi
  · rw [hc] at hb
    cases hb
  · obtain ⟨-, -, -, hends, -⟩ := hw
    rw [he] at hends
    cases hends
  · obtain ⟨k, hr⟩ := hr
    rw [runCommand_step hi hb hs]
    exact ByteRun.step hi hb hs hk hr ih

/-- Settles O26: READ_BYTE runs from the walk (`runCommand_readByte`); what it keeps is `Answered`. -/
theorem readByteAnswers : Obligations.ReadByteAnswers := by
  intro s hr
  obtain ⟨t, ht, ha⟩ := hr.read_answered (.inl rfl)
  obtain ⟨hi, hc, ho, he⟩ := hr
  obtain ⟨t', ht', hct, hout, hans⟩ := runCommand_readByte (s.goOn readByteWalk)
    (inv_beginRead hi ho hc .readByte trivial (by decide)) _ rfl he fun _ => scanFree_of_busy rfl (by decide)
  rw [show exec .readByte s = runCommand (s.goOn readByteWalk) from execReadByte_open hc ho, ht'] at ht
  cases ht
  exact ⟨t, (execReadByte_open hc ho).trans ht', hct, hout, portKept_of_kept ha.kept, hans⟩

end Sys2Proof.Machine

/-! ## One READ_INTO is the READ_BYTEs it stands for

R246: while a READ_INTO runs, the READ_BYTE it stands for runs beside it, at the same place of the stream in another guise. -/

namespace Sys2Proof.Machine

theorem statusWord_ne_ok (e : ErrKind) (d : Nat) : statusWord e d ≠ statusOk := by
  intro h
  have hlow : BitVec.ofNat 32 (errCode e) = 0#32 := (BitVec.or_eq_zero_iff.mp h).1
  cases e <;> cases hlow

theorem inv_of_ran {s t : State} {job : Job} {ph : Phase} (hi : Inv s) (hb : s.ctl = .busy job ph)
    (hs : commandStep s = .ran (.next t)) : Inv t := by
  rcases commandStep_cases hi hb with ⟨o, ho, u, rfl, hu, -⟩ | ⟨w, hw, -⟩
  · rw [hs] at ho
    cases ho
    exact hu
  · rw [hs] at hw
    cases hw

/-! ### How a READ_INTO ends -/

/-- How a READ_INTO that ended early after `n` bytes, in `t`, answers to the next READ_BYTE, which ends in `w`. -/
def EarlyEnd (n : Nat) (t w : State) : Prop :=
  (w.status = statusOk ∧ (w.result = endOfStreamResult ∨ w.result = endOfBlockResult) ∧ n = 0 ∧
      t = { w with out := t.out }) ∨
    (w.status = statusOk ∧ (w.result = endOfStreamResult ∨ w.result = endOfBlockResult) ∧ n ≠ 0 ∧
      t.status = statusOk ∧ t.result = BitVec.ofNat 64 n ∧ exec .readByte t = .next { w with out := t.out }) ∨
    (w.status ≠ statusOk ∧ t = { w with out := t.out, result := BitVec.ofNat 64 n })

/-- A READ_INTO that had stored `k` of `len` bytes and goes on from the memory `m` ends in `t`, as the READ_BYTEs from `x` on. -/
def Bulk (off len k : Nat) (m : Memory) (x t : State) : Prop :=
  ∃ (u : State) (vs : List Byte), byteReads vs x u ∧ k + vs.length ≤ len ∧ t.out = storeAll (off + k) vs m ∧
    ((k + vs.length = len ∧ t = { u with out := t.out, status := statusOk, result := BitVec.ofNat 64 (k + vs.length) }) ∨
      (k + vs.length < len ∧ ∃ w, exec .readByte u = .next w ∧ w.ctl = .idle ∧ EarlyEnd (k + vs.length) t w))

section
variable {off len k : Nat} {m : Memory} {x t w : State}

/-- A READ_INTO ends early where the next READ_BYTE gives no byte. -/
theorem bulk_early (hk : k < len) (hout : t.out = m) (hw : exec .readByte x = .next w) (hc : w.ctl = .idle)
    (h : EarlyEnd k t w) : Bulk off len k m x t :=
  ⟨x, [], rfl, by simpa using hk.le, hout, .inr ⟨by simpa using hk, w, hw, hc, by simpa using h⟩⟩

variable {v : Byte} (hw : exec .readByte x = .next w) (hc : w.ctl = .idle) (hs : w.status = statusOk)
  (hr : w.result = v.zeroExtend 64)
include hw hc hs hr

/-- A READ_INTO ends with its last byte. -/
theorem bulk_last (hk : k + 1 = len) (hout : t.out = memWrite m (off + k) v)
    (h : t = { w with out := t.out, status := statusOk, result := BitVec.ofNat 64 (k + 1) }) : Bulk off len k m x t :=
  ⟨w, [v], ⟨w, hw, hc, hs, hr, rfl⟩, hk.le, hout, .inl ⟨hk, h⟩⟩

/-- A READ_INTO goes on after a byte. -/
theorem bulk_next (h : Bulk off len (k + 1) (memWrite m (off + k) v) w t) : Bulk off len k m x t := by
  obtain ⟨u, vs, hvs, hle, hout, hend⟩ := h
  have hlen : k + (v :: vs).length = k + 1 + vs.length := by rw [List.length_cons]; omega
  refine ⟨u, v :: vs, ⟨w, hw, hc, hs, hr, hvs⟩, by omega, hout, ?_⟩
  rwa [hlen]

end

/-! ### The two commands side by side -/

@[simp] theorem guised_guised (g h : Guise) (s : State) : (s.guised g).guised h = s.guised h := by
  cases hc : s.ctl <;> simp [State.guised, Ctl.withJob, hc]

theorem guised_walk {s : State} {job : Job} (hc : s.ctl = .busy job .walk) (g : Guise) :
    s.guised g = { s with out := g.out, status := g.status, result := g.result, ctl := .busy g.job .walk } := by
  rw [State.guised, hc]
  rfl

/-- What a READ_INTO does with a byte (R243). -/
theorem settle_yield_readInto {off len k : Nat} {v : Byte} {s t : State} (hk : k < len)
    (h : (yield (.readInto off len k) (.byte v) s).settle = .next t) :
    (k + 1 < len ∧ t = { s with out := memWrite s.out (off + k) v, ctl := .busy (.readInto off len (k + 1)) .walk }) ∨
      (k + 1 = len ∧ t = respond (BitVec.ofNat 64 (k + 1)) { s with out := memWrite s.out (off + k) v }) := by
  rw [yield] at h
  cases hw : outWrite (off + k) v s with
  | none =>
    rw [hw] at h
    cases h
  | some s1 =>
    obtain ⟨-, rfl⟩ := outWrite_cases hw
    simp only [hw] at h
    by_cases hlt : k + 1 < len
    · rw [if_pos hlt] at h
      cases h
      exact .inl ⟨hlt, rfl⟩
    · rw [if_neg hlt] at h
      cases h
      exact .inr ⟨by omega, rfl⟩

theorem exec_readByte_eof {s : State} (hc : s.ctl = .idle) (ho : s.closed = false) (hst : s.state = .eof) :
    exec .readByte s = .next { s with status := 0, result := -1 } :=
  (execReadByte_open hc ho).trans (runCommand_eof hc hst (.inl rfl))

/-- READ_BYTE at the end of a block scans, in every guise (R245). -/
theorem runCommand_blockEnd {s : State} (hi : Inv s) (hb : s.ctl = .busy .readByte .walk) (hst : s.state = .noProcess)
    (he : s.rd.srcEnds = true) : ∃ (found : Bool) (u : State), ∀ g : Guise, g.job = .readByte → Inv (s.guised g) →
      runCommand (s.guised g) = .next (finishScan .readByte found (u.guised g)) := by
  have hstep : ∀ g : Guise, g.job = .readByte →
      commandStep (s.guised g) = .ran (.next ((s.goOn (.busy .readByte .scan)).guised g)) := fun g hg => by
    rw [commandStep_walk (guised_ctl hb g) (nextOfWalk_noProcess _ hst), hg]
    simp only [State.guised, hg]
    rfl
  have hown := hstep (s.ownGuise .readByte) rfl
  rw [guised_own hb] at hown
  have hpoint := Point.of_inv (inv_of_ran hi hb hown) rfl (by decide)
  obtain ⟨found, u, hscan⟩ := scanTurn hpoint he
  refine ⟨found, u, fun g hg hig => ?_⟩
  have hscang := hscan g
  rw [hg] at hscang
  rw [runCommand_step hig (guised_ctl hb g) (hstep g hg)]
  exact runCommand_once (guised_ctl rfl g) (by simpa using hscang) rfl

/-- A READ_INTO in progress in `s`, and the READ_BYTE begun in `x` in progress at the same place, in the guise `g`. -/
structure Paired (off len k : Nat) (ph : Phase) (g : Guise) (s x : State) : Prop where
  ctl : s.ctl = .busy (.readInto off len k) ph
  scan : ph = .scan → k = 0
  ends : s.rd.srcEnds = true
  job : g.job = .readByte
  inv : Inv (s.guised g)
  run : exec .readByte x = runCommand (s.guised g)

section
variable {off len k : Nat} {ph : Phase} {g : Guise} {s t u x : State} (h : Paired off len k ph g s x)
include h

theorem Paired.byteCtl : (s.guised g).ctl = .busy .readByte ph := h.job ▸ guised_ctl h.ctl g

/-- The READ_BYTE goes by its next step. -/
theorem Paired.run_step (hs : commandStep (s.guised g) = .ran (.next t)) : exec .readByte x = runCommand t :=
  h.run.trans (runCommand_step h.inv h.byteCtl hs)

/-- The READ_BYTE ends with its next step. -/
theorem Paired.run_last (hs : commandStep (s.guised g) = .ran (.next t)) (ht : t.ctl = .idle) : exec .readByte x = .next t :=
  (h.run_step hs).trans (runCommand_idle ht)

/-- Both go on. -/
theorem Paired.goes {o : Guise} (ho : o.job = .readInto off len k)
    (hu : ∃ ph, ph ≠ .scan ∧ u.ctl = .busy (.readInto off len k) ph)
    (he : (u.guised o).rd.srcEnds = true) (step : ∀ g, commandStep (s.guised g) = .ran (.next (u.guised g))) :
    ∃ ph, Paired off len k ph g (u.guised o) x := by
  obtain ⟨ph', hph, hu⟩ := hu
  refine ⟨ph', ho ▸ guised_ctl hu o, fun h => absurd h hph, he, h.job, ?_, ?_⟩
  · simpa using inv_of_ran h.inv h.byteCtl (step g)
  · simpa using h.run_step (step g)

/-- Both end with an error. -/
theorem Paired.raises {o : Guise} {e : ErrKind} {d : Nat} (ho : o.job = .readInto off len k) (hk : k < len)
    (hu : ∃ ph, ph ≠ .scan ∧ u.ctl = .busy (.readInto off len k) ph) (hcl : u.closed = false) (h0 : u.err = 0)
    (step : ∀ g, commandStep (s.guised g) = .ran (.next (raiseError e d (u.guised g)))) :
    Bulk off len k o.out x (raiseError e d (u.guised o)) := by
  obtain ⟨ph', -, hu⟩ := hu
  refine bulk_early hk (raiseError_out ..) (h.run_last (step g) (raiseError_ctl ..)) (raiseError_ctl ..) (.inr (.inr ⟨?_, ?_⟩))
  · rw [raiseError_status]
    exact statusWord_ne_ok e d
  · rw [raiseError_first (s := u.guised o) hcl h0, raiseError_first (s := u.guised g) hcl h0, failedResult, guised_ctl hu, ho]
    rfl

/-- Both are at the end of the stream. -/
theorem Paired.ends_stream (hi : Inv s) (hk : k < len) (hc : s.ctl = .busy (.readInto off len k) .walk) (hst : s.state = .eof) :
    Bulk off len k s.out x (respond (if k > 0 then BitVec.ofNat 64 k else endOfStreamResult) s) := by
  have hbyte : ∀ g : Guise, g.job = .readByte →
      commandStep (s.guised g) = .ran (.next (respond endOfStreamResult (s.guised g))) := fun g hg => by
    rw [commandStep_walk (guised_ctl hc g) (nextOfWalk_eof _ hst), hg]
    rfl
  refine bulk_early hk rfl (h.run_last (hbyte g h.job) rfl) rfl ?_
  by_cases h0 : k = 0
  · subst h0
    exact .inl ⟨rfl, .inl rfl, rfl, rfl⟩
  · refine .inr (.inl ⟨rfl, .inl rfl, h0, rfl, if_pos (Nat.pos_of_ne_zero h0), ?_⟩)
    exact exec_readByte_eof rfl (hi.busy hc).1 hst

/-- Both are at the end of the block, and the READ_INTO answers its bytes: the scan is left to the next read. -/
theorem Paired.ends_block (hi : Inv s) (hit : Inv (respond (BitVec.ofNat 64 k) s)) (hk : k < len) (h0 : k ≠ 0)
    (hc : s.ctl = .busy (.readInto off len k) .walk) (hst : s.state = .noProcess) :
    Bulk off len k s.out x (respond (BitVec.ofNat 64 k) s) := by
  have ho := (hi.busy hc).1
  obtain ⟨found, u, hscan⟩ := runCommand_blockEnd h.inv (h.job ▸ guised_ctl hc g) hst h.ends
  simp only [guised_guised] at hscan
  have hbyte := h.run.trans (hscan g h.job h.inv)
  refine bulk_early hk rfl hbyte rfl (.inr (.inl ⟨rfl, .inr rfl, h0, rfl, rfl, ?_⟩))
  have hwalk := guised_walk hc ⟨.readByte, s.out, statusOk, BitVec.ofNat 64 k⟩
  have hnext : Inv (s.guised ⟨.readByte, s.out, statusOk, BitVec.ofNat 64 k⟩) :=
    hwalk ▸ inv_beginRead hit ho rfl .readByte trivial (by decide)
  calc exec .readByte (respond (BitVec.ofNat 64 k) s)
      = runCommand (s.guised ⟨.readByte, s.out, statusOk, BitVec.ofNat 64 k⟩) := hwalk ▸ execReadByte_open rfl ho
    _ = .next (finishScan .readByte found (u.guised ⟨.readByte, s.out, statusOk, BitVec.ofNat 64 k⟩)) := hscan _ rfl hnext

/-- Both go on to the scan at the end of the block. -/
theorem Paired.scans (hk : k = 0) (hc : s.ctl = .busy (.readInto off len k) .walk) (hst : s.state = .noProcess) :
    Paired off len k .scan g (s.goOn (.busy (.readInto off len k) .scan)) x := by
  have hstep : commandStep (s.guised g) = .ran (.next ((s.goOn (.busy (.readInto off len k) .scan)).guised g)) := by
    rw [commandStep_walk (guised_ctl hc g) (nextOfWalk_noProcess _ hst), h.job]
    simp only [State.guised, h.job]
    rfl
  exact ⟨rfl, fun _ => hk, h.ends, h.job, inv_of_ran h.inv h.byteCtl hstep, h.run_step hstep⟩

/-- A scan of the READ_INTO, which has no byte, ends as that of the READ_BYTE. -/
theorem Paired.scanned {o : Guise} {found : Bool} (ho : o.job = .readInto off len k) (hk : k < len)
    (hc : s.ctl = .busy (.readInto off len k) .scan)
    (step : ∀ g, commandStep (s.guised g) = .ran (.next (finishScan g.job found (u.guised g)))) :
    Bulk off len k o.out x (finishScan o.job found (u.guised o)) := by
  obtain rfl : ph = .scan := by simpa using h.ctl.symm.trans hc
  refine bulk_early hk rfl (h.run_last (step g) rfl) rfl (.inl ?_)
  rw [h.job, ho]
  exact ⟨rfl, .inr rfl, h.scan rfl, rfl⟩

/-- The byte that ends the READ_BYTE, and what the READ_INTO does with it. -/
theorem Paired.yields {o : Guise} {v : Byte} (ho : o.job = .readInto off len k) (hk : k < len) (hcl : u.closed = false)
    (step : ∀ g, commandStep (s.guised g) = .ran (yield g.job (.byte v) (u.guised g)).settle)
    (ht : (yield o.job (.byte v) (u.guised o)).settle = .next t) (he : t.rd.srcEnds = true) :
    (t.ctl = .idle ∧ Bulk off len k o.out x t) ∨ ∃ g' w, Paired off len (k + 1) .walk g' t w ∧
      ∀ t', Bulk off len (k + 1) t.out w t' → Bulk off len k o.out x t' := by
  have hs := step g
  rw [h.job] at hs
  have hw : exec .readByte x = .next (respond (v.zeroExtend 64) (u.guised g)) := h.run_last hs rfl
  have hiw := inv_of_ran h.inv h.byteCtl hs
  rw [ho] at ht
  rcases settle_yield_readInto hk ht with ⟨hlt, rfl⟩ | ⟨heq, rfl⟩
  · refine .inr ⟨⟨.readByte, g.out, statusOk, v.zeroExtend 64⟩, respond (v.zeroExtend 64) (u.guised g),
      ⟨rfl, by nofun, he, rfl, ?_, ?_⟩, fun t' hb => ?_⟩
    · exact inv_beginRead hiw hcl rfl .readByte trivial (by decide)
    · exact execReadByte_open (s := respond (v.zeroExtend 64) (u.guised g)) rfl hcl
    · exact bulk_next hw rfl rfl rfl hb
  · exact .inl ⟨rfl, bulk_last hw rfl rfl rfl heq rfl rfl⟩

end

/-! ### The run -/

/-- What a run of READ_INTO comes to beside READ_BYTE. -/
def IntoRun (s : State) (o : Outcome) : Prop :=
  ∀ off len k ph g x, Paired off len k ph g s x → ∃ t, o = .next t ∧ Bulk off len k s.out x t

/-- A run of READ_INTO goes by its first step and by what that leads to. -/
theorem IntoRun.step {s t : State} {job : Job} {ph : Phase} (hi : Inv s) (hb : s.ctl = .busy job ph)
    (hs : commandStep s = .ran (.next t)) {n : Nat} (hr : Consumed s.rd t.rd n)
    (ih : IntoRun t (runCommand t)) : IntoRun s (runCommand t) := by
  intro off len k ph' g x hp
  obtain ⟨rfl, rfl⟩ : job = .readInto off len k ∧ ph = ph' := by simpa [hb] using hp.ctl
  obtain ⟨ho, ⟨hlt, -⟩, -⟩ := hi.busy hb
  have he := hr.ends.trans hp.ends
  cases readTurn hi hb (by nofun) hp.ends with
  | goes u h step =>
    cases commandStep_own hb hs (o := fun g => .next (u.guised g)) step
    obtain ⟨ph', hp'⟩ := hp.goes rfl h.ctl he step
    exact ih _ _ _ _ _ _ hp'
  | raises e d u h hre h0 step =>
    cases commandStep_own hb hs (o := fun g => .next (raiseError e d (u.guised g))) step
    have hbulk := hp.raises (o := s.ownGuise _) rfl hlt h.ctl (h.closed.trans ho) (h.err.trans h0) step
    exact ⟨_, runCommand_idle (raiseError_ctl ..), hbulk⟩
  | yields v u hu step =>
    have hy := commandStep_own hb hs (o := fun g => (yield g.job (.byte v) (u.guised g)).settle) step
    rcases hp.yields (o := s.ownGuise _) rfl hlt (hu.trans ho) step hy he with ⟨hc, hbulk⟩ | ⟨g', w, hp', hnext⟩
    · exact ⟨t, runCommand_idle hc, hbulk⟩
    · exact (ih _ _ _ _ _ _ hp').imp fun _ h => h.imp_right (hnext _)
  | ends hc hst =>
    rw [commandStep_walk hc (nextOfWalk_eof _ hst)] at hs
    cases hs
    exact ⟨_, runCommand_idle rfl, hp.ends_stream hi hlt hc hst⟩
  | blockEnds hc hst =>
    have hy : (yield (.readInto off len k) .endOfBlock s).settle = .next t :=
      Turn.ran.inj ((commandStep_walk hc (nextOfWalk_noProcess _ hst)).symm.trans hs)
    rw [yield] at hy
    by_cases h0 : k = 0
    · subst h0
      cases hy
      exact ih _ _ _ _ _ _ (hp.scans rfl hc hst)
    · rw [if_pos (Nat.pos_of_ne_zero h0)] at hy
      cases hy
      exact ⟨_, runCommand_idle rfl, hp.ends_block hi (inv_of_ran hi hb hs) hlt h0 hc hst⟩
  | scanned hc found u step =>
    cases commandStep_own hb hs (o := fun g => .next (finishScan g.job found (u.guised g))) step
    exact ⟨_, runCommand_idle rfl, hp.scanned (o := s.ownGuise _) rfl hlt hc step⟩

/-- READ_INTO in progress stands for READ_BYTEs. -/
theorem runCommand_readInto (s : State) (hi : Inv s) : IntoRun s (runCommand s) := by
  refine runCommand_induct (fun s _ hc off len k ph g x hp => ?_) (fun s job ph w _ _ _ hw off len k ph' g x hp => ?_)
    (fun s job ph t hi hb hs _ hk hr ih => ?_) s hi
  · have hb := hp.ctl
    rw [hc] at hb
    cases hb
  · obtain ⟨-, -, -, hends, -⟩ := hw
    rw [hp.ends] at hends
    cases hends
  · obtain ⟨n, hr⟩ := hr
    rw [runCommand_step hi hb hs]
    exact IntoRun.step hi hb hs hr ih

/-- The READ_INTO of a ready block, as READ_BYTEs. -/
theorem Ready.bulk {s : State} (h : Ready s) (hr : readIntoCheck s = none) (hl : 0 < lenOperand s) :
    ∃ t, exec .readInto s = .next t ∧ Bulk (offOperand s).toNat (lenOperand s).toNat 0 s.out s t := by
  obtain ⟨hi, hc, ho, he⟩ := h
  have hinto := inv_beginRead hi ho hc _ (jobOk_readInto hr (ne_of_gt hl)) (by nofun)
  have hbyte := inv_beginRead hi ho hc .readByte trivial (by decide)
  obtain ⟨t, ht, hb⟩ := runCommand_readInto _ hinto _ _ _ _ ⟨.readByte, s.out, s.status, s.result⟩ s
    ⟨rfl, fun _ => rfl, he, rfl, hbyte, execReadByte_open hc ho⟩
  exact ⟨t, (execReadInto_open hc ho hr hl).trans ht, hb⟩

/-- Settles O27: the two commands run side by side (`IntoRun.step`). -/
theorem bulkUnitEquivalence : Obligations.BulkUnitEquivalence := by
  intro s h hr hl
  obtain ⟨t, ht, u, vs, hvs, hle, hout, hend⟩ := h.bulk hr hl
  simp only [Nat.zero_add, Nat.add_zero] at hle hout hend
  refine ⟨t, u, vs, ht, hvs, by omega, hout, ?_⟩
  refine hend.imp (fun ⟨hlen, heq⟩ => ⟨by omega, heq⟩) fun ⟨hlt, w, hw, hc, hearly⟩ => ⟨by omega, w, hw, hc, ?_⟩
  simpa only [EarlyEnd, List.length_eq_zero_iff, ne_eq] using hearly

end Sys2Proof.Machine

/-! ## What READ_INTO stores

R243, R244: READ_INTO stores the bytes it counts, from its offset on, and nothing else. -/

namespace Sys2Proof.Machine

/-- Storing a list of bytes leaves every other byte as it was. -/
theorem memRead_storeAll {m : Memory} (hm : m.wf = true) (vs : List Byte) (off a : Nat)
    (h : ¬ (off ≤ a ∧ a < off + vs.length)) : memRead (storeAll off vs m) a = memRead m a := by
  induction vs generalizing m off with
  | nil => rfl
  | cons v vs ih =>
    rw [List.length_cons] at h
    rw [storeAll, ih (wf_memWrite m off v hm) (off + 1) (by omega), memRead_memWrite_wf m off a v hm, if_neg (by omega)]

/-- READ_BYTE keeps a block ready, and its mode. -/
theorem Ready.readByte {s t : State} (h : Ready s) (ht : exec .readByte s = .next t) : Ready t ∧ t.mode = s.mode := by
  obtain ⟨u, hu, ha⟩ := h.read_answered (.inl rfl)
  obtain ⟨-, -, ho, he⟩ := h
  rw [ht] at hu
  cases hu
  obtain ⟨k, hr⟩ := ha.read
  exact ⟨⟨ha.inv, ha.idle (.inr he), ha.kept.closed.trans ho, hr.ends.trans he⟩, ha.kept.mode⟩

theorem byteReads_ready {vs : List Byte} {s u : State} (h : Ready s) (hr : byteReads vs s u) : Ready u ∧ u.mode = s.mode := by
  induction vs generalizing s with
  | nil =>
    cases hr
    exact ⟨h, rfl⟩
  | cons v vs ih =>
    obtain ⟨t, ht, -, -, -, hrest⟩ := hr
    obtain ⟨hready, hmode⟩ := h.readByte ht
    exact (ih hready hrest).imp_right (·.trans hmode)

/-- A count of bytes is no sentinel. -/
theorem storedCount_of_count {t : State} {n : Nat} (hn : n < 2 ^ 31) (h : t.result = BitVec.ofNat 64 n) :
    storedCount t = n ∧ t.result ≠ endOfBlockResult := by
  have hne : ∀ v : DWord, 2 ^ 31 ≤ v.toNat → BitVec.ofNat 64 n ≠ v := fun v hv he => by
    have := congrArg BitVec.toNat he
    rw [BitVec.toNat_ofNat, Nat.mod_eq_of_lt (by omega)] at this
    omega
  have hs := hne endOfStreamResult (by decide)
  have hb := hne endOfBlockResult (by decide)
  rw [storedCount, h, if_neg (by simp [hs, hb]), BitVec.toNat_ofNat, Nat.mod_eq_of_lt (by omega)]
  exact ⟨rfl, hb⟩

/-- END_OF_BLOCK is an answer of READ_BYTE in the mode BYBLOCK only. -/
theorem ByteAnswer.byblock {m : Mode} {t : State} (h : ByteAnswer m t) (hr : t.result = endOfBlockResult) : m = .byblock := by
  rw [ByteAnswer, hr] at h
  rcases h with ⟨-, ⟨v, hv⟩ | hs | ⟨-, hm⟩⟩ | ⟨e, d, -, -, -, hz, -⟩
  · have hbyte : (endOfBlockResult : DWord).toNat = v.toNat % 2 ^ 64 := by rw [hv, BitVec.toNat_setWidth]
    have hend : (endOfBlockResult : DWord).toNat = 2 ^ 64 - 2 := by decide
    have hlt := v.isLt
    omega
  · exact absurd hs (by decide)
  · exact hm
  · exact absurd hz (by decide)

/-- What a READ_INTO that stored the bytes `vs` answers in the mode `m`. -/
def IntoAnswer (m : Mode) (vs : List Byte) (t : State) : Prop :=
  (vs = [] ∧ t.status = statusOk ∧ (t.result = endOfStreamResult ∨ (t.result = endOfBlockResult ∧ m = .byblock))) ∨
    (t.result = BitVec.ofNat 64 vs.length ∧ ((t.status = statusOk ∧ 0 < vs.length) ∨ t.status ≠ statusOk))

/-- The answer of a READ_INTO that the next READ_BYTE tells: by `readByteAnswers`. -/
theorem EarlyEnd.answer {u t w : State} {vs : List Byte} (hu : Ready u) (hw : exec .readByte u = .next w)
    (h : EarlyEnd vs.length t w) : IntoAnswer u.mode vs t := by
  obtain ⟨w', hw', -, -, -, hans⟩ := readByteAnswers u hu
  rw [hw] at hw'
  cases hw'
  rcases h with ⟨hs, hr, h0, ht⟩ | ⟨-, -, h0, hs, hr, -⟩ | ⟨hs, ht⟩
  · refine .inl ⟨List.length_eq_zero_iff.mp h0, ?_⟩
    rw [ht]
    exact ⟨hs, hr.imp_right fun hb => ⟨hb, ByteAnswer.byblock hans hb⟩⟩
  · exact .inr ⟨hr, .inl ⟨hs, Nat.pos_of_ne_zero h0⟩⟩
  · rw [ht]
    exact .inr ⟨rfl, .inr hs⟩

/-- A READ_INTO of a ready block stores some bytes and answers. -/
theorem Ready.readInto {s : State} (h : Ready s) (hr : readIntoCheck s = none) (hl : 0 < lenOperand s) :
    ∃ (t : State) (vs : List Byte), exec .readInto s = .next t ∧ vs.length ≤ (lenOperand s).toNat ∧
      t.out = storeAll (offOperand s).toNat vs s.out ∧ IntoAnswer s.mode vs t := by
  obtain ⟨t, ht, u, vs, hvs, hle, hout, hend⟩ := h.bulk hr hl
  obtain ⟨hu, hmode⟩ := byteReads_ready h hvs
  simp only [Nat.zero_add, Nat.add_zero] at hle hout hend
  refine ⟨t, vs, ht, hle, hout, ?_⟩
  rcases hend with ⟨hlen, hfull⟩ | ⟨-, w, hw, -, hearly⟩
  · rw [hfull]
    exact .inr ⟨rfl, .inl ⟨rfl, by omega⟩⟩
  · exact hmode ▸ hearly.answer hu hw

/-- What `RESULT` counts are the bytes stored. -/
theorem IntoAnswer.storedCount {m : Mode} {vs : List Byte} {t : State} (h : IntoAnswer m vs t) (hn : vs.length < 2 ^ 31) :
    storedCount t = vs.length := by
  rcases h with ⟨rfl, -, hr⟩ | ⟨hr, -⟩
  · exact if_pos (hr.imp_right And.left)
  · exact (storedCount_of_count hn hr).1

/-- Settles O25: READ_INTO is READ_BYTEs (`Ready.readInto`), whose bytes it stores in order (`memRead_storeAll`). -/
theorem readIntoStores : Obligations.ReadIntoStores := by
  intro s h hr hl
  obtain ⟨t, vs, ht, hle, hout, hans⟩ := h.readInto hr hl
  obtain ⟨t', ht', ha⟩ := h.read_answered (.inr rfl)
  rw [ht] at ht'
  cases ht'
  obtain ⟨hi, -, -, he⟩ := h
  have hoff : 0 ≤ offOperand s := (readIntoCheck_none hr).1
  have hlen : lenOperand s < 2 ^ 31 := BitVec.toInt_lt
  have hn : vs.length < 2 ^ 31 := by omega
  have hcount := hans.storedCount hn
  refine ⟨t, ht, ha.idle (.inr he), by omega, fun a hfar => ?_, ?_, fun hb => ?_, portKept_of_kept ha.kept⟩
  · rw [hout]
    exact memRead_storeAll hi.2.1.1 vs _ a (by omega)
  · rw [hcount]
    rcases hans with ⟨-, hs, hsent⟩ | ⟨hres, hstat⟩
    · exact .inl ⟨hs, .inl (hsent.imp_right And.left)⟩
    · exact hstat.imp (fun ⟨hs, hpos⟩ => ⟨hs, .inr hpos⟩) fun hs => ⟨hs, hres⟩
  · rcases hans with ⟨-, -, hs | ⟨-, hm⟩⟩ | ⟨hres, -⟩
    · exact absurd (hs.symm.trans hb) (by decide)
    · exact hm
    · exact absurd hb (storedCount_of_count hn hres).2

end Sys2Proof.Machine


/-! ## Raising an error

R273 to R275: what an error writes, in every state and for every error. -/

namespace Sys2Proof.Machine

/-- R275: the errors that leave a closed block as it is. -/
theorem recordError_refused {e : ErrKind} {d : Nat} {s : State}
    (h : s.closed = true ∧ e = .invalidArgument ∧ (d = 1 ∨ d = 4)) : recordError e d s = s :=
  if_pos (by simpa [and_assoc] using h)

/-- R275: every other error ends the stream, and the first one is kept. -/
theorem recordError_recorded {e : ErrKind} {d : Nat} {s : State}
    (h : ¬ (s.closed = true ∧ e = .invalidArgument ∧ (d = 1 ∨ d = 4))) : recordError e d s = { s with
      state := .eof
      err := if s.err = 0 then BitVec.ofNat 4 (errCode e) else s.err
      errDetail := if s.err = 0 then BitVec.ofNat 8 d else s.errDetail } :=
  if_neg (by simpa [and_assoc] using h)

/-- Settles O31: the response has `failedResult`, which is 0 but in a READ_INTO; the rest is `recordError`, by whether the error is
refused on a closed block. -/
theorem raisedError : Obligations.RaisedError := by
  intro e d s t ht
  have hresponse : t = { s with status := statusWord e d, result := failedResult s, ctl := .idle } := by
    rw [ht, failedResult]
    cases s.ctl with
    | idle => rfl
    | busy job ph => cases job <;> rfl
  rw [hresponse, raiseError]
  refine ⟨fun hrefused => ?_, fun hrecorded => ?_⟩
  · rw [recordError_refused hrefused]
  · rw [recordError_recorded hrecorded]

end Sys2Proof.Machine

/-! ## A command while another runs

R305, U4: every host command, well formed or not, asks first that no command is in progress. -/

namespace Sys2Proof.Machine

theorem whenIdle_busy {s : State} {job : Job} {ph : Phase} (h : s.ctl = .busy job ph) (k : State → Outcome) :
    whenIdle s k = .fault .commandWhileBusy := by
  rw [whenIdle, h]

/-- An instruction with a command word is a host command, and each of them is guarded. (`exec_decodeCmd_whenIdle` says it of the
decoded words only, so not of a `.reserved w` with a listed `w`.) -/
theorem exec_command_whenIdle {i : Instr} (h : (encodeCmd i).isSome = true) : ∃ k, ∀ s : State, exec i s = whenIdle s k := by
  cases i with
  | initContinuous | initByblock | readByte | readInto | getReported | adjustReported | close | reserved w =>
    exact ⟨_, fun _ => rfl⟩
  | _ => nomatch h

/-- Settles O21: the guard of the command finds the block busy. -/
theorem commandWhileBusy : Obligations.CommandWhileBusy := by
  intro s job ph i hbusy hcommand
  obtain ⟨k, hguard⟩ := exec_command_whenIdle hcommand
  rw [hguard]
  exact whenIdle_busy hbusy k

end Sys2Proof.Machine
